-- ==== Sys2Proof/Word.lean ====
section
/-! DEFINITION. Word.lean: the word types of the block. A byte of a source or of OUT has 8 bits, a
host-visible register has 32 (10_state.md R14). -/
namespace Sys2Proof

/-- One byte of a byte source or of the OUT buffer (20_memory.md R28). -/
abbrev Byte := BitVec 8

/-- One host-visible register, and one command word (10_state.md R14, 30_encoding.md R49). -/
abbrev Word := BitVec 32

end Sys2Proof
end

