-- ==== Sys2Proof/Syntax.lean ====
section
/-! DEFINITION. Syntax.lean: the eight commands of 30_encoding.md R50, one constructor per row of the
opcode table, with the operand fields of R51. -/
namespace Sys2Proof

/-- A command of the block (30_encoding.md R50). -/
inductive Instr where
  /-- `BR.BIND` (40_bitreader.md R81). -/
  | brBind
  /-- `BR.READBITS n`, `n = ARG[5:0]` (40_bitreader.md R82). -/
  | brReadbits (n : BitVec 6)
  /-- `BR.GETPOS` (40_bitreader.md R83). -/
  | brGetpos
  /-- `IT.DECODE`, `IS215 = ARG[0]`, `IS16 = ARG[1]` (41_it_decompress.md R84). -/
  | itDecode (is215 is16 : Bool)
  /-- `MMCMP.PROBE` (42_mmcmp.md R104). -/
  | mmcmpProbe
  /-- `MMCMP.UNPACK`, `VERIFY = ARG[0]` (42_mmcmp.md R106). -/
  | mmcmpUnpack (verify : Bool)
  /-- `PP20.PROBE` (43_pp20.md R119). -/
  | pp20Probe
  /-- `PP20.UNPACK`, `VERIFY = ARG[0]` (43_pp20.md R121). -/
  | pp20Unpack (verify : Bool)
  deriving DecidableEq, Repr

end Sys2Proof
end

