-- ==== Sys2Proof/WellFormed.lean ====
section
/-! DEFINITION. WellFormed.lean: when the operands of a command are legal (30_encoding.md R51). The fixed
widths of the fields are carried by the types of Syntax.lean; the one further check is the range of the bit
count. -/
namespace Sys2Proof

/-- R51: "`n = ARG[5:0]` is the bit count of `BR.READBITS`, legal 0 to 32"; every other operand value is
legal. -/
def Instr.wellFormed : Instr → Bool
  | .brBind => true
  | .brReadbits n => decide (n.toNat ≤ 32)
  | .brGetpos => true
  | .itDecode _ _ => true
  | .mmcmpProbe => true
  | .mmcmpUnpack _ => true
  | .pp20Probe => true
  | .pp20Unpack _ => true

end Sys2Proof
end

