-- ==== Sys2Proof/Decode.lean ====
section
/-! DEFINITION. Decode.lean: the decoder of command words, total on all 2^32 words and rejecting by name
(30_encoding.md R49 to R52), and the encoder written from the same table (R50). -/
namespace Sys2Proof

/-- Why a word is reserved (30_encoding.md R52). The step refuses such a word, whichever the reason. -/
inductive DecodeReject where
  /-- `UNIT` 4 to 15. -/
  | unassignedUnit (unit : BitVec 4)
  /-- An `OP` its unit does not assign. -/
  | unassignedOp (unit op : BitVec 4)
  /-- A set bit in an `ARG` bit that the command requires to be 0. -/
  | reservedArg (arg : BitVec 24)
  deriving DecidableEq, Repr

/-- `UNIT = w[31:28]` (R49). -/
def wordUnit (w : Word) : BitVec 4 := w.extractLsb' 28 4

/-- `OP = w[27:24]` (R49). -/
def wordOp (w : Word) : BitVec 4 := w.extractLsb' 24 4

/-- `ARG = w[23:0]` (R49). -/
def wordArg (w : Word) : BitVec 24 := w.extractLsb' 0 24

/-- A command whose `ARG` bits from `lo` up are required to be 0 (R50). -/
def argBelow (lo : Nat) (arg : BitVec 24) (i : Instr) : Except DecodeReject Instr :=
  if arg >>> lo = 0#24 then .ok i else .error (.reservedArg arg)

/-- The decoder of R50: the command of a word, or why the word is reserved (R52). -/
def decode (w : Word) : Except DecodeReject Instr :=
  let arg := wordArg w
  match (wordUnit w).toNat, (wordOp w).toNat with
  | 0, 0 => argBelow 0 arg .brBind
  | 0, 1 => argBelow 6 arg (.brReadbits (arg.extractLsb' 0 6))
  | 0, 2 => argBelow 0 arg .brGetpos
  | 1, 0 => argBelow 2 arg (.itDecode (arg.getLsbD 0) (arg.getLsbD 1))
  | 2, 0 => argBelow 0 arg .mmcmpProbe
  | 2, 1 => argBelow 1 arg (.mmcmpUnpack (arg.getLsbD 0))
  | 3, 0 => argBelow 0 arg .pp20Probe
  | 3, 1 => argBelow 1 arg (.pp20Unpack (arg.getLsbD 0))
  | 0, _ => .error (.unassignedOp (wordUnit w) (wordOp w))
  | 1, _ => .error (.unassignedOp (wordUnit w) (wordOp w))
  | 2, _ => .error (.unassignedOp (wordUnit w) (wordOp w))
  | 3, _ => .error (.unassignedOp (wordUnit w) (wordOp w))
  | _, _ => .error (.unassignedUnit (wordUnit w))

/-- The three fields of a word put together (R49). -/
def packWord (unit op : BitVec 4) (arg : BitVec 24) : Word := unit ++ op ++ arg

/-- One operand bit at its place in `ARG` (R50). -/
def argBit (b : Bool) (at_ : Nat) : BitVec 24 := (BitVec.ofBool b).setWidth 24 <<< at_

/-- The encoder of R50. -/
def encode : Instr → Word
  | .brBind => packWord 0 0 0
  | .brReadbits n => packWord 0 1 (n.setWidth 24)
  | .brGetpos => packWord 0 2 0
  | .itDecode is215 is16 => packWord 1 0 (argBit is215 0 ||| argBit is16 1)
  | .mmcmpProbe => packWord 2 0 0
  | .mmcmpUnpack verify => packWord 2 1 (argBit verify 0)
  | .pp20Probe => packWord 3 0 0
  | .pp20Unpack verify => packWord 3 1 (argBit verify 0)

/-- The host's question: the command the decoder reads from a word of `nbits` bits. Every command is one
32-bit word (R49), so the bits from `nbits` up are 0. -/
def decodeTableWord (nbits w : Nat) : Option Instr :=
  match decode (BitVec.ofNat 32 (w % 2 ^ nbits)) with
  | .ok i => some i
  | .error _ => none

end Sys2Proof
end

