-- ==== Sys2Proof/Config.lean ====
section
/-! DEFINITION. Config.lean: the implementation parameters of 00_scope.md R6 and the values the spec
leaves free. The parameters are a record of plain data that a state carries and no step writes ("a named
argument of the model"), so that a claim about every state is a claim about every value of them. -/
namespace Sys2Proof

/-- `IT_MEM_RESET` (R6, conflict C4, decision D10). -/
inductive MemReset where
  | perChannel
  | perBlock
  deriving DecidableEq, Repr

/-- `IT_ABORT_SCOPE` (R6, conflict C7, decision D9). -/
inductive AbortScope where
  | channel
  | block
  deriving DecidableEq, Repr

/-- `PP20_UNDERRUN` (R6, decision D26). -/
inductive Underrun where
  | fail
  | repeatLowest
  deriving DecidableEq, Repr

/-- The parameters of 00_scope.md R6 that are not constants. -/
structure Params where
  /-- `BUF_BYTES - 1`, so that every value meets the limit `BUF_BYTES >= 1` (decision D5). -/
  bufBytesPred : Nat
  /-- `IT_MEM_RESET`. -/
  itMemReset : MemReset
  /-- `IT_ABORT_SCOPE`. -/
  itAbortScope : AbortScope
  /-- `MMCMP_MAX_FILESIZE` (decision D18). -/
  mmcmpMaxFilesize : Nat
  /-- `MMCMP_MAX_RATIO`: `none`, or the ratio minus 1, so that a ratio is positive (decision D19). -/
  mmcmpMaxRatioPred : Option Nat
  /-- `PP20_MAX_RATIO`, held in the same way (decision D19). -/
  pp20MaxRatioPred : Option Nat
  /-- `PP20_UNDERRUN`. -/
  pp20Underrun : Underrun
  /-- `PP20_REQUIRE_EVEN_LENGTH` (decision D27). -/
  pp20RequireEven : Bool
  deriving DecidableEq, Repr

/-- `BUF_BYTES`, an integer of at least 1 (R6). -/
def Params.bufBytes (p : Params) : Nat := p.bufBytesPred + 1

/-- `MMCMP_MAX_RATIO`, a positive integer or none (R6). -/
def Params.mmcmpMaxRatio (p : Params) : Option Nat := p.mmcmpMaxRatioPred.map (· + 1)

/-- `PP20_MAX_RATIO`, a positive integer or none (R6). -/
def Params.pp20MaxRatio (p : Params) : Option Nat := p.pp20MaxRatioPred.map (· + 1)

/-- `PP20_REQUIRE_EVEN_LENGTH` is OPEN with no default and no suggested value (D27): at reset it is this
constant without a value. DESIGN CHOICE (assumption log 3): safe. -/
opaque Config.pp20RequireEvenLength : Bool

/-- The parameters a run from reset has: the defaults of 95_test_vectors.md and 00_scope.md R6;
`MMCMP_MAX_FILESIZE` at the value D18 suggests. DESIGN CHOICE (assumption log 3): unsafe for a claim about the
run from reset alone. -/
def Config.defaults : Params where
  bufBytesPred := 0
  itMemReset := .perChannel
  itAbortScope := .channel
  mmcmpMaxFilesize := 0x80000000
  mmcmpMaxRatioPred := none
  pp20MaxRatioPred := none
  pp20Underrun := .fail
  pp20RequireEven := Config.pp20RequireEvenLength

end Sys2Proof
end

