-- ==== Sys2Proof/Machine/State.lean ====
section
/-! DEFINITION. Machine/State.lean: every piece of state the spec gives the block (10_state.md), as plain
data, and the state right after reset (70_reset_and_hazards.md R142).

A register that only ever receives loaded bits is a bit vector of its width. A register that receives the
result of a count (a size, an index, a position) is a Nat whose docstring gives its width: R9 calls a write
of a wider value a spec error and never a truncation, and Safety.lean's `UnitWidths` states the widths. -/
namespace Sys2Proof.Machine

/-! ## Byte sources and memories -/

/-- A byte source (20_memory.md R29): its bytes, which never change, and its cursor. -/
structure ByteSource where
  bytes : List Byte
  pos : Nat
  deriving DecidableEq, Repr

/-- A memory in canonical form: cells of `w` bits with strictly rising addresses, no cell zero. An unlisted
address reads as zero. At `w = 8` it is a list of `Host.Cell`. -/
abbrev Memory (w : Nat) := List (Nat × BitVec w)

/-- The container output buffer (20_memory.md R38): its size in bytes and its cells. It is zero-filled when
it is allocated, which is what an unlisted address inside the size reads as. -/
structure OutBuf where
  size : Nat
  cells : Memory 8
  deriving DecidableEq, Repr

/-- The sample buffer the host attached (20_memory.md R36): its number of elements and its cells. An element
is held in 16 bits; an 8-bit element has its upper byte zero (assumption log 7). -/
structure Smp where
  len : Nat
  cells : Memory 16
  deriving DecidableEq, Repr

/-! ## BitReader instances -/

/-- The fields of a BitReader instance (10_state.md R18) but for the source it reads. -/
structure Reader where
  /-- `ACC`, `ACC_BITS` = 40 bits. -/
  acc : BitVec 40
  /-- `NBITS`, 6 bits. -/
  nbits : Nat
  /-- `STAGE[0 .. BUF_BYTES - 1]`. -/
  stage : List Byte
  /-- `BUFSIZE`, 0 to `BUF_BYTES`. -/
  bufSize : Nat
  /-- `BUFPOS`, 0 to `BUF_BYTES`. -/
  bufPos : Nat
  deriving DecidableEq, Repr

/-- A private instance (the ITD's and the MMU's, R18): it owns the chunk it reads; `none` is unbound. -/
structure PrivateReader where
  src : Option ByteSource
  rd : Reader
  deriving DecidableEq, Repr

/-- `BR_SRC`, the BR unit's reference to a byte source (R18, R19, 70_reset_and_hazards.md R148). -/
inductive BrSource where
  /-- No `BR.BIND` since reset: `BR_BOUND = 0`. -/
  | unbound
  /-- The source now presented on `SRC`, whose cursor the unit shares. -/
  | presented
  /-- A source presented earlier, with the cursor it has now. -/
  | detached (src : ByteSource)
  deriving DecidableEq, Repr

/-! ## Unit registers -/

/-- `STATUS.CODE` (10_state.md R15, 60_exceptions.md R129): 5 to 15 are never written. -/
inductive Code where
  | ok
  | eod
  | refused
  | failure
  | resource
  deriving DecidableEq, Repr

/-- `IT_ST` (10_state.md R21). -/
inductive ItPhase where
  | idle
  | chan
  | hdr
  | sym
  | done
  deriving DecidableEq, Repr

/-- The ITD's registers (10_state.md R21). -/
structure Itd where
  /-- `IT_IS215`. -/
  is215 : Bool
  /-- `IT_IS16`. -/
  is16 : Bool
  /-- `IT_C`, the latched channel count. -/
  c : BitVec 8
  /-- `IT_L`, the latched samples per channel. -/
  l : BitVec 32
  /-- `IT_CHN`, 8 bits. -/
  chn : Nat
  /-- `IT_WRITTEN`, 32 bits. -/
  written : Nat
  /-- `IT_WRITEPOS`, 40 bits. -/
  writePos : Nat
  /-- `IT_CURLEN`, 16 bits. -/
  curLen : Nat
  /-- `IT_BLKSIZE`. -/
  blkSize : BitVec 16
  /-- `IT_WIDTH`, 17 bits. -/
  width : Nat
  /-- `IT_MEM1`, `W` bits, zero-extended. -/
  mem1 : BitVec 16
  /-- `IT_MEM2`, `W` bits, zero-extended. -/
  mem2 : BitVec 16
  /-- `IT_CHAN_OVER`. -/
  chanOver : Bool
  /-- `IT_BR`. -/
  br : PrivateReader
  /-- `IT_ST`. -/
  st : ItPhase
  deriving DecidableEq, Repr

/-- One entry `MM_SUB[i]` (10_state.md R23). -/
structure SubBlock where
  pos : BitVec 32
  size : BitVec 32
  deriving DecidableEq, Repr

/-- The MMU's registers (10_state.md R23). -/
structure Mmu where
  /-- `MM_VERSION`. -/
  version : BitVec 16
  /-- `MM_NBLOCKS`. -/
  nblocks : BitVec 16
  /-- `MM_FILESIZE`. -/
  filesize : BitVec 32
  /-- `MM_BLKTABLE`. -/
  blkTable : BitVec 32
  /-- `MM_GLB_COMP`. -/
  glbComp : BitVec 8
  /-- `MM_FMT_COMP`. -/
  fmtComp : BitVec 8
  /-- `MM_BLK`, 16 bits. -/
  blk : Nat
  /-- `MM_UNPK_SIZE`. -/
  unpkSize : BitVec 32
  /-- `MM_PK_SIZE`. -/
  pkSize : BitVec 32
  /-- `MM_XOR_CHK`. -/
  xorChk : BitVec 32
  /-- `MM_SUB_BLK`. -/
  subBlk : BitVec 16
  /-- `MM_FLAGS`. -/
  flags : BitVec 16
  /-- `MM_TT_ENTRIES`. -/
  ttEntries : BitVec 16
  /-- `MM_NUM_BITS`, the block header's initial code width index. -/
  numBits : BitVec 16
  /-- `MM_SUB`, the sub-block table. -/
  sub : List SubBlock
  /-- `MM_MEMPOS`, 33 bits. -/
  memPos : Nat
  /-- `MM_TABLE[0 .. 255]`. -/
  table : List Byte
  /-- `MM_NUMBITS`, the current code width index, 4 bits. -/
  codeWidth : Nat
  /-- `MM_OLDVAL`. -/
  oldVal : BitVec 32
  /-- `MM_SUBIDX`, 16 bits. -/
  subIdx : Nat
  /-- `MM_DWPOS`, 32 bits. -/
  dwPos : Nat
  /-- `MM_BR`. -/
  br : PrivateReader
  deriving DecidableEq, Repr

/-- The PPU's registers (10_state.md R24). -/
structure Ppu where
  /-- `PP_MODE[0]`. -/
  mode0 : Byte
  /-- `PP_MODE[1]`. -/
  mode1 : Byte
  /-- `PP_MODE[2]`. -/
  mode2 : Byte
  /-- `PP_MODE[3]`. -/
  mode3 : Byte
  /-- `PP_DSTLEN`. -/
  dstLen : BitVec 24
  /-- `PP_LEFT`, 24 bits. -/
  left : Nat
  /-- `PP_P`, 32 bits. -/
  p : Nat
  /-- `PP_LO`, 32 bits. -/
  lo : Nat
  /-- `PP_BYTE`. -/
  byte : Byte
  /-- `PP_BITCNT`, 4 bits. -/
  bitCnt : Nat
  deriving DecidableEq, Repr

/-! ## The host's side -/

/-- What the host does between commands (30_encoding.md R53, 10_state.md R14, 70_reset_and_hazards.md R142,
20_memory.md R32). A command is a write to `CMD`. -/
inductive HostAction where
  /-- `wr`: write the register at this offset; a write of `CMD` (offset 0) executes. -/
  | write (offset : Nat) (value : Word)
  /-- `rd`: read the register at this offset. -/
  | read (offset : Nat)
  /-- `present`: a new byte source with cursor 0 on `SRC`. -/
  | present (bytes : List Byte)
  /-- `seek`: move the presented source's cursor with `SrcSeek`. -/
  | seek (p : Nat)
  /-- `SrcSkipBack` on the presented source (R32; not in R53's list). -/
  | skipBack (n : Nat)
  /-- `attach`: present the `SMP` buffer with these elements. -/
  | attach (elems : List (BitVec 16))
  /-- The reset input (R142). -/
  | reset
  deriving DecidableEq, Repr

/-! ## The state -/

/-- The whole state of the block and of the ports and inputs its host owns. -/
structure State where
  /-- `CMD`: the last word written to it (R14). -/
  cmd : Word
  /-- `STATUS.CODE` (R15). -/
  code : Code
  /-- `STATUS.OUT_VALID` (R15). -/
  outValid : Bool
  /-- `RESULT` (R16). -/
  result : Word
  /-- `IT_CHANNELS.C` (R14); bits 31:8 have no storage. -/
  itChannels : BitVec 8
  /-- `IT_LENGTH` (R14). -/
  itLength : Word
  /-- The source presented on `SRC` (R17, R29). -/
  src : ByteSource
  /-- The buffer attached on `SMP` (R17, R36). -/
  smp : Smp
  /-- The buffer on `OUT`, if there is one (R17, R38). -/
  out : Option OutBuf
  /-- `OUT_LEN` (R17). -/
  outLen : Nat
  /-- `BR_SRC` and with it `BR_BOUND` (R18, R19). -/
  brSrc : BrSource
  /-- `BR_ACC`, `BR_NBITS`, `BR_STAGE`, `BR_BUFSIZE`, `BR_BUFPOS` (R18). -/
  br : Reader
  /-- The ITD's registers (R21). -/
  itd : Itd
  /-- The MMU's registers (R23). -/
  mmu : Mmu
  /-- The PPU's registers (R24). -/
  ppu : Ppu
  /-- The parameters of R6. No step writes them (assumption log 3). -/
  params : Params
  /-- The answers of the oracle `ALLOC` to come, oldest first (20_memory.md R39); past the end it succeeds
  (assumption log 4). -/
  allocAnswers : List Bool
  /-- The host's next actions, oldest first (assumption log 1). -/
  script : List HostAction
  /-- What the host's last read, seek or skip-back answered (assumption log 6). -/
  hostData : Word
  deriving DecidableEq, Repr

/-- Why the machine stops. -/
inductive Fault where
  /-- `IT.DECODE` writes an `SMP` element beyond the attached buffer: a launch premise (41_it_decompress.md
  R85, 93_implementation_defined.md U17) is broken and the spec claims nothing. Raised by `itWrite`. Safe. -/
  | smpOutOfRange
  /-- A write outside `OUT`. 42_mmcmp.md R115 says no rule does so; raised by `outWrite`, never reached by a
  command (a statement of this package). Safe. -/
  | outOutOfRange
  /-- A loop outlives the bound of 41_it_decompress.md R101, 42_mmcmp.md R117 or 43_pp20.md R128. Raised by
  the loops of the units, never reached (statements of this package). Safe. -/
  | budgetExhausted
  /-- The host presents more than `2^32 - 1` bytes, against the premise of decision D3. Raised by
  `hostPresent`. Safe. -/
  | sourceTooLong
  deriving DecidableEq, Repr

/-- Why an instruction has no meaning in the model. -/
inductive Refusal where
  /-- The command is not modelled yet. Raised by `exec`'s refused arms only; no arm is refused. Safe. -/
  | notModelled (mnemonic : String)
  deriving DecidableEq, Repr

/-! ## Reset -/

/-- An instance's fields at reset, and those of a fresh instance (R18): empty, `STAGE` all zero. -/
def Reader.empty (bufBytes : Nat) : Reader where
  acc := 0
  nbits := 0
  stage := List.replicate bufBytes 0
  bufSize := 0
  bufPos := 0

/-- An unbound private instance (R21, R23). -/
def PrivateReader.unbound (bufBytes : Nat) : PrivateReader where
  src := none
  rd := Reader.empty bufBytes

/-- The ITD at reset (R21). -/
def Itd.reset (bufBytes : Nat) : Itd where
  is215 := false
  is16 := false
  c := 0
  l := 0
  chn := 0
  written := 0
  writePos := 0
  curLen := 0
  blkSize := 0
  width := 0
  mem1 := 0
  mem2 := 0
  chanOver := false
  br := PrivateReader.unbound bufBytes
  st := .idle

/-- The MMU at reset (R23). -/
def Mmu.reset (bufBytes : Nat) : Mmu where
  version := 0
  nblocks := 0
  filesize := 0
  blkTable := 0
  glbComp := 0
  fmtComp := 0
  blk := 0
  unpkSize := 0
  pkSize := 0
  xorChk := 0
  subBlk := 0
  flags := 0
  ttEntries := 0
  numBits := 0
  sub := []
  memPos := 0
  table := List.replicate 256 0
  codeWidth := 0
  oldVal := 0
  subIdx := 0
  dwPos := 0
  br := PrivateReader.unbound bufBytes

/-- The PPU at reset (R24). -/
def Ppu.reset : Ppu where
  mode0 := 0
  mode1 := 0
  mode2 := 0
  mode3 := 0
  dstLen := 0
  left := 0
  p := 0
  lo := 0
  byte := 0
  bitCnt := 0

/-- The block right after reset (70_reset_and_hazards.md R142, the reset column of 10_state.md): `IT_CHANNELS`
1, everything else 0 or unbound, no output buffer. The host's ports are empty (assumption log 2), the host has
nothing waiting (log 1), the parameters are the spec's defaults (log 3). -/
def State.reset : State where
  cmd := 0
  code := .ok
  outValid := false
  result := 0
  itChannels := 1
  itLength := 0
  src := ⟨[], 0⟩
  smp := ⟨0, []⟩
  out := none
  outLen := 0
  brSrc := .unbound
  br := Reader.empty Config.defaults.bufBytes
  itd := Itd.reset Config.defaults.bufBytes
  mmu := Mmu.reset Config.defaults.bufBytes
  ppu := Ppu.reset
  params := Config.defaults
  allocAnswers := []
  script := []
  hostData := 0

end Sys2Proof.Machine
end

