-- ==== Sys2Proof/Machine/Ops.lean ====
section
/-! DEFINITION. Machine/Ops.lean: the named operations over memories, byte sources, the output buffer and the
registers, and the ways a command ends (60_exceptions.md). The block has no trap (R136): `complete`,
`endOfData`, `refuse` and `failUnpack` are its whole outcome mechanism, and nothing is returned from (R137). -/
namespace Sys2Proof.Machine

/-! ## Memories -/

/-- What the address reads as. -/
def Memory.read {w : Nat} : Memory w → Nat → BitVec w
  | [], _ => 0#w
  | (b, x) :: t, a => if a = b then x else Memory.read t a

/-- Store `v` at `a`, keeping the canonical form: addresses rising, no zero listed. -/
def Memory.write {w : Nat} : Memory w → Nat → BitVec w → Memory w
  | [], a, v => if v = 0#w then [] else [(a, v)]
  | (b, x) :: t, a, v =>
    if a < b then (if v = 0#w then (b, x) :: t else (a, v) :: (b, x) :: t)
    else if a = b then (if v = 0#w then t else (a, v) :: t)
    else (b, x) :: Memory.write t a v

/-- The canonical form with every address at least `lo`. -/
def Memory.wfFrom {w : Nat} (lo : Nat) : Memory w → Bool
  | [] => true
  | (a, v) :: t => decide (lo ≤ a) && decide (v ≠ 0#w) && Memory.wfFrom (a + 1) t

/-- The canonical form: addresses strictly rising, no entry equal to what an unlisted address reads as. -/
def Memory.wf {w : Nat} (m : Memory w) : Bool := Memory.wfFrom 0 m

/-- Every listed address is below `n`. -/
def Memory.below {w : Nat} (n : Nat) : Memory w → Bool
  | [] => true
  | (a, _) :: t => decide (a < n) && Memory.below n t

/-- The memory holding the list's elements from address `k` on. -/
def Memory.ofList {w : Nat} : Nat → List (BitVec w) → Memory w
  | _, [] => []
  | k, v :: t => if v = 0#w then Memory.ofList (k + 1) t else (k, v) :: Memory.ofList (k + 1) t

/-! ## Byte sources (20_memory.md R29 to R34) -/

/-- `SrcLen(S)` (R31). -/
def srcLen (s : ByteSource) : Nat := s.bytes.length

/-- `SrcPos(S)` (R31). -/
def srcPos (s : ByteSource) : Nat := s.pos

/-- `SrcCanRead(S, n)` (R31). -/
def srcCanRead (s : ByteSource) (n : Nat) : Bool := decide (n ≤ srcLen s - s.pos)

/-- `SrcRead(S, n)` (R30): up to `n` bytes from the cursor, and the source with the cursor moved past them. -/
def srcRead (s : ByteSource) (n : Nat) : List Byte × ByteSource :=
  let chunk := (s.bytes.drop s.pos).take n
  (chunk, { s with pos := s.pos + chunk.length })

/-- `SrcSeek(S, p)` (R32): the answer and the source. -/
def srcSeek (s : ByteSource) (p : Nat) : Bool × ByteSource :=
  if p ≤ srcLen s then (true, { s with pos := p }) else (false, s)

/-- `SrcSkipBack(S, n)` (R32): the answer and the source. -/
def srcSkipBack (s : ByteSource) (n : Nat) : Bool × ByteSource :=
  if n ≤ s.pos then (true, { s with pos := s.pos - n }) else (false, s)

/-- `SrcChunk(S, n)` (R33): the new source of the next `n` bytes (fewer at the end), and `S` moved past them. -/
def srcChunk (s : ByteSource) (n : Nat) : ByteSource × ByteSource :=
  let r := srcRead s n
  (⟨r.1, 0⟩, r.2)

/-- `MemRead(S, a, n)` (R34): the bytes at offset `a`; its callers check `a + n <= SrcLen(S)` first. -/
def memRead (bytes : List Byte) (a n : Nat) : List Byte := (bytes.drop a).take n

/-- `MemRead(S, a, 1)`. -/
def byteAt (bytes : List Byte) (a : Nat) : Byte := bytes.getD a 0

/-! ## Byte order (00_scope.md R10, 20_memory.md R41) -/

/-- `LE16(b0, b1)`. -/
def le16 (b0 b1 : Byte) : BitVec 16 := b1 ++ b0

/-- `LE32(b0, b1, b2, b3)`. -/
def le32 (b0 b1 b2 b3 : Byte) : BitVec 32 := b3 ++ b2 ++ b1 ++ b0

/-- `BE24(b0, b1, b2)`. -/
def be24 (b0 b1 b2 : Byte) : BitVec 24 := b0 ++ b1 ++ b2

/-- `LE16` of the two bytes at offset `a`. -/
def le16At (bytes : List Byte) (a : Nat) : BitVec 16 := le16 (byteAt bytes a) (byteAt bytes (a + 1))

/-- `LE32` of the four bytes at offset `a`. -/
def le32At (bytes : List Byte) (a : Nat) : BitVec 32 :=
  le32 (byteAt bytes a) (byteAt bytes (a + 1)) (byteAt bytes (a + 2)) (byteAt bytes (a + 3))

/-- `BE24` of the three bytes at offset `a`. -/
def be24At (bytes : List Byte) (a : Nat) : BitVec 24 :=
  be24 (byteAt bytes a) (byteAt bytes (a + 1)) (byteAt bytes (a + 2))

/-! ## Integers (00_scope.md R8) -/

/-- `sext_n(v)`. -/
def sextNat (n v : Nat) : Int := if v.testBit (n - 1) then ((v % 2 ^ n : Nat) : Int) - 2 ^ n else ((v % 2 ^ n : Nat) : Int)

/-- `a +_W d` for a `W`-bit register held in 16 bits and an integer `d`. -/
def addMod (W : Nat) (a : BitVec 16) (d : Int) : BitVec 16 :=
  BitVec.ofNat 16 (((a.toNat : Int) + d) % ((2 ^ W : Nat) : Int)).toNat

/-! ## The output buffer and the sample buffer -/

/-- A fresh `OUT` of `n` zero bytes (20_memory.md R38, 42_mmcmp.md R108). -/
def OutBuf.fresh (n : Nat) : OutBuf := ⟨n, []⟩

/-- `OUT[a]`. -/
def outRead (o : OutBuf) (a : Nat) : Byte := Memory.read o.cells a

/-- `MemWrite(OUT, a, 1, v)` (00_scope.md R10). -/
def outWrite (o : OutBuf) (a : Nat) (v : Byte) : Except Fault OutBuf :=
  if a < o.size then .ok { o with cells := Memory.write o.cells a v } else .error .outOutOfRange

/-- `SMP[i]`. -/
def smpRead (m : Smp) (i : Nat) : BitVec 16 := Memory.read m.cells i

/-- `SmpWrite(i, v)` (20_memory.md R36). -/
def smpWrite (m : Smp) (i : Nat) (v : BitVec 16) : Except Fault Smp :=
  if i < m.len then .ok { m with cells := Memory.write m.cells i v } else .error .smpOutOfRange

/-! ## How the steps inside a command end -/

/-- Why a container unpack stops before its end: `fail(FAILURE)` with the unit as it then is (60_exceptions.md
R132), or a fault of the model. -/
inductive Stop (σ : Type) where
  | fail (s : σ)
  | fault (f : Fault)
  deriving DecidableEq, Repr

/-- Whether a decoding loop goes on or its block has ended. -/
inductive LoopControl where
  | again
  | endBlock
  deriving DecidableEq, Repr

/-! ## How a command ends (60_exceptions.md R129 to R134) -/

/-- `RESULT <- r; STATUS.CODE <- OK`. -/
def complete (r : Word) (s : State) : State := { s with result := r, code := .ok }

/-- `STATUS.CODE <- EOD`, `RESULT` unchanged (R130). -/
def endOfData (s : State) : State := { s with code := .eod }

/-- `refuse`: the only effect is `STATUS.CODE <- REFUSED` (R134). -/
def refuse (s : State) : State := { s with code := .refused }

/-- `fail(reason)` (R132). -/
def failUnpack (reason : Code) (s : State) : State := { s with result := 0, outValid := false, code := reason }

/-- The first step of an unpack: `STATUS.OUT_VALID <- 0`, "the previous buffer is dropped" (42_mmcmp.md R106,
70_reset_and_hazards.md R151; assumption log 8). -/
def dropOut (s : State) : State := { s with outValid := false, out := none, outLen := 0 }

/-- Ask the oracle `ALLOC` once (20_memory.md R39; assumption log 4). -/
def askAlloc (s : State) : Bool × State :=
  match s.allocAnswers with
  | [] => (true, s)
  | a :: rest => (a, { s with allocAnswers := rest })

/-! ## The BR unit's source -/

/-- `BR_BOUND` (10_state.md R19). -/
def State.brBound (s : State) : Bool := decide (s.brSrc ≠ .unbound)

/-- The source `BR_SRC` refers to, with its cursor (70_reset_and_hazards.md R148). -/
def State.brSource (s : State) : Option ByteSource :=
  match s.brSrc with
  | .unbound => none
  | .presented => some s.src
  | .detached src => some src

/-- Put the bound source back with a moved cursor. -/
def State.setBrSource (s : State) (src : ByteSource) : State :=
  match s.brSrc with
  | .unbound => s
  | .presented => { s with src := src }
  | .detached _ => { s with brSrc := .detached src }

/-- The BR unit after a read: its fields and its source. -/
def State.setBr (s : State) (rd : Reader) (src : ByteSource) : State :=
  { s.setBrSource src with br := rd }

end Sys2Proof.Machine
end

