-- ==== Sys2Proof/Machine/BitReader.lean ====
section
/-! DEFINITION. Machine/BitReader.lean: the functions on a BitReader instance (40_bitreader.md R75 to R79) and
the three commands of the BR unit (R81 to R83). -/
namespace Sys2Proof.Machine

/-! ## Functions on an instance -/

/-- The refill of `NextByte` (R75): `none` when the source cannot supply a byte. -/
def refill (bufBytes : Nat) (rd : Reader) (src : ByteSource) : Option (Reader × ByteSource) :=
  match srcRead src bufBytes with
  | ([], _) => none
  | (chunk, src') =>
    some ({ rd with stage := chunk ++ rd.stage.drop chunk.length, bufSize := chunk.length, bufPos := 0 }, src')

/-- The end of `NextByte` (R75): the staged byte at `BUFPOS`. -/
def takeStaged (rd : Reader) : Byte × Reader := (rd.stage.getD rd.bufPos 0, { rd with bufPos := rd.bufPos + 1 })

/-- `NextByte(I)` (R75): `none` is `raise EOD`, which changes nothing. -/
def nextByte (bufBytes : Nat) (rd : Reader) (src : ByteSource) : Option (Byte × Reader × ByteSource) :=
  if rd.bufPos = rd.bufSize then
    match refill bufBytes rd src with
    | none => none
    | some (rd', src') => some ((takeStaged rd').1, (takeStaged rd').2, src')
  else some ((takeStaged rd).1, (takeStaged rd).2, src)

/-- One byte enters the accumulator above the bits held (R76). -/
def absorb (rd : Reader) (b : Byte) : Reader :=
  { rd with acc := rd.acc ||| (b.setWidth 40 <<< rd.nbits), nbits := rd.nbits + 8 }

/-- The loop of `ReadBits(I, n)` (R76), at most `k` bytes: whether `NBITS >= n` was reached, with the instance
and source as they then are. Each byte adds 8 bits, so `k = n` bytes are enough. -/
def fillBits (bufBytes n : Nat) : Nat → Reader → ByteSource → Bool × Reader × ByteSource
  | 0, rd, src => (decide (n ≤ rd.nbits), rd, src)
  | k + 1, rd, src =>
    if n ≤ rd.nbits then (true, rd, src)
    else
      match nextByte bufBytes rd src with
      | none => (false, rd, src)
      | some (b, rd', src') => fillBits bufBytes n k (absorb rd' b) src'

/-- The low `n` bits leave the accumulator (R76). -/
def consume (n : Nat) (rd : Reader) : Nat × Reader :=
  (rd.acc.toNat % 2 ^ n, { rd with acc := rd.acc >>> n, nbits := rd.nbits - n })

/-- `ReadBits(I, n)` (R76): the value, or `none` for `EOD`, after which the absorbed bytes stay (R77). -/
def readBits (bufBytes n : Nat) (rd : Reader) (src : ByteSource) : Option Nat × Reader × ByteSource :=
  match fillBits bufBytes n n rd src with
  | (true, rd', src') => (some (consume n rd').1, (consume n rd').2, src')
  | (false, rd', src') => (none, rd', src')

/-- `ReadBits` on a private instance. An unbound one supplies nothing; no command reads one. -/
def readPrivate (bufBytes n : Nat) (i : PrivateReader) : Option Nat × PrivateReader :=
  match i.src with
  | none => (none, i)
  | some src =>
    let r := readBits bufBytes n i.rd src
    (r.1, ⟨some r.2.2, r.2.1⟩)

/-- A new private instance over a source (41_it_decompress.md R87, 42_mmcmp.md R112). -/
def PrivateReader.over (bufBytes : Nat) (src : ByteSource) : PrivateReader := ⟨some src, Reader.empty bufBytes⟩

/-- `GetPosition(I)` (R79), as an integer. -/
def getPosition (rd : Reader) (src : ByteSource) : Int := (src.pos : Int) - rd.bufSize + rd.bufPos

/-! ## Commands -/

/-- `BR.BIND` (R81). -/
def execBrBind (s : State) : Host.Outcome State Fault Refusal :=
  .next (complete 0 { s with
    brSrc := .presented
    br := { s.br with acc := 0, nbits := 0, bufSize := 0, bufPos := 0 } })

/-- `BR.READBITS n` (R82). -/
def execBrReadbits (n : BitVec 6) (s : State) : Host.Outcome State Fault Refusal :=
  match s.brSource with
  | none => .next (refuse s)
  | some src =>
    if 32 < n.toNat then .next (refuse s)
    else
      match readBits s.params.bufBytes n.toNat s.br src with
      | (some v, rd, src') => .next (complete (BitVec.ofNat 32 v) (s.setBr rd src'))
      | (none, rd, src') => .next (endOfData (s.setBr rd src'))

/-- `BR.GETPOS` (R83): `zext_32` of the position. Of a negative one (the host has moved the bound source's cursor
below the staged bytes) that is its two's complement, as in R114 (assumption log 5). -/
def execBrGetpos (s : State) : Host.Outcome State Fault Refusal :=
  match s.brSource with
  | none => .next (refuse s)
  | some src => .next (complete (BitVec.ofInt 32 (getPosition s.br src)) s)

end Sys2Proof.Machine
end

