-- ==== Sys2Proof/Machine/Operands.lean ====
section
/-! DEFINITION. Machine/Operands.lean: the constants that the operand and data formats select: the IT depth
constants (10_state.md R22), the MMCMP code tables and flag bits (30_encoding.md R67, R68), the PP20 mode table
(30_encoding.md R70). -/
namespace Sys2Proof.Machine

/-! ## IT depth constants (10_state.md R22), selected by `IT_IS16` -/

/-- `W`, the element width in bits. -/
def itW (is16 : Bool) : Nat := if is16 then 16 else 8

/-- `defWidth`. -/
def defWidth (is16 : Bool) : Nat := if is16 then 17 else 9

/-- `fetchA`. -/
def fetchA (is16 : Bool) : Nat := if is16 then 4 else 3

/-- `lowerB` (general knowledge G1; UNVERIFIED, assumption log 9). -/
def lowerB (is16 : Bool) : Int := if is16 then -8 else -4

/-- `upperB` (general knowledge G1; UNVERIFIED, assumption log 9). -/
def upperB (is16 : Bool) : Int := if is16 then 7 else 3

/-- `IT_BLOCK_SAMPLES = 0x8000 / E` (00_scope.md R6, conflict C3). -/
def itBlockSamples (is16 : Bool) : Nat := if is16 then 0x4000 else 0x8000

/-! ## MMCMP flags and tables (general knowledge G6, G7; UNVERIFIED, assumption log 9) -/

/-- `COMP`: the block is packed (30_encoding.md R67). -/
def flagComp (flags : BitVec 16) : Bool := flags.getLsbD 0

/-- `DELTA` (R67). -/
def flagDelta (flags : BitVec 16) : Bool := flags.getLsbD 1

/-- `16BIT` (R67). -/
def flag16Bit (flags : BitVec 16) : Bool := flags.getLsbD 2

/-- `ABS16` (R67). -/
def flagAbs16 (flags : BitVec 16) : Bool := flags.getLsbD 9

/-- `ENDIAN` (R67). -/
def flagEndian (flags : BitVec 16) : Bool := flags.getLsbD 10

/-- `CMD8` (30_encoding.md R68). -/
def cmd8 : List Nat := [0x01, 0x03, 0x07, 0x0F, 0x1E, 0x3C, 0x78, 0xF8]

/-- `FETCH8` (R68). -/
def fetch8 : List Nat := [3, 3, 3, 3, 2, 1, 0, 0]

/-- `CMD16` (R68). -/
def cmd16 : List Nat :=
  [0x01, 0x03, 0x07, 0x0F, 0x1E, 0x3C, 0x78, 0xF0, 0x1F0, 0x3F0, 0x7F0, 0xFF0, 0x1FF0, 0x3FF0, 0x7FF0, 0xFFF0]

/-- `FETCH16` (R68). -/
def fetch16 : List Nat := [4, 4, 4, 4, 3, 2, 1, 0, 0, 0, 0, 0, 0, 0, 0, 0]

/-- `CMD[n]` of the block's depth. -/
def cmdTable (is16 : Bool) (n : Nat) : Nat := if is16 then cmd16.getD n 0 else cmd8.getD n 0

/-- `FETCH[n]` of the block's depth. -/
def fetchTable (is16 : Bool) (n : Nat) : Nat := if is16 then fetch16.getD n 0 else fetch8.getD n 0

/-- How many code widths the depth has: the bound of `num_bits` (42_mmcmp.md R112). -/
def codeWidths (is16 : Bool) : Nat := if is16 then 16 else 8

/-- The bits of the extended value `x` after an escape to the same width (30_encoding.md R69). -/
def extBits (is16 : Bool) : Nat := if is16 then 4 else 3

/-- The value of an escape with `x = 0`: `0xF8`, or `0xFFF0` (R69). -/
def extBase (is16 : Bool) : Nat := if is16 then 0xFFF0 else 0xF8

/-! ## PP20 -/

/-- `PP_MODE[idx]` (10_state.md R24). -/
def ppMode (u : Ppu) (idx : Nat) : Nat :=
  match idx with
  | 0 => u.mode0.toNat
  | 1 => u.mode1.toNat
  | 2 => u.mode2.toNat
  | _ => u.mode3.toNat

end Sys2Proof.Machine
end

