-- ==== Sys2Proof/Machine/ItDecode.lean ====
section
/-! DEFINITION. Machine/ItDecode.lean: the IT sample decompressor, `IT.DECODE` (41_it_decompress.md R84 to
R100). The steps work on the ITD's registers, the presented source and the sample buffer alone, which is all
they may change. The loops carry the bounds of R101 as budgets. -/
namespace Sys2Proof.Machine

/-- What `IT.DECODE` works on. -/
structure ItRun where
  itd : Itd
  src : ByteSource
  smp : Smp
  deriving DecidableEq, Repr

/-- `ChangeWidth(cur, idx)` (R94). -/
def changeWidth (cur idx : Nat) : Nat := if cur ≤ idx + 1 then idx + 2 else idx + 1

/-- `ConvertWidth(cur, new)` (30_encoding.md R57), the encoder's inverse of `changeWidth`. -/
def convertWidth (cur new : Nat) : Nat := if new < cur then new - 1 else new - 2

/-- `IT_WIDTH <- w`. -/
def itSetWidth (w : Nat) (r : ItRun) : ItRun := { r with itd := { r.itd with width := w } }

/-- `Write(d)` (R95). -/
def itWrite (d : Int) (r : ItRun) : Except Fault ItRun :=
  let W := itW r.itd.is16
  let mem1 := addMod W r.itd.mem1 d
  let mem2 := if r.itd.is215 then addMod W r.itd.mem2 mem1.toNat else r.itd.mem2
  match smpWrite r.smp r.itd.writePos (if r.itd.is215 then mem2 else mem1) with
  | .error f => .error f
  | .ok smp => .ok { r with
      smp := smp
      itd := { r.itd with
        mem1 := mem1
        mem2 := mem2
        writePos := r.itd.writePos + r.itd.c.toNat
        written := r.itd.written + 1
        curLen := r.itd.curLen - 1 } }

/-- `ReadBits(IT_BR, n)`. -/
def itRead (p : Params) (n : Nat) (r : ItRun) : Option Nat × ItRun :=
  let x := readPrivate p.bufBytes n r.itd.br
  (x.1, { r with itd := { r.itd with br := x.2 } })

/-- The scope of an abort, by width overflow (R98) or end of data (R99). -/
def itAbort (p : Params) (r : ItRun) : ItRun :=
  match p.itAbortScope with
  | .channel => { r with itd := { r.itd with chanOver := true } }
  | .block => r

/-- A data sample, after which the block goes on. -/
def itSample (d : Int) (r : ItRun) : Except Fault (LoopControl × ItRun) :=
  match itWrite d r with
  | .error f => .error f
  | .ok r' => .ok (.again, r')

/-- `ModeA(v, topBit)` (R90). -/
def itModeA (p : Params) (v topBit : Nat) (r : ItRun) : Except Fault (LoopControl × ItRun) :=
  if v = topBit then
    match itRead p (fetchA r.itd.is16) r with
    | (none, r') => .ok (.endBlock, itAbort p r')
    | (some idx, r') => .ok (.again, itSetWidth (changeWidth r.itd.width idx) r')
  else itSample (sextNat r.itd.width v) r

/-- `ModeB(v, topBit)` (R91). -/
def itModeB (v topBit : Nat) (r : ItRun) : Except Fault (LoopControl × ItRun) :=
  if (topBit : Int) + lowerB r.itd.is16 ≤ v ∧ (v : Int) ≤ topBit + upperB r.itd.is16 then
    .ok (.again, itSetWidth (changeWidth r.itd.width ((v : Int) - (topBit + lowerB r.itd.is16)).toNat) r)
  else itSample (sextNat r.itd.width v) r

/-- `ModeC(v, topBit)` (R93): `topBit` set in `v` is a marker, else the low bits are a `W`-bit pattern. -/
def itModeC (v topBit : Nat) (r : ItRun) : Except Fault (LoopControl × ItRun) :=
  if v.testBit (r.itd.width - 1) then .ok (.again, itSetWidth (v % topBit + 1) r)
  else itSample ((v % topBit : Nat) : Int) r

/-- One symbol (R89), with the aborts of R98 and R99. -/
def itSymbol (p : Params) (r : ItRun) : Except Fault (LoopControl × ItRun) :=
  let width := r.itd.width
  if defWidth r.itd.is16 < width then .ok (.endBlock, itAbort p r)
  else
    match itRead p width r with
    | (none, r') => .ok (.endBlock, itAbort p r')
    | (some v, r') =>
      if width ≤ 6 then itModeA p v (2 ^ (width - 1)) r'
      else if width < defWidth r.itd.is16 then itModeB v (2 ^ (width - 1)) r'
      else itModeC v (2 ^ (width - 1)) r'

/-- The symbol loop of `DecodeBlock()` (R89, R97), at most `k` symbols. -/
def itSymbols (p : Params) : Nat → ItRun → Except Fault ItRun
  | 0, r => if r.itd.curLen = 0 then .ok r else .error .budgetExhausted
  | k + 1, r =>
    if r.itd.curLen = 0 then .ok r
    else
      match itSymbol p r with
      | .error f => .error f
      | .ok (.endBlock, r') => .ok r'
      | .ok (.again, r') => itSymbols p k r'

/-- `DecodeBlock()` (R88, R89). A chunk has at most `8 * IT_BLKSIZE` bits, and every symbol takes one. -/
def itDecodeBlock (p : Params) (r : ItRun) : Except Fault ItRun :=
  itSymbols p (8 * r.itd.blkSize.toNat + 1) { r with
    itd := { r.itd with
      st := .sym
      curLen := min (r.itd.l.toNat - r.itd.written) (itBlockSamples r.itd.is16)
      width := defWidth r.itd.is16 } }

/-- The two integrators cleared (R86, R87). -/
def itClearMem (r : ItRun) : ItRun := { r with itd := { r.itd with mem1 := 0, mem2 := 0 } }

/-- `ChannelStart()` (R86). -/
def itChannelStart (p : Params) (chn : Nat) (r : ItRun) : ItRun :=
  let r' : ItRun := { r with
    itd := { r.itd with chn := chn, st := .chan, written := 0, writePos := chn, chanOver := false } }
  if p.itMemReset = .perChannel then itClearMem r' else r'

/-- `BlockHeader()` (R87): `none` when fewer than 2 bytes remain, with nothing consumed; else the run with
`IT_BLKSIZE` read and, when it is not 0, `IT_BR` bound to the block's chunk. -/
def itBlockHeader (p : Params) (r : ItRun) : Bool × ItRun :=
  let r0 : ItRun := { r with itd := { r.itd with st := .hdr } }
  if srcCanRead r.src 2 then
    let h := srcRead r.src 2
    let size := le16 (h.1.getD 0 0) (h.1.getD 1 0)
    let r1 : ItRun := { r0 with src := h.2, itd := { r0.itd with blkSize := size } }
    if size = 0 then (true, r1)
    else
      let c := srcChunk h.2 size.toNat
      let r2 : ItRun := { r1 with src := c.2, itd := { r1.itd with br := PrivateReader.over p.bufBytes c.1 } }
      (true, if p.itMemReset = .perBlock then itClearMem r2 else r2)
  else (false, r0)

/-- The block loop of one channel (R84, R100), at most `k` headers. -/
def itBlocks (p : Params) : Nat → ItRun → Except Fault ItRun
  | 0, _ => .error .budgetExhausted
  | k + 1, r =>
    if r.itd.written < r.itd.l.toNat ∧ r.itd.chanOver = false then
      match itBlockHeader p r with
      | (false, r') => .ok r'
      | (true, r') =>
        if r'.itd.blkSize = 0 then itBlocks p k r'
        else
          match itDecodeBlock p r' with
          | .error f => .error f
          | .ok r'' => itBlocks p k r''
    else .ok r

/-- One channel (R84, R86). Every header takes 2 bytes of the source. -/
def itChannel (p : Params) (chn : Nat) (r : ItRun) : Except Fault ItRun :=
  itBlocks p (srcLen r.src / 2 + 2) (itChannelStart p chn r)

/-- The channels from `chn` on, `k` of them ("one channel at a time", R84). -/
def itChannels (p : Params) : Nat → Nat → ItRun → Except Fault ItRun
  | 0, _, r => .ok r
  | k + 1, chn, r =>
    match itChannel p chn r with
    | .error f => .error f
    | .ok r' => itChannels p k (chn + 1) r'

/-- The run `IT.DECODE` starts with: the operands and the two configuration registers latched (R84, R153). -/
def itStart (is215 is16 : Bool) (s : State) : ItRun where
  itd := { s.itd with is215 := is215, is16 := is16, c := s.itChannels, l := s.itLength }
  src := s.src
  smp := s.smp

/-- The state a finished `IT.DECODE` leaves (R84): `IT_ST <- IDLE; RESULT <- 0; STATUS.CODE <- OK`. -/
def itFinish (r : ItRun) (s : State) : State :=
  complete 0 { s with itd := { r.itd with st := .idle }, src := r.src, smp := r.smp }

/-- `IT.DECODE` (R84), refused when `C = 0` (R85). -/
def execItDecode (is215 is16 : Bool) (s : State) : Host.Outcome State Fault Refusal :=
  if s.itChannels = 0 then .next (refuse s)
  else
    match itChannels s.params s.itChannels.toNat 0 (itStart is215 is16 s) with
    | .error f => .fault f
    | .ok r => .next (itFinish r s)

end Sys2Proof.Machine
end

