-- ==== Sys2Proof/Machine/Mmcmp.lean ====
section
/-! DEFINITION. Machine/Mmcmp.lean: the MMCMP unit, `MMCMP.PROBE` and `MMCMP.UNPACK` (42_mmcmp.md R103 to
R116). Both read the source's bytes by offset and never move its cursor (decision D29), so the steps take the
bytes alone. The block layout and the code grammar are the spec's own general knowledge (G3 to G8, G13;
UNVERIFIED, assumption log 9). The code loop carries the bound of R117 as its budget. -/
namespace Sys2Proof.Machine

/-- What one unpack works on: the MMU's registers, the buffer, and the destination range `(pos, size)` of the
current sub-block, which R112 and R115 keep as locals. -/
structure MmRun where
  mm : Mmu
  out : OutBuf
  pos : Nat
  size : Nat
  deriving DecidableEq, Repr

/-! ## Header (R103, R104) -/

/-- `"ziRCONia"` (R103). -/
def mmMagic : List Byte := [0x7A, 0x69, 0x52, 0x43, 0x4F, 0x4E, 0x69, 0x61]

/-- `MmValid(h)` (R103). -/
def mmValid (p : Params) (h : List Byte) : Bool :=
  decide (h.take 8 = mmMagic) && decide ((le16At h 8).toNat = 14) && decide (1 ≤ (le16At h 12).toNat) &&
    decide (1 ≤ (le32At h 14).toNat) && decide ((le32At h 14).toNat ≤ p.mmcmpMaxFilesize)

/-- The header test of R106: the negation of its first failure. -/
def mmHeaderOk (p : Params) (bytes : List Byte) : Bool :=
  decide (24 ≤ bytes.length) && mmValid p (memRead bytes 0 24)

/-- The verdict of `MMCMP.PROBE` (R104): 0 `Success`, 1 `NeedMoreData`, 2 `Failure`. -/
def mmProbeVerdict (p : Params) (bytes : List Byte) : Word :=
  if bytes.length < 24 then 1 else if mmValid p (memRead bytes 0 24) then 0 else 2

/-- The file header's fields loaded (R106, 30_encoding.md R64). -/
def mmLoadHeader (bytes : List Byte) (m : Mmu) : Mmu :=
  { m with
    version := le16At bytes 10
    nblocks := le16At bytes 12
    filesize := le32At bytes 14
    blkTable := le32At bytes 18
    glbComp := byteAt bytes 22
    fmtComp := byteAt bytes 23 }

/-- A declared size over `ratio * SrcLen(S)` (R107, 43_pp20.md R122). -/
def overRatio (ratio : Option Nat) (size len : Nat) : Bool :=
  match ratio with
  | none => false
  | some k => decide (k * len < size)

/-- `PreAllocChecks()` fails (R107). -/
def mmPreAllocFails (p : Params) (bytes : List Byte) (m : Mmu) : Bool :=
  overRatio p.mmcmpMaxRatio m.filesize.toNat bytes.length ||
    decide (bytes.length < m.blkTable.toNat + 4 * m.nblocks.toNat)

/-! ## Sub-blocks (R109, R110) -/

/-- The block header's fields loaded from offset `at_` (30_encoding.md R66). The sub-block table is empty until its
entries are read: which entries it holds after a failure among them is the model's choice (assumption log 12). -/
def mmLoadBlock (bytes : List Byte) (at_ : Nat) (m : Mmu) : Mmu :=
  { m with
    unpkSize := le32At bytes at_
    pkSize := le32At bytes (at_ + 4)
    xorChk := le32At bytes (at_ + 8)
    subBlk := le16At bytes (at_ + 12)
    flags := le16At bytes (at_ + 14)
    ttEntries := le16At bytes (at_ + 16)
    numBits := le16At bytes (at_ + 18)
    sub := [] }

/-- The sub-block table of the block header at `blkpos` (R109): `k` entries from entry `i` on. -/
def mmLoadSubs (bytes : List Byte) (blkpos : Nat) : Nat → Nat → MmRun → Except (Stop MmRun) MmRun
  | 0, _, r => .ok r
  | k + 1, i, r =>
    if bytes.length < blkpos + 20 + 8 * i + 8 then .error (.fail r)
    else
      let entry : SubBlock := ⟨le32At bytes (blkpos + 20 + 8 * i), le32At bytes (blkpos + 24 + 8 * i)⟩
      mmLoadSubs bytes blkpos k (i + 1) { r with mm := { r.mm with sub := r.mm.sub ++ [entry] } }

/-- The size `SubRange` works with: whole 16-bit samples when `even` (R110). -/
def subSize (even : Bool) (e : SubBlock) : Nat := if even then (e.size &&& ~~~1#32).toNat else e.size.toNat

/-- The tests of `SubRange` (R110): not empty, and inside the output. -/
def subRangeOk (even : Bool) (filesize : Nat) (e : SubBlock) : Bool :=
  decide (subSize even e ≠ 0) && decide (e.pos.toNat < filesize) && decide (subSize even e ≤ filesize - e.pos.toNat)

/-- `SubRange(i, even)` (R110), its answer put into `pos` and `size`. -/
def mmSubRange (i : Nat) (even : Bool) (r : MmRun) : Except (Stop MmRun) MmRun :=
  let e := r.mm.sub.getD i ⟨0, 0⟩
  if subRangeOk even r.mm.filesize.toNat e then .ok { r with pos := e.pos.toNat, size := subSize even e }
  else .error (.fail r)

/-! ## Raw blocks (R111) -/

/-- The bytes written to `OUT` from address `a` on. -/
def outWriteAll : List Byte → Nat → OutBuf → Except Fault OutBuf
  | [], _, o => .ok o
  | v :: t, a, o =>
    match outWrite o a v with
    | .error f => .error f
    | .ok o' => outWriteAll t (a + 1) o'

/-- One sub-block of a raw block (R111). -/
def mmRawSub (bytes : List Byte) (i : Nat) (r : MmRun) : Except (Stop MmRun) MmRun :=
  match mmSubRange i false r with
  | .error e => .error e
  | .ok r =>
    if bytes.length < r.mm.memPos + r.size then .error (.fail r)
    else
      match outWriteAll (memRead bytes r.mm.memPos r.size) r.pos r.out with
      | .error f => .error (.fault f)
      | .ok out => .ok { r with out := out, mm := { r.mm with memPos := r.mm.memPos + r.size } }

/-- `RawBlock()` (R111): `k` sub-blocks from sub-block `i` on. -/
def mmRawBlock (bytes : List Byte) : Nat → Nat → MmRun → Except (Stop MmRun) MmRun
  | 0, _, r => .ok r
  | k + 1, i, r =>
    match mmRawSub bytes i r with
    | .error e => .error e
    | .ok r' => mmRawBlock bytes k (i + 1) r'

/-! ## Packed codes (30_encoding.md R69; R113, R114) -/

/-- What one code says. -/
inductive MmCode where
  /-- A value. -/
  | value (v : Nat)
  /-- A width change: no output. -/
  | width (m : Nat)
  /-- The end-of-block code. -/
  | stop
  /-- `EOD` before the code was complete (R116). -/
  | eod
  deriving DecidableEq, Repr

/-- `ReadBits(MM_BR, n)`. -/
def mmRead (p : Params) (n : Nat) (r : MmRun) : Option Nat × MmRun :=
  let x := readPrivate p.bufBytes n r.mm.br
  (x.1, { r with mm := { r.mm with br := x.2 } })

/-- The extended value after an escape to the same width (30_encoding.md R69). -/
def mmExtended (p : Params) (is16 : Bool) (r : MmRun) : MmCode × MmRun :=
  match mmRead p (extBits is16) r with
  | (none, r) => (.eod, r)
  | (some x, r) =>
    if x = 2 ^ extBits is16 - 1 then
      match mmRead p 1 r with
      | (none, r) => (.eod, r)
      | (some b, r) => if b = 1 then (.stop, r) else (.value (extBase is16 + x), r)
    else (.value (extBase is16 + x), r)

/-- One code at the current width index (30_encoding.md R69; the reading half of R113 and R114). -/
def mmReadCode (p : Params) (is16 : Bool) (r : MmRun) : MmCode × MmRun :=
  let n := r.mm.codeWidth
  match mmRead p (n + 1) r with
  | (none, r) => (.eod, r)
  | (some d, r) =>
    if d < cmdTable is16 n then (.value d, r)
    else
      match mmRead p (fetchTable is16 n) r with
      | (none, r) => (.eod, r)
      | (some f, r) =>
        let m := f + (d - cmdTable is16 n) * 2 ^ fetchTable is16 n
        if m ≠ n then (.width m, r) else mmExtended p is16 r

/-- The byte an 8-bit value stands for, and `MM_OLDVAL` after it (R113). -/
def mmByte8 (m : Mmu) (val : Nat) : Byte × Mmu :=
  let byte := m.table.getD val 0
  if flagDelta m.flags then
    let b := byte + m.oldVal.setWidth 8
    (b, { m with oldVal := b.setWidth 32 })
  else (byte, m)

/-- The zigzag value `s` (R114): 0, -1, 1, -2, 2, ... -/
def zigzag (val : Nat) : Int := if val % 2 = 1 then -(((val + 1) / 2 : Nat) : Int) else ((val / 2 : Nat) : Int)

/-- The word a 16-bit value stands for, and `MM_OLDVAL` after it (R114). -/
def mmWord16 (m : Mmu) (val : Nat) : Word × Mmu :=
  let w := BitVec.ofInt 32 (zigzag val)
  if flagDelta m.flags then (w + m.oldVal, { m with oldVal := w + m.oldVal })
  else if flagAbs16 m.flags then (w, m)
  else (w ^^^ 0x8000#32, m)

/-- `MM_DWPOS <- MM_DWPOS + k`. -/
def mmAdvanceBy (k : Nat) (r : MmRun) : MmRun := { r with mm := { r.mm with dwPos := r.mm.dwPos + k } }

/-- The output of an 8-bit value (R113). -/
def mmEmit8 (val : Nat) (r : MmRun) : Except (Stop MmRun) MmRun :=
  let x := mmByte8 r.mm val
  match outWrite r.out (r.pos + r.mm.dwPos) x.1 with
  | .error f => .error (.fault f)
  | .ok out => .ok (mmAdvanceBy 1 { r with out := out, mm := x.2 })

/-- The output of a 16-bit value (R114). -/
def mmEmit16 (val : Nat) (r : MmRun) : Except (Stop MmRun) MmRun :=
  let x := mmWord16 r.mm val
  let lo8 : Byte := x.1.extractLsb' 0 8
  let hi8 : Byte := x.1.extractLsb' 8 8
  match outWriteAll (if flagEndian r.mm.flags then [hi8, lo8] else [lo8, hi8]) (r.pos + r.mm.dwPos) r.out with
  | .error f => .error (.fault f)
  | .ok out => .ok (mmAdvanceBy 2 { r with out := out, mm := x.2 })

/-- `Advance()` (R115). -/
def mmAdvance (is16 : Bool) (r : MmRun) : Except (Stop MmRun) (LoopControl × MmRun) :=
  if r.size ≤ r.mm.dwPos then
    let r' : MmRun := { r with mm := { r.mm with subIdx := r.mm.subIdx + 1, dwPos := 0 } }
    if r'.mm.subBlk.toNat ≤ r'.mm.subIdx then .ok (.endBlock, r')
    else
      match mmSubRange r'.mm.subIdx is16 r' with
      | .error e => .error e
      | .ok r'' => .ok (.again, r'')
  else .ok (.again, r)

/-- `Code8()` (R113) or `Code16()` (R114): one code read and acted on. -/
def mmCode (p : Params) (is16 : Bool) (r : MmRun) : Except (Stop MmRun) (LoopControl × MmRun) :=
  match mmReadCode p is16 r with
  | (.eod, r) => .ok (.endBlock, r)
  | (.stop, r) => .ok (.endBlock, r)
  | (.width m, r) => .ok (.again, { r with mm := { r.mm with codeWidth := m % codeWidths is16 } })
  | (.value v, r) =>
    match if is16 then mmEmit16 v r else mmEmit8 v r with
    | .error e => .error e
    | .ok r' => mmAdvance is16 r'

/-- The code loop of `PackedBlock()` (R112), at most `k` codes. -/
def mmCodes (p : Params) (is16 : Bool) : Nat → MmRun → Except (Stop MmRun) MmRun
  | 0, _ => .error (.fault .budgetExhausted)
  | k + 1, r =>
    match mmCode p is16 r with
    | .error e => .error e
    | .ok (.endBlock, r') => .ok r'
    | .ok (.again, r') => mmCodes p is16 k r'

/-- The checks at the head of `PackedBlock()` (R112) that fail the command. -/
def mmPackedBad (bytes : List Byte) (m : Mmu) : Bool :=
  decide (m.subBlk = 0) || decide (m.pkSize.toNat < m.ttEntries.toNat) ||
    decide (bytes.length < m.memPos + m.ttEntries.toNat) ||
    decide (codeWidths (flag16Bit m.flags) ≤ m.numBits.toNat)

/-- The translation table of R112. -/
def mmTable (bytes : List Byte) (m : Mmu) : List Byte :=
  (List.range 256).map fun j => if j < m.ttEntries.toNat then byteAt bytes (m.memPos + j) else 0

/-- The bytes of the block's bit stream (R112): after the table, up to `pk_size`, clamped to the file. -/
def mmView (bytes : List Byte) (m : Mmu) : List Byte :=
  let lo := m.memPos + m.ttEntries.toNat
  let hi := min (m.memPos + m.pkSize.toNat) bytes.length
  memRead bytes lo (hi - lo)

/-- The MMU set up for a packed block (R112), all but `MM_DWPOS`, which is written after `SubRange(0)`. -/
def mmPackedStart (p : Params) (bytes : List Byte) (m : Mmu) : Mmu :=
  { m with
    table := mmTable bytes m
    br := PrivateReader.over p.bufBytes ⟨mmView bytes m, 0⟩
    codeWidth := m.numBits.toNat
    oldVal := 0
    subIdx := 0 }

/-- `PackedBlock()` (R112). Every code takes a bit of the view (R117). -/
def mmPackedBlock (p : Params) (bytes : List Byte) (r : MmRun) : Except (Stop MmRun) MmRun :=
  if mmPackedBad bytes r.mm then .error (.fail r)
  else
    match mmSubRange 0 (flag16Bit r.mm.flags) { r with mm := mmPackedStart p bytes r.mm } with
    | .error e => .error e
    | .ok r' =>
      mmCodes p (flag16Bit r.mm.flags) (8 * (mmView bytes r.mm).length + 1) { r' with mm := { r'.mm with dwPos := 0 } }

/-! ## Blocks (R109) -/

/-- The data of a block whose header and sub-block table are loaded (the end of R109). -/
def mmBlockData (p : Params) (bytes : List Byte) (r : MmRun) : Except (Stop MmRun) MmRun :=
  if bytes.length ≤ r.mm.memPos then .error (.fail r)
  else if flagComp r.mm.flags then mmPackedBlock p bytes r
  else mmRawBlock bytes r.mm.subBlk.toNat 0 r

/-- `DecodeBlock(b)` (R109). -/
def mmDecodeBlock (p : Params) (bytes : List Byte) (b : Nat) (r : MmRun) : Except (Stop MmRun) MmRun :=
  let entry := r.mm.blkTable.toNat + 4 * b
  if bytes.length < entry + 4 then .error (.fail r)
  else
    let blkpos := (le32At bytes entry).toNat
    if bytes.length < blkpos + 20 then .error (.fail r)
    else
      let m := mmLoadBlock bytes blkpos r.mm
      match mmLoadSubs bytes blkpos m.subBlk.toNat 0 { r with mm := m } with
      | .error e => .error e
      | .ok r' =>
        mmBlockData p bytes { r' with mm := { r'.mm with memPos := blkpos + 20 + 8 * m.subBlk.toNat } }

/-- The blocks from block `b` on, `k` of them (R106). -/
def mmBlocks (p : Params) (bytes : List Byte) : Nat → Nat → MmRun → Except (Stop MmRun) MmRun
  | 0, _, r => .ok r
  | k + 1, b, r =>
    match mmDecodeBlock p bytes b { r with mm := { r.mm with blk := b } } with
    | .error e => .error e
    | .ok r' => mmBlocks p bytes k (b + 1) r'

/-! ## Commands -/

/-- `MMCMP.PROBE` (R104). -/
def execMmcmpProbe (s : State) : Host.Outcome State Fault Refusal :=
  .next (complete (mmProbeVerdict s.params s.src.bytes) s)

/-- The MMU's registers and the buffer put back into the state. -/
def mmPutBack (r : MmRun) (s : State) : State := { s with mmu := r.mm, out := some r.out }

/-- The end of `MMCMP.UNPACK` after the allocation (R106), for an output of `n` bytes. -/
def mmFinish (n : Nat) (s : State) : Except (Stop MmRun) MmRun → Host.Outcome State Fault Refusal
  | .ok r => .next (complete 1 { mmPutBack r s with outLen := n, outValid := true })
  | .error (.fail r) => .next (failUnpack .failure (mmPutBack r s))
  | .error (.fault f) => .fault f

/-- `MMCMP.UNPACK` (R106). -/
def execMmcmpUnpack (verify : Bool) (s : State) : Host.Outcome State Fault Refusal :=
  let bytes := s.src.bytes
  if mmHeaderOk s.params bytes = false then .next (failUnpack .failure (dropOut s))
  else
    let m := mmLoadHeader bytes s.mmu
    let s1 := { dropOut s with mmu := m }
    if verify then .next (complete 1 s1)
    else if mmPreAllocFails s.params bytes m then .next (failUnpack .failure s1)
    else if (askAlloc s1).1 = false then .next (failUnpack .resource (askAlloc s1).2)
    else
      mmFinish m.filesize.toNat (askAlloc s1).2
        (mmBlocks s.params bytes m.nblocks.toNat 0 ⟨m, OutBuf.fresh m.filesize.toNat, 0, 0⟩)

end Sys2Proof.Machine
end

