-- ==== Sys2Proof/Machine/Pp20.lean ====
section
/-! DEFINITION. Machine/Pp20.lean: the PP20 unit, `PP20.PROBE` and `PP20.UNPACK` (43_pp20.md R118 to R127).
Neither moves the source's cursor (decision D29). The reverse reader and the token grammar are the spec's own
general knowledge (G10 to G12; UNVERIFIED, assumption log 9). The loops carry the bound of R128 as budgets. -/
namespace Sys2Proof.Machine

/-- What one unpack works on. -/
structure PpRun where
  pp : Ppu
  out : OutBuf
  deriving DecidableEq, Repr

/-! ## Header (R118, R119, R122) -/

/-- `"PP20"` (R118). -/
def ppMagic : List Byte := [0x50, 0x50, 0x32, 0x30]

/-- `PpValid(h)` (R118). -/
def ppValid (h : List Byte) : Bool :=
  decide (h.take 4 = ppMagic) &&
    ((List.range 4).all fun i => decide (9 ≤ (byteAt h (4 + i)).toNat) && decide ((byteAt h (4 + i)).toNat ≤ 15))

/-- The header test of R121: the negation of its first failure. -/
def ppHeaderOk (bytes : List Byte) : Bool := decide (8 ≤ bytes.length) && ppValid (memRead bytes 0 8)

/-- The verdict of `PP20.PROBE` (R119): 0 `Success`, 1 `NeedMoreData`, 2 `Failure`. -/
def ppProbeVerdict (bytes : List Byte) : Word :=
  if bytes.length < 8 then 1 else if ppValid (memRead bytes 0 8) then 0 else 2

/-- The first tests of `PreAllocChecks()` (R122): the length of the source. -/
def ppLengthFails (p : Params) (bytes : List Byte) : Bool :=
  decide (bytes.length < 12) || (decide (bytes.length % 2 = 1) && p.pp20RequireEven)

/-- `PP_DSTLEN` loaded from the trailer (R122, 30_encoding.md R71). -/
def ppLoadLen (bytes : List Byte) (u : Ppu) : Ppu := { u with dstLen := be24At bytes (bytes.length - 4) }

/-- The last tests of `PreAllocChecks()` (R122): the declared length. -/
def ppSizeFails (p : Params) (bytes : List Byte) (u : Ppu) : Bool :=
  decide (u.dstLen = 0) || overRatio p.pp20MaxRatio u.dstLen.toNat bytes.length

/-! ## The reverse bit reader (R123, R124) -/

/-- `PP_P <- a; PP_BYTE <- MemRead(S, PP_P, 1); PP_BITCNT <- 8`. -/
def ppLoad (bytes : List Byte) (a : Nat) (r : PpRun) : PpRun :=
  { r with pp := { r.pp with p := a, byte := byteAt bytes a, bitCnt := 8 } }

/-- The byte fetch of `GetBits` (R124), with the underrun of decision D26. -/
def ppFetch (p : Params) (bytes : List Byte) (r : PpRun) : Except (Stop PpRun) PpRun :=
  if r.pp.lo < r.pp.p then .ok (ppLoad bytes (r.pp.p - 1) r)
  else
    match p.pp20Underrun with
    | .fail => .error (.fail r)
    | .repeatLowest => .ok (ppLoad bytes r.pp.p r)

/-- The lowest bit leaves `PP_BYTE` (R124). -/
def ppShift (r : PpRun) : Nat × PpRun :=
  (r.pp.byte.toNat % 2, { r with pp := { r.pp with byte := r.pp.byte >>> 1, bitCnt := r.pp.bitCnt - 1 } })

/-- One bit (R124). -/
def ppBit (p : Params) (bytes : List Byte) (r : PpRun) : Except (Stop PpRun) (Nat × PpRun) :=
  if r.pp.bitCnt = 0 then
    match ppFetch p bytes r with
    | .error e => .error e
    | .ok r' => .ok (ppShift r')
  else .ok (ppShift r)

/-- `n` more bits below the value `acc` read so far (R124): the first bit is the most significant. -/
def ppBitsFrom (p : Params) (bytes : List Byte) : Nat → Nat → PpRun → Except (Stop PpRun) (Nat × PpRun)
  | 0, acc, r => .ok (acc, r)
  | n + 1, acc, r =>
    match ppBit p bytes r with
    | .error e => .error e
    | .ok (b, r') => ppBitsFrom p bytes n (2 * acc + b) r'

/-- `GetBits(n)` (R124). -/
def ppBits (p : Params) (bytes : List Byte) (n : Nat) (r : PpRun) : Except (Stop PpRun) (Nat × PpRun) :=
  ppBitsFrom p bytes n 0 r

/-- `ReaderInit()` before the skip bits (R123): the mode table, `PP_LEFT` and the reader's registers. -/
def ppInit (bytes : List Byte) (u : Ppu) : Ppu :=
  { u with
    mode0 := byteAt bytes 4
    mode1 := byteAt bytes 5
    mode2 := byteAt bytes 6
    mode3 := byteAt bytes 7
    left := u.dstLen.toNat
    lo := 4
    p := bytes.length - 4
    bitCnt := 0
    byte := 0 }

/-- `repeat k times: GetBits(1)` (R123). -/
def ppSkip (p : Params) (bytes : List Byte) : Nat → PpRun → Except (Stop PpRun) PpRun
  | 0, r => .ok r
  | k + 1, r =>
    match ppBits p bytes 1 r with
    | .error e => .error e
    | .ok (_, r') => ppSkip p bytes k r'

/-! ## The two phases (R125 to R127) -/

/-- A count extended by `bits`-bit codes up to the first that is not all ones, read while `count` is below
`limit` (R125 with 2 bits, R126 with 3), at most `k` codes. -/
def ppCount (p : Params) (bytes : List Byte) (bits limit : Nat) :
    Nat → Nat → PpRun → Except (Stop PpRun) (Nat × PpRun)
  | 0, count, r => if count < limit then .error (.fault .budgetExhausted) else .ok (count, r)
  | k + 1, count, r =>
    if count < limit then
      match ppBits p bytes bits r with
      | .error e => .error e
      | .ok (c, r') =>
        if c ≠ 2 ^ bits - 1 then .ok (count + c, r') else ppCount p bytes bits limit k (count + c) r'
    else .ok (count, r)

/-- `MemWrite(OUT, a, 1, v)`. -/
def ppStore (a : Nat) (v : Byte) (r : PpRun) : Except (Stop PpRun) PpRun :=
  match outWrite r.out a v with
  | .error f => .error (.fault f)
  | .ok out => .ok { r with out := out }

/-- `PP_LEFT <- PP_LEFT - 1`. -/
def ppDown (r : PpRun) : PpRun := { r with pp := { r.pp with left := r.pp.left - 1 } }

/-- `k` literal bytes, written downward (R125). -/
def ppLiterals (p : Params) (bytes : List Byte) : Nat → PpRun → Except (Stop PpRun) PpRun
  | 0, r => .ok r
  | k + 1, r =>
    match ppBits p bytes 8 (ppDown r) with
    | .error e => .error e
    | .ok (v, r') =>
      match ppStore r'.pp.left (BitVec.ofNat 8 v) r' with
      | .error e => .error e
      | .ok r'' => ppLiterals p bytes k r''

/-- `LiteralRun()` (R125). -/
def ppLiteralRun (p : Params) (bytes : List Byte) (r : PpRun) : Except (Stop PpRun) PpRun :=
  match ppCount p bytes 2 r.pp.left r.pp.left 1 r with
  | .error e => .error e
  | .ok (count, r') => ppLiterals p bytes (min count r'.pp.left) r'

/-- `Copy(count, offset)` (R127), `k` bytes: each is read after the previous one is written. -/
def ppCopy (offset : Nat) : Nat → PpRun → Except (Stop PpRun) PpRun
  | 0, r => .ok r
  | k + 1, r =>
    let a := r.pp.left + offset
    match ppStore (r.pp.left - 1) (if a < r.pp.dstLen.toNat then outRead r.out a else 0) r with
    | .error e => .error e
    | .ok r' => ppCopy offset k (ppDown r')

/-- The width of the offset of a mode-3 match (R126). -/
def ppWide (u : Ppu) (wide : Nat) : Nat := if wide = 1 then ppMode u 3 else 7

/-- A match in mode 3 (R126): the long-offset flag, the offset, the extended count. The guard
`count - 1 < PP_LEFT` is `count < PP_LEFT + 1`, since the count starts at 5. -/
def ppMatchLong (p : Params) (bytes : List Byte) (r : PpRun) : Except (Stop PpRun) PpRun :=
  match ppBits p bytes 1 r with
  | .error e => .error e
  | .ok (wide, r1) =>
    match ppBits p bytes (ppWide r1.pp wide) r1 with
    | .error e => .error e
    | .ok (offset, r2) =>
      match ppCount p bytes 3 (r2.pp.left + 1) (r2.pp.left + 1) 5 r2 with
      | .error e => .error e
      | .ok (count, r3) => ppCopy offset (min count r3.pp.left) r3

/-- `Match()` (R126). -/
def ppMatch (p : Params) (bytes : List Byte) (r : PpRun) : Except (Stop PpRun) PpRun :=
  match ppBits p bytes 2 r with
  | .error e => .error e
  | .ok (idx, r1) =>
    if idx = 3 then ppMatchLong p bytes r1
    else
      match ppBits p bytes (ppMode r1.pp idx) r1 with
      | .error e => .error e
      | .ok (offset, r2) => ppCopy offset (min (idx + 2) r2.pp.left) r2

/-- One pass of the token loop (R121): a literal run and a match, or a match alone. -/
def ppPass (p : Params) (bytes : List Byte) (r : PpRun) : Except (Stop PpRun) PpRun :=
  match ppBits p bytes 1 r with
  | .error e => .error e
  | .ok (flag, r1) =>
    if flag = 0 then
      match ppLiteralRun p bytes r1 with
      | .error e => .error e
      | .ok r2 => if r2.pp.left = 0 then .ok r2 else ppMatch p bytes r2
    else ppMatch p bytes r1

/-- The token loop (R121), at most `k` passes (R128). -/
def ppLoop (p : Params) (bytes : List Byte) : Nat → PpRun → Except (Stop PpRun) PpRun
  | 0, r => if r.pp.left = 0 then .ok r else .error (.fault .budgetExhausted)
  | k + 1, r =>
    if r.pp.left = 0 then .ok r
    else
      match ppPass p bytes r with
      | .error e => .error e
      | .ok r' => ppLoop p bytes k r'

/-- The decoding of `PP20.UNPACK` after the allocation (R121, R123): the skip bits, then the tokens. -/
def ppDecode (p : Params) (bytes : List Byte) (r : PpRun) : Except (Stop PpRun) PpRun :=
  match ppSkip p bytes (byteAt bytes (bytes.length - 1)).toNat r with
  | .error e => .error e
  | .ok r' => ppLoop p bytes r'.pp.left r'

/-! ## Commands -/

/-- `PP20.PROBE` (R119). -/
def execPp20Probe (s : State) : Host.Outcome State Fault Refusal :=
  .next (complete (ppProbeVerdict s.src.bytes) s)

/-- The PPU's registers and the buffer put back into the state. -/
def ppPutBack (r : PpRun) (s : State) : State := { s with ppu := r.pp, out := some r.out }

/-- The end of `PP20.UNPACK` after the allocation (R121), for an output of `n` bytes. -/
def ppFinish (n : Nat) (s : State) : Except (Stop PpRun) PpRun → Host.Outcome State Fault Refusal
  | .ok r => .next (complete 1 { ppPutBack r s with outLen := n, outValid := true })
  | .error (.fail r) => .next (failUnpack .failure (ppPutBack r s))
  | .error (.fault f) => .fault f

/-- `PP20.UNPACK` (R121). -/
def execPp20Unpack (verify : Bool) (s : State) : Host.Outcome State Fault Refusal :=
  let bytes := s.src.bytes
  if ppHeaderOk bytes = false then .next (failUnpack .failure (dropOut s))
  else if verify then .next (complete 1 (dropOut s))
  else if ppLengthFails s.params bytes then .next (failUnpack .failure (dropOut s))
  else
    let u := ppLoadLen bytes s.ppu
    let s1 := { dropOut s with ppu := u }
    if ppSizeFails s.params bytes u then .next (failUnpack .failure s1)
    else if (askAlloc s1).1 = false then .next (failUnpack .resource (askAlloc s1).2)
    else
      ppFinish u.dstLen.toNat (askAlloc s1).2
        (ppDecode s.params bytes ⟨ppInit bytes u, OutBuf.fresh u.dstLen.toNat⟩)

end Sys2Proof.Machine
end

