-- ==== Sys2Proof/Machine/Dispatch.lean ====
section
/-! DEFINITION. Machine/Dispatch.lean: one arm per command, each a direct call of its meaning. -/
namespace Sys2Proof.Machine

def exec (i : Instr) (s : State) : Host.Outcome State Fault Refusal :=
  match i with
  | .brBind => Sys2Proof.Machine.execBrBind s
  | .brReadbits n => Sys2Proof.Machine.execBrReadbits n s
  | .brGetpos => Sys2Proof.Machine.execBrGetpos s
  | .itDecode is215 is16 => Sys2Proof.Machine.execItDecode is215 is16 s
  | .mmcmpProbe => Sys2Proof.Machine.execMmcmpProbe s
  | .mmcmpUnpack verify => Sys2Proof.Machine.execMmcmpUnpack verify s
  | .pp20Probe => Sys2Proof.Machine.execPp20Probe s
  | .pp20Unpack verify => Sys2Proof.Machine.execPp20Unpack verify s

end Sys2Proof.Machine
end

