-- ==== Sys2Proof/Machine/Flags.lean ====
section
/-! DEFINITION. Machine/Flags.lean: the status word and the host's view of the registers (10_state.md R14 to
R16). The block has no flags register (R26): `STATUS` holds all it reports. -/
namespace Sys2Proof.Machine

/-- The value of a completion code (60_exceptions.md R129). -/
def Code.bits : Code → BitVec 4
  | .ok => 0
  | .eod => 1
  | .refused => 2
  | .failure => 3
  | .resource => 4

/-- `STATUS`: `CODE[3:0]`, `OUT_VALID[4]`, `BOUND[5]`, bits 31:6 zero (10_state.md R15). -/
def statusWord (s : State) : Word :=
  0#26 ++ BitVec.ofBool s.brBound ++ BitVec.ofBool s.outValid ++ s.code.bits

/-- A host read of the register at `offset` (10_state.md R14): `CMD` and every other offset read 0. -/
def readReg (s : State) (offset : Nat) : Word :=
  if offset = 0x04 then statusWord s
  else if offset = 0x08 then s.result
  else if offset = 0x0C then s.itChannels.setWidth 32
  else if offset = 0x10 then s.itLength
  else 0

/-- A host write of a register other than `CMD` (10_state.md R14): `IT_CHANNELS` keeps bits 7:0, `STATUS`,
`RESULT` and every other offset ignore it. -/
def writeReg (offset : Nat) (v : Word) (s : State) : State :=
  if offset = 0x0C then { s with itChannels := v.setWidth 8 }
  else if offset = 0x10 then { s with itLength := v }
  else s

end Sys2Proof.Machine
end

