-- ==== Sys2Proof/Machine/HostPort.lean ====
section
/-! DEFINITION. Machine/HostPort.lean: what each action of the host does (30_encoding.md R53, 10_state.md R14,
70_reset_and_hazards.md R142). A write of `CMD` executes the command written. -/
namespace Sys2Proof.Machine

/-- A write of `CMD` (R14): the word is decoded and executed, or refused when it is reserved (R52). -/
def runCommand (w : Word) (s : State) : Host.Outcome State Fault Refusal :=
  match decode w with
  | .ok i => exec i { s with cmd := w }
  | .error _ => .next (refuse { s with cmd := w })

/-- `wr`: offset 0 is `CMD` (R14). -/
def hostWrite (offset : Nat) (v : Word) (s : State) : Host.Outcome State Fault Refusal :=
  if offset = 0 then runCommand v s else .next (writeReg offset v s)

/-- `rd`: no register changes; the host gets the value (assumption log 6). -/
def hostRead (offset : Nat) (s : State) : State := { s with hostData := readReg s offset }

/-- A new source on `SRC` does not rebind the BR unit (70_reset_and_hazards.md R148): if it reads the source
presented until now, it keeps that one. -/
def hostPresent (bytes : List Byte) (s : State) : Host.Outcome State Fault Refusal :=
  if 2 ^ 32 ≤ bytes.length then .fault .sourceTooLong
  else
    .next { s with
      src := ⟨bytes, 0⟩
      brSrc := match s.brSrc with
        | .unbound => .unbound
        | .presented => .detached s.src
        | .detached src => .detached src }

/-- The answer of a source operation, as the host gets it (assumption log 6). -/
def hostAnswer (r : Bool × ByteSource) (s : State) : State :=
  { s with src := r.2, hostData := if r.1 then 1 else 0 }

/-- `attach`: the `SMP` buffer holds these elements (R53). -/
def hostAttach (elems : List (BitVec 16)) (s : State) : State :=
  { s with smp := ⟨elems.length, Memory.ofList 0 elems⟩ }

/-- The reset input (R142): every register at its reset value; the host's sources and `SMP` buffer, its further
actions and the parameters are not touched. -/
def hostReset (s : State) : State :=
  { State.reset with
    src := s.src
    smp := s.smp
    br := Reader.empty s.params.bufBytes
    itd := Itd.reset s.params.bufBytes
    mmu := Mmu.reset s.params.bufBytes
    params := s.params
    allocAnswers := s.allocAnswers
    script := s.script
    hostData := s.hostData }

/-- One action of the host. -/
def hostAct (a : HostAction) (s : State) : Host.Outcome State Fault Refusal :=
  match a with
  | .write offset v => hostWrite offset v s
  | .read offset => .next (hostRead offset s)
  | .present bytes => hostPresent bytes s
  | .seek p => .next (hostAnswer (srcSeek s.src p) s)
  | .skipBack n => .next (hostAnswer (srcSkipBack s.src n) s)
  | .attach elems => .next (hostAttach elems s)
  | .reset => .next (hostReset s)

end Sys2Proof.Machine
end

