-- ==== Sys2Proof/Machine/Step.lean ====
section
/-! DEFINITION. Machine/Step.lean: one step is one action of the host (20_memory.md R46, 60_exceptions.md R139);
with none waiting the block is idle (70_reset_and_hazards.md R143). -/
namespace Sys2Proof.Machine

/-- One step: the oldest waiting action of the host, or nothing (R143; assumption log 1). -/
def step (s : State) : Host.Outcome State Fault Refusal :=
  match s.script with
  | [] => .next s
  | a :: rest => hostAct a { s with script := rest }

/-- `s` with the host's next action being the write of this command word to `CMD` (assumption log 1). Every
command is one 32-bit word (R49). -/
def State.withFetchWord (s : State) (nbits w : Nat) : State :=
  { s with script := .write 0 (BitVec.ofNat 32 (w % 2 ^ nbits)) :: s.script }

end Sys2Proof.Machine
end

