-- ==== Sys2Proof/Safety.lean ====
section
/-! DEFINITION. Safety.lean: the terms claims are stated in: what a reader's bit stream is, which invariants a
state keeps, what the unit registers are forgotten to, and when a container file is sound. -/
namespace Sys2Proof.Machine

/-! ## Bit streams (20_memory.md R40, R42) -/

/-- The eight bits of a byte, least significant first. -/
def bitsOfByte (b : Byte) : List Bool := (List.range 8).map b.getLsbD

/-- Bit `j` of byte `i` is stream bit `8 * i + j` (R40). -/
def bitsOfBytes (l : List Byte) : List Bool := l.flatMap bitsOfByte

/-- The value of bits, the first as bit 0 (R40). -/
def lsbValue : List Bool → Nat
  | [] => 0
  | b :: t => b.toNat + 2 * lsbValue t

/-- The value of bits, the first as the most significant, below the value `acc` (43_pp20.md R124). -/
def msbValueFrom : Nat → List Bool → Nat
  | acc, [] => acc
  | acc, b :: t => msbValueFrom (2 * acc + b.toNat) t

/-- The value of bits, the first as the most significant (43_pp20.md R124). -/
def msbValue (l : List Bool) : Nat := msbValueFrom 0 l

/-- The bits an instance has in its accumulator. -/
def accBits (rd : Reader) : List Bool := (List.range rd.nbits).map rd.acc.getLsbD

/-- The bytes an instance has staged and not yet moved into its accumulator. -/
def stagedBytes (rd : Reader) : List Byte := (rd.stage.take rd.bufSize).drop rd.bufPos

/-- The bytes of a source from its cursor on. -/
def restBytes (src : ByteSource) : List Byte := src.bytes.drop src.pos

/-- The bits the stream still holds (40_bitreader.md R78): those in the accumulator, the staged bytes, the rest of
the source. -/
def streamBits (rd : Reader) (src : ByteSource) : List Bool :=
  accBits rd ++ bitsOfBytes (stagedBytes rd ++ restBytes src)

/-- What `k` bytes, taken one after the other, leave of an instance's staging buffer and its source (R75): staged bytes
come first; the source is read only when none is staged, up to `B` bytes at once. -/
def BytesTaken (B k : Nat) (rd : Reader) (src : ByteSource) (rd' : Reader) (src' : ByteSource) : Prop :=
  if k ≤ rd.bufSize - rd.bufPos then
    src' = src ∧ rd'.stage = rd.stage ∧ rd'.bufSize = rd.bufSize ∧ rd'.bufPos = rd.bufPos + k
  else
    ∃ chunks start : Nat, chunks = (k - (rd.bufSize - rd.bufPos) - 1) / B ∧ start = src.pos + B * chunks ∧
      src' = { src with pos := min (start + B) src.bytes.length } ∧ rd'.bufSize = src'.pos - start ∧
      rd'.stage.take rd'.bufSize = (src.bytes.drop start).take B ∧
      rd'.bufPos = k - (rd.bufSize - rd.bufPos) - B * chunks

/-- The bytes the PP20 reader has yet to load: those from `PP_P - 1` down to `PP_LO` (43_pp20.md R124). -/
def reverseBytes (bytes : List Byte) (u : Ppu) : List Byte :=
  (List.range (u.p - u.lo)).map fun k => byteAt bytes (u.p - 1 - k)

/-- The bits the PP20 reader has yet to deliver (20_memory.md R42). -/
def reverseBits (bytes : List Byte) (u : Ppu) : List Bool :=
  (List.range u.bitCnt).map u.byte.getLsbD ++ bitsOfBytes (reverseBytes bytes u)

/-! ## Invariants -/

/-- What holds of every instance between commands (10_state.md R20 (a), (b), the bound of (c) after an end of
data), with the staging buffer at its size and a byte taken from it whenever it has been filled. -/
structure Reader.Sound (bufBytes : Nat) (rd : Reader) : Prop where
  acc_lt : rd.acc.toNat < 2 ^ rd.nbits
  nbits_le : rd.nbits ≤ 31
  bufPos_le : rd.bufPos ≤ rd.bufSize
  bufSize_le : rd.bufSize ≤ bufBytes
  stage_len : rd.stage.length = bufBytes
  taken : rd.bufSize = 0 ∨ 0 < rd.bufPos

/-- The bits a private instance has still to deliver. -/
def PrivateReader.bits (i : PrivateReader) : List Bool :=
  match i.src with
  | none => []
  | some src => streamBits i.rd src

/-- A private instance that is bound, and sound. -/
def PrivateReader.Sound (bufBytes : Nat) (i : PrivateReader) : Prop :=
  i.rd.Sound bufBytes ∧ ∃ src, i.src = some src ∧ src.pos ≤ src.bytes.length

/-- What holds of a private instance between commands, bound or not: R20, and the cursor inside the chunk. -/
structure PrivateReader.Held (bufBytes : Nat) (i : PrivateReader) : Prop where
  rd : i.rd.Sound bufBytes
  src : ∀ src, i.src = some src → src.pos ≤ src.bytes.length

/-- A buffer in canonical form that lists nothing outside its size. -/
def OutBuf.Sound (o : OutBuf) : Prop := Memory.wf o.cells = true ∧ Memory.below o.size o.cells = true

/-- A byte source the host may present (20_memory.md R29, decision D3). -/
structure ByteSource.Sound (src : ByteSource) : Prop where
  pos_le : src.pos ≤ src.bytes.length
  len_lt : src.bytes.length < 2 ^ 32

/-- The BR unit and the sources it and the units read are sound. -/
structure State.ReaderSound (s : State) : Prop where
  br : s.br.Sound s.params.bufBytes
  src : s.src.Sound
  bound : ∀ src, s.brSource = some src → src.Sound

/-- `OUT` and `SMP` are in canonical form and list nothing outside their size. -/
structure State.MemorySound (s : State) : Prop where
  smp_wf : Memory.wf s.smp.cells = true
  smp_below : Memory.below s.smp.len s.smp.cells = true
  out_wf : ∀ o, s.out = some o → Memory.wf o.cells = true
  out_below : ∀ o, s.out = some o → Memory.below o.size o.cells = true

/-- What `STATUS` and `OUT` say together (20_memory.md R38, 60_exceptions.md R132): a valid buffer is there with
its length, there is no length without a valid buffer, and `FAILURE` and `RESOURCE` come with `OUT_VALID = 0`. -/
structure State.StatusSound (s : State) : Prop where
  valid : s.outValid = true → ∃ o, s.out = some o ∧ s.outLen = o.size
  noLen : s.outValid = false → s.outLen = 0
  failed : s.code = .failure ∨ s.code = .resource → s.outValid = false

/-- The widths of the ITD's counted registers (10_state.md R21). -/
structure Itd.Widths (u : Itd) : Prop where
  chn : u.chn < 2 ^ 8
  written : u.written < 2 ^ 32
  writePos : u.writePos < 2 ^ 40
  curLen : u.curLen < 2 ^ 16
  width : u.width < 2 ^ 17

/-- The widths of the MMU's counted registers and of its table (10_state.md R23). -/
structure Mmu.Widths (u : Mmu) : Prop where
  blk : u.blk < 2 ^ 16
  memPos : u.memPos < 2 ^ 33
  table : u.table.length = 256
  codeWidth : u.codeWidth < 2 ^ 4
  subIdx : u.subIdx < 2 ^ 16
  dwPos : u.dwPos < 2 ^ 32

/-- The widths of the PPU's counted registers (10_state.md R24). -/
structure Ppu.Widths (u : Ppu) : Prop where
  left : u.left < 2 ^ 24
  p : u.p < 2 ^ 32
  lo : u.lo < 2 ^ 32
  bitCnt : u.bitCnt ≤ 8

/-- Every counted unit register is inside its width (00_scope.md R9), those of `IT_BR` and `MM_BR` inside the bounds
of R20. -/
structure State.UnitWidths (s : State) : Prop where
  itd : s.itd.Widths
  mmu : s.mmu.Widths
  ppu : s.ppu.Widths
  itBr : s.itd.br.Held s.params.bufBytes
  mmBr : s.mmu.br.Held s.params.bufBytes

/-! ## Reset values (10_state.md R14 to R24) -/

/-- An instance at reset: no bits, no staged bytes, `STAGE` all zero (R18). -/
structure Reader.IsReset (rd : Reader) : Prop where
  acc : rd.acc = 0
  nbits : rd.nbits = 0
  bufSize : rd.bufSize = 0
  bufPos : rd.bufPos = 0
  stage : ∀ b ∈ rd.stage, b = 0

/-- Every register of 10_state.md has the reset value of its table: `IT_CHANNELS` 1, everything else 0, idle,
unbound or absent (70_reset_and_hazards.md R142). -/
structure State.RegistersReset (s : State) : Prop where
  cmd : s.cmd = 0
  status : statusWord s = 0
  result : s.result = 0
  itChannels : s.itChannels = 1
  itLength : s.itLength = 0
  out : s.out = none
  outLen : s.outLen = 0
  brSrc : s.brSource = none
  br : s.br.IsReset
  itd : ∃ rd : Reader, rd.IsReset ∧
    s.itd = ⟨false, false, 0, 0, 0, 0, 0, 0, 0, 0, 0, 0, false, ⟨none, rd⟩, .idle⟩
  mmu : ∃ rd : Reader, rd.IsReset ∧
    s.mmu = ⟨0, 0, 0, 0, 0, 0, 0, 0, 0, 0, 0, 0, 0, 0, [], 0, List.replicate 256 0, 0, 0, 0, 0, ⟨none, rd⟩⟩
  ppu : s.ppu = ⟨0, 0, 0, 0, 0, 0, 0, 0, 0, 0⟩

/-! ## The unit registers forgotten (70_reset_and_hazards.md R142, R144) -/

/-- The state with the ITD's, MMU's and PPU's registers at fixed values: two states that agree on it differ at most
in those registers. -/
def State.forgetUnits (s : State) : State :=
  { s with itd := Itd.reset 0, mmu := Mmu.reset 0, ppu := Ppu.reset }

/-- An outcome seen without the unit registers. -/
def forgetOutcome : Host.Outcome State Fault Refusal → Host.Outcome State Fault Refusal
  | .next s => .next s.forgetUnits
  | .fault f => .fault f
  | .refused r => .refused r

/-! ## How a loop runs -/

/-- `r'` is reached from `r` by steps that let the loop go on. -/
inductive Reaches {σ ε : Type} (step : σ → Except ε (LoopControl × σ)) (r : σ) : σ → Prop where
  | start : Reaches step r r
  | again {r1 r2 : σ} : Reaches step r r1 → step r1 = .ok (.again, r2) → Reaches step r r2

/-- What a loop answers that starts from `r`: what the first turn answers that does not let it go on. -/
def LoopEnds {σ ε : Type} (step : σ → Except ε (LoopControl × σ)) (r : σ) (answer : Except ε σ) : Prop :=
  ∃ r1, Reaches step r r1 ∧
    ((∃ r2, step r1 = .ok (.endBlock, r2) ∧ answer = .ok r2) ∨ ∃ e, step r1 = .error e ∧ answer = .error e)

/-! ## The loops of `IT.DECODE` (41_it_decompress.md R84, R89) -/

/-- One turn of the symbol loop (R89): a symbol while `IT_CURLEN > 0`. -/
def itSymbolTurn (p : Params) (r : ItRun) : Except Fault (LoopControl × ItRun) :=
  if 0 < r.itd.curLen then itSymbol p r else .ok (.endBlock, r)

/-- One turn of a channel's block loop (R84): while samples are left and `IT_CHAN_OVER = 0`, a block header, and a block
unless its size is 0. -/
def itBlockTurn (p : Params) (r : ItRun) : Except Fault (LoopControl × ItRun) :=
  if r.itd.written < r.itd.l.toNat ∧ r.itd.chanOver = false then
    match itBlockHeader p r with
    | (false, r') => .ok (.endBlock, r')
    | (true, r') =>
      if r'.itd.blkSize = 0 then .ok (.again, r')
      else
        match itDecodeBlock p r' with
        | .error f => .error f
        | .ok r'' => .ok (.again, r'')
  else .ok (.endBlock, r)

/-- The run after the channels `0 .. k - 1` are decoded in turn (R84, R100). -/
inductive AfterChannels (p : Params) (r : ItRun) : Nat → ItRun → Prop where
  | start : AfterChannels p r 0 r
  | next {k : Nat} {r1 r2 : ItRun} : AfterChannels p r k r1 → itChannel p k r1 = .ok r2 → AfterChannels p r (k + 1) r2

/-! ## Header fields as numbers (00_scope.md R10) and the checks made of them -/

/-- `LE16` of the bytes at `a`, as a number. -/
def le16Nat (bytes : List Byte) (a : Nat) : Nat := (byteAt bytes a).toNat + 256 * (byteAt bytes (a + 1)).toNat

/-- `LE32` of the bytes at `a`, as a number. -/
def le32Nat (bytes : List Byte) (a : Nat) : Nat :=
  (byteAt bytes a).toNat + 2 ^ 8 * (byteAt bytes (a + 1)).toNat + 2 ^ 16 * (byteAt bytes (a + 2)).toNat +
    2 ^ 24 * (byteAt bytes (a + 3)).toNat

/-- `BE24` of the bytes at `a`, as a number. -/
def be24Nat (bytes : List Byte) (a : Nat) : Nat :=
  2 ^ 16 * (byteAt bytes a).toNat + 2 ^ 8 * (byteAt bytes (a + 1)).toNat + (byteAt bytes (a + 2)).toNat

/-- 42_mmcmp.md R103, for a source of at least 24 bytes. -/
def mmHeaderValid (p : Params) (bytes : List Byte) : Bool :=
  decide (bytes.take 8 = [0x7A, 0x69, 0x52, 0x43, 0x4F, 0x4E, 0x69, 0x61] ∧ le16Nat bytes 8 = 14 ∧ 1 ≤ le16Nat bytes 12 ∧
    1 ≤ le32Nat bytes 14 ∧ le32Nat bytes 14 ≤ p.mmcmpMaxFilesize)

/-- 43_pp20.md R118, for a source of at least 8 bytes. -/
def ppHeaderValid (bytes : List Byte) : Bool :=
  decide (bytes.take 4 = [0x50, 0x50, 0x32, 0x30]) &&
    [4, 5, 6, 7].all fun a => decide (9 ≤ (byteAt bytes a).toNat) && decide ((byteAt bytes a).toNat ≤ 15)

/-- A declared size within the ratio, if there is one (42_mmcmp.md R107, 43_pp20.md R122). -/
def withinRatio (ratio : Option Nat) (size len : Nat) : Bool :=
  match ratio with
  | none => true
  | some k => decide (size ≤ k * len)

/-- No test of 42_mmcmp.md R107 fails. -/
def mmChecksPass (p : Params) (bytes : List Byte) : Bool :=
  withinRatio p.mmcmpMaxRatio (le32Nat bytes 14) bytes.length &&
    decide (le32Nat bytes 18 + 4 * le16Nat bytes 12 ≤ bytes.length)

/-- No test of 43_pp20.md R122 fails. -/
def ppChecksPass (p : Params) (bytes : List Byte) : Bool :=
  decide (12 ≤ bytes.length) && (!p.pp20RequireEven || decide (bytes.length % 2 = 0)) &&
    decide (be24Nat bytes (bytes.length - 4) ≠ 0) &&
    withinRatio p.pp20MaxRatio (be24Nat bytes (bytes.length - 4)) bytes.length

/-- The oracle's next answer is a success (20_memory.md R39). -/
def State.allocSucceeds (s : State) : Prop := s.allocAnswers.head? ≠ some false

/-- The bits of a PP20 file's stream: bytes `L - 5` down to 4, each from its lowest bit (43_pp20.md R123, R124). -/
def regionBits (bytes : List Byte) : List Bool := bitsOfBytes ((bytes.drop 4).take (bytes.length - 8)).reverse

/-! ## Sound MMCMP files (42_mmcmp.md R109 to R112) -/

/-- Entry `i` of the sub-block table of the block header at `blkpos`. -/
def mmSubAt (bytes : List Byte) (blkpos i : Nat) : SubBlock :=
  ⟨le32At bytes (blkpos + 20 + 8 * i), le32At bytes (blkpos + 24 + 8 * i)⟩

/-- Where the data of the block at `blkpos` start: after its header and sub-block table. -/
def mmDataAt (bytes : List Byte) (blkpos : Nat) : Nat := blkpos + 20 + 8 * (le16At bytes (blkpos + 12)).toNat

/-- The sub-blocks of the block at `blkpos` are not empty and lie inside an output of `filesize` bytes. -/
def mmSubsSound (bytes : List Byte) (filesize blkpos : Nat) (even : Bool) : Bool :=
  (List.range (le16At bytes (blkpos + 12)).toNat).all fun i => subRangeOk even filesize (mmSubAt bytes blkpos i)

/-- The data a raw block's sub-blocks take. -/
def mmRawSize (bytes : List Byte) (blkpos : Nat) : Nat :=
  ((List.range (le16At bytes (blkpos + 12)).toNat).map fun i => (mmSubAt bytes blkpos i).size.toNat).sum

/-- Every check of R109 to R112 on the block whose header is at `blkpos` passes. -/
def mmBlockSound (bytes : List Byte) (filesize blkpos : Nat) : Bool :=
  decide (mmDataAt bytes blkpos < bytes.length) &&
    (if flagComp (le16At bytes (blkpos + 14)) then
      decide ((le16At bytes (blkpos + 12)).toNat ≠ 0) &&
        decide ((le16At bytes (blkpos + 16)).toNat ≤ (le32At bytes (blkpos + 4)).toNat) &&
        decide (mmDataAt bytes blkpos + (le16At bytes (blkpos + 16)).toNat ≤ bytes.length) &&
        decide ((le16At bytes (blkpos + 18)).toNat < codeWidths (flag16Bit (le16At bytes (blkpos + 14)))) &&
        mmSubsSound bytes filesize blkpos (flag16Bit (le16At bytes (blkpos + 14)))
    else
      mmSubsSound bytes filesize blkpos false &&
        decide (mmDataAt bytes blkpos + mmRawSize bytes blkpos ≤ bytes.length))

/-- The offset of block `b`'s header (30_encoding.md R65). -/
def mmBlockPos (bytes : List Byte) (b : Nat) : Nat := (le32At bytes ((le32At bytes 18).toNat + 4 * b)).toNat

/-- Every block of a file whose header is valid passes the checks of R109 to R112. -/
def mmBlocksSound (bytes : List Byte) : Bool :=
  (List.range (le16At bytes 12).toNat).all fun b => mmBlockSound bytes (le32At bytes 14).toNat (mmBlockPos bytes b)

/-! ## MMCMP codes (30_encoding.md R68, R69) -/

/-- The low `n` bits of a value, least significant first. -/
def bitsOfNat (n v : Nat) : List Bool := (List.range n).map v.testBit

/-- The low `n` bits of a value, most significant first (43_pp20.md R124). -/
def msbBits (n v : Nat) : List Bool := (bitsOfNat n v).reverse

/-- The bits of an escape at width index `n` that names the width index `m`. -/
def escapeBits (is16 : Bool) (n m : Nat) : List Bool :=
  bitsOfNat (n + 1) (cmdTable is16 n + m / 2 ^ fetchTable is16 n) ++ bitsOfNat (fetchTable is16 n) m

/-- The bits of a code at width index `n`: a value below `CMD[n]` plain, a value from `0xF8` (`0xFFF0`) up after an
escape to the same width. -/
def codeBits (is16 : Bool) (n : Nat) : MmCode → List Bool
  | .value v =>
    if v < cmdTable is16 n then bitsOfNat (n + 1) v
    else escapeBits is16 n n ++ bitsOfNat (extBits is16) (v - extBase is16) ++
      (if v - extBase is16 = 2 ^ extBits is16 - 1 then [false] else [])
  | .width m => escapeBits is16 n m
  | .stop => escapeBits is16 n n ++ bitsOfNat (extBits is16) (2 ^ extBits is16 - 1) ++ [true]
  | .eod => []

/-- A code that can be written at width index `n`. -/
def codeOk (is16 : Bool) (n : Nat) : MmCode → Bool
  | .value v => decide (v < cmdTable is16 n) || (decide (extBase is16 ≤ v) && decide (v < extBase is16 + 2 ^ extBits is16))
  | .width m => decide (m < codeWidths is16) && decide (m ≠ n)
  | .stop => true
  | .eod => false

/-- The size of a sub-block as a destination: whole 16-bit samples in a 16-bit block (42_mmcmp.md R110). -/
def subBytes (is16 : Bool) (e : SubBlock) : Nat := e.size.toNat - if is16 then e.size.toNat % 2 else 0

/-- The data that the sub-blocks of a raw block take (42_mmcmp.md R111). -/
def subData (l : List SubBlock) : Nat := (l.map fun e => e.size.toNat).sum

/-! ## How the blocks of an MMCMP file run (42_mmcmp.md R106) -/

/-- The run after the blocks `0 .. k - 1` are decoded in turn, each with its number in `MM_BLK`. -/
inductive AfterBlocks (p : Params) (bytes : List Byte) (r : MmRun) : Nat → MmRun → Prop where
  | start : AfterBlocks p bytes r 0 r
  | next {k : Nat} {r1 r2 : MmRun} : AfterBlocks p bytes r k r1 →
      mmDecodeBlock p bytes k { r1 with mm := { r1.mm with blk := k } } = .ok r2 → AfterBlocks p bytes r (k + 1) r2

/-! ## PP20 tokens (30_encoding.md R72) -/

/-- The eight bits of a literal byte, most significant first. -/
def literalBits (b : Byte) : List Bool := (bitsOfByte b).reverse

/-- The codes that extend a count: each but the last has all its `bits` bits set, and a code follows only while the
count so far is below `limit`. -/
def countCodesOk (bits limit : Nat) : Nat → List Nat → Bool
  | count, [] => decide (limit ≤ count)
  | count, c :: t => decide (count < limit) && decide (c < 2 ^ bits) &&
      if c = 2 ^ bits - 1 then countCodesOk bits limit (count + c) t else decide (t = [])

/-- The bits of the codes that extend a count. -/
def countBits (bits : Nat) (codes : List Nat) : List Bool := codes.flatMap (msbBits bits)

/-- The bits of a literal run after its flag: its length codes, and its bytes from the last down. -/
def runBits (codes : List Nat) (data : List Byte) : List Bool := countBits 2 codes ++ data.reverse.flatMap literalBits

/-- A back-reference: the mode, the long-offset flag and the extension of the count (in mode 3 alone), the offset. -/
structure PpMatch where
  idx : Nat
  wide : Bool
  offset : Nat
  codes : List Nat
  deriving DecidableEq, Repr

/-- The bits of a back-reference's offset: the mode's, or 7 in mode 3 without the flag. -/
def PpMatch.offsetBits (u : Ppu) (m : PpMatch) : Nat :=
  if m.idx = 3 ∧ m.wide = false then 7 else ([u.mode0, u.mode1, u.mode2, u.mode3].getD m.idx 0).toNat

/-- A back-reference that can be written while `PP_LEFT` bytes are left. -/
def PpMatch.ok (u : Ppu) (m : PpMatch) : Bool :=
  decide (m.idx ≤ 3) && decide (m.offset < 2 ^ m.offsetBits u) &&
    if m.idx = 3 then countCodesOk 3 (u.left + 1) 5 m.codes else decide (m.codes = [])

/-- The bits of a back-reference. -/
def PpMatch.bits (u : Ppu) (m : PpMatch) : List Bool :=
  msbBits 2 m.idx ++ (if m.idx = 3 then [m.wide] else []) ++ msbBits (m.offsetBits u) m.offset ++ countBits 3 m.codes

/-- The bytes a back-reference copies, before they are cut to those left: the mode and 2, and the extension. -/
def PpMatch.count (m : PpMatch) : Nat := m.idx + 2 + m.codes.sum

/-! ## PP20 files (43_pp20.md R121) -/

/-- A token: a literal run (its length codes and its bytes, the lowest address first), or a back-reference. -/
inductive PpToken where
  | run (codes : List Nat) (data : List Byte)
  | copy (m : PpMatch)
  deriving DecidableEq, Repr

/-- The mode table of a file (R123), in a PPU at reset. -/
def fileModes (bytes : List Byte) : Ppu :=
  { Ppu.reset with
    mode0 := byteAt bytes 4
    mode1 := byteAt bytes 5
    mode2 := byteAt bytes 6
    mode3 := byteAt bytes 7 }

/-- The bits of tokens. A run has the flag 0, a back-reference the flag 1, but none right after a run. -/
def tokensBits (u : Ppu) : Bool → List PpToken → List Bool
  | _, [] => []
  | _, .run codes data :: t => false :: runBits codes data ++ tokensBits u true t
  | afterRun, .copy m :: t => (if afterRun then [] else [true]) ++ m.bits u ++ tokensBits u false t

/-- Tokens that can be written for `left` bytes: no run right after a run, and none once no byte is left. -/
def tokensOk (u : Ppu) : Bool → Nat → List PpToken → Bool
  | _, left, [] => decide (left = 0)
  | afterRun, left, .run codes data :: t =>
    !afterRun && decide (0 < left) && countCodesOk 2 left 1 codes && decide (data.length = min (1 + codes.sum) left) &&
      tokensOk u true (left - data.length) t
  | _, left, .copy m :: t =>
    decide (0 < left) && m.ok { u with left := left } && tokensOk u false (left - min m.count left) t

/-- `k` bytes copied below the bytes `out`, each from `offset + 1` above it, or 0 above them all (R127). -/
def copiedBelow (offset : Nat) : Nat → List Byte → List Byte
  | 0, out => out
  | k + 1, out => copiedBelow offset k (out.getD offset 0 :: out)

/-- What tokens write below the bytes `out` of an output of `n` bytes, the lowest address first. -/
def tokensOut (n : Nat) : List Byte → List PpToken → List Byte
  | out, [] => out
  | out, .run _ data :: t => tokensOut n (data ++ out) t
  | out, .copy m :: t => tokensOut n (copiedBelow m.offset (min m.count (n - out.length)) out) t

/-! ## IT symbols (30_encoding.md R56 to R61) -/

/-- What one symbol of an IT payload says. -/
inductive ItSymbol where
  /-- A sample's delta. -/
  | delta (d : Int)
  /-- A new width. -/
  | width (w : Nat)
  deriving DecidableEq, Repr

/-- The unsigned value a symbol starts with, in the current width (R58 to R61). -/
def symbolValue (is16 : Bool) (cur : Nat) : ItSymbol → Nat
  | .delta d => if cur < defWidth is16 then (d % (2 ^ cur : Nat)).toNat else (d % (2 ^ itW is16 : Nat)).toNat
  | .width w =>
    if cur ≤ 6 then 2 ^ (cur - 1)
    else if cur < defWidth is16 then ((2 ^ (cur - 1) : Nat) + lowerB is16 + convertWidth cur w).toNat
    else 2 ^ (cur - 1) + (w - 1)

/-- The bits of a symbol in the current width: a Mode A marker has its index after it (R58). -/
def symbolBits (is16 : Bool) (cur : Nat) (x : ItSymbol) : List Bool :=
  bitsOfNat cur (symbolValue is16 cur x) ++
    match x with
    | .delta _ => []
    | .width w => if cur ≤ 6 then bitsOfNat (fetchA is16) (convertWidth cur w) else []

/-- A symbol an encoder may emit in the current width (R61, R62): a delta the width carries, or another width. -/
def symbolOk (is16 : Bool) (cur : Nat) : ItSymbol → Bool
  | .delta d =>
    if cur ≤ 6 then decide (-(2 ^ (cur - 1) : Nat) < d) && decide (d < (2 ^ (cur - 1) : Nat))
    else if cur < defWidth is16 then
      decide (-(2 ^ (cur - 1) : Nat) + (upperB is16) < d) && decide (d < (2 ^ (cur - 1) : Nat) + lowerB is16)
    else true
  | .width w => decide (1 ≤ w) && decide (w ≤ defWidth is16) && decide (w ≠ cur)

/-- The width after a symbol. -/
def symbolNext (cur : Nat) : ItSymbol → Nat
  | .delta _ => cur
  | .width w => w

/-- The bits of a payload's symbols, from the current width on. -/
def payloadBits (is16 : Bool) : Nat → List ItSymbol → List Bool
  | _, [] => []
  | cur, x :: t => symbolBits is16 cur x ++ payloadBits is16 (symbolNext cur x) t

/-- Every symbol of a payload is one an encoder may emit. -/
def payloadOk (is16 : Bool) : Nat → List ItSymbol → Bool
  | _, [] => true
  | cur, x :: t => symbolOk is16 cur x && payloadOk is16 (symbolNext cur x) t

/-- The deltas a payload carries. -/
def payloadDeltas : List ItSymbol → List Int
  | [] => []
  | .delta d :: t => d :: payloadDeltas t
  | .width _ :: t => payloadDeltas t

/-- The samples the deltas stand for, from the integrators on (41_it_decompress.md R95). -/
def samplesOf (is215 is16 : Bool) : BitVec 16 → BitVec 16 → List Int → List (BitVec 16)
  | _, _, [] => []
  | m1, m2, d :: t =>
    let m1' := addMod (itW is16) m1 d
    let m2' := if is215 then addMod (itW is16) m2 m1'.toNat else m2
    (if is215 then m2' else m1') :: samplesOf is215 is16 m1' m2' t

/-! ## IT streams (30_encoding.md R55, 41_it_decompress.md R102) -/

/-- One block of a compressed sample: its size field, its symbols and the payload bytes there are. -/
structure ItBlock where
  size : Nat
  symbols : List ItSymbol
  payload : List Byte
  deriving DecidableEq, Repr

/-- The bytes of a block: the little-endian size field, and the payload (R55). -/
def ItBlock.bytes (b : ItBlock) : List Byte := BitVec.ofNat 8 b.size :: BitVec.ofNat 8 (b.size / 256) :: b.payload

/-- The payload holds the symbols' bits from its first bit on; what follows is padding (R61). It is as long as the size
field says, or shorter where the file was cut off (41_it_decompress.md R87). -/
def ItBlock.Ok (is16 : Bool) (b : ItBlock) : Prop :=
  payloadOk is16 (defWidth is16) b.symbols = true ∧ b.size < 2 ^ 16 ∧ b.payload.length ≤ b.size ∧
    ∃ pad, bitsOfBytes b.payload = payloadBits is16 (defWidth is16) b.symbols ++ pad

/-- The block whose size field is 0, which is skipped (41_it_decompress.md R84). -/
def ItBlock.empty : ItBlock := ⟨0, [], []⟩

/-- The blocks of a channel with `n` samples to go: each is empty, or carries the samples of a full block or those left
(R55). -/
def itBlocksOk (is16 : Bool) : Nat → List ItBlock → Prop
  | n, [] => n = 0
  | n, b :: t => 0 < n ∧
    (b = ItBlock.empty ∧ itBlocksOk is16 n t ∨
      b.Ok is16 ∧ (payloadDeltas b.symbols).length = min n (itBlockSamples is16) ∧
        itBlocksOk is16 (n - min n (itBlockSamples is16)) t)

/-- The samples the blocks of a channel stand for: the integrators run across the blocks, or start at zero in each
(conflict C4). -/
def channelSamples (reset : MemReset) (is215 is16 : Bool) (blocks : List ItBlock) : List (BitVec 16) :=
  match reset with
  | .perChannel => samplesOf is215 is16 0 0 (blocks.flatMap fun b => payloadDeltas b.symbols)
  | .perBlock => blocks.flatMap fun b => samplesOf is215 is16 0 0 (payloadDeltas b.symbols)

/-- The bytes of a compressed sample, one channel after the other (R55). -/
def itStream (channels : List (List ItBlock)) : List Byte := channels.flatMap fun c => c.flatMap ItBlock.bytes

end Sys2Proof.Machine
end

