-- ==== Sys2Proof/Certificates/Slice0/Obligations.lean ====
section
/-! DEFINITION. Certificates/Slice0/Obligations.lean: the statements about the model, each named for what it says.
Every statement holds for every value of the parameters of R6 and every answer of the oracle ALLOC, which a state
carries. Where a clause rests on a choice of the model and not on a rule, the docstring names the log entry. Where a
rule is the spec's own inference (it is marked `derived`), the docstring says so. -/

section Slice0

open Sys2Proof Sys2Proof.Machine

/-! ## The command word (30_encoding.md) -/

/-- Decoding an encoded command gives it back, for every value of every operand field (R50, R51). -/
def Obligations.DecodeOfEncode : Prop := ∀ i : Instr, decode (encode i) = .ok i

/-- A word the decoder accepts is the encoding of the command read: no bit of it is ignored (R50, R52). -/
def Obligations.EncodeOfDecode : Prop := ∀ (w : Word) (i : Instr), decode w = .ok i → encode i = w

/-- R50: a word is a command exactly when it has the command's fixed bits, and its operands are the fields of `ARG`. -/
def Obligations.CommandWordsByMatchAndMask : Prop :=
  ∀ w : Word,
    (decode w = .ok .brBind ↔ w &&& 0xFFFFFFFF#32 = 0x00000000#32) ∧
    (∀ n, decode w = .ok (.brReadbits n) ↔ w &&& 0xFFFFFFC0#32 = 0x01000000#32 ∧ n = w.extractLsb' 0 6) ∧
    (decode w = .ok .brGetpos ↔ w &&& 0xFFFFFFFF#32 = 0x02000000#32) ∧
    (∀ is215 is16, decode w = .ok (.itDecode is215 is16) ↔
      w &&& 0xFFFFFFFC#32 = 0x10000000#32 ∧ is215 = w.getLsbD 0 ∧ is16 = w.getLsbD 1) ∧
    (decode w = .ok .mmcmpProbe ↔ w &&& 0xFFFFFFFF#32 = 0x20000000#32) ∧
    (∀ verify, decode w = .ok (.mmcmpUnpack verify) ↔
      w &&& 0xFFFFFFFE#32 = 0x21000000#32 ∧ verify = w.getLsbD 0) ∧
    (decode w = .ok .pp20Probe ↔ w &&& 0xFFFFFFFF#32 = 0x30000000#32) ∧
    (∀ verify, decode w = .ok (.pp20Unpack verify) ↔
      w &&& 0xFFFFFFFE#32 = 0x31000000#32 ∧ verify = w.getLsbD 0)

/-- R52, R134: the step that writes a word that is no command, or `BR.READBITS` with `n` above 32, to `CMD` sets
`STATUS.CODE` to `REFUSED` and changes nothing else. That the write is taken off the host's waiting actions and that
`CMD` then holds the word are the model's (log entry 1). -/
def Obligations.ReservedWordsAreRefused : Prop :=
  ∀ (s : State) (w : Word) (rest : List HostAction), s.script = .write 0 w :: rest →
    (∀ i, decode w = .ok i → i.wellFormed = false) →
      step s = .next { s with script := rest, cmd := w, code := .refused }

/-- A word of every row of R50, read as R53 says. -/
def Obligations.WrittenWordsDecode : Prop :=
  decode 0x00000000#32 = .ok .brBind ∧ decode 0x01000009#32 = .ok (.brReadbits 9#6) ∧
    decode 0x02000000#32 = .ok .brGetpos ∧ decode 0x10000003#32 = .ok (.itDecode true true) ∧
    decode 0x10000001#32 = .ok (.itDecode true false) ∧ decode 0x20000000#32 = .ok .mmcmpProbe ∧
    decode 0x21000001#32 = .ok (.mmcmpUnpack true) ∧ decode 0x30000000#32 = .ok .pp20Probe ∧
    decode 0x31000000#32 = .ok (.pp20Unpack false)

/-! ## The step and the host's side -/

/-- R14: a write of a command's word to `CMD` executes it. The step takes the write off the host's waiting actions and
puts the word into `CMD` first (log entry 1). -/
def Obligations.StepRunsTheWrittenCommand : Prop :=
  ∀ (s : State) (w : Word) (rest : List HostAction) (i : Instr), s.script = .write 0 w :: rest → decode w = .ok i →
    step s = exec i { s with script := rest, cmd := w }

/-- R143: with no action of the host waiting the block is idle. -/
def Obligations.IdleStepChangesNothing : Prop := ∀ s : State, s.script = [] → step s = .next s

/-- R14: what a write of any other register than `CMD` does, and what a read of any register answers. Where the answer
stands is the model's (log entry 6). -/
def Obligations.HostRegisterAccess : Prop :=
  ∀ (s : State) (offset : Nat) (v : Word) (rest : List HostAction),
    (s.script = .write offset v :: rest → offset ≠ 0 →
      step s = .next { s with
        script := rest
        itChannels := if offset = 0x0C then v.setWidth 8 else s.itChannels
        itLength := if offset = 0x10 then v else s.itLength }) ∧
    (s.script = .read offset :: rest →
      step s = .next { s with
        script := rest
        hostData :=
          if offset = 0x04 then statusWord s
          else if offset = 0x08 then s.result
          else if offset = 0x0C then s.itChannels.setWidth 32
          else if offset = 0x10 then s.itLength
          else 0 })

/-- R15: the fields of `STATUS`, with the codes of R129 and the mirror of `BR_BOUND`. -/
def Obligations.StatusWordFields : Prop :=
  ∀ s : State,
    (statusWord s).extractLsb' 0 4 =
      (match s.code with
      | .ok => 0#4
      | .eod => 1#4
      | .refused => 2#4
      | .failure => 3#4
      | .resource => 4#4) ∧
    (statusWord s).getLsbD 4 = s.outValid ∧ ((statusWord s).getLsbD 5 = true ↔ s.brSource ≠ none) ∧
    ∀ i, 6 ≤ i → (statusWord s).getLsbD i = false

/-- R27, R142: every register has its table's value after reset, whether the machine starts or the host resets it, and
the host's source and samples stay. That the source's cursor, the parameters, the oracle's answers, the waiting actions
and the host's last datum stay too is the model's reading (log entry 17). -/
def Obligations.ResetSetsEveryRegister : Prop :=
  State.reset.RegistersReset ∧
    ∀ (s : State) (rest : List HostAction), s.script = .reset :: rest →
      ∃ t, step s = .next t ∧ t.RegistersReset ∧ t.src = s.src ∧ t.smp = s.smp ∧ t.params = s.params ∧
        t.allocAnswers = s.allocAnswers ∧ t.script = rest ∧ t.hostData = s.hostData

/-- R148: presenting a source does not rebind the BR unit, which keeps the source it was bound to, at its cursor. -/
def Obligations.PresentDoesNotRebind : Prop :=
  ∀ (s : State) (bytes : List Byte) (rest : List HostAction), s.script = .present bytes :: rest →
    bytes.length < 2 ^ 32 →
      ∃ t, step s = .next t ∧ t.src = ⟨bytes, 0⟩ ∧ t.brSource = s.brSource ∧ t.brBound = s.brBound ∧
        { t with src := s.src, brSrc := s.brSrc } = { s with script := rest }

/-- R32: seeking and skipping back move the presented source's cursor when the target is inside it and answer true,
else change nothing and answer false. The answer stands in `hostData` as 1 or 0 (log entry 6). -/
def Obligations.SeekAndSkipBack : Prop :=
  ∀ (s : State) (n : Nat) (rest : List HostAction),
    (s.script = .seek n :: rest →
      step s = .next (if n ≤ s.src.bytes.length then
          { s with script := rest, src := { s.src with pos := n }, hostData := 1 }
        else { s with script := rest, hostData := 0 })) ∧
    (s.script = .skipBack n :: rest →
      step s = .next (if n ≤ s.src.pos then
          { s with script := rest, src := { s.src with pos := s.src.pos - n }, hostData := 1 }
        else { s with script := rest, hostData := 0 }))

/-- R36, R53: an attached buffer holds the host's elements, and nothing else changes. That its memory is in canonical
form is about the model's representation (log entry 16). -/
def Obligations.AttachedElementsAreRead : Prop :=
  ∀ (s : State) (elems : List (BitVec 16)) (rest : List HostAction), s.script = .attach elems :: rest →
    ∃ t, step s = .next t ∧ t.smp.len = elems.length ∧ (∀ i, smpRead t.smp i = elems.getD i 0) ∧
      Memory.wf t.smp.cells = true ∧ { t with smp := s.smp } = { s with script := rest }

/-- R30 and R33: a read gives the next `min(n, length - cursor)` bytes and moves the cursor past them, fewer than asked
for only at the end; a chunk is those bytes as a source of their own, at cursor 0. -/
def Obligations.SourceReadsAndChunks : Prop :=
  ∀ (s : ByteSource) (n : Nat), s.pos ≤ s.bytes.length →
    (srcRead s n).1.length = min n (s.bytes.length - s.pos) ∧
    (∀ i, i < min n (s.bytes.length - s.pos) → (srcRead s n).1[i]? = s.bytes[s.pos + i]?) ∧
    (srcRead s n).2 = { s with pos := s.pos + min n (s.bytes.length - s.pos) } ∧
    ((srcRead s n).1.length < n → (srcRead s n).2.pos = s.bytes.length) ∧
    (s.pos = s.bytes.length → (srcRead s n).1 = []) ∧
    (srcChunk s n).1 = ⟨(srcRead s n).1, 0⟩ ∧ (srcChunk s n).2 = (srcRead s n).2

/-! ## The BR unit (40_bitreader.md) -/

/-- R81: `BR.BIND` always completes; the unit then reads the presented source from its cursor on, and nothing else of
the state changes. -/
def Obligations.BindStartsAtTheCursor : Prop :=
  ∀ s : State, ∃ t, exec .brBind s = .next t ∧
    t = { s with
      brSrc := .presented
      br := { s.br with acc := 0, nbits := 0, bufSize := 0, bufPos := 0 }
      result := 0
      code := .ok } ∧
    t.brSource = some s.src ∧ t.brBound = true ∧ streamBits t.br s.src = bitsOfBytes (restBytes s.src)

/-- R40, R76, R82: `BR.READBITS n` returns the next `n` bits of the stream, the first as bit 0, and takes exactly those
bits from it, when the stream holds them; of the state only the instance, its source's cursor, `RESULT` and
`STATUS.CODE` change. R76: bits that `ACC` holds already are served from it alone; else no byte more than needed enters
it, so that at most 7 bits are left (log entry 18). -/
def Obligations.ReadbitsReturnsTheNextBits : Prop :=
  ∀ (s : State) (n : BitVec 6) (src : ByteSource), s.ReaderSound → s.brSource = some src → n.toNat ≤ 32 →
    n.toNat ≤ (streamBits s.br src).length →
      ∃ (rd' : Reader) (src' : ByteSource) (v : Word),
        exec (.brReadbits n) s = .next { s.setBr rd' src' with result := v, code := .ok } ∧
        v.toNat = lsbValue ((streamBits s.br src).take n.toNat) ∧
        streamBits rd' src' = (streamBits s.br src).drop n.toNat ∧
        rd'.Sound s.params.bufBytes ∧ src'.bytes = src.bytes ∧ src'.pos ≤ src'.bytes.length ∧
        (n.toNat ≤ s.br.nbits → rd' = { s.br with acc := rd'.acc, nbits := s.br.nbits - n.toNat } ∧ src' = src) ∧
        (s.br.nbits < n.toNat → rd'.nbits ≤ 7)

/-- R77: when the stream holds too few bits a read returns no value; the bits are all in the accumulator, none
consumed; the staging buffer is empty and the cursor at the end; a later read of at most those bits returns them, and a
longer one ends the same way again and changes nothing. It holds of every instance; of the BR unit's, `BR.READBITS`
ends `EOD` with `RESULT` unchanged. -/
def Obligations.ReadbitsAtEndOfData : Prop :=
  (∀ (B n : Nat) (rd : Reader) (src : ByteSource), 0 < B → n ≤ 32 → rd.Sound B → src.pos ≤ src.bytes.length →
    (streamBits rd src).length < n →
      ∃ (rd' : Reader) (src' : ByteSource), readBits B n rd src = (none, rd', src') ∧
        accBits rd' = streamBits rd src ∧ rd'.nbits = (streamBits rd src).length ∧ rd'.bufPos = rd'.bufSize ∧
        src'.bytes = src.bytes ∧ src'.pos = src.bytes.length ∧
        (∀ m, m ≤ rd'.nbits → (readBits B m rd' src').1 = some (lsbValue ((streamBits rd src).take m))) ∧
        ∀ m, rd'.nbits < m → readBits B m rd' src' = (none, rd', src')) ∧
  ∀ (s : State) (n : BitVec 6) (src : ByteSource), s.ReaderSound → s.brSource = some src → n.toNat ≤ 32 →
    (streamBits s.br src).length < n.toNat →
      exec (.brReadbits n) s = .next { s.setBr (readBits s.params.bufBytes n.toNat s.br src).2.1
        (readBits s.params.bufBytes n.toNat s.br src).2.2 with code := .eod }

/-- R82, R83, R134: `BR.READBITS` and `BR.GETPOS` are refused while the unit is unbound, and `BR.READBITS` for `n`
above 32; a read of no bits returns 0 and fetches nothing. -/
def Obligations.ReadbitsAndGetposRefused : Prop :=
  ∀ (s : State) (n : BitVec 6),
    (s.brSource = none ∨ 32 < n.toNat → exec (.brReadbits n) s = .next { s with code := .refused }) ∧
    (s.brSource = none → exec .brGetpos s = .next { s with code := .refused }) ∧
    (s.brSource ≠ none → exec (.brReadbits 0) s = .next { s with result := 0, code := .ok })

/-- R79, R83: `BR.GETPOS` returns the source's cursor less the staged bytes not yet used, and changes nothing else. -/
def Obligations.GetposIsTheFirstByteNotRead : Prop :=
  ∀ (s : State) (src : ByteSource), s.ReaderSound → s.brSource = some src → s.br.bufSize ≤ src.pos + s.br.bufPos →
    ∃ v : Word, exec .brGetpos s = .next { s with result := v, code := .ok } ∧
      v.toNat + s.br.bufSize = src.pos + s.br.bufPos

/-- `BR.GETPOS` returns the position modulo `2^32` wherever the host has moved the bound source's cursor, and changes
nothing else. That this is what `zext_32` makes of a negative position is the model's reading (log entry 5). -/
def Obligations.GetposIsThePositionModulo : Prop :=
  ∀ (s : State) (src : ByteSource), s.brSource = some src →
    ∃ v : Word, exec .brGetpos s = .next { s with result := v, code := .ok } ∧
      (v.toNat : Int) = ((src.pos : Int) - s.br.bufSize + s.br.bufPos) % 2 ^ 32

/-- R80, which the spec marks as derived from R75 and R79: the source's cursor is ahead of the position by the staged
bytes not yet used, from 0 to `BUF_BYTES - 1` of them after a successful read; so it is after a successful
`BR.READBITS`. R75, R76: a successful read takes the bytes it needs from the staging buffer, which is filled, with up to
`BUF_BYTES` bytes at once, only when it is empty: the buffer and the cursor are then as that leaves them. -/
def Obligations.CursorRunsAheadByTheStagedBytes : Prop :=
  (∀ (rd : Reader) (src : ByteSource), (src.pos : Int) - getPosition rd src = rd.bufSize - rd.bufPos) ∧
  (∀ (B n v : Nat) (rd rd' : Reader) (src src' : ByteSource), 0 < B → n ≤ 32 → rd.Sound B →
    src.pos ≤ src.bytes.length → readBits B n rd src = (some v, rd', src') →
      rd'.bufPos ≤ rd'.bufSize ∧ rd'.bufSize - rd'.bufPos ≤ B - 1 ∧
      BytesTaken B ((n - rd.nbits + 7) / 8) rd src rd' src') ∧
  ∀ (s t : State) (n : BitVec 6), s.ReaderSound → exec (.brReadbits n) s = .next t → t.code = .ok →
    ∃ src src', s.brSource = some src ∧ t.brSource = some src' ∧
      (src'.pos : Int) - getPosition t.br src' = t.br.bufSize - t.br.bufPos ∧
      t.br.bufPos ≤ t.br.bufSize ∧ t.br.bufSize - t.br.bufPos ≤ t.params.bufBytes - 1 ∧
      BytesTaken s.params.bufBytes ((n.toNat - s.br.nbits + 7) / 8) s.br src t.br src'

/-- R75: the size of the staging buffer changes nothing a caller of `ReadBits` sees: two instances over equal streams
answer alike and stay over equal streams, and over the same bytes with as many bits held they stay at equal
positions. -/
def Obligations.StagingSizeIsInvisibleToReads : Prop :=
  ∀ (b1 b2 n : Nat) (rd1 rd2 : Reader) (src1 src2 : ByteSource), 0 < b1 → 0 < b2 → n ≤ 32 →
    rd1.Sound b1 → rd2.Sound b2 → src1.pos ≤ src1.bytes.length → src2.pos ≤ src2.bytes.length →
    streamBits rd1 src1 = streamBits rd2 src2 →
      (readBits b1 n rd1 src1).1 = (readBits b2 n rd2 src2).1 ∧
      streamBits (readBits b1 n rd1 src1).2.1 (readBits b1 n rd1 src1).2.2 =
        streamBits (readBits b2 n rd2 src2).2.1 (readBits b2 n rd2 src2).2.2 ∧
      (src1.bytes = src2.bytes → rd1.nbits = rd2.nbits →
        (readBits b1 n rd1 src1).2.1.nbits = (readBits b2 n rd2 src2).2.1.nbits ∧
        getPosition (readBits b1 n rd1 src1).2.1 (readBits b1 n rd1 src1).2.2 =
          getPosition (readBits b2 n rd2 src2).2.1 (readBits b2 n rd2 src2).2.2)

/-- R78, which the spec marks as derived from R75 and R76: a read raises `EOD` exactly when `n` exceeds the bits the
stream still holds, of every instance; of the BR unit's, `BR.READBITS` then ends `EOD`. -/
def Obligations.EndOfDataExactlyWhenShort : Prop :=
  (∀ (B n : Nat) (rd : Reader) (src : ByteSource), 0 < B → n ≤ 32 → rd.Sound B → src.pos ≤ src.bytes.length →
    ((readBits B n rd src).1 = none ↔
      rd.nbits + 8 * ((rd.bufSize - rd.bufPos) + (src.bytes.length - src.pos)) < n)) ∧
  ∀ (s : State) (n : BitVec 6) (src : ByteSource), s.ReaderSound → s.brSource = some src → n.toNat ≤ 32 →
    ((∃ t, exec (.brReadbits n) s = .next t ∧ t.code = .eod) ↔
      s.br.nbits + 8 * ((s.br.bufSize - s.br.bufPos) + (src.bytes.length - src.pos)) < n.toNat)

/-! ## The IT decompressor (41_it_decompress.md) -/

/-- R84, R131, and R101, which the spec marks as derived: whatever the stream holds, `IT.DECODE` completes with `OK`
and `RESULT` 0 when there is a channel and the host attached `C * L` elements; the samples and the cursor are what the
channels leave, decoded in turn, each from where the one before it left the cursor (R100, which the spec marks as
derived there). That the ITD's registers then hold what R84 wrote last is the model's reading (log entry 12). -/
def Obligations.ItDecodeCompletes : Prop :=
  ∀ (s : State) (is215 is16 : Bool), s.itChannels ≠ 0 →
    s.itChannels.toNat * s.itLength.toNat ≤ s.smp.len →
      ∃ t r, exec (.itDecode is215 is16) s = .next t ∧ t.code = .ok ∧ t.result = 0 ∧ t.itd.st = .idle ∧
        t.itd.is215 = is215 ∧ t.itd.is16 = is16 ∧ t.itd.c = s.itChannels ∧ t.itd.l = s.itLength ∧
        AfterChannels s.params
          ⟨{ s.itd with is215 := is215, is16 := is16, c := s.itChannels, l := s.itLength }, s.src, s.smp⟩
          s.itChannels.toNat r ∧
        t.src = r.src ∧ t.smp = r.smp

/-- R85: `IT.DECODE` is refused when `C = 0`, and then only. -/
def Obligations.ItDecodeRefusedWithoutChannels : Prop :=
  ∀ (s : State) (is215 is16 : Bool),
    (s.itChannels = 0 → exec (.itDecode is215 is16) s = .next { s with code := .refused }) ∧
    ∀ t, exec (.itDecode is215 is16) s = .next t → t.code = .refused → s.itChannels = 0

/-- What `IT.DECODE` leaves (R84, R29, R36, and R96, which the spec marks as derived): everything but the ITD's
registers, the presented source's cursor, the samples, `RESULT` and `STATUS.CODE`; the source's bytes; every element
from `C * L` on; and, of each channel, every element from the number of samples on that the channel wrote. -/
def Obligations.ItDecodeFrame : Prop :=
  ∀ (s t : State) (is215 is16 : Bool), Memory.wf s.smp.cells = true → exec (.itDecode is215 is16) s = .next t →
    { t with itd := s.itd, src := s.src, smp := s.smp, result := s.result, code := s.code } = s ∧
    t.src.bytes = s.src.bytes ∧ t.smp.len = s.smp.len ∧
    (∀ a, s.itChannels.toNat * s.itLength.toNat ≤ a → smpRead t.smp a = smpRead s.smp a) ∧
    ∀ c, c < s.itChannels.toNat →
      ∃ r, itChannels s.params (c + 1) 0 (itStart is215 is16 s) = .ok r ∧ r.itd.written ≤ s.itLength.toNat ∧
        ∀ k, r.itd.written ≤ k →
          smpRead t.smp (c + k * s.itChannels.toNat) = smpRead s.smp (c + k * s.itChannels.toNat)

/-- R87: with fewer than 2 bytes left a block header consumes nothing and ends the channel. Else it takes 2 bytes, the
size, and, when that is not 0, the chunk of so many bytes, or of those that are left (R33), for a new `IT_BR`; the
integrators restart when `IT_MEM_RESET = PerBlock`; nothing else changes. R84: with `L = 0`, or with fewer than 2 bytes
left in the source, `IT.DECODE` reads nothing and writes nothing. -/
def Obligations.BlockHeaderBoundsTheBlock : Prop :=
  (∀ (p : Params) (r : ItRun), r.src.bytes.length < r.src.pos + 2 →
    itBlockHeader p r = (false, { r with itd := { r.itd with st := .hdr } })) ∧
  (∀ (p : Params) (r : ItRun) (b0 b1 : Byte) (rest : List Byte) (size : Nat),
    restBytes r.src = b0 :: b1 :: rest → size = b0.toNat + 256 * b1.toNat →
      ∃ br : PrivateReader,
        itBlockHeader p r = (true, { r with
          src := { r.src with pos := r.src.pos + 2 + min size rest.length }
          itd := { r.itd with
            st := .hdr
            blkSize := BitVec.ofNat 16 size
            br := br
            mem1 := if size ≠ 0 ∧ p.itMemReset = .perBlock then 0 else r.itd.mem1
            mem2 := if size ≠ 0 ∧ p.itMemReset = .perBlock then 0 else r.itd.mem2 } }) ∧
        (size = 0 → br = r.itd.br) ∧
        (size ≠ 0 → br.Sound p.bufBytes ∧ br.bits = bitsOfBytes (rest.take size))) ∧
  ∀ (s : State) (is215 is16 : Bool), s.itChannels ≠ 0 →
    s.itLength = 0 ∨ s.src.bytes.length < s.src.pos + 2 →
      ∃ t, exec (.itDecode is215 is16) s = .next t ∧ t.code = .ok ∧ t.src = s.src ∧ t.smp = s.smp

/-- R86, R95, R96: a channel writes elements `chn + k * C` for `k` below the samples it decodes, at most `L` of them,
and no other element. -/
def Obligations.ItChannelWritesItsElements : Prop :=
  ∀ (p : Params) (chn : Nat) (r r' : ItRun), Memory.wf r.smp.cells = true → itChannel p chn r = .ok r' →
    r'.itd.written ≤ r.itd.l.toNat ∧
    ∀ a, (∀ k, k < r'.itd.written → a ≠ chn + k * r.itd.c.toNat) → smpRead r'.smp a = smpRead r.smp a

/-- R95: one sample: the integrators step modulo `2^W`, the output goes to the element at `IT_WRITEPOS` and to no
other, and the counters move; a delta counts modulo `2^W`, so a pattern and its sign extension write the same. -/
def Obligations.SampleWriteStepsTheIntegrators : Prop :=
  ∀ (d : Int) (r : ItRun), Memory.wf r.smp.cells = true → r.itd.writePos < r.smp.len →
    ∃ r', itWrite d r = .ok r' ∧
      (r'.itd.mem1.toNat : Int) = ((r.itd.mem1.toNat : Int) + d) % ((2 ^ itW r.itd.is16 : Nat) : Int) ∧
      (r.itd.is215 = true →
        r'.itd.mem2.toNat = (r.itd.mem2.toNat + r'.itd.mem1.toNat) % 2 ^ itW r.itd.is16) ∧
      (r.itd.is215 = false → r'.itd.mem2 = r.itd.mem2) ∧
      smpRead r'.smp r.itd.writePos = (if r.itd.is215 then r'.itd.mem2 else r'.itd.mem1) ∧
      (∀ a, a ≠ r.itd.writePos → smpRead r'.smp a = smpRead r.smp a) ∧
      r'.itd.writePos = r.itd.writePos + r.itd.c.toNat ∧ r'.itd.written = r.itd.written + 1 ∧
      r'.itd.curLen = r.itd.curLen - 1 ∧ r'.src = r.src ∧ r'.smp.len = r.smp.len ∧
      { r'.itd with
        mem1 := r.itd.mem1
        mem2 := r.itd.mem2
        writePos := r.itd.writePos
        written := r.itd.written
        curLen := r.itd.curLen } = r.itd ∧
      ∀ d' : Int, d' % ((2 ^ itW r.itd.is16 : Nat) : Int) = d % ((2 ^ itW r.itd.is16 : Nat) : Int) →
        itWrite d' r = .ok r'

/-- R94, whose last sentence the spec marks as derived, with R57's inverse, marked so too: an index names a width,
one higher from the current width on; the widths named by `0 .. defWidth - 2` are those of `[1, defWidth]` but the
current one. -/
def Obligations.ChangeWidthSkipsTheCurrentWidth : Prop :=
  (∀ cur idx : Nat, (idx + 1 < cur → changeWidth cur idx = idx + 1) ∧ (cur ≤ idx + 1 → changeWidth cur idx = idx + 2)) ∧
  (∀ (is16 : Bool) (cur : Nat), 1 ≤ cur → cur ≤ defWidth is16 →
    (∀ idx, idx ≤ defWidth is16 - 2 →
      1 ≤ changeWidth cur idx ∧ changeWidth cur idx ≤ defWidth is16 ∧ changeWidth cur idx ≠ cur ∧
        convertWidth cur (changeWidth cur idx) = idx) ∧
    ∀ w, 1 ≤ w → w ≤ defWidth is16 → w ≠ cur →
      changeWidth cur (convertWidth cur w) = w ∧ convertWidth cur w ≤ defWidth is16 - 2) ∧
  changeWidth 9 2 = 3 ∧ changeWidth 3 5 = 7 ∧ changeWidth 3 2 = 4

/-- R22: the constants of either depth (`lowerB` and `upperB`: log entry 9). R92, which the spec marks as derived from
R94 and R57: the Mode B interval, -4 to 3 or -8 to 7, has one value for each width but the current one, its indices are
those that `ChangeWidth` maps into `[1, defWidth]`, and it starts at no negative value. -/
def Obligations.ModeBIntervalNamesTheOtherWidths : Prop :=
  ∀ is16 : Bool,
    itW is16 = (if is16 then 16 else 8) ∧ defWidth is16 = (if is16 then 17 else 9) ∧
    fetchA is16 = (if is16 then 4 else 3) ∧ itBlockSamples is16 = (if is16 then 0x4000 else 0x8000) ∧
    lowerB is16 = (if is16 then -8 else -4) ∧ upperB is16 = (if is16 then 7 else 3) ∧
    upperB is16 - lowerB is16 + 1 = (defWidth is16 : Int) - 1 ∧
    (∀ cur idx, 1 ≤ cur → cur ≤ defWidth is16 → (changeWidth cur idx ≤ defWidth is16 ↔ idx ≤ defWidth is16 - 2)) ∧
    ∀ w, 7 ≤ w → w < defWidth is16 → 0 ≤ ((2 ^ (w - 1) : Nat) : Int) + lowerB is16

/-- R90, R93, R98, R99: a width above `defWidth`, or an end of data, in a symbol's first field or in the index of a
Mode A marker, ends the block; the channel ends too when `IT_ABORT_SCOPE = Channel`; nothing is written and the
half-read symbol has no effect. A Mode C marker makes its low bits plus 1 the width, be it above `defWidth` (the
corrupt stream of R63), equal to it or below. R88, R89: a block starts in phase `SYM` at `defWidth` with a full block's
samples to go, or those left, and takes symbols until none is to go or one ends it, as that symbol left it. R84, R86,
R98, R99: a channel starts with nothing written, at its own first element, and takes blocks until its samples are
written, it is over, or no header is left. -/
def Obligations.OverflowAndEndOfDataEndTheBlock : Prop :=
  (∀ (p : Params) (r : ItRun), r.itd.br.Sound p.bufBytes → r.itd.br.bits.length ≤ 8 * r.itd.blkSize.toNat →
    LoopEnds (itSymbolTurn p) { r with itd := { r.itd with
        st := .sym
        curLen := min (r.itd.l.toNat - r.itd.written) (if r.itd.is16 then 0x4000 else 0x8000)
        width := if r.itd.is16 then 17 else 9 } }
      (itDecodeBlock p r)) ∧
  (∀ (p : Params) (chn : Nat) (r : ItRun),
    LoopEnds (itBlockTurn p) { r with itd := { r.itd with
        chn := chn
        st := .chan
        written := 0
        writePos := chn
        chanOver := false
        mem1 := if p.itMemReset = .perChannel then 0 else r.itd.mem1
        mem2 := if p.itMemReset = .perChannel then 0 else r.itd.mem2 } }
      (itChannel p chn r)) ∧
  ∀ (p : Params) (r : ItRun),
    (∀ r', itSymbol p r = .ok (.endBlock, r') →
      r' = { r with itd := { r.itd with
        br := r'.itd.br
        chanOver := if p.itAbortScope = .channel then true else r.itd.chanOver } }) ∧
    (defWidth r.itd.is16 < r.itd.width → ∃ r', itSymbol p r = .ok (.endBlock, r') ∧ r'.itd.br = r.itd.br) ∧
    (r.itd.width ≤ defWidth r.itd.is16 → r.itd.br.Sound p.bufBytes → r.itd.br.bits.length < r.itd.width →
      ∃ r', itSymbol p r = .ok (.endBlock, r')) ∧
    (∀ rest, 1 ≤ r.itd.width → r.itd.width ≤ 6 → r.itd.br.Sound p.bufBytes →
      r.itd.br.bits = bitsOfNat r.itd.width (2 ^ (r.itd.width - 1)) ++ rest → rest.length < fetchA r.itd.is16 →
        ∃ r', itSymbol p r = .ok (.endBlock, r')) ∧
    ∀ (m : Nat) (rest : List Bool), r.itd.width = defWidth r.itd.is16 → m < 2 ^ (r.itd.width - 1) →
      r.itd.br.Sound p.bufBytes → r.itd.br.bits = bitsOfNat r.itd.width (2 ^ (r.itd.width - 1) + m) ++ rest →
        ∃ br : PrivateReader, br.Sound p.bufBytes ∧ br.bits = rest ∧
          itSymbol p r = .ok (.again, { r with itd := { r.itd with br := br, width := m + 1 } })

/-- R56, R58 to R61, and R57's formula and R62, which the spec marks as derived: a symbol an encoder may emit in the
current width is read as what it stands for, from exactly its bits: a delta is written as a sample, a width becomes
the current one. -/
def Obligations.SymbolsDecodeAsEncoded : Prop :=
  ∀ (p : Params) (r : ItRun) (x : ItSymbol) (rest : List Bool), r.itd.br.Sound p.bufBytes →
    1 ≤ r.itd.width → r.itd.width ≤ defWidth r.itd.is16 → symbolOk r.itd.is16 r.itd.width x = true →
    r.itd.br.bits = symbolBits r.itd.is16 r.itd.width x ++ rest →
      ∃ br : PrivateReader, br.Sound p.bufBytes ∧ br.bits = rest ∧
        itSymbol p r =
          match x with
          | .delta d => itSample d { r with itd := { r.itd with br := br } }
          | .width w => .ok (.again, { r with itd := { r.itd with br := br, width := w } })

/-- R102: a compressed sample of `C` channels whose blocks carry symbols an encoder may emit is decoded to the samples
its deltas stand for, channel by channel, interleaved; the cursor ends just past it (R100, its last sentence). R84, R87:
blocks with a size field of 0 may stand anywhere among them and are skipped, and of the last block the file may hold
fewer bytes than its size field says, as long as they hold its symbols. -/
def Obligations.EncodedSampleIsDecoded : Prop :=
  ∀ (s : State) (is215 is16 : Bool) (channels : List (List ItBlock)) (rest : List Byte),
    s.itChannels ≠ 0 → s.itChannels.toNat = channels.length →
    (∀ c ∈ channels, itBlocksOk is16 s.itLength.toNat c) →
    s.src.pos ≤ s.src.bytes.length → restBytes s.src = itStream channels ++ rest →
    (∀ i b, channels.flatten[i]? = some b →
      b.payload.length = b.size ∨ b.payload.length < b.size ∧ i + 1 = channels.flatten.length ∧ rest = []) →
    channels.length * s.itLength.toNat ≤ s.smp.len → Memory.wf s.smp.cells = true →
      ∃ t, exec (.itDecode is215 is16) s = .next t ∧ t.code = .ok ∧
        (∀ c k, c < channels.length → k < s.itLength.toNat →
          smpRead t.smp (c + k * channels.length) =
            (channelSamples s.params.itMemReset is215 is16 (channels.getD c [])).getD k 0) ∧
        restBytes t.src = rest

/-! ## The container units (42_mmcmp.md, 43_pp20.md) -/

/-- R103, R104: `MMCMP.PROBE` always completes, with the verdict on the first 24 bytes, and changes nothing else. -/
def Obligations.MmcmpProbeVerdict : Prop :=
  ∀ s : State, exec .mmcmpProbe s = .next { s with
    result := if s.src.bytes.length < 24 then 1 else if mmHeaderValid s.params s.src.bytes then 0 else 2
    code := .ok }

/-- R118, R119: `PP20.PROBE` always completes, with the verdict on the first 8 bytes, and changes nothing else. -/
def Obligations.Pp20ProbeVerdict : Prop :=
  ∀ s : State, exec .pp20Probe s = .next { s with
    result := if s.src.bytes.length < 8 then 1 else if ppHeaderValid s.src.bytes then 0 else 2
    code := .ok }

/-- R105 and R120, which the spec marks as derived from its commands' rules: what an unpack accepts probes `Success`;
what fails the header test probes `Failure` or `NeedMoreData`. -/
def Obligations.UnpackedFilesProbeSuccess : Prop :=
  ∀ (s t u : State) (verify : Bool),
    (exec (.mmcmpUnpack verify) s = .next t → exec .mmcmpProbe s = .next u → t.result = 1 → u.result = 0) ∧
    (exec (.pp20Unpack verify) s = .next t → exec .pp20Probe s = .next u → t.result = 1 → u.result = 0) ∧
    (exec .mmcmpProbe s = .next u → s.src.bytes.length < 24 ∨ mmHeaderValid s.params s.src.bytes = false →
      u.result = 1 ∨ u.result = 2) ∧
    (exec .pp20Probe s = .next u → s.src.bytes.length < 8 ∨ ppHeaderValid s.src.bytes = false →
      u.result = 1 ∨ u.result = 2)

/-- R106, R121: a verify-only unpack always completes: it drops the buffer and answers whether the header is valid;
the MMU has then loaded the header's fields (R64). That a dropped buffer is gone and `OUT_LEN` 0 is the model's
reading (log entry 8); so is that the MMU's registers keep the header's fields after the command (log entry 12). -/
def Obligations.VerifyOnlyUnpackAnswersForTheHeader : Prop :=
  ∀ s : State,
    (∃ m : Mmu, exec (.mmcmpUnpack true) s = .next
        (if 24 ≤ s.src.bytes.length ∧ mmHeaderValid s.params s.src.bytes = true then
          { s with out := none, outLen := 0, outValid := false, mmu := m, result := 1, code := .ok }
        else { s with out := none, outLen := 0, outValid := false, result := 0, code := .failure }) ∧
      m.version.toNat = le16Nat s.src.bytes 10 ∧ m.nblocks.toNat = le16Nat s.src.bytes 12 ∧
      m.filesize.toNat = le32Nat s.src.bytes 14 ∧ m.blkTable.toNat = le32Nat s.src.bytes 18 ∧
      m.glbComp = byteAt s.src.bytes 22 ∧ m.fmtComp = byteAt s.src.bytes 23) ∧
    exec (.pp20Unpack true) s = .next
      (if 8 ≤ s.src.bytes.length ∧ ppHeaderValid s.src.bytes = true then
        { s with out := none, outLen := 0, outValid := false, result := 1, code := .ok }
      else { s with out := none, outLen := 0, outValid := false, result := 0, code := .failure })

/-- R106, R121: a source too short for its header, or one with an invalid header, fails the unpack; the oracle ALLOC is not
asked, and nothing but the output, `RESULT` and the code changes. R107, R122: a declared size over the ratio, a block table past the end, a source too short or of odd length where
that is not allowed, or a declared length of 0 fails the unpack before the oracle ALLOC is asked; `PP_DSTLEN` has been
loaded when the source's length is right. That no buffer is there is the model's reading (log entry 8), and so is that
`PP_DSTLEN` keeps its value after the command (log entry 12). -/
def Obligations.ChecksBeforeAllocFailTheUnpack : Prop :=
  ∀ s : State,
    (¬(24 ≤ s.src.bytes.length ∧ mmHeaderValid s.params s.src.bytes = true) →
      exec (.mmcmpUnpack false) s = .next
        { s with out := none, outLen := 0, outValid := false, result := 0, code := .failure }) ∧
    (¬(8 ≤ s.src.bytes.length ∧ ppHeaderValid s.src.bytes = true) →
      exec (.pp20Unpack false) s = .next
        { s with out := none, outLen := 0, outValid := false, result := 0, code := .failure }) ∧
    (24 ≤ s.src.bytes.length → mmHeaderValid s.params s.src.bytes = true → mmChecksPass s.params s.src.bytes = false →
      ∃ t, exec (.mmcmpUnpack false) s = .next t ∧ t.code = .failure ∧ t.result = 0 ∧ t.outValid = false ∧
        t.out = none ∧ t.allocAnswers = s.allocAnswers) ∧
    (8 ≤ s.src.bytes.length → ppHeaderValid s.src.bytes = true → ppChecksPass s.params s.src.bytes = false →
      ∃ t, exec (.pp20Unpack false) s = .next t ∧ t.code = .failure ∧ t.result = 0 ∧ t.outValid = false ∧
        t.out = none ∧ t.allocAnswers = s.allocAnswers ∧
        (12 ≤ s.src.bytes.length → s.params.pp20RequireEven = false ∨ s.src.bytes.length % 2 = 0 →
          t.ppu.dstLen.toNat = be24Nat s.src.bytes (s.src.bytes.length - 4)))

/-- R39, R108, R132: when the oracle ALLOC refuses, the unpack ends `RESOURCE` with no buffer, having asked once. That
no buffer is there is the model's reading (log entry 8). -/
def Obligations.RefusedAllocationIsResource : Prop :=
  ∀ (s : State) (rest : List Bool), s.allocAnswers = false :: rest →
    (24 ≤ s.src.bytes.length → mmHeaderValid s.params s.src.bytes = true → mmChecksPass s.params s.src.bytes = true →
      ∃ t, exec (.mmcmpUnpack false) s = .next t ∧ t.code = .resource ∧ t.result = 0 ∧ t.outValid = false ∧
        t.out = none ∧ t.allocAnswers = rest) ∧
    (8 ≤ s.src.bytes.length → ppHeaderValid s.src.bytes = true → ppChecksPass s.params s.src.bytes = true →
      ∃ t, exec (.pp20Unpack false) s = .next t ∧ t.code = .resource ∧ t.result = 0 ∧ t.outValid = false ∧
        t.out = none ∧ t.allocAnswers = rest)

/-- R129, R132, and R117 and R128, which the spec marks as derived: whatever the source holds, an unpack ends with a
next state: `OK` with `RESULT` 1, or `FAILURE` or `RESOURCE` with `RESULT` 0 and no valid output; a valid output is
as long as the file declares. R39, R108: one that passes the header test and the pre-allocation checks has asked the
oracle ALLOC once (that its answers are a list is log entry 4). -/
def Obligations.UnpackAlwaysEnds : Prop :=
  ∀ (s : State) (verify : Bool),
    (∃ t, exec (.mmcmpUnpack verify) s = .next t ∧
      (t.code = .ok ∧ t.result = 1 ∧ t.outValid = !verify ∨
        (t.code = .failure ∨ t.code = .resource) ∧ t.result = 0 ∧ t.outValid = false) ∧
      (t.outValid = true → ∃ o, t.out = some o ∧ o.size = t.outLen ∧ t.outLen = le32Nat s.src.bytes 14) ∧
      (verify = false → 24 ≤ s.src.bytes.length → mmHeaderValid s.params s.src.bytes = true →
        mmChecksPass s.params s.src.bytes = true → t.allocAnswers = s.allocAnswers.tail)) ∧
    (∃ t, exec (.pp20Unpack verify) s = .next t ∧
      (t.code = .ok ∧ t.result = 1 ∧ t.outValid = !verify ∨
        (t.code = .failure ∨ t.code = .resource) ∧ t.result = 0 ∧ t.outValid = false) ∧
      (t.outValid = true → ∃ o, t.out = some o ∧ o.size = t.outLen ∧
        t.outLen = be24Nat s.src.bytes (s.src.bytes.length - 4)) ∧
      (verify = false → 8 ≤ s.src.bytes.length → ppHeaderValid s.src.bytes = true →
        ppChecksPass s.params s.src.bytes = true → t.allocAnswers = s.allocAnswers.tail))

/-- R106, when the header and the pre-allocation checks are passed and the oracle ALLOC allows the buffer: the blocks are
decoded in turn, from a buffer of zeros of the declared size (R38, R108), until one fails, which fails the command, or
all are done. R106 to R116: a file that passes every check of R103, R107 and R109 to R112 unpacks to a buffer of the
declared size. R39: the oracle has been asked once (log entry 4). -/
def Obligations.SoundMmcmpFileUnpacks : Prop :=
  (∀ s : State, 24 ≤ s.src.bytes.length → mmHeaderValid s.params s.src.bytes = true →
    mmChecksPass s.params s.src.bytes = true → s.allocSucceeds →
      ∃ (t : State) (m : Mmu) (o : OutBuf) (k : Nat) (r : MmRun), exec (.mmcmpUnpack false) s = .next t ∧
        m.nblocks.toNat = le16Nat s.src.bytes 12 ∧ m.filesize.toNat = le32Nat s.src.bytes 14 ∧
        m.blkTable.toNat = le32Nat s.src.bytes 18 ∧
        o.Sound ∧ o.size = le32Nat s.src.bytes 14 ∧ (∀ a, outRead o a = 0) ∧
        AfterBlocks s.params s.src.bytes ⟨m, o, 0, 0⟩ k r ∧ t.allocAnswers = s.allocAnswers.tail ∧
        (k = le16Nat s.src.bytes 12 ∧ t.code = .ok ∧ t.result = 1 ∧ t.outValid = true ∧ t.out = some r.out ∧
            t.outLen = le32Nat s.src.bytes 14 ∨
          k < le16Nat s.src.bytes 12 ∧
            (∃ r', mmDecodeBlock s.params s.src.bytes k { r with mm := { r.mm with blk := k } } = .error (.fail r')) ∧
            t.code = .failure ∧ t.result = 0 ∧ t.outValid = false)) ∧
  ∀ s : State, 24 ≤ s.src.bytes.length → mmHeaderValid s.params s.src.bytes = true →
    mmChecksPass s.params s.src.bytes = true → mmBlocksSound s.src.bytes = true → s.allocSucceeds →
      ∃ t o, exec (.mmcmpUnpack false) s = .next t ∧ t.code = .ok ∧ t.result = 1 ∧ t.outValid = true ∧
        t.out = some o ∧ o.size = t.outLen ∧ t.outLen = le32Nat s.src.bytes 14 ∧
        t.allocAnswers = s.allocAnswers.tail

/-- R111, R110: the sub-blocks of a raw block are copied in order from consecutive data, each to its place, later ones
over earlier ones; no other byte changes, and of the MMU `MM_MEMPOS` alone moves, past the data; the block fails when a
sub-block is empty or not inside the output, or its data run past the file. R109, R111: a file of one raw block whose
one sub-block is the whole output unpacks to the block's data. -/
def Obligations.RawMmcmpBlockIsCopied : Prop :=
  (∀ (bytes : List Byte) (r : MmRun), r.out.Sound → r.out.size = r.mm.filesize.toNat →
    ((∃ j e, r.mm.sub[j]? = some e ∧ (e.size.toNat = 0 ∨ r.mm.filesize.toNat < e.pos.toNat + e.size.toNat ∨
        bytes.length < r.mm.memPos + subData (r.mm.sub.take (j + 1)))) →
      ∃ r', mmRawBlock bytes r.mm.sub.length 0 r = .error (.fail r')) ∧
    ((∀ j e, r.mm.sub[j]? = some e → 0 < e.size.toNat ∧ e.pos.toNat + e.size.toNat ≤ r.mm.filesize.toNat ∧
        r.mm.memPos + subData (r.mm.sub.take (j + 1)) ≤ bytes.length) →
      ∃ r', mmRawBlock bytes r.mm.sub.length 0 r = .ok r' ∧
        r'.mm = { r.mm with memPos := r.mm.memPos + subData r.mm.sub } ∧ r'.out.size = r.out.size ∧
        ∀ a,
          (∀ j e, r.mm.sub[j]? = some e → e.pos.toNat ≤ a → a < e.pos.toNat + e.size.toNat →
            (∀ j' e', j < j' → r.mm.sub[j']? = some e' → a < e'.pos.toNat ∨ e'.pos.toNat + e'.size.toNat ≤ a) →
              outRead r'.out a =
                byteAt bytes (r.mm.memPos + subData (r.mm.sub.take j) + (a - e.pos.toNat))) ∧
          ((∀ e ∈ r.mm.sub, a < e.pos.toNat ∨ e.pos.toNat + e.size.toNat ≤ a) →
            outRead r'.out a = outRead r.out a))) ∧
  ∀ (s : State) (blk : Nat), 24 ≤ s.src.bytes.length → mmHeaderValid s.params s.src.bytes = true →
    mmChecksPass s.params s.src.bytes = true → s.allocSucceeds →
    le16Nat s.src.bytes 12 = 1 → le32Nat s.src.bytes (le32Nat s.src.bytes 18) = blk →
    le16Nat s.src.bytes (blk + 12) = 1 → (byteAt s.src.bytes (blk + 14)).getLsbD 0 = false →
    le32Nat s.src.bytes (blk + 20) = 0 → le32Nat s.src.bytes (blk + 24) = le32Nat s.src.bytes 14 →
    blk + 28 + le32Nat s.src.bytes 14 ≤ s.src.bytes.length →
      ∃ t o, exec (.mmcmpUnpack false) s = .next t ∧ t.code = .ok ∧ t.result = 1 ∧ t.outValid = true ∧
        t.out = some o ∧ o.size = le32Nat s.src.bytes 14 ∧
        ∀ a, a < le32Nat s.src.bytes 14 → outRead o a = byteAt s.src.bytes (blk + 28 + a)

/-- R68: the tables, and R69's escapes, by value (log entry 9). R69, R113, R114: every code that can be written at a
width index is read as what it says, from exactly its bits, and acted on: a value is written, and then `Advance()` runs;
a width becomes the current one, and nothing is written; the end code ends the block. -/
def Obligations.MmcmpCodesReadAsEncoded : Prop :=
  ((List.range 8).map (cmdTable false) = [0x01, 0x03, 0x07, 0x0F, 0x1E, 0x3C, 0x78, 0xF8] ∧
    (List.range 8).map (fetchTable false) = [3, 3, 3, 3, 2, 1, 0, 0] ∧
    (List.range 16).map (cmdTable true) =
      [0x01, 0x03, 0x07, 0x0F, 0x1E, 0x3C, 0x78, 0xF0, 0x1F0, 0x3F0, 0x7F0, 0xFF0, 0x1FF0, 0x3FF0, 0x7FF0, 0xFFF0] ∧
    (List.range 16).map (fetchTable true) = [4, 4, 4, 4, 3, 2, 1, 0, 0, 0, 0, 0, 0, 0, 0, 0] ∧
    ∀ is16 : Bool, codeWidths is16 = (if is16 then 16 else 8) ∧ extBits is16 = (if is16 then 4 else 3) ∧
      extBase is16 = (if is16 then 0xFFF0 else 0xF8)) ∧
  ∀ (p : Params) (is16 : Bool) (r : MmRun) (c : MmCode) (rest : List Bool), r.mm.br.Sound p.bufBytes →
    r.mm.codeWidth < codeWidths is16 → codeOk is16 r.mm.codeWidth c = true →
    r.mm.br.bits = codeBits is16 r.mm.codeWidth c ++ rest →
      ∃ (br : PrivateReader) (r' : MmRun), br.Sound p.bufBytes ∧ br.bits = rest ∧
        r' = { r with mm := { r.mm with br := br } } ∧ mmReadCode p is16 r = (c, r') ∧
        match c with
        | .value v => ∀ r'', (if is16 then mmEmit16 v r' else mmEmit8 v r') = .ok r'' →
            mmCode p is16 r = mmAdvance is16 r''
        | .width m => mmCode p is16 r = .ok (.again, { r' with mm := { r'.mm with codeWidth := m } })
        | .stop => mmCode p is16 r = .ok (.endBlock, r')
        | .eod => True

/-- The output half of R113 and R114: an 8-bit value stands for its table byte, added to the last byte with `DELTA`; a
16-bit value for its zigzag number, added to the last with `DELTA`, or with bit 15 flipped unless `ABS16`, written low
byte first unless `ENDIAN` (the flags are bits 1, 9 and 10, R67). No other byte of `OUT` changes. Then R115 and R110: in a sub-block that is not full the
place stays; after a full one the place is the start of the next, if that is not empty and inside the output, or the
command fails; after the last one the block ends. -/
def Obligations.MmcmpValuesAreWritten : Prop :=
  (∀ (v q : Nat) (r : MmRun), r.out.Sound → q = r.pos + r.mm.dwPos →
    (q < r.out.size → ∃ r' : MmRun, mmEmit8 v r = .ok r' ∧ { r' with mm := r.mm, out := r.out } = r ∧
      (outRead r'.out q).toNat =
        ((r.mm.table.getD v 0).toNat + if r.mm.flags.getLsbD 1 then r.mm.oldVal.toNat else 0) % 2 ^ 8 ∧
      (∀ a, a ≠ q → outRead r'.out a = outRead r.out a) ∧
      r'.mm = { r.mm with
        dwPos := r.mm.dwPos + 1
        oldVal := if r.mm.flags.getLsbD 1 then (outRead r'.out q).setWidth 32 else r.mm.oldVal }) ∧
    (q + 1 < r.out.size → ∃ (r' : MmRun) (z w : Int), mmEmit16 v r = .ok r' ∧
      { r' with mm := r.mm, out := r.out } = r ∧
      z = (if v % 2 = 1 then -((v : Int) + 1) / 2 else (v : Int) / 2) ∧
      w = (if r.mm.flags.getLsbD 1 then z + r.mm.oldVal.toNat
        else if r.mm.flags.getLsbD 9 then z else z + 2 ^ 15) ∧
      (((outRead r'.out (if r.mm.flags.getLsbD 10 then q + 1 else q)).toNat +
        256 * (outRead r'.out (if r.mm.flags.getLsbD 10 then q else q + 1)).toNat : Nat) : Int) = w % 2 ^ 16 ∧
      (∀ a, a ≠ q → a ≠ q + 1 → outRead r'.out a = outRead r.out a) ∧
      r'.mm = { r.mm with
        dwPos := r.mm.dwPos + 2
        oldVal := if r.mm.flags.getLsbD 1 then BitVec.ofInt 32 w else r.mm.oldVal })) ∧
  ∀ (is16 : Bool) (r : MmRun) (e : SubBlock) (m : Mmu), e = r.mm.sub.getD (r.mm.subIdx + 1) ⟨0, 0⟩ →
    m = { r.mm with subIdx := r.mm.subIdx + 1, dwPos := 0 } →
    (r.mm.dwPos < r.size → mmAdvance is16 r = .ok (.again, r)) ∧
    (r.size ≤ r.mm.dwPos → r.mm.subBlk.toNat ≤ r.mm.subIdx + 1 →
      mmAdvance is16 r = .ok (.endBlock, { r with mm := m })) ∧
    (r.size ≤ r.mm.dwPos → r.mm.subIdx + 1 < r.mm.subBlk.toNat →
      mmAdvance is16 r =
        if 0 < subBytes is16 e ∧ e.pos.toNat + subBytes is16 e ≤ r.mm.filesize.toNat then
          .ok (.again, { r with mm := m, pos := e.pos.toNat, size := subBytes is16 e })
        else .error (.fail { r with mm := m }))

/-- R109: a block fails whose table entry, header, sub-block entry or data start is past the end; any other is packed or
raw as bit 0 of its flags says, with its header's fields and sub-blocks in the MMU (R66). A failed block fails the
command (`SoundMmcmpFileUnpacks`). R112: a packed block without sub-blocks, with a table longer than its data or past
the end of the file, with a width index the depth has not, or whose first sub-block is empty or outside the output,
fails; any other one runs its codes from the first sub-block's start, with its table, its view of the file, the header's
width index and a delta of 0, until one ends the block or fails (R117, which the spec marks as derived: one does). R116
and the end code of R113 and R114: an end of data, or the end-of-block code, ends the block and changes nothing but the
reader; bits that end in any field of a code, be it the first, are an end of data. -/
def Obligations.MmcmpBlockIsLoadedAndDecoded : Prop :=
  (∀ (p : Params) (bytes : List Byte) (b : Nat) (r : MmRun) (entry blk n : Nat),
    entry = r.mm.blkTable.toNat + 4 * b → blk = le32Nat bytes entry → n = le16Nat bytes (blk + 12) →
    (bytes.length < entry + 4 ∨ bytes.length < blk + 20 ∨ (∃ i, i < n ∧ bytes.length < blk + 20 + 8 * i + 8) ∨
        bytes.length ≤ blk + 20 + 8 * n →
      ∃ r', mmDecodeBlock p bytes b r = .error (.fail r') ∧ r'.out = r.out) ∧
    (entry + 4 ≤ bytes.length → blk + 20 + 8 * n < bytes.length →
      ∃ m : Mmu,
        mmDecodeBlock p bytes b r =
          (if (byteAt bytes (blk + 14)).getLsbD 0 then mmPackedBlock p bytes { r with mm := m }
          else mmRawBlock bytes m.sub.length 0 { r with mm := m }) ∧
        m.unpkSize.toNat = le32Nat bytes blk ∧ m.pkSize.toNat = le32Nat bytes (blk + 4) ∧
        m.xorChk.toNat = le32Nat bytes (blk + 8) ∧ m.subBlk.toNat = n ∧ m.flags.toNat = le16Nat bytes (blk + 14) ∧
        m.ttEntries.toNat = le16Nat bytes (blk + 16) ∧ m.numBits.toNat = le16Nat bytes (blk + 18) ∧
        m.sub.length = n ∧
        (∀ i, i < n → (m.sub.getD i ⟨0, 0⟩).pos.toNat = le32Nat bytes (blk + 20 + 8 * i) ∧
          (m.sub.getD i ⟨0, 0⟩).size.toNat = le32Nat bytes (blk + 24 + 8 * i)) ∧
        m.memPos = blk + 20 + 8 * n ∧
        { m with
          unpkSize := r.mm.unpkSize
          pkSize := r.mm.pkSize
          xorChk := r.mm.xorChk
          subBlk := r.mm.subBlk
          flags := r.mm.flags
          ttEntries := r.mm.ttEntries
          numBits := r.mm.numBits
          sub := r.mm.sub
          memPos := r.mm.memPos } = r.mm)) ∧
  (∀ (p : Params) (bytes : List Byte) (r : MmRun) (is16 : Bool) (e : SubBlock), is16 = r.mm.flags.getLsbD 2 →
    e = r.mm.sub.getD 0 ⟨0, 0⟩ →
    (r.mm.subBlk = 0 ∨ r.mm.pkSize.toNat < r.mm.ttEntries.toNat ∨ bytes.length < r.mm.memPos + r.mm.ttEntries.toNat ∨
        (if is16 then 16 else 8) ≤ r.mm.numBits.toNat → mmPackedBlock p bytes r = .error (.fail r)) ∧
    (r.mm.subBlk ≠ 0 → r.mm.ttEntries.toNat ≤ r.mm.pkSize.toNat →
      r.mm.memPos + r.mm.ttEntries.toNat ≤ bytes.length → r.mm.numBits.toNat < (if is16 then 16 else 8) →
        (subBytes is16 e = 0 ∨ r.mm.filesize.toNat < e.pos.toNat + subBytes is16 e →
          ∃ r', mmPackedBlock p bytes r = .error (.fail r') ∧ r'.out = r.out) ∧
        (0 < subBytes is16 e → e.pos.toNat + subBytes is16 e ≤ r.mm.filesize.toNat →
          ∃ r' : MmRun, LoopEnds (mmCode p is16) r' (mmPackedBlock p bytes r) ∧
            r'.out = r.out ∧ r'.pos = e.pos.toNat ∧ r'.size = subBytes is16 e ∧
            r'.mm.br.Sound p.bufBytes ∧
            r'.mm.br.bits = bitsOfBytes ((bytes.drop (r.mm.memPos + r.mm.ttEntries.toNat)).take
              (r.mm.pkSize.toNat - r.mm.ttEntries.toNat)) ∧
            (∀ j, r'.mm.table.getD j 0 =
              if j < 256 ∧ j < r.mm.ttEntries.toNat then byteAt bytes (r.mm.memPos + j) else 0) ∧
            r'.mm = { r.mm with
              table := r'.mm.table
              br := r'.mm.br
              codeWidth := r.mm.numBits.toNat
              oldVal := 0
              subIdx := 0
              dwPos := 0 }))) ∧
  ∀ (p : Params) (is16 : Bool) (r : MmRun), r.mm.br.Sound p.bufBytes → r.mm.codeWidth < codeWidths is16 →
    ((mmReadCode p is16 r).1 = .eod ∨ (mmReadCode p is16 r).1 = .stop →
      ∃ br : PrivateReader, mmCode p is16 r = .ok (.endBlock, { r with mm := { r.mm with br := br } })) ∧
    (r.mm.br.bits.length < r.mm.codeWidth + 1 → (mmReadCode p is16 r).1 = .eod) ∧
    ∀ (c : MmCode) (missing : List Bool), codeOk is16 r.mm.codeWidth c = true → missing ≠ [] →
      r.mm.br.bits ++ missing = codeBits is16 r.mm.codeWidth c → (mmReadCode p is16 r).1 = .eod

/-- R42, R124: the reverse reader delivers the bits of its region in order, the first as the most significant; when
the region holds too few, the read fails under `Fail`, and under `RepeatLowest` goes on with the bits of the byte at
`PP_LO` (at `PP_P` in a state where that is lower, which no file leads to), read again each time they run out; only the
reader's registers move. -/
def Obligations.ReverseReaderIsMsbFirst : Prop :=
  ∀ (p : Params) (bytes : List Byte) (n : Nat) (r : PpRun), r.pp.bitCnt ≤ 8 →
    (n ≤ (reverseBits bytes r.pp).length →
      ∃ r', ppBits p bytes n r = .ok (msbValue ((reverseBits bytes r.pp).take n), r') ∧
        reverseBits bytes r'.pp = (reverseBits bytes r.pp).drop n ∧ r'.out = r.out ∧
        { r'.pp with p := r.pp.p, byte := r.pp.byte, bitCnt := r.pp.bitCnt } = r.pp) ∧
    ((reverseBits bytes r.pp).length < n →
      (p.pp20Underrun = .fail → ∃ r', ppBits p bytes n r = .error (.fail r') ∧ r'.out = r.out ∧
        { r'.pp with p := r.pp.p, byte := r.pp.byte, bitCnt := r.pp.bitCnt } = r.pp) ∧
      (p.pp20Underrun = .repeatLowest →
        ∃ (k : Nat) (bits : List Bool) (r' : PpRun), ppBits p bytes n r = .ok (msbValue bits, r') ∧ bits.length = n ∧
          reverseBits bytes r.pp ++ bitsOfBytes (List.replicate k (byteAt bytes (min r.pp.lo r.pp.p))) =
            bits ++ reverseBits bytes r'.pp ∧
          (reverseBits bytes r'.pp).length < 8 ∧ r'.out = r.out ∧
          { r'.pp with p := r.pp.p, byte := r.pp.byte, bitCnt := r.pp.bitCnt } = r.pp))

/-- R126: a back-reference is read from exactly its bits and copies, cut to the bytes left, as many bytes as its
mode, and in mode 3 its extension, say, from its offset. R127: a copy writes `count` bytes downward, each the byte
`offset + 1` above it as it stands after the copy of the bytes above, or 0 above the buffer; no other byte changes,
and `PP_LEFT` alone moves. -/
def Obligations.MatchCopiesTheBytesAbove : Prop :=
  (∀ (p : Params) (bytes : List Byte) (m : PpMatch) (rest : List Bool) (r : PpRun), r.pp.bitCnt ≤ 8 →
    m.ok r.pp = true → reverseBits bytes r.pp = m.bits r.pp ++ rest →
      ∃ r1 : PpRun, ppMatch p bytes r = ppCopy m.offset (min m.count r.pp.left) r1 ∧ r1.pp.bitCnt ≤ 8 ∧
        reverseBits bytes r1.pp = rest ∧ r1.out = r.out ∧
        { r1.pp with p := r.pp.p, byte := r.pp.byte, bitCnt := r.pp.bitCnt } = r.pp) ∧
  ∀ (offset count : Nat) (r : PpRun), r.out.Sound → r.out.size = r.pp.dstLen.toNat →
    r.pp.left ≤ r.pp.dstLen.toNat → count ≤ r.pp.left →
      ∃ r', ppCopy offset count r = .ok r' ∧ r'.pp = { r.pp with left := r.pp.left - count } ∧
        ∀ a, outRead r'.out a =
          if r.pp.left - count ≤ a ∧ a < r.pp.left then
            (if a + 1 + offset < r.pp.dstLen.toNat then outRead r'.out (a + 1 + offset) else 0)
          else outRead r.out a

/-- R121, R124, R128: under `PP20_UNDERRUN = RepeatLowest` every file that passes the checks of R118 and R122 unpacks
to a buffer of the declared length, when the oracle ALLOC allows it. What it writes is what the tokens stand for that
the region's bits hold, followed by those of the byte at `PP_LO`, read again each time they run out. R39: the oracle
has been asked once (log entry 4). -/
def Obligations.Pp20UnpackCompletesUnderRepeatLowest : Prop :=
  (∀ s : State, s.params.pp20Underrun = .repeatLowest → 8 ≤ s.src.bytes.length → ppHeaderValid s.src.bytes = true →
    ppChecksPass s.params s.src.bytes = true → s.allocSucceeds →
      ∃ t o, exec (.pp20Unpack false) s = .next t ∧ t.code = .ok ∧ t.result = 1 ∧ t.outValid = true ∧
        t.out = some o ∧ o.size = t.outLen ∧ t.outLen = be24Nat s.src.bytes (s.src.bytes.length - 4) ∧
        t.allocAnswers = s.allocAnswers.tail) ∧
  ∀ (s : State) (tokens : List PpToken) (skip rest : List Bool) (k n : Nat), s.params.pp20Underrun = .repeatLowest →
    8 ≤ s.src.bytes.length → ppHeaderValid s.src.bytes = true → ppChecksPass s.params s.src.bytes = true →
    s.allocSucceeds → be24Nat s.src.bytes (s.src.bytes.length - 4) = n →
    (byteAt s.src.bytes (s.src.bytes.length - 1)).toNat = skip.length →
    tokensOk (fileModes s.src.bytes) false n tokens = true →
    regionBits s.src.bytes ++ bitsOfBytes (List.replicate k (byteAt s.src.bytes 4)) =
      skip ++ tokensBits (fileModes s.src.bytes) false tokens ++ rest →
      ∃ t o, exec (.pp20Unpack false) s = .next t ∧ t.code = .ok ∧ t.result = 1 ∧ t.outValid = true ∧
        t.out = some o ∧ o.size = n ∧ t.outLen = n ∧ t.allocAnswers = s.allocAnswers.tail ∧
        ∀ i, i < n → outRead o i = (tokensOut n [] tokens).getD i 0

/-- R72, R121 to R127: a literal run, whatever codes its length is written in, is read from exactly its bits and writes
its bytes below `PP_LEFT`. Under either underrun, a file of any literal runs and back-references unpacks to the bytes
they stand for: each pass starts with a flag, 0 before a run and 1 before a back-reference, and after a run that leaves
bytes to write comes a back-reference without one. R124, R132, R133: under `PP20_UNDERRUN = Fail` a file whose region
ends before the skip bits and the tokens do fails. R39: either way the oracle has been asked once (log entry 4). -/
def Obligations.Pp20FileOfTokensUnpacks : Prop :=
  (∀ (p : Params) (bytes data : List Byte) (codes : List Nat) (rest : List Bool) (r : PpRun), r.pp.bitCnt ≤ 8 →
    r.out.Sound → r.pp.left ≤ r.out.size → countCodesOk 2 r.pp.left 1 codes = true →
    data.length = min (1 + codes.sum) r.pp.left → reverseBits bytes r.pp = runBits codes data ++ rest →
      ∃ r', ppLiteralRun p bytes r = .ok r' ∧ r'.pp.bitCnt ≤ 8 ∧ reverseBits bytes r'.pp = rest ∧
        { r'.pp with p := r.pp.p, byte := r.pp.byte, bitCnt := r.pp.bitCnt } =
          { r.pp with left := r.pp.left - data.length } ∧
        r'.out.size = r.out.size ∧
        ∀ a, outRead r'.out a =
          if r.pp.left - data.length ≤ a ∧ a < r.pp.left then data.getD (a - (r.pp.left - data.length)) 0
          else outRead r.out a) ∧
  (∀ (s : State) (tokens : List PpToken) (skip missing : List Bool) (n : Nat), 8 ≤ s.src.bytes.length →
    ppHeaderValid s.src.bytes = true → ppChecksPass s.params s.src.bytes = true → s.allocSucceeds →
    s.params.pp20Underrun = .fail →
    be24Nat s.src.bytes (s.src.bytes.length - 4) = n →
    (byteAt s.src.bytes (s.src.bytes.length - 1)).toNat = skip.length →
    tokensOk (fileModes s.src.bytes) false n tokens = true → missing ≠ [] →
    regionBits s.src.bytes ++ missing = skip ++ tokensBits (fileModes s.src.bytes) false tokens →
      ∃ t, exec (.pp20Unpack false) s = .next t ∧ t.code = .failure ∧ t.result = 0 ∧ t.outValid = false ∧
        t.allocAnswers = s.allocAnswers.tail) ∧
  ∀ (s : State) (tokens : List PpToken) (skip rest : List Bool) (n : Nat), 8 ≤ s.src.bytes.length →
    ppHeaderValid s.src.bytes = true → ppChecksPass s.params s.src.bytes = true → s.allocSucceeds →
    be24Nat s.src.bytes (s.src.bytes.length - 4) = n →
    (byteAt s.src.bytes (s.src.bytes.length - 1)).toNat = skip.length →
    tokensOk (fileModes s.src.bytes) false n tokens = true →
    regionBits s.src.bytes = skip ++ tokensBits (fileModes s.src.bytes) false tokens ++ rest →
      ∃ t o, exec (.pp20Unpack false) s = .next t ∧ t.code = .ok ∧ t.result = 1 ∧ t.outValid = true ∧
        t.out = some o ∧ o.size = n ∧ t.outLen = n ∧ t.allocAnswers = s.allocAnswers.tail ∧
        ∀ i, i < n → outRead o i = (tokensOut n [] tokens).getD i 0

/-! ## The whole machine -/

/-- What each command leaves (R15, R29, R104, R106, R119, R121): everything but what is named here. `IT.DECODE` has its
own statement, `ItDecodeFrame`. -/
def Obligations.WhatEachCommandLeaves : Prop :=
  ∀ (i : Instr) (s t : State), exec i s = .next t →
    match i with
    | .brBind => { t with brSrc := s.brSrc, br := s.br, result := s.result, code := s.code } = s
    | .brReadbits _ =>
      t = { s with code := .refused } ∨
        ∃ (src src' : ByteSource) (rd : Reader), s.brSource = some src ∧ src'.bytes = src.bytes ∧
          t = { s.setBr rd src' with result := t.result, code := t.code }
    | .brGetpos => { t with result := s.result, code := s.code } = s
    | .itDecode _ _ => t.out = s.out ∧ t.brSrc = s.brSrc
    | .mmcmpProbe => { t with result := s.result, code := s.code } = s
    | .mmcmpUnpack _ =>
      { t with
        mmu := s.mmu
        out := s.out
        outLen := s.outLen
        outValid := s.outValid
        allocAnswers := s.allocAnswers
        result := s.result
        code := s.code } = s
    | .pp20Probe => { t with result := s.result, code := s.code } = s
    | .pp20Unpack _ =>
      { t with
        ppu := s.ppu
        out := s.out
        outLen := s.outLen
        outValid := s.outValid
        allocAnswers := s.allocAnswers
        result := s.result
        code := s.code } = s

/-- R16, R129: which command may end with which code; a command that ends `EOD` or `REFUSED` leaves `RESULT`. -/
def Obligations.CodesEachCommandMayEndWith : Prop :=
  ∀ (i : Instr) (s t : State), exec i s = .next t →
    (t.code = .eod → ∃ n, i = .brReadbits n) ∧
    (t.code = .failure ∨ t.code = .resource → ∃ verify, i = .mmcmpUnpack verify ∨ i = .pp20Unpack verify) ∧
    (t.code = .resource → ∃ verify rest, verify = false ∧ s.allocAnswers = false :: rest ∧
      (i = .mmcmpUnpack verify ∨ i = .pp20Unpack verify)) ∧
    (t.code = .eod ∨ t.code = .refused → t.result = s.result)

/-- R134: a command is refused exactly for its cause, and a refused command has no other effect. -/
def Obligations.RefusedCommandHasNoOtherEffect : Prop :=
  ∀ (i : Instr) (s t : State), exec i s = .next t →
    (t.code = .refused ↔
      match i with
      | .brBind => False
      | .brReadbits n => s.brBound = false ∨ 32 < n.toNat
      | .brGetpos => s.brBound = false
      | .itDecode _ _ => s.itChannels = 0
      | .mmcmpProbe => False
      | .mmcmpUnpack _ => False
      | .pp20Probe => False
      | .pp20Unpack _ => False) ∧
    (t.code = .refused → t = { s with code := .refused })

/-- R85, R101, R115, R117, R128, R136: a step stops for two reasons only, both a broken premise of the host: an
`IT.DECODE` with fewer than `C * L` elements attached, or a source of `2^32` bytes or more. That the model stops there
is its own choice (log entries 10 and 11). -/
def Obligations.StepStopsOnBrokenPremisesOnly : Prop :=
  ∀ s : State,
    (∃ t, step s = .next t) ∨
    (∃ w rest is215 is16, s.script = .write 0 w :: rest ∧ decode w = .ok (.itDecode is215 is16) ∧
      step s = .fault .smpOutOfRange ∧ s.smp.len < s.itChannels.toNat * s.itLength.toNat) ∨
    (∃ bytes rest, s.script = .present bytes :: rest ∧ 2 ^ 32 ≤ bytes.length ∧ step s = .fault .sourceTooLong)

/-- `OUT` and `SMP`, in the model's representation (log entry 16), keep their canonical form and list nothing outside
their size. -/
def Obligations.StepKeepsMemoriesSound : Prop :=
  ∀ s t : State, s.MemorySound → step s = .next t → t.MemorySound

/-- R29, and R20, which the spec marks as derived: the BR unit's instance, the presented source and the bound source
stay sound. -/
def Obligations.StepKeepsReaderSound : Prop :=
  ∀ s t : State, s.ReaderSound → step s = .next t → t.ReaderSound

/-- R38, R132: a valid output is there at its length; no valid output with `FAILURE` or `RESOURCE`. That there is no
length without a valid output is the model's reading (log entry 8). -/
def Obligations.StepKeepsStatusSound : Prop :=
  ∀ s t : State, s.StatusSound → step s = .next t → t.StatusSound

/-- R9, R21, R23, R24, and R20, which the spec marks as derived: every counted register of the units stays inside its
width, those of `IT_BR` and `MM_BR` inside R20's bounds, with the sources the host may present. -/
def Obligations.StepKeepsUnitWidths : Prop :=
  ∀ s t : State, s.UnitWidths ∧ s.ReaderSound → step s = .next t → t.UnitWidths ∧ t.ReaderSound

/-- The state after reset meets the four invariants. That its source and its sample buffer are empty, and so sound,
is the model's choice (log entry 2). -/
def Obligations.ResetMeetsTheInvariants : Prop :=
  State.reset.MemorySound ∧ State.reset.ReaderSound ∧ State.reset.StatusSound ∧ State.reset.UnitWidths

/-- R142, and R144, which the spec marks as derived: no result of a step depends on the registers of the ITD, the MMU
and the PPU: two states that differ in those alone step to states that differ in those alone, or stop for the same
reason. -/
def Obligations.UnitRegistersAreNeverRead : Prop :=
  ∀ s s' : State, s.forgetUnits = s'.forgetUnits → forgetOutcome (step s) = forgetOutcome (step s')

end Slice0
end

