-- ==== Sys2Proof/Laws/BitReader.lean ====
section
/-! SUPPORT. Laws/BitReader.lean: what `NextByte` and `ReadBits` do to the bit stream of an instance, said once
(40_bitreader.md R75 to R79). -/
namespace Sys2Proof.Machine

/-! ## Bits and values -/

@[simp] theorem bitsOfByte_length (b : Byte) : (bitsOfByte b).length = 8 := by simp [bitsOfByte]

@[simp] theorem bitsOfBytes_nil : bitsOfBytes [] = [] := rfl

@[simp] theorem bitsOfBytes_cons (b : Byte) (l : List Byte) : bitsOfBytes (b :: l) = bitsOfByte b ++ bitsOfBytes l := by
  simp [bitsOfBytes]

@[simp] theorem bitsOfBytes_append (l l' : List Byte) : bitsOfBytes (l ++ l') = bitsOfBytes l ++ bitsOfBytes l' := by
  simp [bitsOfBytes]

@[simp] theorem bitsOfBytes_length (l : List Byte) : (bitsOfBytes l).length = 8 * l.length := by
  induction l with
  | nil => rfl
  | cons b t ih => simp [ih]; omega

@[simp] theorem accBits_length (rd : Reader) : (accBits rd).length = rd.nbits := by simp [accBits]

theorem streamBits_length (rd : Reader) (src : ByteSource) :
    (streamBits rd src).length = rd.nbits + 8 * (stagedBytes rd ++ restBytes src).length := by
  simp only [streamBits, List.length_append, accBits_length, bitsOfBytes_length]

/-- The low `n` bits of a number have its value modulo `2 ^ n`. -/
theorem lsbValue_testBits (n v : Nat) : lsbValue ((List.range n).map v.testBit) = v % 2 ^ n := by
  induction n generalizing v with
  | zero => simp [lsbValue, Nat.mod_one]
  | succ n ih =>
    rw [List.range_succ_eq_map, List.map_cons, List.map_map]
    have : (v.testBit ∘ Nat.succ) = (v / 2).testBit := by
      funext i; simp [Nat.testBit_succ]
    rw [this, lsbValue, ih, Nat.pow_succ, Nat.mul_comm (2 ^ n) 2, Nat.mod_mul]
    simp [Nat.testBit_zero]
    rcases Nat.mod_two_eq_zero_or_one v with h | h <;> simp [h]

theorem lsbValue_append (l l' : List Bool) : lsbValue (l ++ l') = lsbValue l + 2 ^ l.length * lsbValue l' := by
  induction l with
  | nil => simp [lsbValue]
  | cons b t ih => simp [lsbValue, ih, Nat.pow_succ]; ring

theorem lsbValue_lt (l : List Bool) : lsbValue l < 2 ^ l.length := by
  induction l with
  | nil => simp [lsbValue]
  | cons b t ih => cases b <;> simp [lsbValue, Nat.pow_succ] <;> omega

/-! ## The accumulator -/

/-- A byte enters above the bits held. -/
theorem accBits_absorb {rd : Reader} (b : Byte) (h : rd.acc.toNat < 2 ^ rd.nbits) (hn : rd.nbits ≤ 32) :
    accBits (absorb rd b) = accBits rd ++ bitsOfByte b := by
  have hi : ∀ i, rd.nbits ≤ i → rd.acc.getLsbD i = false := fun i hi => by
    rw [← BitVec.testBit_toNat]
    exact Nat.testBit_lt_two_pow (lt_of_lt_of_le h (Nat.pow_le_pow_right (by decide) hi))
  simp only [accBits, absorb, bitsOfByte, List.range_add, List.map_append, List.map_map]
  congr 1
  · apply List.map_congr_left
    intro i hm
    have := List.mem_range.mp hm
    simp [this]
  · apply List.map_congr_left
    intro j hm
    have := List.mem_range.mp hm
    simp [hi (rd.nbits + j) (by omega)]
    rw [decide_eq_true (by omega), decide_eq_true (by omega), Bool.true_and, Bool.true_and]

theorem absorb_lt {rd : Reader} (b : Byte) (h : rd.acc.toNat < 2 ^ rd.nbits) :
    (absorb rd b).acc.toNat < 2 ^ (absorb rd b).nbits := by
  apply Nat.lt_pow_two_of_testBit
  intro i hi
  simp only [absorb] at hi ⊢
  rw [BitVec.testBit_toNat, BitVec.getLsbD_or]
  have h1 : rd.acc.getLsbD i = false := by
    rw [← BitVec.testBit_toNat]
    exact Nat.testBit_lt_two_pow (lt_of_lt_of_le h (Nat.pow_le_pow_right (by decide) (by omega)))
  have h2 : b.getLsbD (i - rd.nbits) = false := BitVec.getLsbD_of_ge b _ (by omega)
  simp [h1, h2]

/-- The low bits leave. -/
theorem consume_spec {rd : Reader} {n : Nat} (hn : n ≤ rd.nbits) :
    (consume n rd).1 = lsbValue ((accBits rd).take n) ∧ accBits (consume n rd).2 = (accBits rd).drop n := by
  have hb : (rd.acc.getLsbD : Nat → Bool) = rd.acc.toNat.testBit := by
    funext i; exact (BitVec.testBit_toNat rd.acc).symm
  constructor
  · simp only [consume, accBits, ← List.map_take, List.take_range, Nat.min_eq_left hn, hb, lsbValue_testBits]
  · simp only [consume, accBits]
    rw [show rd.nbits = n + (rd.nbits - n) by omega, List.range_add, List.map_append]
    rw [List.drop_left' (by simp)]
    simp only [List.map_map]
    rw [show n + (rd.nbits - n) - n = rd.nbits - n by omega]
    apply List.map_congr_left
    intro j _
    simp

theorem consume_lt {rd : Reader} {n : Nat} (h : rd.acc.toNat < 2 ^ rd.nbits) (hn : n ≤ rd.nbits) :
    (consume n rd).2.acc.toNat < 2 ^ (consume n rd).2.nbits := by
  simp only [consume, BitVec.toNat_ushiftRight, Nat.shiftRight_eq_div_pow]
  rw [Nat.div_lt_iff_lt_mul (by positivity), ← Nat.pow_add]
  rwa [show rd.nbits - n + n = rd.nbits by omega]

/-! ## NextByte (R75) -/

/-- The staging half of soundness. -/
structure Reader.StageSound (bufBytes : Nat) (rd : Reader) : Prop where
  bufPos_le : rd.bufPos ≤ rd.bufSize
  bufSize_le : rd.bufSize ≤ bufBytes
  stage_len : rd.stage.length = bufBytes
  taken : rd.bufSize = 0 ∨ 0 < rd.bufPos

theorem Reader.Sound.stage {B : Nat} {rd : Reader} (h : rd.Sound B) : rd.StageSound B :=
  ⟨h.bufPos_le, h.bufSize_le, h.stage_len, h.taken⟩

theorem Reader.StageSound.absorb {B : Nat} {rd : Reader} (h : rd.StageSound B) (b : Byte) :
    (Machine.absorb rd b).StageSound B := ⟨h.1, h.2, h.3, h.4⟩

@[simp] theorem stagedBytes_absorb (rd : Reader) (b : Byte) : stagedBytes (absorb rd b) = stagedBytes rd := rfl

/-- A staged byte is the first of the staged bytes. -/
theorem takeStaged_spec {rd : Reader} (h : rd.bufPos < rd.bufSize) (hs : rd.bufSize ≤ rd.stage.length) :
    stagedBytes rd = (takeStaged rd).1 :: stagedBytes (takeStaged rd).2 := by
  simp only [stagedBytes, takeStaged]
  have hl : rd.bufPos < (rd.stage.take rd.bufSize).length := by simp; omega
  rw [List.drop_eq_getElem_cons hl]
  congr 1
  rw [List.getElem_take]
  simp [List.getD_eq_getElem?_getD, List.getElem?_eq_getElem (show rd.bufPos < rd.stage.length by omega)]

/-- What `NextByte` does: the first byte the instance has still to read, or `EOD` when there is none. -/
theorem nextByte_spec {B : Nat} {rd : Reader} {src : ByteSource} (hB : 0 < B) (h : rd.StageSound B)
    (hp : src.pos ≤ src.bytes.length) :
    match stagedBytes rd ++ restBytes src with
    | [] => nextByte B rd src = none ∧ rd.bufPos = rd.bufSize ∧ src.pos = src.bytes.length
    | b :: l => ∃ rd' src', nextByte B rd src = some (b, rd', src') ∧ stagedBytes rd' ++ restBytes src' = l ∧
        rd'.acc = rd.acc ∧ rd'.nbits = rd.nbits ∧ rd'.StageSound B ∧ src'.bytes = src.bytes ∧
        src'.pos ≤ src.bytes.length := by
  have hlen : (stagedBytes rd).length = rd.bufSize - rd.bufPos := by
    simp [stagedBytes, h.stage_len, Nat.min_eq_left h.bufSize_le]
  by_cases he : rd.bufPos = rd.bufSize
  · have hnil : stagedBytes rd = [] := List.length_eq_zero_iff.mp (by omega)
    rw [hnil, List.nil_append]
    by_cases hr : restBytes src = []
    · rw [hr]
      have hpos : src.pos = src.bytes.length := by
        have : (restBytes src).length = 0 := by rw [hr]; rfl
        simp only [restBytes, List.length_drop] at this
        omega
      refine ⟨?_, he, hpos⟩
      have : srcRead src B = ([], { src with pos := src.pos + 0 }) := by
        simp only [restBytes] at hr
        simp [srcRead, hr]
      simp [nextByte, he, refill, this]
    · obtain ⟨c, t, hct⟩ : ∃ c t, (restBytes src).take B = c :: t := by
        cases hc : (restBytes src).take B with
        | nil => rw [List.take_eq_nil_iff] at hc; rcases hc with hc | hc <;> [omega; exact absurd hc hr]
        | cons c t => exact ⟨c, t, rfl⟩
      have hr' : restBytes src = (c :: t) ++ (restBytes src).drop B := by rw [← hct, List.take_append_drop]
      have hct' : (src.bytes.drop src.pos).take B = c :: t := hct
      have hcl : (c :: t).length ≤ B := by rw [← hct]; simp
      have hcl2 : src.pos + (c :: t).length ≤ src.bytes.length := by
        have : (c :: t).length ≤ (restBytes src).length := by rw [← hct]; simp
        simp only [restBytes, List.length_drop] at this
        omega
      have hsl : (c :: t).length = min B (restBytes src).length := by rw [← hct]; simp
      let rd1 : Reader := { rd with stage := (c :: t) ++ rd.stage.drop (c :: t).length, bufSize := (c :: t).length, bufPos := 0 }
      have hst : stagedBytes rd1 = c :: t := by simp [stagedBytes, rd1]
      have htk := takeStaged_spec (rd := rd1) (by simp [rd1]) (by simp [rd1])
      rw [hst] at htk
      have hb : (takeStaged rd1).1 = c := (List.cons.inj htk).1.symm
      have ht : stagedBytes (takeStaged rd1).2 = t := (List.cons.inj htk).2.symm
      rw [hr']
      refine ⟨(takeStaged rd1).2, { src with pos := src.pos + (c :: t).length }, ?_, ?_, rfl, rfl, ⟨?_, ?_, ?_, ?_⟩, rfl, hcl2⟩
      · simp only [nextByte, if_pos he, refill, srcRead, hct']
        exact congrArg some (Prod.ext hb rfl)
      · rw [ht]
        congr 1
        simp only [restBytes, List.drop_drop]
        rw [hsl, restBytes, List.length_drop]
        rcases Nat.le_total B (src.bytes.length - src.pos) with hm | hm
        · rw [Nat.min_eq_left hm]
        · rw [Nat.min_eq_right hm, List.drop_eq_nil_of_le (by omega), List.drop_eq_nil_of_le (by omega)]
      · simp [takeStaged, rd1]
      · simpa [takeStaged, rd1] using hcl
      · simp only [takeStaged, rd1, List.length_append, List.length_drop, h.stage_len]; omega
      · right; simp [takeStaged]
  · have hlt : rd.bufPos < rd.bufSize := lt_of_le_of_ne h.bufPos_le he
    rw [takeStaged_spec hlt (by rw [h.stage_len]; exact h.bufSize_le), List.cons_append]
    exact ⟨(takeStaged rd).2, src, by simp [nextByte, he], rfl, rfl, rfl,
      ⟨hlt, h.bufSize_le, h.stage_len, Or.inr (by simp [takeStaged])⟩, rfl, hp⟩

/-- A staged byte is taken from the staging buffer; the source stays. -/
theorem nextByte_staged {B : Nat} {rd : Reader} {src : ByteSource} (h : rd.bufPos ≠ rd.bufSize) :
    nextByte B rd src = some (rd.stage.getD rd.bufPos 0, { rd with bufPos := rd.bufPos + 1 }, src) := by
  simp only [nextByte, if_neg h, takeStaged]

/-- With no byte staged, up to `B` bytes are fetched at once, and the first is taken. -/
theorem nextByte_fetch {B : Nat} {rd rd' : Reader} {src src' : ByteSource} {b : Byte} (hp : src.pos ≤ src.bytes.length)
    (h : rd.bufPos = rd.bufSize) (he : nextByte B rd src = some (b, rd', src')) :
    src.pos < src.bytes.length ∧ src' = { src with pos := min (src.pos + B) src.bytes.length } ∧
      rd'.bufSize = src'.pos - src.pos ∧ rd'.stage.take rd'.bufSize = (src.bytes.drop src.pos).take B ∧
      rd'.bufPos = 1 ∧ rd'.nbits = rd.nbits := by
  simp only [nextByte, if_pos h, refill, srcRead] at he
  cases hc : (src.bytes.drop src.pos).take B with
  | nil => rw [hc] at he; cases he
  | cons c t =>
    rw [hc] at he
    have hl := congrArg List.length hc
    simp only [List.length_take, List.length_drop, List.length_cons] at hl
    cases he
    refine ⟨by omega, ?_, ?_, List.take_left' rfl, rfl, rfl⟩
    · show ({ src with pos := src.pos + (t.length + 1) } : ByteSource) = _
      congr 1; omega
    · show t.length + 1 = src.pos + (t.length + 1) - src.pos; omega

/-! ## ReadBits (R76, R77) -/

/-- How many bytes a read of `n` bits takes, of `avail` there are, when `nbits` bits are held. -/
def bytesNeeded (n nbits avail : Nat) : Nat := min ((n - nbits + 7) / 8) avail

/-- What the loop of `ReadBits` does: it takes just the bytes it needs, or all there are. -/
theorem fillBits_spec {B n : Nat} (hB : 0 < B) (hn : n ≤ 32) :
    ∀ (k : Nat) (rd : Reader) (src : ByteSource), n ≤ rd.nbits + 8 * k → rd.acc.toNat < 2 ^ rd.nbits →
      rd.StageSound B → src.pos ≤ src.bytes.length →
      ∃ rd' src', fillBits B n k rd src = (decide (n ≤ rd.nbits + 8 * (stagedBytes rd ++ restBytes src).length), rd', src') ∧
        accBits rd' = accBits rd ++
          bitsOfBytes ((stagedBytes rd ++ restBytes src).take (bytesNeeded n rd.nbits (stagedBytes rd ++ restBytes src).length)) ∧
        stagedBytes rd' ++ restBytes src' =
          (stagedBytes rd ++ restBytes src).drop (bytesNeeded n rd.nbits (stagedBytes rd ++ restBytes src).length) ∧
        rd'.nbits = rd.nbits + 8 * bytesNeeded n rd.nbits (stagedBytes rd ++ restBytes src).length ∧
        rd'.acc.toNat < 2 ^ rd'.nbits ∧ rd'.StageSound B ∧ src'.bytes = src.bytes ∧ src'.pos ≤ src.bytes.length ∧
        (rd.nbits + 8 * (stagedBytes rd ++ restBytes src).length < n → rd'.bufPos = rd'.bufSize ∧ src'.pos = src.bytes.length)
  | 0, rd, src, hk, ha, hs, hp => by
    have hj : bytesNeeded n rd.nbits (stagedBytes rd ++ restBytes src).length = 0 := by
      simp only [bytesNeeded]; omega
    refine ⟨rd, src, ?_, by rw [hj]; simp, by rw [hj]; simp, by rw [hj]; simp, ha, hs, rfl, hp, by omega⟩
    simp only [fillBits]
    rw [decide_eq_true (by omega), decide_eq_true (by omega)]
  | k + 1, rd, src, hk, ha, hs, hp => by
    by_cases hle : n ≤ rd.nbits
    · have hj : bytesNeeded n rd.nbits (stagedBytes rd ++ restBytes src).length = 0 := by
        simp only [bytesNeeded]; omega
      refine ⟨rd, src, ?_, by rw [hj]; simp, by rw [hj]; simp, by rw [hj]; simp, ha, hs, rfl, hp, by omega⟩
      simp only [fillBits, if_pos hle]
      rw [decide_eq_true (by omega)]
    · have hnext := nextByte_spec hB hs hp
      cases hl : stagedBytes rd ++ restBytes src with
      | nil =>
        rw [hl] at hnext
        have hj : bytesNeeded n rd.nbits 0 = 0 := by simp [bytesNeeded]
        refine ⟨rd, src, ?_, by simp [hj], by simp [hj, hl], by simp [hj], ha, hs, rfl, hp, fun _ => hnext.2⟩
        simp only [fillBits, if_neg hle, hnext.1, List.length_nil]
        rw [decide_eq_false (by omega)]
      | cons b l =>
        rw [hl] at hnext
        obtain ⟨rd1, src1, hn1, hl1, hacc, hnb, hs1, hb1, hp1⟩ := hnext
        have hnb1 : (absorb rd1 b).nbits = rd.nbits + 8 := by simp [absorb, hnb]
        have ha1 : rd1.acc.toNat < 2 ^ rd1.nbits := by rw [hacc, hnb]; exact ha
        have hst1 : stagedBytes (absorb rd1 b) ++ restBytes src1 = l := hl1
        obtain ⟨rd2, src2, he, hbits, hrest, hnb2, ha2, hs2, hb2, hp2, hend⟩ :=
          fillBits_spec hB hn k (absorb rd1 b) src1 (by rw [hnb1]; omega) (absorb_lt b ha1)
            (hs1.absorb b) (by rw [hb1]; exact hp1)
        rw [hst1, hnb1] at he hbits hrest hnb2 hend
        have hj : bytesNeeded n rd.nbits (b :: l).length = bytesNeeded n (rd.nbits + 8) l.length + 1 := by
          simp only [bytesNeeded, List.length_cons]; omega
        have hacc1 : accBits rd1 = accBits rd := by simp [accBits, hacc, hnb]
        refine ⟨rd2, src2, ?_, ?_, ?_, ?_, ha2, hs2, by rw [hb2, hb1], by rw [← hb1]; exact hp2, ?_⟩
        · simp only [fillBits, if_neg hle, hn1, he, List.length_cons]
          congr 1
          exact decide_eq_decide.mpr (by omega)
        · rw [hbits, hj, accBits_absorb b ha1 (by omega), hacc1]
          simp
        · rw [hrest, hj, List.drop_succ_cons]
        · rw [hnb2, hj]; omega
        · intro hlt
          rw [← hb1]
          exact hend (by simp only [List.length_cons] at hlt; omega)

/-- What `ReadBits` does when the stream holds the bits: their value, and the stream without them. -/
theorem readBits_ok {B n : Nat} {rd : Reader} {src : ByteSource} (hB : 0 < B) (hn : n ≤ 32) (h : rd.Sound B)
    (hp : src.pos ≤ src.bytes.length) (hlen : n ≤ (streamBits rd src).length) :
    ∃ rd' src', readBits B n rd src = (some (lsbValue ((streamBits rd src).take n)), rd', src') ∧
      streamBits rd' src' = (streamBits rd src).drop n ∧ rd'.Sound B ∧ src'.bytes = src.bytes ∧
      src'.pos ≤ src.bytes.length ∧
      rd'.nbits = rd.nbits + 8 * bytesNeeded n rd.nbits (stagedBytes rd ++ restBytes src).length - n := by
  rw [streamBits_length] at hlen
  obtain ⟨rd1, src1, he, hbits, hrest, hnb, ha, hs, hb, hp1, _⟩ :=
    fillBits_spec hB hn n rd src (by omega) h.acc_lt h.stage hp
  have hle : n ≤ rd1.nbits := by rw [hnb]; simp only [bytesNeeded]; omega
  obtain ⟨hv, hd⟩ := consume_spec hle
  have hstream : streamBits rd1 src1 = streamBits rd src := by
    simp only [streamBits, hbits, hrest, List.append_assoc, ← bitsOfBytes_append, List.take_append_drop]
  have hstage : stagedBytes (consume n rd1).2 = stagedBytes rd1 := rfl
  refine ⟨(consume n rd1).2, src1, ?_, ?_, ⟨consume_lt ha hle, ?_, hs.1, hs.2, hs.3, hs.4⟩, hb, hp1, ?_⟩
  · rw [readBits, he, decide_eq_true hlen, ← hstream]
    simp only [hv, streamBits]
    rw [List.take_append_of_le_length (by simpa using hle)]
  · rw [← hstream]
    simp only [streamBits, hd, hstage]
    rw [List.drop_append_of_le_length (by simpa using hle)]
  · have hle31 := h.nbits_le
    simp only [consume, hnb, bytesNeeded]; omega
  · simp [consume, hnb]

/-- Bits the accumulator holds already are served from it alone. -/
theorem readBits_held {B n : Nat} {rd : Reader} (h : n ≤ rd.nbits) (src : ByteSource) :
    readBits B n rd src = (some (consume n rd).1, (consume n rd).2, src) := by
  have hf : ∀ k, fillBits B n k rd src = (true, rd, src) := fun k => by cases k <;> simp [fillBits, h]
  simp only [readBits, hf]

/-- What `ReadBits` does when the stream holds fewer bits (R77): `EOD`, no bit consumed, nothing left outside the
accumulator. -/
theorem readBits_eod {B n : Nat} {rd : Reader} {src : ByteSource} (hB : 0 < B) (hn : n ≤ 32) (h : rd.Sound B)
    (hp : src.pos ≤ src.bytes.length) (hlen : (streamBits rd src).length < n) :
    ∃ rd' src', readBits B n rd src = (none, rd', src') ∧ streamBits rd' src' = streamBits rd src ∧ rd'.Sound B ∧
      src'.bytes = src.bytes ∧ rd'.nbits = (streamBits rd src).length ∧ rd'.bufPos = rd'.bufSize ∧
      src'.pos = src.bytes.length := by
  rw [streamBits_length] at hlen
  obtain ⟨rd1, src1, he, hbits, hrest, hnb, ha, hs, hb, hp1, hend⟩ :=
    fillBits_spec hB hn n rd src (by omega) h.acc_lt h.stage hp
  have hj : bytesNeeded n rd.nbits (stagedBytes rd ++ restBytes src).length = (stagedBytes rd ++ restBytes src).length := by
    simp only [bytesNeeded]; omega
  obtain ⟨hb1, hb2⟩ := hend hlen
  refine ⟨rd1, src1, ?_, ?_, ⟨ha, ?_, hs.1, hs.2, hs.3, hs.4⟩, hb, ?_, hb1, hb2⟩
  · rw [readBits, he, decide_eq_false (by omega)]
  · simp only [streamBits, hbits, hrest, List.append_assoc, ← bitsOfBytes_append, List.take_append_drop]
  · rw [hnb, hj]; omega
  · rw [streamBits_length, hnb, hj]

/-- The position of an instance is the length of its source less the bytes it has still to move (R79). -/
theorem getPosition_eq {B : Nat} {rd : Reader} {src : ByteSource} (h : rd.StageSound B) (hp : src.pos ≤ src.bytes.length) :
    getPosition rd src = (src.bytes.length : Int) - (stagedBytes rd ++ restBytes src).length := by
  have h1 := h.bufPos_le
  have h2 := h.bufSize_le
  simp only [getPosition, stagedBytes, restBytes, List.length_append, List.length_drop, List.length_take, h.stage_len,
    Nat.min_eq_left h2]
  omega

/-- A fresh instance is sound, and its stream is its source. -/
theorem Reader.empty_sound (B : Nat) : (Reader.empty B).Sound B :=
  ⟨by simp [Reader.empty], by simp [Reader.empty], le_refl _, by simp [Reader.empty], by simp [Reader.empty],
    Or.inl rfl⟩

@[simp] theorem streamBits_empty (B : Nat) (src : ByteSource) : streamBits (Reader.empty B) src = bitsOfBytes (restBytes src) := by
  simp [streamBits, accBits, stagedBytes, Reader.empty]

/-! ## Private instances -/

theorem PrivateReader.over_sound (B : Nat) (bytes : List Byte) : (PrivateReader.over B ⟨bytes, 0⟩).Sound B :=
  ⟨Reader.empty_sound B, ⟨bytes, 0⟩, rfl, Nat.zero_le _⟩

@[simp] theorem PrivateReader.over_bits (B : Nat) (bytes : List Byte) :
    (PrivateReader.over B ⟨bytes, 0⟩).bits = bitsOfBytes bytes := by
  simp [PrivateReader.over, PrivateReader.bits, restBytes]

/-- What a read of a private instance does: the value of the next bits, or `EOD` when there are too few. -/
theorem readPrivate_spec {B n : Nat} {i : PrivateReader} (hB : 0 < B) (hn : n ≤ 32) (h : i.Sound B) :
    (readPrivate B n i).2.Sound B ∧
      ((n ≤ i.bits.length ∧ (readPrivate B n i).1 = some (lsbValue (i.bits.take n)) ∧
          (readPrivate B n i).2.bits = i.bits.drop n) ∨
        (i.bits.length < n ∧ (readPrivate B n i).1 = none ∧ (readPrivate B n i).2.bits = i.bits)) := by
  obtain ⟨hs, src, hsrc, hp⟩ := h
  have hbits : i.bits = streamBits i.rd src := by simp [PrivateReader.bits, hsrc]
  rw [hbits]
  rcases Nat.lt_or_ge (streamBits i.rd src).length n with hl | hl
  · obtain ⟨rd', src', he, hst, hs', hb, _, _, hpos⟩ := readBits_eod hB hn hs hp hl
    simp only [readPrivate, hsrc, he]
    exact ⟨⟨hs', src', rfl, by rw [hb, hpos]⟩, Or.inr ⟨hl, by simp, hst⟩⟩
  · obtain ⟨rd', src', he, hst, hs', hb, hpos, _⟩ := readBits_ok hB hn hs hp hl
    simp only [readPrivate, hsrc, he]
    exact ⟨⟨hs', src', rfl, by rw [hb]; exact hpos⟩, Or.inl ⟨hl, by simp, hst⟩⟩

theorem bufBytes_pos (p : Params) : 0 < p.bufBytes := Nat.succ_pos _

/-! ## Private instances between commands -/

theorem PrivateReader.Sound.held {B : Nat} {i : PrivateReader} (h : i.Sound B) : i.Held B := by
  obtain ⟨hs, src, hsrc, hp⟩ := h
  exact ⟨hs, fun x hx => by rw [hsrc] at hx; cases hx; exact hp⟩

theorem PrivateReader.unbound_held (B : Nat) : (PrivateReader.unbound B).Held B := ⟨Reader.empty_sound B, nofun⟩

/-- A read keeps an instance as it must be between commands, bound or not. -/
theorem readPrivate_held {B n : Nat} {i : PrivateReader} (hB : 0 < B) (hn : n ≤ 32) (h : i.Held B) :
    (readPrivate B n i).2.Held B := by
  cases hs : i.src with
  | none => unfold readPrivate; simp only [hs]; exact h
  | some src => exact (readPrivate_spec hB hn ⟨h.rd, src, hs, h.src src hs⟩).1.held

end Sys2Proof.Machine
end

