-- ==== Sys2Proof/Laws/Memory.lean ====
section
/-! SUPPORT. Laws/Memory.lean: reading after writing, and that every memory operation keeps the canonical form. -/
namespace Sys2Proof.Machine

variable {w : Nat}

theorem Memory.wfFrom_mono {lo lo' : Nat} (h : lo ≤ lo') : ∀ {m : Memory w}, Memory.wfFrom lo' m = true → Memory.wfFrom lo m = true
  | [], _ => rfl
  | (a, v) :: t, hm => by
    simp only [Memory.wfFrom, Bool.and_eq_true, decide_eq_true_eq] at hm ⊢
    exact ⟨⟨by omega, hm.1.2⟩, hm.2⟩

/-- An address below every listed one reads as zero. -/
theorem Memory.read_of_lt {a lo : Nat} (h : a < lo) : ∀ {m : Memory w}, Memory.wfFrom lo m = true → Memory.read m a = 0#w
  | [], _ => rfl
  | (b, v) :: t, hm => by
    simp only [Memory.wfFrom, Bool.and_eq_true, decide_eq_true_eq] at hm
    rw [Memory.read, if_neg (by omega)]
    exact Memory.read_of_lt (by omega) hm.2

theorem Memory.read_write_from (a b : Nat) (v : BitVec w) :
    ∀ {lo : Nat} {m : Memory w}, Memory.wfFrom lo m = true →
      Memory.read (Memory.write m a v) b = if b = a then v else Memory.read m b
  | _, [], _ => by
    by_cases hv : v = 0#w <;> by_cases hb : b = a <;> simp [Memory.write, Memory.read, hv, hb]
  | lo, (c, x) :: t, hm => by
    simp only [Memory.wfFrom, Bool.and_eq_true, decide_eq_true_eq] at hm
    have low : ∀ {k}, k < c + 1 → Memory.read t k = 0#w := fun h => Memory.read_of_lt h hm.2
    have ih := Memory.read_write_from a b v hm.2
    rcases Nat.lt_trichotomy a c with h | h | h
    · by_cases hv : v = 0#w
      · simp only [Memory.write, if_pos h, if_pos hv, Memory.read]
        by_cases hb : b = a
        · rw [if_neg (by omega), if_pos hb, low (by omega), hv]
        · rw [if_neg hb]
      · simp [Memory.write, h, hv, Memory.read]
    · subst h
      by_cases hv : v = 0#w
      · simp only [Memory.write, lt_irrefl, if_false, if_true, if_pos hv, Memory.read]
        split_ifs with h1
        · rw [h1, low (by omega), hv]
        · rfl
      · by_cases hb : b = a <;> simp [Memory.write, hv, Memory.read, hb]
    · rw [Memory.write, if_neg (by omega), if_neg (by omega)]
      simp only [Memory.read, ih]
      split_ifs <;> first | omega | rfl

/-- A read after a write gives the value written at its address, and what was there before elsewhere. -/
theorem Memory.read_write {m : Memory w} (h : Memory.wf m = true) (a b : Nat) (v : BitVec w) :
    Memory.read (Memory.write m a v) b = if b = a then v else Memory.read m b :=
  Memory.read_write_from a b v h

theorem Memory.write_wfFrom (a : Nat) (v : BitVec w) :
    ∀ {lo : Nat} {m : Memory w}, lo ≤ a → Memory.wfFrom lo m = true → Memory.wfFrom lo (Memory.write m a v) = true
  | lo, [], ha, _ => by
    by_cases hv : v = 0#w <;> simp [Memory.write, Memory.wfFrom, hv, ha]
  | lo, (c, x) :: t, ha, hm => by
    have hm' := hm
    simp only [Memory.wfFrom, Bool.and_eq_true, decide_eq_true_eq] at hm'
    rcases Nat.lt_trichotomy a c with h | h | h
    · by_cases hv : v = 0#w
      · simpa [Memory.write, h, hv] using hm
      · simp only [Memory.write, if_pos h, if_neg hv, Memory.wfFrom, Bool.and_eq_true, decide_eq_true_eq]
        exact ⟨⟨ha, hv⟩, ⟨by omega, hm'.1.2⟩, hm'.2⟩
    · subst h
      by_cases hv : v = 0#w
      · simpa [Memory.write, hv] using Memory.wfFrom_mono (by omega) hm'.2
      · simp [Memory.write, hv, Memory.wfFrom, ha, hm'.2]
    · rw [Memory.write, if_neg (by omega), if_neg (by omega)]
      simp only [Memory.wfFrom, Bool.and_eq_true, decide_eq_true_eq]
      exact ⟨hm'.1, Memory.write_wfFrom a v (by omega) hm'.2⟩

/-- A write keeps the canonical form. -/
theorem Memory.write_wf {m : Memory w} (h : Memory.wf m = true) (a : Nat) (v : BitVec w) :
    Memory.wf (Memory.write m a v) = true := Memory.write_wfFrom a v (Nat.zero_le a) h

/-- A write below `n` lists nothing at or above `n`. -/
theorem Memory.write_below {n a : Nat} (ha : a < n) (v : BitVec w) :
    ∀ {m : Memory w}, Memory.below n m = true → Memory.below n (Memory.write m a v) = true
  | [], _ => by
    by_cases hv : v = 0#w <;> simp [Memory.write, Memory.below, hv, ha]
  | (c, x) :: t, hm => by
    have hm' := hm
    simp only [Memory.below, Bool.and_eq_true, decide_eq_true_eq] at hm'
    have ih := Memory.write_below ha v hm'.2
    simp only [Memory.write]
    split_ifs <;> simp [Memory.below, hm', ha, ih]

theorem Memory.ofList_wfFrom : ∀ (k : Nat) (l : List (BitVec w)), Memory.wfFrom k (Memory.ofList k l) = true
  | _, [] => rfl
  | k, v :: t => by
    have ih := Memory.ofList_wfFrom (k + 1) t
    by_cases hv : v = 0#w
    · simpa [Memory.ofList, hv] using Memory.wfFrom_mono (by omega) ih
    · simp [Memory.ofList, hv, Memory.wfFrom, ih]

/-- A list's memory is in canonical form. -/
theorem Memory.ofList_wf (l : List (BitVec w)) : Memory.wf (Memory.ofList 0 l) = true := Memory.ofList_wfFrom 0 l

theorem Memory.ofList_below : ∀ (k : Nat) (l : List (BitVec w)), Memory.below (k + l.length) (Memory.ofList k l) = true
  | _, [] => rfl
  | k, v :: t => by
    have ih := Memory.ofList_below (k + 1) t
    rw [show k + 1 + t.length = k + (v :: t).length by simp; omega] at ih
    by_cases hv : v = 0#w <;> simp [Memory.ofList, hv, Memory.below] at ih ⊢ <;> exact ih

theorem Memory.read_ofList : ∀ (k : Nat) (l : List (BitVec w)) (i : Nat),
    Memory.read (Memory.ofList k l) (k + i) = l.getD i 0
  | _, [], _ => by simp [Memory.ofList, Memory.read]
  | k, v :: t, 0 => by
    by_cases hv : v = 0#w
    · simp only [Memory.ofList, if_pos hv, Nat.add_zero, List.getD_cons_zero]
      rw [Memory.read_of_lt (Nat.lt_succ_self k) (Memory.ofList_wfFrom (k + 1) t), hv]
    · simp [Memory.ofList, hv, Memory.read]
  | k, v :: t, i + 1 => by
    have ih := Memory.read_ofList (k + 1) t i
    rw [show k + 1 + i = k + (i + 1) by omega] at ih
    by_cases hv : v = 0#w <;> simp [Memory.ofList, hv, Memory.read, ih]

/-- What a buffer write answers, and when. -/
theorem outWrite_ok {o o' : OutBuf} {a : Nat} {v : Byte} (h : outWrite o a v = .ok o') :
    a < o.size ∧ o' = { o with cells := Memory.write o.cells a v } := by
  unfold outWrite at h
  split at h
  · exact ⟨‹_›, by injection h with h; exact h.symm⟩
  · cases h

theorem outWrite_of_lt {o : OutBuf} {a : Nat} (v : Byte) (h : a < o.size) :
    outWrite o a v = .ok { o with cells := Memory.write o.cells a v } := if_pos h

theorem smpWrite_ok {m m' : Smp} {a : Nat} {v : BitVec 16} (h : smpWrite m a v = .ok m') :
    a < m.len ∧ m' = { m with cells := Memory.write m.cells a v } := by
  unfold smpWrite at h
  split at h
  · exact ⟨‹_›, by injection h with h; exact h.symm⟩
  · cases h

theorem smpWrite_of_lt {m : Smp} {a : Nat} (v : BitVec 16) (h : a < m.len) :
    smpWrite m a v = .ok { m with cells := Memory.write m.cells a v } := if_pos h

theorem OutBuf.fresh_sound (n : Nat) : (OutBuf.fresh n).Sound := ⟨rfl, rfl⟩

@[simp] theorem outRead_fresh (n a : Nat) : outRead (OutBuf.fresh n) a = 0 := rfl

/-- A buffer write keeps the buffer's form and size, and changes one byte. -/
theorem outWrite_spec {o o' : OutBuf} {a : Nat} {v : Byte} (h : outWrite o a v = .ok o') (ho : o.Sound) :
    o'.Sound ∧ o'.size = o.size ∧ ∀ b, outRead o' b = if b = a then v else outRead o b := by
  obtain ⟨ha, rfl⟩ := outWrite_ok h
  exact ⟨⟨Memory.write_wf ho.1 a v, Memory.write_below ha v ho.2⟩, rfl, fun b => Memory.read_write ho.1 a b v⟩

/-- Writing a list of bytes inside the buffer succeeds, and changes those bytes and no other. -/
theorem outWriteAll_spec : ∀ (l : List Byte) (a : Nat) (o : OutBuf), o.Sound → a + l.length ≤ o.size →
    ∃ o', outWriteAll l a o = .ok o' ∧ o'.Sound ∧ o'.size = o.size ∧
      ∀ b, outRead o' b = if a ≤ b ∧ b < a + l.length then l.getD (b - a) 0 else outRead o b
  | [], a, o, ho, _ => ⟨o, rfl, ho, rfl, fun b => by rw [if_neg (by simp)]⟩
  | v :: t, a, o, ho, h => by
    simp only [List.length_cons] at h
    have h1 := outWrite_of_lt (o := o) (a := a) v (by omega)
    obtain ⟨hs1, hz1, hr1⟩ := outWrite_spec h1 ho
    obtain ⟨o', h2, hs2, hz2, hr2⟩ := outWriteAll_spec t (a + 1) _ hs1 (by rw [hz1]; omega)
    refine ⟨o', by simp only [outWriteAll, h1]; exact h2, hs2, by rw [hz2, hz1], fun b => ?_⟩
    rw [hr2, hr1]
    simp only [List.length_cons]
    rcases Nat.lt_trichotomy b a with hb | hb | hb
    · rw [if_neg (by omega), if_neg (by omega), if_neg (by omega)]
    · subst hb
      rw [if_neg (by omega), if_pos rfl, if_pos (by omega)]
      simp
    · by_cases hb2 : b < a + (t.length + 1)
      · rw [if_pos (by omega), if_pos (by omega), show b - a = (b - (a + 1)) + 1 by omega]
        simp
      · rw [if_neg (by omega), if_neg (by omega), if_neg (by omega)]

end Sys2Proof.Machine
end

