-- ==== Sys2Proof/Laws/ItDecode.lean ====
section
/-! SUPPORT. Laws/ItDecode.lean: what the steps of `IT.DECODE` do, said once each (41_it_decompress.md R84 to
R101): which registers and elements they may change, and that no loop outlives its bound. -/
namespace Sys2Proof.Machine

/-! ## Widths -/

theorem changeWidth_pos (cur idx : Nat) : 1 ≤ changeWidth cur idx := by unfold changeWidth; split <;> omega

theorem changeWidth_le (cur idx : Nat) : changeWidth cur idx ≤ idx + 2 := by unfold changeWidth; split <;> omega

/-! ## What stays and what holds -/

/-- What every step of `IT.DECODE` leaves: the operands, the source's bytes, the buffer's length and form, and the
elements from `c * l` on. -/
structure ItKeeps (r r' : ItRun) : Prop where
  c : r'.itd.c = r.itd.c
  l : r'.itd.l = r.itd.l
  is16 : r'.itd.is16 = r.itd.is16
  is215 : r'.itd.is215 = r.itd.is215
  bytes : r'.src.bytes = r.src.bytes
  pos : r.src.pos ≤ r.src.bytes.length → r'.src.pos ≤ r.src.bytes.length
  len : r'.smp.len = r.smp.len
  wf : Memory.wf r.smp.cells = true → Memory.wf r'.smp.cells = true
  below : Memory.below r.smp.len r.smp.cells = true → Memory.below r.smp.len r'.smp.cells = true
  outside : Memory.wf r.smp.cells = true → ∀ i, r.itd.c.toNat * r.itd.l.toNat ≤ i → smpRead r'.smp i = smpRead r.smp i

theorem ItKeeps.refl (r : ItRun) : ItKeeps r r := ⟨rfl, rfl, rfl, rfl, rfl, id, rfl, id, id, fun _ _ _ => rfl⟩

theorem ItKeeps.trans {r r' r'' : ItRun} (h : ItKeeps r r') (h' : ItKeeps r' r'') : ItKeeps r r'' where
  c := h'.c.trans h.c
  l := h'.l.trans h.l
  is16 := h'.is16.trans h.is16
  is215 := h'.is215.trans h.is215
  bytes := h'.bytes.trans h.bytes
  pos := fun hp => by rw [← h.bytes]; exact h'.pos (by rw [h.bytes]; exact h.pos hp)
  len := h'.len.trans h.len
  wf := fun hw => h'.wf (h.wf hw)
  below := fun hb => by rw [← h.len]; exact h'.below (by rw [h.len]; exact h.below hb)
  outside := fun hw i hi => by
    rw [h'.outside (h.wf hw) i (by rw [h.c, h.l]; exact hi), h.outside hw i hi]

/-- A step that changes only registers other than the operands. -/
theorem ItKeeps.of_regs {r r' : ItRun} (hc : r'.itd.c = r.itd.c) (hl : r'.itd.l = r.itd.l)
    (h16 : r'.itd.is16 = r.itd.is16) (h215 : r'.itd.is215 = r.itd.is215) (hs : r'.src = r.src) (hm : r'.smp = r.smp) :
    ItKeeps r r' :=
  ⟨hc, hl, h16, h215, by rw [hs], by rw [hs]; exact id, by rw [hm], by rw [hm]; exact id, by rw [hm]; exact id,
    fun _ _ _ => by rw [hm]⟩

/-- What every step inside a block leaves: the source's cursor as well. -/
structure ItStays (r r' : ItRun) : Prop extends ItKeeps r r' where
  src : r'.src = r.src

theorem ItStays.refl (r : ItRun) : ItStays r r := ⟨ItKeeps.refl r, rfl⟩

theorem ItStays.trans {r r' r'' : ItRun} (h : ItStays r r') (h' : ItStays r' r'') : ItStays r r'' :=
  ⟨h.toItKeeps.trans h'.toItKeeps, h'.src.trans h.src⟩

theorem ItStays.of_regs {r r' : ItRun} (hc : r'.itd.c = r.itd.c) (hl : r'.itd.l = r.itd.l)
    (h16 : r'.itd.is16 = r.itd.is16) (h215 : r'.itd.is215 = r.itd.is215) (hs : r'.src = r.src) (hm : r'.smp = r.smp) :
    ItStays r r' := ⟨ItKeeps.of_regs hc hl h16 h215 hs hm, hs⟩

/-- What holds of the registers inside a channel (R86, R95); `K` and `N` bound the two registers that a channel
takes over from the state before it. -/
structure ItInChannel (K N : Nat) (r : ItRun) : Prop where
  K_ge : 0x8000 ≤ K
  N_ge : 65536 ≤ N
  chn : r.itd.chn < r.itd.c.toNat
  written : r.itd.written ≤ r.itd.l.toNat
  writePos : r.itd.writePos = r.itd.chn + r.itd.written * r.itd.c.toNat
  curLen : r.itd.curLen ≤ K
  width : r.itd.width ≤ N

/-- What holds inside a block as well (R88, R89). -/
structure ItInBlock (K N : Nat) (p : Params) (r : ItRun) : Prop extends ItInChannel K N r where
  room : r.itd.written + r.itd.curLen ≤ r.itd.l.toNat
  width_pos : 1 ≤ r.itd.width
  reader : r.itd.br.Sound p.bufBytes

variable {K N : Nat}

/-- Outcomes of the steps: what a normal end satisfies, and the one fault there can be. -/
def ItPost (r : ItRun) (Q : ItRun → Prop) : Except Fault ItRun → Prop
  | .ok r' => ItKeeps r r' ∧ Q r'
  | .error f => f = .smpOutOfRange ∧ r.smp.len < r.itd.c.toNat * r.itd.l.toNat

/-- The same of a symbol: inside the block when it goes on, with a bit less to read. -/
def ItSymbolPost (K N : Nat) (p : Params) (r : ItRun) : Except Fault (LoopControl × ItRun) → Prop
  | .ok (.again, r') => ItStays r r' ∧ ItInBlock K N p r' ∧ r'.itd.br.bits.length + 1 ≤ r.itd.br.bits.length
  | .ok (.endBlock, r') => ItStays r r' ∧ ItInChannel K N r'
  | .error f => f = .smpOutOfRange ∧ r.smp.len < r.itd.c.toNat * r.itd.l.toNat

/-! ## Write (R95) -/

theorem writePos_lt {r : ItRun} (h : ItInChannel K N r) (hlt : r.itd.written < r.itd.l.toNat) :
    r.itd.writePos < r.itd.c.toNat * r.itd.l.toNat := by
  rw [h.writePos]
  have h1 := h.chn
  have h2 : r.itd.c.toNat * (r.itd.written + 1) ≤ r.itd.c.toNat * r.itd.l.toNat := Nat.mul_le_mul_left _ hlt
  have h3 : r.itd.c.toNat * (r.itd.written + 1) = r.itd.written * r.itd.c.toNat + r.itd.c.toNat := by ring
  omega

/-- The elements and registers a sample changes (R95). -/
theorem itWrite_ok {d : Int} {r r' : ItRun} (h : itWrite d r = .ok r') :
    r.itd.writePos < r.smp.len ∧ r'.src = r.src ∧
      r'.itd = { r.itd with
        mem1 := addMod (itW r.itd.is16) r.itd.mem1 d,
        mem2 := if r.itd.is215 then
          addMod (itW r.itd.is16) r.itd.mem2 ((addMod (itW r.itd.is16) r.itd.mem1 d).toNat : Int) else r.itd.mem2,
        writePos := r.itd.writePos + r.itd.c.toNat,
        written := r.itd.written + 1,
        curLen := r.itd.curLen - 1 } ∧
      r'.smp = { r.smp with
        cells := Memory.write r.smp.cells r.itd.writePos (if r.itd.is215 then r'.itd.mem2 else r'.itd.mem1) } := by
  unfold itWrite at h
  simp only at h
  split at h
  · cases h
  · rename_i smp hs
    obtain ⟨ha, rfl⟩ := smpWrite_ok hs
    cases h
    refine ⟨ha, rfl, rfl, ?_⟩
    cases r.itd.is215 <;> rfl

theorem itWrite_error {d : Int} {r : ItRun} {f : Fault} (h : itWrite d r = .error f) :
    f = .smpOutOfRange ∧ r.smp.len ≤ r.itd.writePos := by
  unfold itWrite at h
  simp only at h
  split at h
  · rename_i g hg
    unfold smpWrite at hg
    split at hg
    · cases hg
    · cases hg; cases h; exact ⟨rfl, by omega⟩
  · cases h

/-- A sample keeps the block's invariant and moves no bit. -/
theorem itSample_post {p : Params} {d : Int} {r : ItRun} (h : ItInBlock K N p r) (hcur : 0 < r.itd.curLen) :
    match itSample d r with
    | .ok (c, r') => c = .again ∧ ItStays r r' ∧ ItInBlock K N p r' ∧ r'.itd.br = r.itd.br
    | .error f => f = .smpOutOfRange ∧ r.smp.len < r.itd.c.toNat * r.itd.l.toNat := by
  have hroom := h.room
  have hlt := writePos_lt h.toItInChannel (by omega)
  unfold itSample
  cases hw : itWrite d r with
  | error f =>
    obtain ⟨rfl, hle⟩ := itWrite_error hw
    exact ⟨rfl, by omega⟩
  | ok r' =>
    obtain ⟨hpos, hsrc, hitd, hsmp⟩ := itWrite_ok hw
    have hc : r'.itd.c = r.itd.c := by rw [hitd]
    have hl : r'.itd.l = r.itd.l := by rw [hitd]
    refine ⟨rfl, ⟨⟨hc, hl, by rw [hitd], by rw [hitd], by rw [hsrc], by rw [hsrc]; exact id, by rw [hsmp],
      fun hwf => by rw [hsmp]; exact Memory.write_wf hwf _ _,
      fun hb => by rw [hsmp]; exact Memory.write_below hpos _ hb, fun hwf i hi => ?_⟩, hsrc⟩, ?_, by rw [hitd]⟩
    · rw [hsmp]
      exact (Memory.read_write hwf r.itd.writePos i _).trans (if_neg (by omega))
    · refine ⟨⟨h.K_ge, h.N_ge, ?_, ?_, ?_, ?_, ?_⟩, ?_, ?_, ?_⟩
      all_goals simp only [hitd]
      · exact h.chn
      · omega
      · rw [h.writePos]; ring
      · have := h.curLen; omega
      · exact h.width
      · omega
      · exact h.width_pos
      · exact h.reader

/-! ## Symbols (R89 to R93) -/

theorem itAbort_keeps (p : Params) (r : ItRun) : ItStays r (itAbort p r) := by
  unfold itAbort
  split
  · exact ItStays.of_regs rfl rfl rfl rfl rfl rfl
  · exact ItStays.refl r

theorem itAbort_inChannel {p : Params} {r : ItRun} (h : ItInChannel K N r) : ItInChannel K N (itAbort p r) := by
  unfold itAbort
  split
  · exact ⟨h.K_ge, h.N_ge, h.chn, h.written, h.writePos, h.curLen, h.width⟩
  · exact h

theorem itRead_keeps (p : Params) (n : Nat) (r : ItRun) : ItStays r (itRead p n r).2 :=
  ItStays.of_regs rfl rfl rfl rfl rfl rfl

/-- A read inside a block keeps its invariant. -/
theorem itRead_inBlock {p : Params} {n : Nat} {r : ItRun} (hn : n ≤ 32) (h : ItInBlock K N p r) :
    ItInBlock K N p (itRead p n r).2 ∧ (itRead p n r).2.itd = { r.itd with br := (itRead p n r).2.itd.br } :=
  ⟨⟨⟨h.K_ge, h.N_ge, h.chn, h.written, h.writePos, h.curLen, h.width⟩, h.room, h.width_pos,
    (readPrivate_spec (bufBytes_pos p) hn h.reader).1⟩, rfl⟩

theorem itRead_some {p : Params} {n v : Nat} {r r' : ItRun} (hn : n ≤ 32) (h : ItInBlock K N p r)
    (he : itRead p n r = (some v, r')) :
    n ≤ r.itd.br.bits.length ∧ v = lsbValue (r.itd.br.bits.take n) ∧ r'.itd.br.bits = r.itd.br.bits.drop n := by
  have hs := (readPrivate_spec (bufBytes_pos p) hn h.reader).2
  have h1 : (readPrivate p.bufBytes n r.itd.br).1 = some v := congrArg Prod.fst he
  have h2 : r' = (itRead p n r).2 := (congrArg Prod.snd he).symm
  rcases hs with ⟨hl, hv, hb⟩ | ⟨_, hv, _⟩
  · rw [hv] at h1
    exact ⟨hl, (Option.some.inj h1).symm, by rw [h2]; exact hb⟩
  · rw [hv] at h1; cases h1

/-- A marker keeps the block's invariant. -/
theorem itSetWidth_inBlock {p : Params} {w : Nat} {r : ItRun} (h : ItInBlock K N p r) (h1 : 1 ≤ w) (h2 : w ≤ N) :
    ItInBlock K N p (itSetWidth w r) :=
  ⟨⟨h.K_ge, h.N_ge, h.chn, h.written, h.writePos, h.curLen, h2⟩, h.room, h1, h.reader⟩

theorem itSetWidth_keeps (w : Nat) (r : ItRun) : ItStays r (itSetWidth w r) := ItStays.of_regs rfl rfl rfl rfl rfl rfl

/-- What one symbol does. -/
theorem itSymbol_post {p : Params} {r : ItRun} (h : ItInBlock K N p r) (hcur : 0 < r.itd.curLen) :
    ItSymbolPost K N p r (itSymbol p r) := by
  unfold itSymbol
  by_cases hover : defWidth r.itd.is16 < r.itd.width
  · simp only [if_pos hover]
    exact ⟨itAbort_keeps p r, itAbort_inChannel h.toItInChannel⟩
  · simp only [if_neg hover]
    have hw17 : r.itd.width ≤ 17 := by
      have : defWidth r.itd.is16 ≤ 17 := by unfold defWidth; split <;> omega
      omega
    have hw32 : r.itd.width ≤ 32 := by omega
    have hN := h.N_ge
    obtain ⟨hin, hitd⟩ := itRead_inBlock hw32 h
    have hkeep := itRead_keeps p r.itd.width r
    cases he : itRead p r.itd.width r with
    | mk o r' =>
    rw [he] at hin hitd hkeep
    simp only at hin hitd hkeep
    cases o with
    | none => exact ⟨hkeep.trans (itAbort_keeps p r'), itAbort_inChannel hin.toItInChannel⟩
    | some v =>
      obtain ⟨hl, hv, hb⟩ := itRead_some hw32 h he
      have hbits : r'.itd.br.bits.length + r.itd.width = r.itd.br.bits.length := by
        rw [hb, List.length_drop]; omega
      have hwp := h.width_pos
      have hvlt : v < 2 ^ r.itd.width := by
        rw [hv]
        refine lt_of_lt_of_le (lsbValue_lt _) (Nat.pow_le_pow_right (by decide) ?_)
        rw [List.length_take]; omega
      have hcur' : 0 < r'.itd.curLen := by rw [hitd]; exact hcur
      have h16 : r'.itd.is16 = r.itd.is16 := by rw [hitd]
      have hwid : r'.itd.width = r.itd.width := by rw [hitd]
      have sample : ∀ d, ItSymbolPost K N p r (itSample d r') := fun d => by
        have hp := itSample_post (d := d) hin hcur'
        cases hs : itSample d r' with
        | error f =>
          rw [hs] at hp
          exact ⟨hp.1, by rw [← hkeep.len, ← hkeep.c, ← hkeep.l]; exact hp.2⟩
        | ok x =>
          rw [hs] at hp
          obtain ⟨c, r2⟩ := x
          obtain ⟨rfl, hk, hi, hbr⟩ := hp
          exact ⟨hkeep.trans hk, hi, by rw [hbr]; omega⟩
      have marker : ∀ w, 1 ≤ w → w ≤ N → ItSymbolPost K N p r (.ok (.again, itSetWidth w r')) := fun w h1 h2 =>
        ⟨hkeep.trans (itSetWidth_keeps w r'), itSetWidth_inBlock hin h1 h2, by
          show r'.itd.br.bits.length + 1 ≤ _; omega⟩
      by_cases hA : r.itd.width ≤ 6
      · simp only [if_pos hA]
        unfold itModeA
        split
        · obtain ⟨hin2, hitd2⟩ := itRead_inBlock (n := fetchA r'.itd.is16) (by unfold fetchA; split <;> omega) hin
          have hk2 := itRead_keeps p (fetchA r'.itd.is16) r'
          cases he2 : itRead p (fetchA r'.itd.is16) r' with
          | mk o2 r2 =>
          rw [he2] at hin2 hitd2 hk2
          simp only at hin2 hitd2 hk2
          cases o2 with
          | none => exact ⟨hkeep.trans (hk2.trans (itAbort_keeps p r2)), itAbort_inChannel hin2.toItInChannel⟩
          | some idx =>
            obtain ⟨_, hv2, hb2⟩ := itRead_some (by unfold fetchA; split <;> omega) hin he2
            have hidx : idx < 16 := by
              rw [hv2]
              refine lt_of_lt_of_le (lsbValue_lt _) (?_ : _ ≤ 2 ^ 4)
              refine Nat.pow_le_pow_right (by decide) ?_
              rw [List.length_take]; unfold fetchA; split <;> omega
            have := changeWidth_le r'.itd.width idx
            exact ⟨hkeep.trans (hk2.trans (itSetWidth_keeps _ r2)),
              itSetWidth_inBlock hin2 (changeWidth_pos _ _) (by omega), by
                show r2.itd.br.bits.length + 1 ≤ _
                rw [hb2, List.length_drop]; omega⟩
        · exact sample _
      · simp only [if_neg hA]
        by_cases hB : r.itd.width < defWidth r.itd.is16
        · simp only [if_pos hB]
          unfold itModeB
          split
          · rename_i hv2
            apply marker _ (changeWidth_pos _ _)
            refine le_trans (changeWidth_le _ _) ?_
            have hU : upperB r'.itd.is16 ≤ 7 := by unfold upperB; split <;> omega
            have hL : -8 ≤ lowerB r'.itd.is16 := by unfold lowerB; split <;> omega
            omega
          · exact sample _
        · simp only [if_neg hB]
          unfold itModeC
          split
          · refine marker _ (by omega) ?_
            have h1 : v % 2 ^ (r.itd.width - 1) < 2 ^ (r.itd.width - 1) := Nat.mod_lt _ (by positivity)
            have h2 : 2 ^ (r.itd.width - 1) ≤ 2 ^ 16 := Nat.pow_le_pow_right (by decide) (by omega)
            omega
          · exact sample _

/-! ## One symbol in any run (R89 to R93, R97) -/

theorem itSample_ok {d : Int} {c : LoopControl} {r r' : ItRun} (h : itSample d r = .ok (c, r')) :
    r'.src = r.src ∧ r'.itd.br = r.itd.br ∧ r'.itd.width = r.itd.width := by
  unfold itSample at h
  split at h
  · cases h
  · rename_i hw
    cases h
    obtain ⟨_, hs, hi, _⟩ := itWrite_ok hw
    exact ⟨hs, by rw [hi], by rw [hi]⟩

@[simp] theorem itAbort_src (p : Params) (r : ItRun) : (itAbort p r).src = r.src := (itAbort_keeps p r).src

theorem itRead_src {p : Params} {n : Nat} {o : Option Nat} {r r' : ItRun} (h : itRead p n r = (o, r')) : r'.src = r.src :=
  (congrArg (fun x => x.2.src) h).symm

/-- A symbol leaves the source. -/
theorem itSymbol_src {p : Params} {c : LoopControl} {r r' : ItRun} (h : itSymbol p r = .ok (c, r')) : r'.src = r.src := by
  unfold itSymbol at h
  simp only at h
  split at h
  · cases h; simp
  · split at h
    · rename_i he; cases h; simp [itRead_src he]
    · rename_i he
      have h2 := itRead_src he
      unfold itModeA itModeB itModeC at h
      repeat' split at h
      · rename_i he3; cases h; simp [itRead_src he3, h2]
      · rename_i he3; cases h; exact (itRead_src he3).trans h2
      · exact (itSample_ok h).1.trans h2
      · cases h; exact h2
      · exact (itSample_ok h).1.trans h2
      · cases h; exact h2
      · exact (itSample_ok h).1.trans h2

/-- A symbol after which the block goes on has taken a bit, and leaves a width to read the next one in. -/
theorem itSymbol_again {p : Params} {r r' : ItRun} (h : itSymbol p r = .ok (.again, r')) (hs : r.itd.br.Sound p.bufBytes)
    (hw : 1 ≤ r.itd.width) :
    r'.itd.br.Sound p.bufBytes ∧ 1 ≤ r'.itd.width ∧ r'.itd.br.bits.length + 1 ≤ r.itd.br.bits.length := by
  have hdef : defWidth r.itd.is16 ≤ 17 := by unfold defWidth; split <;> omega
  unfold itSymbol at h
  simp only at h
  split at h
  · cases h
  · obtain ⟨hs2, hb2⟩ := readPrivate_spec (n := r.itd.width) (bufBytes_pos p) (by omega) hs
    split at h
    · cases h
    · rename_i v r2 he
      obtain ⟨hv, rfl⟩ := Prod.mk.inj he
      rw [hv] at hb2
      have hlen : (readPrivate p.bufBytes r.itd.width r.itd.br).2.bits.length + 1 ≤ r.itd.br.bits.length := by
        rcases hb2 with ⟨_, _, hb⟩ | ⟨_, hn, _⟩
        · rw [hb, List.length_drop]; omega
        · cases hn
      have sample : ∀ {d}, itSample d (itRead p r.itd.width r).2 = .ok (.again, r') →
          r'.itd.br.Sound p.bufBytes ∧ 1 ≤ r'.itd.width ∧ r'.itd.br.bits.length + 1 ≤ r.itd.br.bits.length := by
        intro d hd
        obtain ⟨_, hb, hw'⟩ := itSample_ok hd
        rw [hb, hw']; exact ⟨hs2, hw, hlen⟩
      split at h
      · unfold itModeA at h
        split at h
        · obtain ⟨hs3, hb3⟩ := readPrivate_spec (n := fetchA r.itd.is16) (bufBytes_pos p) (by unfold fetchA; split <;> omega) hs2
          split at h
          · cases h
          · rename_i he3
            obtain ⟨_, rfl⟩ := Prod.mk.inj he3
            cases h
            refine ⟨hs3, changeWidth_pos _ _, ?_⟩
            show (readPrivate p.bufBytes (fetchA r.itd.is16) (readPrivate p.bufBytes r.itd.width r.itd.br).2).2.bits.length + 1 ≤ _
            rcases hb3 with ⟨_, _, hb⟩ | ⟨_, _, hb⟩
            · rw [hb, List.length_drop]; omega
            · rw [hb]; exact hlen
        · exact sample h
      · unfold itModeB itModeC at h
        repeat' split at h
        · cases h; exact ⟨hs2, changeWidth_pos _ _, hlen⟩
        · exact sample h
        · cases h; exact ⟨hs2, Nat.succ_le_succ (Nat.zero_le _), hlen⟩
        · exact sample h

/-- The symbol loop leaves the source, whatever its bound. -/
theorem itSymbols_src {p : Params} : ∀ (k : Nat) {r r' : ItRun}, itSymbols p k r = .ok r' → r'.src = r.src
  | 0, r, r', h => by
    unfold itSymbols at h
    split at h <;> cases h
    rfl
  | k + 1, r, r', h => by
    unfold itSymbols at h
    split at h
    · cases h; rfl
    · split at h
      · cases h
      · rename_i he; cases h; exact itSymbol_src he
      · rename_i he; exact (itSymbols_src k h).trans (itSymbol_src he)

/-! ## Blocks (R88, R89, R97) -/

/-- What the symbol loop does, when its bound covers the bits of the chunk (R101). -/
theorem itSymbols_post {p : Params} : ∀ (k : Nat) (r : ItRun), ItInBlock K N p r → r.itd.br.bits.length + 1 ≤ k →
    ItPost r (fun r' => ItInChannel K N r' ∧ r'.src = r.src) (itSymbols p k r)
  | 0, _, _, hk => absurd hk (by omega)
  | k + 1, r, h, hk => by
    unfold itSymbols
    by_cases hcur : r.itd.curLen = 0
    · rw [if_pos hcur]
      exact ⟨ItKeeps.refl r, h.toItInChannel, rfl⟩
    · rw [if_neg hcur]
      have hp := itSymbol_post h (Nat.pos_of_ne_zero hcur)
      cases hs : itSymbol p r with
      | error f => rw [hs] at hp; exact hp
      | ok x =>
        rw [hs] at hp
        obtain ⟨c, r'⟩ := x
        cases c with
        | endBlock => exact ⟨hp.1.toItKeeps, hp.2, hp.1.src⟩
        | again =>
          obtain ⟨hk1, hin, hbits⟩ := hp
          have ih := itSymbols_post k r' hin (by omega)
          simp only
          cases hr : itSymbols p k r' with
          | error f =>
            rw [hr] at ih
            exact ⟨ih.1, by rw [← hk1.len, ← hk1.c, ← hk1.l]; exact ih.2⟩
          | ok r'' =>
            rw [hr] at ih
            exact ⟨hk1.toItKeeps.trans ih.1, ih.2.1, ih.2.2.trans hk1.src⟩

/-- What `DecodeBlock()` does. -/
theorem itDecodeBlock_post {p : Params} {r : ItRun} (h : ItInChannel K N r) (hr : r.itd.br.Sound p.bufBytes)
    (hb : r.itd.br.bits.length ≤ 8 * r.itd.blkSize.toNat) :
    ItPost r (fun r' => ItInChannel K N r' ∧ r'.src = r.src) (itDecodeBlock p r) := by
  have hd : 1 ≤ defWidth r.itd.is16 ∧ defWidth r.itd.is16 ≤ 65536 := by unfold defWidth; split <;> omega
  have hs : itBlockSamples r.itd.is16 ≤ 0x8000 := by unfold itBlockSamples; split <;> omega
  have hw := h.written
  unfold itDecodeBlock
  generalize hr0 : ({ r with
    itd := { r.itd with
      st := .sym
      curLen := min (r.itd.l.toNat - r.itd.written) (itBlockSamples r.itd.is16)
      width := defWidth r.itd.is16 } } : ItRun) = r0
  have hin : ItInBlock K N p r0 := by
    subst hr0
    have hK := h.K_ge
    have hN := h.N_ge
    exact ⟨⟨hK, hN, h.chn, h.written, h.writePos, by show min _ _ ≤ _; omega, le_trans hd.2 hN⟩,
      by show r.itd.written + min (r.itd.l.toNat - r.itd.written) (itBlockSamples r.itd.is16) ≤ r.itd.l.toNat; omega, hd.1, hr⟩
  have hkeep : ItStays r r0 := by subst hr0; exact ItStays.of_regs rfl rfl rfl rfl rfl rfl
  have hbr : r0.itd.br = r.itd.br := by subst hr0; rfl
  have ih := itSymbols_post (8 * r.itd.blkSize.toNat + 1) r0 hin (by rw [hbr]; omega)
  cases hres : itSymbols p (8 * r.itd.blkSize.toNat + 1) r0 with
  | error f =>
    rw [hres] at ih
    exact ⟨ih.1, by rw [← hkeep.len, ← hkeep.c, ← hkeep.l]; exact ih.2⟩
  | ok r' =>
    rw [hres] at ih
    exact ⟨hkeep.toItKeeps.trans ih.1, ih.2.1, ih.2.2.trans hkeep.src⟩

/-! ## Headers and channels (R84 to R87, R100) -/

/-- A read of a source keeps its bytes and moves its cursor inside them. -/
theorem srcRead_spec (s : ByteSource) (n : Nat) : (srcRead s n).2.bytes = s.bytes ∧
    (srcRead s n).2.pos = s.pos + min n (s.bytes.length - s.pos) ∧
    (srcRead s n).1 = (s.bytes.drop s.pos).take n := by
  simp [srcRead]

/-- What `BlockHeader()` does (R87): with fewer than 2 bytes left nothing is consumed; else 2 bytes are, and a
block that is not empty has its reader bound to its chunk. -/
theorem itBlockHeader_spec {p : Params} {r : ItRun} (h : ItInChannel K N r) :
    ItKeeps r (itBlockHeader p r).2 ∧ ItInChannel K N (itBlockHeader p r).2 ∧
      ((itBlockHeader p r).1 = true →
        (itBlockHeader p r).2.src.pos ≥ r.src.pos + 2 ∧ r.src.pos + 2 ≤ r.src.bytes.length ∧
        ((itBlockHeader p r).2.itd.blkSize ≠ 0 → (itBlockHeader p r).2.itd.br.Sound p.bufBytes ∧
          (itBlockHeader p r).2.itd.br.bits.length ≤ 8 * (itBlockHeader p r).2.itd.blkSize.toNat)) := by
  have h1 := h.chn; have h2 := h.written; have h3 := h.writePos; have h4 := h.curLen; have h5 := h.width
  obtain ⟨hb, hpos, _⟩ := srcRead_spec r.src 2
  unfold itBlockHeader
  by_cases hcan : srcCanRead r.src 2 = true
  · have hcan' : 2 ≤ r.src.bytes.length - r.src.pos := of_decide_eq_true hcan
    simp only [if_pos hcan]
    generalize le16 ((srcRead r.src 2).1.getD 0 0) ((srcRead r.src 2).1.getD 1 0) = size
    by_cases hz : size = 0
    · simp only [if_pos hz]
      refine ⟨⟨rfl, rfl, rfl, rfl, hb, fun _ => ?_, rfl, id, id, fun _ _ _ => rfl⟩, ⟨h.K_ge, h.N_ge, h1, h2, h3, h4, h5⟩, fun _ => ⟨?_, by omega, fun hne => absurd hz hne⟩⟩
      · show (srcRead r.src 2).2.pos ≤ _; omega
      · show (srcRead r.src 2).2.pos ≥ _; omega
    · simp only [if_neg hz]
      obtain ⟨hb2, hpos2, hch⟩ := srcRead_spec (srcRead r.src 2).2 size.toNat
      have hsound := PrivateReader.over_sound p.bufBytes (srcRead (srcRead r.src 2).2 size.toNat).1
      have hlen : (PrivateReader.over p.bufBytes ⟨(srcRead (srcRead r.src 2).2 size.toNat).1, 0⟩).bits.length ≤ 8 * size.toNat := by
        rw [PrivateReader.over_bits, bitsOfBytes_length, hch, List.length_take]; omega
      rw [hb] at hb2 hpos2
      have hp' : (srcChunk (srcRead r.src 2).2 size.toNat).2.pos ≤ r.src.bytes.length := by
        show (srcRead _ _).2.pos ≤ _; omega
      have hp'' : (srcChunk (srcRead r.src 2).2 size.toNat).2.pos ≥ r.src.pos + 2 := by
        show (srcRead _ _).2.pos ≥ _; omega
      by_cases hm : p.itMemReset = .perBlock
      · simp only [if_pos hm]
        exact ⟨⟨rfl, rfl, rfl, rfl, hb2, fun _ => hp', rfl, id, id, fun _ _ _ => rfl⟩, ⟨h.K_ge, h.N_ge, h1, h2, h3, h4, h5⟩,
          fun _ => ⟨hp'', by omega, fun _ => ⟨hsound, hlen⟩⟩⟩
      · simp only [if_neg hm]
        exact ⟨⟨rfl, rfl, rfl, rfl, hb2, fun _ => hp', rfl, id, id, fun _ _ _ => rfl⟩, ⟨h.K_ge, h.N_ge, h1, h2, h3, h4, h5⟩,
          fun _ => ⟨hp'', by omega, fun _ => ⟨hsound, hlen⟩⟩⟩
  · simp only [if_neg hcan]
    exact ⟨ItKeeps.of_regs rfl rfl rfl rfl rfl rfl, ⟨h.K_ge, h.N_ge, h1, h2, h3, h4, h5⟩, fun hf => absurd hf (by decide)⟩

/-- The outcome of a step from a run that another step led to. -/
theorem ItPost.after {r r' : ItRun} {Q : ItRun → Prop} (hk : ItKeeps r r') : ∀ {x : Except Fault ItRun}, ItPost r' Q x → ItPost r Q x
  | .ok _, h => ⟨hk.trans h.1, h.2⟩
  | .error _, h => ⟨h.1, by rw [← hk.len, ← hk.c, ← hk.l]; exact h.2⟩

/-- What the block loop of a channel does, when its bound covers the source's headers (R101). -/
theorem itBlocks_post {p : Params} : ∀ (k : Nat) (r : ItRun), ItInChannel K N r →
    (r.src.bytes.length - r.src.pos) / 2 + 1 ≤ k → ItPost r (ItInChannel K N) (itBlocks p k r)
  | 0, _, _, hk => absurd hk (by omega)
  | k + 1, r, h, hk => by
    unfold itBlocks
    split
    · obtain ⟨hkeep, hin, hmore⟩ := itBlockHeader_spec (p := p) h
      cases he : itBlockHeader p r with
      | mk o r' =>
      rw [he] at hkeep hin hmore
      simp only at hkeep hin hmore
      cases o with
      | false => exact ⟨hkeep, hin⟩
      | true =>
        obtain ⟨hp1, hp2, hsz⟩ := hmore rfl
        simp only
        by_cases hz : r'.itd.blkSize = 0
        · rw [if_pos hz]
          exact ItPost.after hkeep (itBlocks_post k r' hin (by rw [hkeep.bytes]; omega))
        · rw [if_neg hz]
          have hd := itDecodeBlock_post hin (hsz hz).1 (hsz hz).2
          cases hr : itDecodeBlock p r' with
          | error f => rw [hr] at hd; exact ItPost.after hkeep (x := .error f) hd
          | ok r'' =>
            rw [hr] at hd
            exact ItPost.after (hkeep.trans hd.1) (itBlocks_post k r'' hd.2.1 (by rw [hd.2.2, hkeep.bytes]; omega))
    · exact ⟨ItKeeps.refl r, h⟩

/-- What `ChannelStart()` does (R86). -/
theorem itChannelStart_spec {p : Params} {chn : Nat} {r : ItRun} (hc : chn < r.itd.c.toNat) (hK : 0x8000 ≤ K)
    (hN : 65536 ≤ N) (hcur : r.itd.curLen ≤ K) (hw : r.itd.width ≤ N) :
    ItStays r (itChannelStart p chn r) ∧ ItInChannel K N (itChannelStart p chn r) := by
  unfold itChannelStart
  simp only
  split
  · exact ⟨ItStays.of_regs rfl rfl rfl rfl rfl rfl, ⟨hK, hN, hc, Nat.zero_le _, by simp [itClearMem], hcur, hw⟩⟩
  · exact ⟨ItStays.of_regs rfl rfl rfl rfl rfl rfl, ⟨hK, hN, hc, Nat.zero_le _, by simp, hcur, hw⟩⟩

/-- What one channel does (R84). -/
theorem itChannel_post {p : Params} {chn : Nat} {r : ItRun} (hc : chn < r.itd.c.toNat) (hK : 0x8000 ≤ K)
    (hN : 65536 ≤ N) (hcur : r.itd.curLen ≤ K) (hw : r.itd.width ≤ N) :
    ItPost r (ItInChannel K N) (itChannel p chn r) := by
  obtain ⟨hs, hin⟩ := itChannelStart_spec (p := p) hc hK hN hcur hw
  refine ItPost.after hs.toItKeeps (itBlocks_post _ _ hin ?_)
  rw [hs.src]
  show _ ≤ r.src.bytes.length / 2 + 2
  omega

/-- What the channels from `chn` on do (R84). -/
theorem itChannels_post {p : Params} (hK : 0x8000 ≤ K) (hN : 65536 ≤ N) : ∀ (k chn : Nat) (r : ItRun),
    chn + k ≤ r.itd.c.toNat → r.itd.curLen ≤ K → r.itd.width ≤ N →
    ItPost r (fun r' => r' = r ∨ ItInChannel K N r') (itChannels p k chn r)
  | 0, _, r, _, _, _ => ⟨ItKeeps.refl r, Or.inl rfl⟩
  | k + 1, chn, r, hc, hcur, hw => by
    unfold itChannels
    have h1 := itChannel_post (p := p) (chn := chn) (r := r) (by omega) hK hN hcur hw
    cases hr : itChannel p chn r with
    | error f => rw [hr] at h1; exact h1
    | ok r' =>
      rw [hr] at h1
      obtain ⟨hk, hin⟩ := h1
      have ih := itChannels_post (p := p) hK hN k (chn + 1) r' (by rw [hk.c]; omega) hin.curLen hin.width
      simp only
      cases hr2 : itChannels p k (chn + 1) r' with
      | error f => rw [hr2] at ih; exact ItPost.after hk (x := .error f) ih
      | ok r'' =>
        rw [hr2] at ih
        refine ⟨hk.trans ih.1, Or.inr ?_⟩
        rcases ih.2 with h | h
        · rw [h]; exact hin
        · exact h

end Sys2Proof.Machine
end

