-- ==== Sys2Proof/Laws/Channels.lean ====
section
/-! SUPPORT. Laws/Channels.lean: which elements the steps of one channel of `IT.DECODE` write, and that the ITD's
reader stays sound through all of it (41_it_decompress.md R86, R95, R96; 10_state.md R20). -/
namespace Sys2Proof.Machine

/-! ## What a channel writes -/

/-- What every step of channel `chn` does to the elements: it writes those from `IT_WRITTEN` to the new `IT_WRITTEN`
alone; and the reader stays as it must be between commands. -/
structure ItWrites (p : Params) (chn : Nat) (r r' : ItRun) : Prop where
  c : r'.itd.c = r.itd.c
  l : r'.itd.l = r.itd.l
  is16 : r'.itd.is16 = r.itd.is16
  mono : r.itd.written ≤ r'.itd.written
  pos : r.itd.writePos = chn + r.itd.written * r.itd.c.toNat → r'.itd.writePos = chn + r'.itd.written * r.itd.c.toNat
  wf : Memory.wf r.smp.cells = true → Memory.wf r'.smp.cells = true
  only : Memory.wf r.smp.cells = true → r.itd.writePos = chn + r.itd.written * r.itd.c.toNat → ∀ a,
    (∀ k, r.itd.written ≤ k → k < r'.itd.written → a ≠ chn + k * r.itd.c.toNat) → smpRead r'.smp a = smpRead r.smp a
  held : r.itd.br.Held p.bufBytes → r'.itd.br.Held p.bufBytes

variable {p : Params} {chn : Nat}

/-- A step that changes neither the counters nor an element. -/
theorem ItWrites.of_regs {r r' : ItRun} (hc : r'.itd.c = r.itd.c) (hl : r'.itd.l = r.itd.l)
    (h16 : r'.itd.is16 = r.itd.is16) (hw : r'.itd.written = r.itd.written) (hp : r'.itd.writePos = r.itd.writePos)
    (hs : r'.smp = r.smp) (hb : r.itd.br.Held p.bufBytes → r'.itd.br.Held p.bufBytes) : ItWrites p chn r r' :=
  ⟨hc, hl, h16, by omega, by rw [hw, hp]; exact id, by rw [hs]; exact id, fun _ _ a _ => by rw [hs], hb⟩

theorem ItWrites.refl (r : ItRun) : ItWrites p chn r r := .of_regs rfl rfl rfl rfl rfl rfl id

theorem ItWrites.trans {a b c : ItRun} (h : ItWrites p chn a b) (h' : ItWrites p chn b c) : ItWrites p chn a c where
  c := h'.c.trans h.c
  l := h'.l.trans h.l
  is16 := h'.is16.trans h.is16
  mono := le_trans h.mono h'.mono
  pos := fun hp => by have := h'.pos (by rw [h.c]; exact h.pos hp); rwa [h.c] at this
  wf := fun hw => h'.wf (h.wf hw)
  only := fun hw hp x hx => by
    rw [h'.only (h.wf hw) (by rw [h.c]; exact h.pos hp) x
        (fun k h1 h2 => by rw [h.c]; exact hx k (le_trans h.mono h1) h2),
      h.only hw hp x (fun k h1 h2 => hx k h1 (lt_of_lt_of_le h2 h'.mono))]
  held := fun hb => h'.held (h.held hb)

theorem itWrite_writes {d : Int} {r r' : ItRun} (h : itWrite d r = .ok r') : ItWrites p chn r r' := by
  obtain ⟨_, _, hitd, hsmp⟩ := itWrite_ok h
  refine ⟨by rw [hitd], by rw [hitd], by rw [hitd], by rw [hitd]; exact Nat.le_succ _, fun hp => ?_, fun hw => ?_,
    fun hw hp a ha => ?_, by rw [hitd]; exact id⟩
  · rw [hitd]; simp only; rw [hp]; ring
  · rw [hsmp]; exact Memory.write_wf hw _ _
  · rw [hsmp]
    refine (Memory.read_write hw r.itd.writePos a _).trans (if_neg ?_)
    rw [hp]
    exact ha _ (le_refl _) (by rw [hitd]; exact Nat.lt_succ_self _)

theorem itSample_writes {d : Int} {r r' : ItRun} {c : LoopControl} (h : itSample d r = .ok (c, r')) :
    ItWrites p chn r r' := by
  unfold itSample at h
  split at h
  · cases h
  · cases h; exact itWrite_writes ‹_›

theorem itAbort_writes (r : ItRun) : ItWrites p chn r (itAbort p r) := by
  unfold itAbort
  split <;> exact .of_regs rfl rfl rfl rfl rfl rfl id

theorem itRead_writes {n : Nat} (hn : n ≤ 32) (r : ItRun) : ItWrites p chn r (itRead p n r).2 :=
  .of_regs rfl rfl rfl rfl rfl rfl (readPrivate_held (bufBytes_pos p) hn)

theorem itSetWidth_writes (w : Nat) (r : ItRun) : ItWrites p chn r (itSetWidth w r) :=
  .of_regs rfl rfl rfl rfl rfl rfl id

theorem itSymbol_writes {r r' : ItRun} {c : LoopControl} (h : itSymbol p r = .ok (c, r')) : ItWrites p chn r r' := by
  unfold itSymbol at h
  simp only at h
  split at h
  · cases h; exact itAbort_writes _
  · rename_i hover
    have h17 : defWidth r.itd.is16 ≤ 17 := by unfold defWidth; split <;> omega
    have hr := itRead_writes (p := p) (chn := chn) (n := r.itd.width) (by omega) r
    split at h
    · rename_i r1 e
      rw [e] at hr
      cases h
      exact hr.trans (itAbort_writes _)
    · rename_i v r1 e
      rw [e] at hr
      refine hr.trans ?_
      simp only at hr ⊢
      split at h
      · unfold itModeA at h
        split at h
        · have hf : fetchA r1.itd.is16 ≤ 32 := by unfold fetchA; split <;> omega
          have hr2 := itRead_writes (p := p) (chn := chn) hf r1
          split at h
          · rename_i r2 e2
            rw [e2] at hr2
            cases h
            exact hr2.trans (itAbort_writes _)
          · rename_i idx r2 e2
            rw [e2] at hr2
            cases h
            exact hr2.trans (itSetWidth_writes _ _)
        · exact itSample_writes h
      · split at h
        · unfold itModeB at h
          split at h
          · cases h; exact itSetWidth_writes _ _
          · exact itSample_writes h
        · unfold itModeC at h
          split at h
          · cases h; exact itSetWidth_writes _ _
          · exact itSample_writes h

theorem itSymbols_writes : ∀ (k : Nat) (r r' : ItRun), itSymbols p k r = .ok r' → ItWrites p chn r r'
  | 0, r, r', h => by unfold itSymbols at h; split at h <;> cases h; exact .refl _
  | k + 1, r, r', h => by
    unfold itSymbols at h
    split at h
    · cases h; exact .refl _
    · split at h
      · cases h
      · cases h; exact itSymbol_writes ‹_›
      · exact (itSymbol_writes ‹_›).trans (itSymbols_writes k _ _ h)

theorem itDecodeBlock_writes {r r' : ItRun} (h : itDecodeBlock p r = .ok r') : ItWrites p chn r r' := by
  unfold itDecodeBlock at h
  refine ItWrites.trans ?_ (itSymbols_writes _ _ _ h)
  exact .of_regs rfl rfl rfl rfl rfl rfl id

theorem itBlockHeader_writes (r : ItRun) : ItWrites p chn r (itBlockHeader p r).2 := by
  unfold itBlockHeader
  split
  · simp only
    split
    · exact .of_regs rfl rfl rfl rfl rfl rfl id
    · split <;> exact .of_regs rfl rfl rfl rfl rfl rfl fun _ => (PrivateReader.over_sound _ _).held
  · exact .of_regs rfl rfl rfl rfl rfl rfl id

theorem itBlocks_writes : ∀ (k : Nat) (r r' : ItRun), itBlocks p k r = .ok r' → ItWrites p chn r r'
  | 0, r, r', h => by cases h
  | k + 1, r, r', h => by
    unfold itBlocks at h
    split at h
    · have hh := itBlockHeader_writes (p := p) (chn := chn) r
      split at h
      · rename_i e
        rw [e] at hh
        cases h
        exact hh
      · rename_i e
        rw [e] at hh
        split at h
        · exact hh.trans (itBlocks_writes k _ _ h)
        · split at h
          · cases h
          · exact (hh.trans (itDecodeBlock_writes ‹_›)).trans (itBlocks_writes k _ _ h)
    · cases h; exact .refl _

/-- Where a channel starts (R86): its first element, with nothing written. -/
theorem itChannelStart_eq (p : Params) (chn : Nat) (r : ItRun) : (itChannelStart p chn r).itd.written = 0 ∧
    (itChannelStart p chn r).itd.writePos = chn ∧ (itChannelStart p chn r).smp = r.smp ∧
    (itChannelStart p chn r).itd.c = r.itd.c ∧ (itChannelStart p chn r).itd.br = r.itd.br := by
  unfold itChannelStart
  simp only
  split <;> exact ⟨rfl, rfl, rfl, rfl, rfl⟩

/-- What the channels from `chn` on do is what the first `j` of them do, and then the others (R84). -/
theorem itChannels_append (p : Params) (k : Nat) : ∀ (j chn : Nat) (r : ItRun),
    itChannels p (j + k) chn r =
      match itChannels p j chn r with
      | .error f => .error f
      | .ok r' => itChannels p k (chn + j) r'
  | 0, chn, r => by rw [Nat.zero_add]; rfl
  | j + 1, chn, r => by
    rw [show j + 1 + k = (j + k) + 1 by omega, itChannels, itChannels]
    cases itChannel p chn r with
    | error f => rfl
    | ok r' =>
      simp only
      rw [itChannels_append p k j (chn + 1) r', show chn + 1 + j = chn + (j + 1) by omega]

/-- The reader stays as it must be between commands through every channel. -/
theorem itChannels_held : ∀ (k chn : Nat) (r r' : ItRun), itChannels p k chn r = .ok r' →
    r.itd.br.Held p.bufBytes → r'.itd.br.Held p.bufBytes
  | 0, _, r, r', h, hb => by cases h; exact hb
  | k + 1, chn, r, r', h, hb => by
    unfold itChannels at h
    split at h
    · cases h
    · rename_i r1 e
      refine itChannels_held k _ _ _ h ((itBlocks_writes (chn := chn) _ _ _ e).held ?_)
      rw [(itChannelStart_eq p chn r).2.2.2.2]
      exact hb

end Sys2Proof.Machine
end

