-- ==== Sys2Proof/Laws/Mmcmp.lean ====
section
/-! SUPPORT. Laws/Mmcmp.lean: what the steps of `MMCMP.UNPACK` do, said once each (42_mmcmp.md R109 to R117):
which registers they may change, that every write stays inside `OUT` (R115), that no loop outlives its bound (R117),
and that a sound file makes no step fail. -/
namespace Sys2Proof.Machine

/-! ## What stays and what holds -/

/-- The file header's fields, which no block changes. -/
def Mmu.file (u : Mmu) : BitVec 32 × BitVec 16 × BitVec 32 := (u.filesize, u.nblocks, u.blkTable)

/-- The block header's fields and the sub-block table, which no code changes. -/
def Mmu.block (u : Mmu) : (BitVec 32 × BitVec 16 × BitVec 32) × BitVec 16 × BitVec 16 × List SubBlock :=
  (u.file, u.subBlk, u.flags, u.sub)

theorem Mmu.file_of_block {u u' : Mmu} (h : u'.block = u.block) : u'.file = u.file := congrArg Prod.fst h

theorem Mmu.filesize_of_file {u u' : Mmu} (h : u'.file = u.file) : u'.filesize = u.filesize := congrArg Prod.fst h

theorem Mmu.subBlk_of_block {u u' : Mmu} (h : u'.block = u.block) : u'.subBlk = u.subBlk := congrArg (·.2.1) h

theorem Mmu.flags_of_block {u u' : Mmu} (h : u'.block = u.block) : u'.flags = u.flags := congrArg (·.2.2.1) h

theorem Mmu.sub_of_block {u u' : Mmu} (h : u'.block = u.block) : u'.sub = u.sub := congrArg (·.2.2.2) h

/-- What holds throughout an unpack: the buffer is sound and as long as the file says, and the registers keep their
widths if they had them (`P`). -/
structure MmInv (P : Prop) (r : MmRun) : Prop where
  out : r.out.Sound
  size : r.out.size = r.mm.filesize.toNat
  widths : P → r.mm.Widths

/-- Outcomes of the steps: a normal end keeps the file's fields and satisfies `Q`; a failure keeps them too and does
not happen when `S` holds; there is no fault. -/
def MmPost (P S : Prop) (r : MmRun) (Q : MmRun → Prop) : Except (Stop MmRun) MmRun → Prop
  | .ok r' => MmInv P r' ∧ r'.mm.file = r.mm.file ∧ Q r'
  | .error (.fail r') => MmInv P r' ∧ r'.mm.file = r.mm.file ∧ ¬ S
  | .error (.fault _) => False

variable {P S : Prop}

theorem MmPost.after {r r' : MmRun} {Q : MmRun → Prop} (h : r'.mm.file = r.mm.file) :
    ∀ {x : Except (Stop MmRun) MmRun}, MmPost P S r' Q x → MmPost P S r Q x
  | .ok _, hx => ⟨hx.1, hx.2.1.trans h, hx.2.2⟩
  | .error (.fail _), hx => ⟨hx.1, hx.2.1.trans h, hx.2.2⟩
  | .error (.fault _), hx => hx

/-! ## Sub-blocks (R110) -/

theorem subRangeOk_spec {even : Bool} {filesize : Nat} {e : SubBlock} (h : subRangeOk even filesize e = true) :
    0 < subSize even e ∧ e.pos.toNat + subSize even e ≤ filesize := by
  simp only [subRangeOk, Bool.and_eq_true, decide_eq_true_eq] at h
  omega

theorem subSize_lt (even : Bool) (e : SubBlock) : subSize even e < 2 ^ 32 := by
  unfold subSize; split <;> exact BitVec.isLt _

theorem subSize_even (e : SubBlock) : subSize true e % 2 = 0 := by
  have h : (e.size &&& ~~~1#32).toNat.testBit 0 = false := by rw [BitVec.testBit_toNat]; simp
  simp only [subSize, if_true]
  generalize (e.size &&& ~~~1#32).toNat = n at *
  rw [Nat.testBit_zero] at h
  have := of_decide_eq_false h
  omega

/-- What `SubRange` does (R110). -/
theorem mmSubRange_post {i : Nat} {even : Bool} {r : MmRun} (h : MmInv P r)
    (hS : S → subRangeOk even r.mm.filesize.toNat (r.mm.sub.getD i ⟨0, 0⟩) = true) :
    MmPost P S r (fun r' => r'.mm = r.mm ∧ r'.out = r.out ∧ r'.pos + r'.size ≤ r.out.size ∧ 0 < r'.size ∧
      r'.pos = (r.mm.sub.getD i ⟨0, 0⟩).pos.toNat ∧ r'.size = subSize even (r.mm.sub.getD i ⟨0, 0⟩))
      (mmSubRange i even r) := by
  unfold mmSubRange
  simp only
  split
  · rename_i hok
    obtain ⟨h1, h2⟩ := subRangeOk_spec hok
    exact ⟨⟨h.out, h.size, h.widths⟩, rfl, rfl, rfl, by rw [h.size]; exact h2, h1, rfl, rfl⟩
  · rename_i hok
    exact ⟨h, rfl, fun hs => hok (hS hs)⟩

/-! ## Raw blocks (R111) -/

/-- What one sub-block of a raw block does (R111): its bytes stand in `OUT` in order, and nothing else changes. -/
theorem mmRawSub_post {bytes : List Byte} {i : Nat} {r : MmRun} (hP : P → bytes.length < 2 ^ 32) (h : MmInv P r)
    (hS : S → subRangeOk false r.mm.filesize.toNat (r.mm.sub.getD i ⟨0, 0⟩) = true ∧
      r.mm.memPos + (r.mm.sub.getD i ⟨0, 0⟩).size.toNat ≤ bytes.length) :
    MmPost P S r (fun r' => r'.mm.block = r.mm.block ∧
      r'.mm.memPos = r.mm.memPos + (r.mm.sub.getD i ⟨0, 0⟩).size.toNat ∧
      ∀ a, outRead r'.out a =
        if (r.mm.sub.getD i ⟨0, 0⟩).pos.toNat ≤ a ∧
            a < (r.mm.sub.getD i ⟨0, 0⟩).pos.toNat + (r.mm.sub.getD i ⟨0, 0⟩).size.toNat then
          byteAt bytes (r.mm.memPos + (a - (r.mm.sub.getD i ⟨0, 0⟩).pos.toNat))
        else outRead r.out a) (mmRawSub bytes i r) := by
  have hp := mmSubRange_post (S := S) (i := i) (even := false) h (fun hs => (hS hs).1)
  unfold mmRawSub
  cases hr : mmSubRange i false r with
  | error e =>
    rw [hr] at hp
    cases e with
    | fail r' => exact hp
    | fault f => exact hp
  | ok r1 =>
    rw [hr] at hp
    obtain ⟨hi1, hf1, hmm, hout, hfit, _, hpos, hsz⟩ := hp
    have hsz' : r1.size = (r.mm.sub.getD i ⟨0, 0⟩).size.toNat := by rw [hsz]; rfl
    simp only
    split
    · rename_i hlt
      refine ⟨hi1, hf1, fun hs => ?_⟩
      have := (hS hs).2
      rw [hmm] at hlt
      omega
    · rename_i hge
      have hlen : (memRead bytes r1.mm.memPos r1.size).length = r1.size := by
        simp only [memRead, List.length_take, List.length_drop]; omega
      obtain ⟨o', hw, hos, hoz, hor⟩ := outWriteAll_spec (memRead bytes r1.mm.memPos r1.size) r1.pos r1.out
        (by rw [hout]; exact h.out) (by rw [hlen, hout]; exact hfit)
      rw [hw]
      refine ⟨⟨hos, by rw [hoz, hout]; show _ = r1.mm.filesize.toNat; rw [hmm]; exact h.size, fun hp => ?_⟩, ?_, ?_, ?_, fun a => ?_⟩
      · have hw := hi1.widths hp
        have := hP hp
        exact ⟨hw.blk, by show r1.mm.memPos + r1.size < _; omega, hw.table, hw.codeWidth, hw.subIdx, hw.dwPos⟩
      · show r1.mm.file = _; rw [hmm]
      · show r1.mm.block = _; rw [hmm]
      · show r1.mm.memPos + r1.size = _; rw [hmm, hsz']
      · show outRead o' a = _
        rw [hor a, hlen, hpos, hsz', hout, hmm]
        split
        · rename_i hin
          clear hlen hw hor
          generalize r.mm.sub.getD i ⟨0, 0⟩ = e at *
          simp only [byteAt, memRead, List.getD_eq_getElem?_getD]
          rw [List.getElem?_take_of_lt (by omega), List.getElem?_drop]
        · rfl

/-- What `RawBlock()` does. -/
theorem mmRawBlock_post {bytes : List Byte} (hP : P → bytes.length < 2 ^ 32) : ∀ (k i : Nat) (r : MmRun), MmInv P r →
    (S → (∀ j, j < k → subRangeOk false r.mm.filesize.toNat (r.mm.sub.getD (i + j) ⟨0, 0⟩) = true) ∧
      r.mm.memPos + ((List.range k).map fun j => (r.mm.sub.getD (i + j) ⟨0, 0⟩).size.toNat).sum ≤ bytes.length) →
    MmPost P S r (fun _ => True) (mmRawBlock bytes k i r)
  | 0, _, _, h, _ => ⟨h, rfl, trivial⟩
  | k + 1, i, r, h, hS => by
    unfold mmRawBlock
    have h1 := mmRawSub_post (S := S) (i := i) hP h (fun hs => by
      obtain ⟨ha, hb⟩ := hS hs
      rw [List.range_succ_eq_map, List.map_cons, List.sum_cons] at hb
      exact ⟨ha 0 (by omega), by simp only [Nat.add_zero] at hb; omega⟩)
    cases hr : mmRawSub bytes i r with
    | error e =>
      rw [hr] at h1
      cases e with
      | fail r' => exact h1
      | fault f => exact h1
    | ok r' =>
      rw [hr] at h1
      obtain ⟨hi, hf, hblk, hmem, _⟩ := h1
      refine MmPost.after hf (mmRawBlock_post hP k (i + 1) r' hi (fun hs => ?_))
      obtain ⟨ha, hb⟩ := hS hs
      rw [List.range_succ_eq_map, List.map_cons, List.sum_cons, List.map_map] at hb
      rw [Mmu.sub_of_block hblk, Mmu.filesize_of_file hf, hmem]
      refine ⟨fun j hj => by rw [show i + 1 + j = i + (j + 1) by omega]; exact ha (j + 1) (by omega), ?_⟩
      have he : ((fun j => (r.mm.sub.getD (i + j) ⟨0, 0⟩).size.toNat) ∘ Nat.succ) =
          fun j => (r.mm.sub.getD (i + 1 + j) ⟨0, 0⟩).size.toNat := by
        funext j; simp only [Function.comp, Nat.succ_eq_add_one]; rw [show i + (j + 1) = i + 1 + j by omega]
      rw [he] at hb
      simp only [Nat.add_zero] at hb
      omega

/-! ## Packed codes (R112 to R116) -/

/-- What holds inside the code loop of a packed block. -/
structure MmInCodes (P : Prop) (p : Params) (is16 : Bool) (r : MmRun) : Prop extends MmInv P r where
  fit : r.pos + r.size ≤ r.out.size
  room : r.mm.dwPos < r.size
  size_lt : r.size < 2 ^ 32
  even : is16 = true → r.size % 2 = 0 ∧ r.mm.dwPos % 2 = 0
  codeWidth : r.mm.codeWidth < codeWidths is16
  subIdx : r.mm.subIdx < r.mm.subBlk.toNat
  reader : r.mm.br.Sound p.bufBytes

theorem codeWidths_le (is16 : Bool) : codeWidths is16 ≤ 16 := by cases is16 <;> decide

theorem fetchTable_le (is16 : Bool) (n : Nat) (h : n < codeWidths is16) : fetchTable is16 n ≤ 4 := by
  cases is16
  · have : ∀ n : Fin 8, fetchTable false n ≤ 4 := by decide
    exact this ⟨n, h⟩
  · have : ∀ n : Fin 16, fetchTable true n ≤ 4 := by decide
    exact this ⟨n, h⟩

/-- A read of the unit's reader: only the reader changes. -/
theorem mmRead_spec {p : Params} {n : Nat} {r : MmRun} (hn : n ≤ 32) (h : r.mm.br.Sound p.bufBytes) :
    ∃ br', (mmRead p n r).2 = { r with mm := { r.mm with br := br' } } ∧ br'.Sound p.bufBytes ∧
      ((mmRead p n r).1 = none ∧ br'.bits = r.mm.br.bits ∧ r.mm.br.bits.length < n ∨
        (mmRead p n r).1 = some (lsbValue (r.mm.br.bits.take n)) ∧ br'.bits = r.mm.br.bits.drop n ∧
          n ≤ r.mm.br.bits.length) := by
  obtain ⟨hs, hc⟩ := readPrivate_spec (bufBytes_pos p) hn h
  refine ⟨(readPrivate p.bufBytes n r.mm.br).2, rfl, hs, ?_⟩
  rcases hc with ⟨a, b, c⟩ | ⟨a, b, c⟩
  · exact Or.inr ⟨b, c, a⟩
  · exact Or.inl ⟨b, c, a⟩

/-- Reading a code changes the reader alone, and takes at least a bit unless it ends in `EOD`. -/
theorem mmReadCode_spec {p : Params} {is16 : Bool} {r : MmRun} (hw : r.mm.codeWidth < codeWidths is16)
    (h : r.mm.br.Sound p.bufBytes) :
    ∃ br', (mmReadCode p is16 r).2 = { r with mm := { r.mm with br := br' } } ∧ br'.Sound p.bufBytes ∧
      ((mmReadCode p is16 r).1 ≠ .eod → br'.bits.length + 1 ≤ r.mm.br.bits.length) := by
  have h16 := codeWidths_le is16
  obtain ⟨b1, e1, s1, c1⟩ := mmRead_spec (n := r.mm.codeWidth + 1) (by omega) h
  unfold mmReadCode
  simp only
  generalize mmRead p (r.mm.codeWidth + 1) r = x1 at e1 c1
  obtain ⟨o1, r1⟩ := x1
  simp only at e1 c1
  subst e1
  rcases c1 with ⟨ho, _, _⟩ | ⟨ho, hb1, hl1⟩
  · subst ho
    exact ⟨b1, rfl, s1, fun hne => absurd rfl hne⟩
  · subst ho
    have hlen1 : b1.bits.length + 1 ≤ r.mm.br.bits.length := by rw [hb1, List.length_drop]; omega
    simp only
    split
    · exact ⟨b1, rfl, s1, fun _ => hlen1⟩
    · have hf := fetchTable_le is16 _ hw
      obtain ⟨b2, e2, s2, c2⟩ := mmRead_spec (p := p) (n := fetchTable is16 r.mm.codeWidth)
        (r := { r with mm := { r.mm with br := b1 } }) (by omega) s1
      generalize mmRead p (fetchTable is16 r.mm.codeWidth) { r with mm := { r.mm with br := b1 } } = x2 at e2 c2
      obtain ⟨o2, r2⟩ := x2
      simp only at e2 c2
      subst e2
      rcases c2 with ⟨ho, _, _⟩ | ⟨ho, hb2, hl2⟩
      · subst ho
        exact ⟨b2, rfl, s2, fun hne => absurd rfl hne⟩
      · subst ho
        have hlen2 : b2.bits.length + 1 ≤ r.mm.br.bits.length := by rw [hb2, List.length_drop]; omega
        simp only
        split
        · exact ⟨b2, rfl, s2, fun _ => hlen2⟩
        · have he : extBits is16 ≤ 4 := by cases is16 <;> decide
          unfold mmExtended
          obtain ⟨b3, e3, s3, c3⟩ := mmRead_spec (p := p) (n := extBits is16)
            (r := { r with mm := { r.mm with br := b2 } }) (by omega) s2
          generalize mmRead p (extBits is16) { r with mm := { r.mm with br := b2 } } = x3 at e3 c3
          obtain ⟨o3, r3⟩ := x3
          simp only at e3 c3
          subst e3
          rcases c3 with ⟨ho, _, _⟩ | ⟨ho, hb3, hl3⟩
          · subst ho
            exact ⟨b3, rfl, s3, fun hne => absurd rfl hne⟩
          · subst ho
            have hlen3 : b3.bits.length + 1 ≤ r.mm.br.bits.length := by rw [hb3, List.length_drop]; omega
            simp only
            split
            · obtain ⟨b4, e4, s4, c4⟩ := mmRead_spec (p := p) (n := 1)
                (r := { r with mm := { r.mm with br := b3 } }) (by omega) s3
              generalize mmRead p 1 { r with mm := { r.mm with br := b3 } } = x4 at e4 c4
              obtain ⟨o4, r4⟩ := x4
              simp only at e4 c4
              subst e4
              rcases c4 with ⟨ho, _, _⟩ | ⟨ho, hb4, hl4⟩
              · subst ho
                exact ⟨b4, rfl, s4, fun hne => absurd rfl hne⟩
              · subst ho
                have hlen4 : b4.bits.length + 1 ≤ r.mm.br.bits.length := by rw [hb4, List.length_drop]; omega
                simp only
                split
                · exact ⟨b4, rfl, s4, fun _ => hlen4⟩
                · exact ⟨b4, rfl, s4, fun _ => hlen4⟩
            · exact ⟨b3, rfl, s3, fun _ => hlen3⟩

theorem mmByte8_block (m : Mmu) (v : Nat) : ∃ o, (mmByte8 m v).2 = { m with oldVal := o } := by
  unfold mmByte8
  simp only
  split
  · exact ⟨_, rfl⟩
  · exact ⟨m.oldVal, rfl⟩

theorem mmWord16_block (m : Mmu) (v : Nat) : ∃ o, (mmWord16 m v).2 = { m with oldVal := o } := by
  unfold mmWord16
  simp only
  split
  · exact ⟨_, rfl⟩
  · split <;> exact ⟨m.oldVal, rfl⟩

/-- The bytes a value writes: one, or two. -/
def unitBytes (is16 : Bool) : Nat := if is16 then 2 else 1

/-- Writing a value stays inside the sub-block, and changes `OUT`, `MM_OLDVAL` and `MM_DWPOS` alone. -/
theorem mmEmit_spec {p : Params} {is16 : Bool} {v : Nat} {r : MmRun} (h : MmInCodes P p is16 r) :
    ∃ r' o, (if is16 then mmEmit16 v r else mmEmit8 v r) = .ok r' ∧ r'.out.Sound ∧ r'.out.size = r.out.size ∧
      r'.pos = r.pos ∧ r'.size = r.size ∧
      r'.mm = { r.mm with oldVal := o, dwPos := r.mm.dwPos + unitBytes is16 } := by
  have h1 := h.fit
  have h2 := h.room
  cases is16 with
  | false =>
    obtain ⟨o, ho⟩ := mmByte8_block r.mm v
    have hw := outWrite_of_lt (o := r.out) (a := r.pos + r.mm.dwPos) (mmByte8 r.mm v).1 (by omega)
    obtain ⟨hs, hz, _⟩ := outWrite_spec hw h.out
    refine ⟨mmAdvanceBy 1 { r with
      out := { r.out with cells := Memory.write r.out.cells (r.pos + r.mm.dwPos) (mmByte8 r.mm v).1 }
      mm := (mmByte8 r.mm v).2 }, o, ?_, hs, hz, rfl, rfl, ?_⟩
    · simp only [Bool.false_eq_true, if_false, mmEmit8, hw]
    · simp [mmAdvanceBy, ho, unitBytes]
  | true =>
    obtain ⟨o, ho⟩ := mmWord16_block r.mm v
    obtain ⟨he1, he2⟩ := h.even rfl
    obtain ⟨out, hw, hs, hz, _⟩ := outWriteAll_spec
      (if flagEndian r.mm.flags then [(mmWord16 r.mm v).1.extractLsb' 8 8, (mmWord16 r.mm v).1.extractLsb' 0 8]
        else [(mmWord16 r.mm v).1.extractLsb' 0 8, (mmWord16 r.mm v).1.extractLsb' 8 8])
      (r.pos + r.mm.dwPos) r.out h.out (by
        have : ∀ (c : Bool) (a b : Byte), (if c then [a, b] else [b, a]).length = 2 := by intro c a b; cases c <;> rfl
        rw [this]; omega)
    refine ⟨mmAdvanceBy 2 { r with out := out, mm := (mmWord16 r.mm v).2 }, o, ?_, hs, hz, rfl, rfl, ?_⟩
    · simp only [if_true, mmEmit16, hw]
    · simp [mmAdvanceBy, ho, unitBytes]

/-- What one code does (R113 to R116). -/
def MmCodePost (P S : Prop) (p : Params) (is16 : Bool) (r : MmRun) : Except (Stop MmRun) (LoopControl × MmRun) → Prop
  | .ok (.again, r') => MmInCodes P p is16 r' ∧ r'.mm.block = r.mm.block ∧
      r'.mm.br.bits.length + 1 ≤ r.mm.br.bits.length
  | .ok (.endBlock, r') => MmInv P r' ∧ r'.mm.file = r.mm.file
  | .error (.fail r') => MmInv P r' ∧ r'.mm.file = r.mm.file ∧ ¬ S
  | .error (.fault _) => False

theorem mmCode_post {p : Params} {is16 : Bool} {r : MmRun} (h : MmInCodes P p is16 r)
    (hS : S → ∀ i, i < r.mm.subBlk.toNat → subRangeOk is16 r.mm.filesize.toNat (r.mm.sub.getD i ⟨0, 0⟩) = true) :
    MmCodePost P S p is16 r (mmCode p is16 r) := by
  obtain ⟨br, e, sb, hlen⟩ := mmReadCode_spec h.codeWidth h.reader
  unfold mmCode
  generalize mmReadCode p is16 r = x at e hlen
  obtain ⟨code, r0⟩ := x
  simp only at e hlen
  subst e
  have winv : ∀ u : Mmu, (P → u.Widths) → ∀ b, P → ({ u with br := b } : Mmu).Widths := fun u hu b hp =>
    ⟨(hu hp).blk, (hu hp).memPos, (hu hp).table, (hu hp).codeWidth, (hu hp).subIdx, (hu hp).dwPos⟩
  have hinv : MmInv P { r with mm := { r.mm with br := br } } := ⟨h.out, h.size, winv r.mm h.widths br⟩
  have hin : MmInCodes P p is16 { r with mm := { r.mm with br := br } } :=
    ⟨hinv, h.fit, h.room, h.size_lt, h.even, h.codeWidth, h.subIdx, sb⟩
  cases code with
  | eod => exact ⟨hinv, rfl⟩
  | stop => exact ⟨hinv, rfl⟩
  | width m =>
    have hm : m % codeWidths is16 < codeWidths is16 := Nat.mod_lt _ (by cases is16 <;> decide)
    have h16 := codeWidths_le is16
    refine ⟨⟨⟨h.out, h.size, fun hp => ?_⟩, h.fit, h.room, h.size_lt, h.even, hm, h.subIdx, sb⟩, rfl, hlen (by simp)⟩
    have hw := h.widths hp
    exact ⟨hw.blk, hw.memPos, hw.table, by show m % codeWidths is16 < _; omega, hw.subIdx, hw.dwPos⟩
  | value v =>
    have hlen' := hlen (by simp)
    obtain ⟨r1, o, he, hos, hoz, hpos, hsz, hmm⟩ := mmEmit_spec (v := v) hin
    simp only [he]
    simp only at hoz hpos hsz hmm
    have hfit := h.fit
    have hroom := h.room
    have hszlt := h.size_lt
    have hev := h.even
    have hdw : r.mm.dwPos + unitBytes is16 ≤ r.size := by
      cases is16 with
      | false => simpa [unitBytes] using hroom
      | true => have := hev rfl; simp only [unitBytes, if_true]; omega
    have hinv1 : MmInv P r1 := ⟨hos, by rw [hoz, hmm]; exact h.size, fun hp => by
      have hw := h.widths hp
      rw [hmm]
      exact ⟨hw.blk, hw.memPos, hw.table, hw.codeWidth, hw.subIdx, by show r.mm.dwPos + _ < _; omega⟩⟩
    unfold mmAdvance
    by_cases hfull : r1.size ≤ r1.mm.dwPos
    · rw [if_pos hfull]
      simp only
      have hsi := h.subIdx
      have hinv2 : MmInv P { r1 with mm := { r1.mm with subIdx := r1.mm.subIdx + 1, dwPos := 0 } } :=
        ⟨hos, hinv1.size, fun hp => by
          have hw := hinv1.widths hp
          refine ⟨hw.blk, hw.memPos, hw.table, hw.codeWidth, ?_, by show 0 < _; decide⟩
          show r1.mm.subIdx + 1 < _
          rw [hmm]
          have := r.mm.subBlk.isLt
          show r.mm.subIdx + 1 < _
          omega⟩
      split
      · exact ⟨hinv2, by show r1.mm.file = _; rw [hmm]; rfl⟩
      · rename_i hmore
        have hsr := mmSubRange_post (S := S) (i := r1.mm.subIdx + 1) (even := is16) hinv2 (fun hs => by
          have := hS hs (r1.mm.subIdx + 1) (by rw [hmm] at hmore ⊢; simp only at hmore ⊢; omega)
          rw [hmm] at this ⊢
          exact this)
        cases hres : mmSubRange (r1.mm.subIdx + 1) is16 { r1 with mm := { r1.mm with subIdx := r1.mm.subIdx + 1, dwPos := 0 } } with
        | error e =>
          rw [hres] at hsr
          cases e with
          | fail r' => exact ⟨hsr.1, hsr.2.1.trans (by show r1.mm.file = _; rw [hmm]; rfl), hsr.2.2⟩
          | fault f => exact hsr
        | ok r2 =>
          rw [hres] at hsr
          obtain ⟨hi2, hf2, hmm2, hout2, hfit2, hpos2, _, hsz2⟩ := hsr
          simp only at hmm2 hout2 hfit2 hsz2
          refine ⟨⟨hi2, by rw [hout2]; exact hfit2, by rw [hmm2]; exact hpos2, by rw [hsz2]; exact subSize_lt _ _, ?_, ?_, ?_, ?_⟩, ?_, ?_⟩
          · intro h16
            subst h16
            exact ⟨by rw [hsz2]; exact subSize_even _, by rw [hmm2]; rfl⟩
          · rw [hmm2, hmm]; exact h.codeWidth
          · rw [hmm2]; show r1.mm.subIdx + 1 < r1.mm.subBlk.toNat
            rw [hmm] at hmore ⊢; simp only at hmore ⊢; omega
          · rw [hmm2, hmm]; exact sb
          · rw [hmm2, hmm]; rfl
          · rw [hmm2, hmm]; exact hlen'
    · rw [if_neg hfull]
      refine ⟨⟨hinv1, by rw [hoz, hpos, hsz]; exact hfit, by omega, by rw [hsz]; exact hszlt, ?_, ?_, ?_, ?_⟩, ?_, ?_⟩
      · intro h16
        have hev' := hev h16
        subst h16
        rw [hsz, hmm]
        exact ⟨hev'.1, by show (r.mm.dwPos + 2) % 2 = 0; omega⟩
      · rw [hmm]; exact h.codeWidth
      · rw [hmm]; exact h.subIdx
      · rw [hmm]; exact sb
      · rw [hmm]; rfl
      · rw [hmm]; exact hlen'

/-- What the code loop does, when its bound covers the bits of the view (R117). -/
theorem mmCodes_post {p : Params} {is16 : Bool} : ∀ (k : Nat) (r : MmRun), MmInCodes P p is16 r →
    (S → ∀ i, i < r.mm.subBlk.toNat → subRangeOk is16 r.mm.filesize.toNat (r.mm.sub.getD i ⟨0, 0⟩) = true) →
    r.mm.br.bits.length + 1 ≤ k → MmPost P S r (fun _ => True) (mmCodes p is16 k r)
  | 0, _, _, _, hk => absurd hk (by omega)
  | k + 1, r, h, hS, hk => by
    unfold mmCodes
    have hp := mmCode_post (S := S) h hS
    cases hr : mmCode p is16 r with
    | error e =>
      rw [hr] at hp
      cases e with
      | fail r' => exact hp
      | fault f => exact hp
    | ok x =>
      rw [hr] at hp
      obtain ⟨c, r'⟩ := x
      cases c with
      | endBlock => exact ⟨hp.1, hp.2, trivial⟩
      | again =>
        obtain ⟨hin, hblk, hlen⟩ := hp
        refine MmPost.after (Mmu.file_of_block hblk) (mmCodes_post k r' hin (fun hs i hi => ?_) (by omega))
        rw [Mmu.subBlk_of_block hblk] at hi
        rw [Mmu.filesize_of_file (Mmu.file_of_block hblk), Mmu.sub_of_block hblk]
        exact hS hs i hi

/-- What `PackedBlock()` does (R112). -/
theorem mmPackedBlock_post {p : Params} {bytes : List Byte} {r : MmRun} (h : MmInv P r)
    (hS : S → mmPackedBad bytes r.mm = false ∧ ∀ i, i < r.mm.subBlk.toNat →
      subRangeOk (flag16Bit r.mm.flags) r.mm.filesize.toNat (r.mm.sub.getD i ⟨0, 0⟩) = true) :
    MmPost P S r (fun _ => True) (mmPackedBlock p bytes r) := by
  unfold mmPackedBlock
  by_cases hbad : mmPackedBad bytes r.mm = true
  · rw [if_pos hbad]
    exact ⟨h, rfl, fun hs => by rw [(hS hs).1] at hbad; cases hbad⟩
  · rw [if_neg hbad]
    have hgood := hbad
    simp only [mmPackedBad, Bool.or_eq_true, decide_eq_true_eq, not_or] at hgood
    obtain ⟨⟨⟨hsub0, _⟩, _⟩, hnb⟩ := hgood
    have hsub : 0 < r.mm.subBlk.toNat := by
      rcases Nat.eq_zero_or_pos r.mm.subBlk.toNat with h0 | h0
      · exact absurd (BitVec.eq_of_toNat_eq h0) hsub0
      · exact h0
    have h16 := codeWidths_le (flag16Bit r.mm.flags)
    have hinv : MmInv P { r with mm := mmPackedStart p bytes r.mm } := ⟨h.out, h.size, fun hp => by
      have hw := h.widths hp
      exact ⟨hw.blk, hw.memPos, by simp [mmPackedStart, mmTable], by show r.mm.numBits.toNat < _; omega,
        by show 0 < _; decide, hw.dwPos⟩⟩
    have hsr := mmSubRange_post (S := S) (i := 0) (even := flag16Bit r.mm.flags) hinv (fun hs => (hS hs).2 0 hsub)
    cases hres : mmSubRange 0 (flag16Bit r.mm.flags) { r with mm := mmPackedStart p bytes r.mm } with
    | error e =>
      rw [hres] at hsr
      cases e with
      | fail r' => exact hsr
      | fault f => exact hsr
    | ok r1 =>
      rw [hres] at hsr
      obtain ⟨hi, hf, hmm, hout, hfit, hpos, _, hsz⟩ := hsr
      simp only at hmm hout hfit hsz
      have hi0 : MmInv P { r1 with mm := { r1.mm with dwPos := 0 } } := ⟨hi.out, hi.size, fun hp => by
        have hw := hi.widths hp
        exact ⟨hw.blk, hw.memPos, hw.table, hw.codeWidth, hw.subIdx, by show 0 < _; decide⟩⟩
      refine MmPost.after (r' := { r1 with mm := { r1.mm with dwPos := 0 } }) (by rw [hmm]; rfl) (mmCodes_post _ _
        ⟨hi0, by rw [hout]; exact hfit, hpos, by rw [hsz]; exact subSize_lt _ _, ?_, ?_, ?_, ?_⟩ (fun hs i hi => ?_) ?_)
      · intro ht
        rw [hsz]
        refine ⟨?_, rfl⟩
        rw [ht]
        exact subSize_even _
      · rw [hmm]; show r.mm.numBits.toNat < _; omega
      · rw [hmm]; exact hsub
      · rw [hmm]; exact PrivateReader.over_sound _ _
      · rw [hmm] at hi ⊢; exact (hS hs).2 i hi
      · rw [hmm]
        show (PrivateReader.over p.bufBytes ⟨mmView bytes r.mm, 0⟩).bits.length + 1 ≤ _
        rw [PrivateReader.over_bits, bitsOfBytes_length]

/-! ## Blocks (R109) -/

/-- What loading the sub-block table does (R109): entries `i` to `i + k - 1` are added. -/
theorem mmLoadSubs_post {bytes : List Byte} {blkpos : Nat} : ∀ (k i : Nat) (r : MmRun), MmInv P r →
    (S → blkpos + 20 + 8 * (i + k) ≤ bytes.length) →
    MmPost P S r (fun r' => r' = { r with
      mm := { r.mm with sub := r.mm.sub ++ (List.range k).map fun j => mmSubAt bytes blkpos (i + j) } })
      (mmLoadSubs bytes blkpos k i r)
  | 0, _, r, h, _ => ⟨h, rfl, by simp⟩
  | k + 1, i, r, h, hS => by
    unfold mmLoadSubs
    split
    · rename_i hlt
      exact ⟨h, rfl, fun hs => by have := hS hs; omega⟩
    · simp only
      have hinv : MmInv P { r with mm := { r.mm with sub := r.mm.sub ++ [mmSubAt bytes blkpos i] } } :=
        ⟨h.out, h.size, fun hp => ⟨(h.widths hp).blk, (h.widths hp).memPos, (h.widths hp).table,
          (h.widths hp).codeWidth, (h.widths hp).subIdx, (h.widths hp).dwPos⟩⟩
      have ih := mmLoadSubs_post (bytes := bytes) (blkpos := blkpos) k (i + 1) _ hinv
        (fun hs => by have := hS hs; omega)
      have he : r.mm.sub ++ [mmSubAt bytes blkpos i] ++ (List.range k).map (fun j => mmSubAt bytes blkpos (i + 1 + j)) =
          r.mm.sub ++ (List.range (k + 1)).map fun j => mmSubAt bytes blkpos (i + j) := by
        rw [List.range_succ_eq_map, List.map_cons, List.map_map, List.append_assoc, List.singleton_append]
        congr 2
        apply List.map_congr_left
        intro j _
        simp only [Function.comp, Nat.succ_eq_add_one]
        rw [show i + 1 + j = i + (j + 1) by omega]
      simp only [he] at ih
      exact MmPost.after (r' := { r with mm := { r.mm with sub := r.mm.sub ++ [mmSubAt bytes blkpos i] } }) rfl ih

theorem getD_map_range {α : Type} (f : Nat → α) (d : α) {n i : Nat} (h : i < n) :
    ((List.range n).map f).getD i d = f i := by
  simp [List.getD_eq_getElem?_getD, h]

/-- The data of a sound block start inside the file. -/
theorem mmBlockSound_data {bytes : List Byte} {filesize blkpos : Nat} (h : mmBlockSound bytes filesize blkpos = true) :
    blkpos + 20 + 8 * (le16At bytes (blkpos + 12)).toNat < bytes.length :=
  of_decide_eq_true (Bool.and_eq_true _ _ ▸ h).1

/-- What a sound packed block says. -/
theorem mmBlockSound_packed {bytes : List Byte} {filesize blkpos : Nat} (h : mmBlockSound bytes filesize blkpos = true)
    (hc : flagComp (le16At bytes (blkpos + 14)) = true) :
    (le16At bytes (blkpos + 12)).toNat ≠ 0 ∧
      (le16At bytes (blkpos + 16)).toNat ≤ (le32At bytes (blkpos + 4)).toNat ∧
      blkpos + 20 + 8 * (le16At bytes (blkpos + 12)).toNat + (le16At bytes (blkpos + 16)).toNat ≤ bytes.length ∧
      (le16At bytes (blkpos + 18)).toNat < codeWidths (flag16Bit (le16At bytes (blkpos + 14))) ∧
      ∀ i, i < (le16At bytes (blkpos + 12)).toNat →
        subRangeOk (flag16Bit (le16At bytes (blkpos + 14))) filesize (mmSubAt bytes blkpos i) = true := by
  simp only [mmBlockSound, hc, if_true, Bool.and_eq_true, decide_eq_true_eq] at h
  obtain ⟨_, ⟨⟨⟨h1, h2⟩, h3⟩, h4⟩, h5⟩ := h
  simp only [mmSubsSound, List.all_eq_true, List.mem_range] at h5
  exact ⟨h1, h2, h3, h4, h5⟩

/-- What a sound raw block says. -/
theorem mmBlockSound_raw {bytes : List Byte} {filesize blkpos : Nat} (h : mmBlockSound bytes filesize blkpos = true)
    (hc : ¬ flagComp (le16At bytes (blkpos + 14)) = true) :
    (∀ i, i < (le16At bytes (blkpos + 12)).toNat → subRangeOk false filesize (mmSubAt bytes blkpos i) = true) ∧
      blkpos + 20 + 8 * (le16At bytes (blkpos + 12)).toNat +
        ((List.range (le16At bytes (blkpos + 12)).toNat).map fun i => (mmSubAt bytes blkpos i).size.toNat).sum ≤
          bytes.length := by
  simp only [mmBlockSound, if_neg hc, Bool.and_eq_true, decide_eq_true_eq] at h
  obtain ⟨_, h1, h2⟩ := h
  simp only [mmSubsSound, List.all_eq_true, List.mem_range] at h1
  exact ⟨h1, h2⟩

/-- What `DecodeBlock(b)` does (R109). -/
theorem mmDecodeBlock_post {p : Params} {bytes : List Byte} {b : Nat} {r : MmRun} (hP : P → bytes.length < 2 ^ 32)
    (h : MmInv P r)
    (hS : S → r.mm.blkTable.toNat + 4 * b + 4 ≤ bytes.length ∧
      mmBlockSound bytes r.mm.filesize.toNat (le32At bytes (r.mm.blkTable.toNat + 4 * b)).toNat = true) :
    MmPost P S r (fun _ => True) (mmDecodeBlock p bytes b r) := by
  unfold mmDecodeBlock
  simp only
  generalize hbp : (le32At bytes (r.mm.blkTable.toNat + 4 * b)).toNat = blkpos at *
  have hblt : blkpos < 2 ^ 32 := by rw [← hbp]; exact BitVec.isLt _
  split
  · rename_i hlt
    exact ⟨h, rfl, fun hs => by have := (hS hs).1; omega⟩
  · split
    · rename_i hlt
      refine ⟨h, rfl, fun hs => ?_⟩
      have := mmBlockSound_data (hS hs).2
      omega
    · generalize hm : mmLoadBlock bytes blkpos r.mm = m
      have hfile : m.file = r.mm.file := by rw [← hm]; rfl
      have hinv : MmInv P { r with mm := m } := ⟨h.out, by rw [Mmu.filesize_of_file hfile]; exact h.size, fun hp => by
        have hw := h.widths hp
        rw [← hm]
        exact ⟨hw.blk, hw.memPos, hw.table, hw.codeWidth, hw.subIdx, hw.dwPos⟩⟩
      have hsubBlk : m.subBlk = le16At bytes (blkpos + 12) := by rw [← hm]; rfl
      have hflags : m.flags = le16At bytes (blkpos + 14) := by rw [← hm]; rfl
      have htt : m.ttEntries = le16At bytes (blkpos + 16) := by rw [← hm]; rfl
      have hnb : m.numBits = le16At bytes (blkpos + 18) := by rw [← hm]; rfl
      have hpk : m.pkSize = le32At bytes (blkpos + 4) := by rw [← hm]; rfl
      have hsub : m.sub = [] := by rw [← hm]; rfl
      have hl := mmLoadSubs_post (S := S) (bytes := bytes) (blkpos := blkpos) m.subBlk.toNat 0 { r with mm := m } hinv
        (fun hs => by
          have := mmBlockSound_data (hS hs).2
          rw [hsubBlk]; omega)
      cases hres : mmLoadSubs bytes blkpos m.subBlk.toNat 0 { r with mm := m } with
      | error e =>
        rw [hres] at hl
        cases e with
        | fail r' => exact ⟨hl.1, hl.2.1.trans hfile, hl.2.2⟩
        | fault f => exact hl
      | ok r1 =>
        rw [hres] at hl
        obtain ⟨hi1, hf1, he1⟩ := hl
        simp only [hsub, List.nil_append, Nat.zero_add] at he1
        subst he1
        simp only
        have hsb := m.subBlk.isLt
        have hinv2 : MmInv P { r with mm := { m with
            sub := (List.range m.subBlk.toNat).map fun j => mmSubAt bytes blkpos j
            memPos := blkpos + 20 + 8 * m.subBlk.toNat } } :=
          ⟨hi1.out, hi1.size, fun hp => ⟨(hi1.widths hp).blk, by show blkpos + 20 + 8 * m.subBlk.toNat < _; omega,
            (hi1.widths hp).table, (hi1.widths hp).codeWidth, (hi1.widths hp).subIdx, (hi1.widths hp).dwPos⟩⟩
        have hgetD : ∀ i, i < m.subBlk.toNat →
            ((List.range m.subBlk.toNat).map fun j => mmSubAt bytes blkpos j).getD i ⟨0, 0⟩ = mmSubAt bytes blkpos i :=
          fun i hi => getD_map_range _ _ hi
        have hfs : m.filesize = r.mm.filesize := Mmu.filesize_of_file hfile
        unfold mmBlockData
        simp only
        split
        · rename_i hle
          refine ⟨hinv2, hfile, fun hs => ?_⟩
          have := mmBlockSound_data (hS hs).2
          rw [hsubBlk] at hle
          omega
        · split
          · rename_i hcomp
            refine MmPost.after hfile (mmPackedBlock_post hinv2 (fun hs => ?_))
            rw [hflags] at hcomp
            obtain ⟨hb1, hb2, hb3, hb4, hb5⟩ := mmBlockSound_packed (hS hs).2 hcomp
            refine ⟨?_, fun i hi => ?_⟩
            · have : ¬ mmPackedBad bytes { m with
                  sub := (List.range m.subBlk.toNat).map fun j => mmSubAt bytes blkpos j
                  memPos := blkpos + 20 + 8 * m.subBlk.toNat } = true := by
                simp only [mmPackedBad, Bool.or_eq_true, decide_eq_true_eq, not_or]
                rw [hsubBlk, hpk, htt, hnb, hflags]
                refine ⟨⟨⟨fun hz => hb1 (by rw [hz]; rfl), by omega⟩, by omega⟩, by omega⟩
              simpa using this
            · simp only at hi ⊢
              rw [hgetD i hi, hfs, hflags]
              exact hb5 i (by rw [← hsubBlk]; exact hi)
          · rename_i hcomp
            refine MmPost.after hfile (mmRawBlock_post hP _ _ _ hinv2 (fun hs => ?_))
            rw [hflags] at hcomp
            obtain ⟨hb1, hb2⟩ := mmBlockSound_raw (hS hs).2 hcomp
            simp only [Nat.zero_add]
            refine ⟨fun j hj => ?_, ?_⟩
            · rw [hgetD j hj, hfs]
              exact hb1 j (by rw [← hsubBlk]; exact hj)
            · have he : ((List.range m.subBlk.toNat).map fun j =>
                  ((((List.range m.subBlk.toNat).map fun j => mmSubAt bytes blkpos j).getD j ⟨0, 0⟩).size.toNat)) =
                  (List.range m.subBlk.toNat).map fun j => (mmSubAt bytes blkpos j).size.toNat := by
                apply List.map_congr_left
                intro j hj
                rw [hgetD j (List.mem_range.mp hj)]
              rw [he, hsubBlk]
              exact hb2

/-- What the block loop does (R106). -/
theorem mmBlocks_post {p : Params} {bytes : List Byte} (hP : P → bytes.length < 2 ^ 32) : ∀ (k b : Nat) (r : MmRun),
    MmInv P r → b + k ≤ 2 ^ 16 →
    (S → ∀ j, j < k → r.mm.blkTable.toNat + 4 * (b + j) + 4 ≤ bytes.length ∧
      mmBlockSound bytes r.mm.filesize.toNat (le32At bytes (r.mm.blkTable.toNat + 4 * (b + j))).toNat = true) →
    MmPost P S r (fun _ => True) (mmBlocks p bytes k b r)
  | 0, _, _, h, _, _ => ⟨h, rfl, trivial⟩
  | k + 1, b, r, h, hb, hS => by
    unfold mmBlocks
    have hinv : MmInv P { r with mm := { r.mm with blk := b } } := ⟨h.out, h.size, fun hp =>
      ⟨by show b < _; omega, (h.widths hp).memPos, (h.widths hp).table, (h.widths hp).codeWidth, (h.widths hp).subIdx,
        (h.widths hp).dwPos⟩⟩
    have h1 := mmDecodeBlock_post (S := S) (p := p) (b := b) hP hinv (fun hs => by
      have := hS hs 0 (by omega)
      simpa using this)
    cases hr : mmDecodeBlock p bytes b { r with mm := { r.mm with blk := b } } with
    | error e =>
      rw [hr] at h1
      cases e with
      | fail r' => exact h1
      | fault f => exact h1
    | ok r' =>
      rw [hr] at h1
      obtain ⟨hi, hf, _⟩ := h1
      have hf' : r'.mm.file = r.mm.file := hf
      refine MmPost.after hf' (mmBlocks_post hP k (b + 1) r' hi (by omega) (fun hs j hj => ?_))
      have ht : r'.mm.blkTable = r.mm.blkTable := congrArg (·.2.2) hf'
      rw [ht, Mmu.filesize_of_file hf', show b + 1 + j = b + (j + 1) by omega]
      exact hS hs (j + 1) (by omega)

/-! ## The reader between commands (10_state.md R20) -/

/-- However a step ends, the reader is as it must be between commands. -/
def MmHeld (B : Nat) : Except (Stop MmRun) MmRun → Prop
  | .ok r => r.mm.br.Held B
  | .error (.fail r) => r.mm.br.Held B
  | .error (.fault _) => True

theorem mmSubRange_held {B i : Nat} {even : Bool} {r : MmRun} (h : r.mm.br.Held B) : MmHeld B (mmSubRange i even r) := by
  unfold mmSubRange
  simp only
  split <;> exact h

theorem mmRawBlock_held {B : Nat} {bytes : List Byte} : ∀ (k i : Nat) (r : MmRun), r.mm.br.Held B →
    MmHeld B (mmRawBlock bytes k i r)
  | 0, _, _, h => h
  | k + 1, i, r, h => by
    have h1 : MmHeld B (mmRawSub bytes i r) := by
      unfold mmRawSub
      have hs := mmSubRange_held (i := i) (even := false) h
      split
      · rename_i e; rw [e] at hs; exact hs
      · rename_i e
        rw [e] at hs
        split
        · exact hs
        · split
          · trivial
          · exact hs
    unfold mmRawBlock
    split
    · rename_i e; rw [e] at h1; exact h1
    · rename_i e; rw [e] at h1; exact mmRawBlock_held k _ _ h1

theorem mmLoadSubs_held {B : Nat} {bytes : List Byte} {blkpos : Nat} : ∀ (k i : Nat) (r : MmRun), r.mm.br.Held B →
    MmHeld B (mmLoadSubs bytes blkpos k i r)
  | 0, _, _, h => h
  | k + 1, i, r, h => by
    unfold mmLoadSubs
    split
    · exact h
    · exact mmLoadSubs_held k _ _ h

/-- The same of a code, which also leaves a width index of the depth. -/
def MmHeldCode (B : Nat) (is16 : Bool) : Except (Stop MmRun) (LoopControl × MmRun) → Prop
  | .ok (_, r) => r.mm.br.Held B ∧ r.mm.codeWidth < codeWidths is16
  | .error (.fail r) => r.mm.br.Held B
  | .error (.fault _) => True

theorem mmAdvance_held {B : Nat} {is16 : Bool} {r : MmRun} (h : r.mm.br.Held B) (hw : r.mm.codeWidth < codeWidths is16) :
    MmHeldCode B is16 (mmAdvance is16 r) := by
  unfold mmAdvance
  by_cases h1 : r.size ≤ r.mm.dwPos
  · rw [if_pos h1]
    simp only
    by_cases h2 : r.mm.subBlk.toNat ≤ r.mm.subIdx + 1
    · rw [if_pos h2]; exact ⟨h, hw⟩
    · rw [if_neg h2]
      unfold mmSubRange
      simp only
      generalize subRangeOk is16 _ _ = c
      cases c <;> first | exact ⟨h, hw⟩ | exact h
  · rw [if_neg h1]; exact ⟨h, hw⟩

theorem mmRead_held {p : Params} {n : Nat} {r : MmRun} (hn : n ≤ 32) (h : r.mm.br.Held p.bufBytes) :
    (mmRead p n r).2.mm.br.Held p.bufBytes ∧ (mmRead p n r).2.mm.codeWidth = r.mm.codeWidth :=
  ⟨readPrivate_held (bufBytes_pos p) hn h, rfl⟩

theorem mmReadCode_held {p : Params} {is16 : Bool} {r : MmRun} (hw : r.mm.codeWidth < codeWidths is16)
    (h : r.mm.br.Held p.bufBytes) :
    (mmReadCode p is16 r).2.mm.br.Held p.bufBytes ∧ (mmReadCode p is16 r).2.mm.codeWidth = r.mm.codeWidth := by
  have h16 := codeWidths_le is16
  have hf := fetchTable_le is16 _ hw
  have he : extBits is16 ≤ 4 := by cases is16 <;> decide
  have h1 := mmRead_held (p := p) (n := r.mm.codeWidth + 1) (by omega) h
  unfold mmReadCode
  simp only
  split
  · rename_i e; rw [e] at h1; exact h1
  · rename_i e
    rw [e] at h1
    split
    · exact h1
    · have h2 := mmRead_held (p := p) (n := fetchTable is16 r.mm.codeWidth) (by omega) h1.1
      split
      · rename_i e2; rw [e2] at h2; exact ⟨h2.1, h2.2.trans h1.2⟩
      · rename_i e2
        rw [e2] at h2
        split
        · exact ⟨h2.1, h2.2.trans h1.2⟩
        · have h3 := mmRead_held (p := p) (n := extBits is16) (by omega) h2.1
          unfold mmExtended
          split
          · rename_i e3; rw [e3] at h3; exact ⟨h3.1, h3.2.trans (h2.2.trans h1.2)⟩
          · rename_i e3
            rw [e3] at h3
            split
            · have h4 := mmRead_held (p := p) (n := 1) (by omega) h3.1
              split
              · rename_i e4; rw [e4] at h4; exact ⟨h4.1, h4.2.trans (h3.2.trans (h2.2.trans h1.2))⟩
              · rename_i e4
                rw [e4] at h4
                split <;> exact ⟨h4.1, h4.2.trans (h3.2.trans (h2.2.trans h1.2))⟩
            · exact ⟨h3.1, h3.2.trans (h2.2.trans h1.2)⟩

/-- A value written changes neither the reader nor the width. -/
theorem mmEmit_reader {is16 : Bool} {v : Nat} {r r' : MmRun}
    (h : (if is16 then mmEmit16 v r else mmEmit8 v r) = .ok r') :
    r'.mm.br = r.mm.br ∧ r'.mm.codeWidth = r.mm.codeWidth := by
  cases is16 with
  | false =>
    obtain ⟨o, ho⟩ := mmByte8_block r.mm v
    simp only [Bool.false_eq_true, if_false, mmEmit8] at h
    split at h <;> cases h
    simp [mmAdvanceBy, ho]
  | true =>
    obtain ⟨o, ho⟩ := mmWord16_block r.mm v
    simp only [if_true, mmEmit16] at h
    split at h <;> cases h
    simp [mmAdvanceBy, ho]

theorem mmEmit_fault {is16 : Bool} {v : Nat} {r : MmRun} {e : Stop MmRun}
    (h : (if is16 then mmEmit16 v r else mmEmit8 v r) = .error e) : ∃ f, e = .fault f := by
  cases is16 with
  | false =>
    simp only [Bool.false_eq_true, if_false, mmEmit8] at h
    split at h <;> cases h
    exact ⟨_, rfl⟩
  | true =>
    simp only [if_true, mmEmit16] at h
    split at h <;> cases h
    exact ⟨_, rfl⟩

theorem mmCodes_held {p : Params} {is16 : Bool} : ∀ (k : Nat) (r : MmRun), r.mm.codeWidth < codeWidths is16 →
    r.mm.br.Held p.bufBytes → MmHeld p.bufBytes (mmCodes p is16 k r)
  | 0, _, _, _ => trivial
  | k + 1, r, hw, h => by
    have h1 := mmReadCode_held hw h
    have key : MmHeldCode p.bufBytes is16 (mmCode p is16 r) := by
      unfold mmCode
      rcases hc : mmReadCode p is16 r with ⟨c, r1⟩
      rw [hc] at h1
      cases c with
      | eod => exact ⟨h1.1, by rw [h1.2]; exact hw⟩
      | stop => exact ⟨h1.1, by rw [h1.2]; exact hw⟩
      | width m => exact ⟨h1.1, Nat.mod_lt _ (by cases is16 <;> decide)⟩
      | value v =>
        simp only
        cases he : (if is16 then mmEmit16 v r1 else mmEmit8 v r1) with
        | error e => obtain ⟨f, rfl⟩ := mmEmit_fault he; trivial
        | ok r2 =>
          obtain ⟨hb, hcw⟩ := mmEmit_reader he
          exact mmAdvance_held (by rw [hb]; exact h1.1) (by rw [hcw, h1.2]; exact hw)
    unfold mmCodes
    cases hx : mmCode p is16 r with
    | error e => rw [hx] at key; cases e <;> exact key
    | ok x =>
      rw [hx] at key
      obtain ⟨c, r'⟩ := x
      cases c with
      | endBlock => exact key.1
      | again => exact mmCodes_held k r' key.2 key.1

theorem mmPackedBlock_held {p : Params} {bytes : List Byte} {r : MmRun} (h : r.mm.br.Held p.bufBytes) :
    MmHeld p.bufBytes (mmPackedBlock p bytes r) := by
  unfold mmPackedBlock
  split
  · exact h
  · rename_i hgood
    simp only [mmPackedBad, Bool.or_eq_true, decide_eq_true_eq, not_or] at hgood
    have hs : (mmPackedStart p bytes r.mm).br.Held p.bufBytes := (PrivateReader.over_sound _ _).held
    unfold mmSubRange
    simp only
    split
    · rename_i e; split at e <;> cases e; exact hs
    · rename_i e
      split at e <;> cases e
      exact mmCodes_held _ _ (by show r.mm.numBits.toNat < _; omega) hs

/-- The reader through the block loop (R106), however it ends. -/
theorem mmBlocks_held {p : Params} {bytes : List Byte} : ∀ (k b : Nat) (r : MmRun), r.mm.br.Held p.bufBytes →
    MmHeld p.bufBytes (mmBlocks p bytes k b r)
  | 0, _, _, h => h
  | k + 1, b, r, h => by
    have h1 : MmHeld p.bufBytes (mmDecodeBlock p bytes b { r with mm := { r.mm with blk := b } }) := by
      unfold mmDecodeBlock
      simp only
      split
      · exact h
      · split
        · exact h
        · generalize hm : mmLoadBlock bytes _ _ = m
          have hl := mmLoadSubs_held (B := p.bufBytes) (bytes := bytes)
            (blkpos := (le32At bytes (r.mm.blkTable.toNat + 4 * b)).toNat) m.subBlk.toNat 0 { r with mm := m }
            (by rw [← hm]; exact h)
          split
          · rename_i e; rw [e] at hl; exact hl
          · rename_i e
            rw [e] at hl
            unfold mmBlockData
            split
            · exact hl
            · split
              · exact mmPackedBlock_held hl
              · exact mmRawBlock_held _ _ _ hl
    unfold mmBlocks
    split
    · rename_i e; rw [e] at h1; exact h1
    · rename_i e; rw [e] at h1; exact mmBlocks_held k _ _ h1

end Sys2Proof.Machine
end

