-- ==== Sys2Proof/Laws/Codes.lean ====
section
/-! SUPPORT. Laws/Codes.lean: what a unit's reader gives when the bits of a number stand next in its stream, how an
escape is read, and how a delta survives its two's complement form (30_encoding.md R56 to R61, R68, R69). -/
namespace Sys2Proof.Machine

/-! ## Bits of numbers -/

@[simp] theorem bitsOfNat_length (n v : Nat) : (bitsOfNat n v).length = n := by simp [bitsOfNat]

theorem lsbValue_bitsOfNat (n v : Nat) : lsbValue (bitsOfNat n v) = v % 2 ^ n := lsbValue_testBits n v

theorem bitsOfNat_mod (n v : Nat) : bitsOfNat n (v % 2 ^ n) = bitsOfNat n v := by
  unfold bitsOfNat
  apply List.map_congr_left
  intro i hi
  rw [Nat.testBit_mod_two_pow, decide_eq_true (List.mem_range.mp hi), Bool.true_and]

/-- A private instance over the bits of a number reads it. -/
theorem readPrivate_of_bits {B n v : Nat} {i : PrivateReader} {rest : List Bool} (hB : 0 < B) (hn : n ≤ 32)
    (hs : i.Sound B) (hb : i.bits = bitsOfNat n v ++ rest) :
    ∃ i' : PrivateReader, readPrivate B n i = (some (v % 2 ^ n), i') ∧ i'.Sound B ∧ i'.bits = rest := by
  obtain ⟨hs', hc⟩ := readPrivate_spec hB hn hs
  have hl : n ≤ i.bits.length := by rw [hb, List.length_append, bitsOfNat_length]; omega
  rcases hc with ⟨_, b, c⟩ | ⟨a, _, _⟩
  · refine ⟨(readPrivate B n i).2, Prod.ext ?_ rfl, hs', by rw [c, hb, List.drop_left' (bitsOfNat_length n v)]⟩
    rw [b, hb, List.take_left' (bitsOfNat_length n v), lsbValue_bitsOfNat]
  · omega

theorem itRead_of_bits {p : Params} {n v : Nat} {r : ItRun} {rest : List Bool} (hn : n ≤ 32)
    (hs : r.itd.br.Sound p.bufBytes) (hb : r.itd.br.bits = bitsOfNat n v ++ rest) :
    ∃ br : PrivateReader, itRead p n r = (some (v % 2 ^ n), { r with itd := { r.itd with br := br } }) ∧
      br.Sound p.bufBytes ∧ br.bits = rest := by
  obtain ⟨br, e, h⟩ := readPrivate_of_bits (bufBytes_pos p) hn hs hb
  exact ⟨br, by simp only [itRead, e], h⟩

theorem mmRead_of_bits {p : Params} {n v : Nat} {r : MmRun} {rest : List Bool} (hn : n ≤ 32)
    (hs : r.mm.br.Sound p.bufBytes) (hb : r.mm.br.bits = bitsOfNat n v ++ rest) :
    ∃ br : PrivateReader, mmRead p n r = (some (v % 2 ^ n), { r with mm := { r.mm with br := br } }) ∧
      br.Sound p.bufBytes ∧ br.bits = rest := by
  obtain ⟨br, e, h⟩ := readPrivate_of_bits (bufBytes_pos p) hn hs hb
  exact ⟨br, by simp only [mmRead, e], h⟩

/-- A read past the end of a run's view. -/
theorem mmRead_short {p : Params} {n : Nat} {r : MmRun} (hn : n ≤ 32) (hs : r.mm.br.Sound p.bufBytes)
    (hl : r.mm.br.bits.length < n) : (mmRead p n r).1 = none := by
  obtain ⟨_, _, _, ⟨h, _⟩ | ⟨_, _, h⟩⟩ := mmRead_spec (p := p) hn hs
  · exact h
  · omega

/-! ## Two's complement (00_scope.md R8) -/

/-- A delta that `n` bits carry is the sign extension of its residue. -/
theorem sextNat_emod {n : Nat} {d : Int} (hn : 0 < n) (h1 : -((2 ^ (n - 1) : Nat) : Int) ≤ d)
    (h2 : d < ((2 ^ (n - 1) : Nat) : Int)) : sextNat n ((d % ((2 ^ n : Nat) : Int)).toNat) = d := by
  have hp : 2 ^ n = 2 * 2 ^ (n - 1) := by rw [← Nat.pow_succ']; congr 1; omega
  generalize hT : 2 ^ (n - 1) = T at *
  have hT0 : 0 < T := by rw [← hT]; exact Nat.pow_pos (by decide)
  have hres : (d % ((2 ^ n : Nat) : Int)).toNat = if d < 0 then (T - d.natAbs) + T else d.toNat := by
    rw [hp]
    split
    · rw [← Int.add_emod_right, Int.emod_eq_of_lt (by omega) (by omega)]; omega
    · rw [Int.emod_eq_of_lt (by omega) (by omega)]
  unfold sextNat
  have hbit : ((d % ((2 ^ n : Nat) : Int)).toNat).testBit (n - 1) = decide (d < 0) := by
    rw [hres]
    by_cases hd : d < 0
    · rw [if_pos hd, decide_eq_true hd, Nat.testBit_eq_decide_div_mod_eq, hT, Nat.add_div_right _ hT0,
        Nat.div_eq_of_lt (by omega)]
      rfl
    · rw [if_neg hd, decide_eq_false hd]
      apply Nat.testBit_lt_two_pow
      omega
  have hlt : (d % ((2 ^ n : Nat) : Int)).toNat < 2 ^ n := by rw [hres, hp]; split <;> omega
  have hpi : (2 : Int) ^ n = 2 * (T : Int) := by exact_mod_cast hp
  rw [hbit, Nat.mod_eq_of_lt hlt, hres, hpi]
  by_cases hd : d < 0
  · rw [decide_eq_true hd, if_pos rfl, if_pos hd]; omega
  · rw [decide_eq_false hd, if_neg (by decide), if_neg hd]; omega

/-- A sample's write sees its delta modulo `2^W` only (41_it_decompress.md R95). -/
theorem itWrite_emod (d : Int) (r : ItRun) : itWrite (d % ((2 ^ itW r.itd.is16 : Nat) : Int)) r = itWrite d r := by
  have h : ∀ m : BitVec 16, addMod (itW r.itd.is16) m (d % ((2 ^ itW r.itd.is16 : Nat) : Int)) = addMod (itW r.itd.is16) m d :=
    fun m => by unfold addMod; congr 2; exact Int.add_emod_emod ..
  unfold itWrite
  simp only [h]

/-! ## Payloads (30_encoding.md R61) -/

/-- A payload has at least a bit for each symbol. -/
theorem payloadBits_length {is16 : Bool} : ∀ (l : List ItSymbol) (cur : Nat), 1 ≤ cur → payloadOk is16 cur l = true →
    l.length ≤ (payloadBits is16 cur l).length
  | [], _, _, _ => Nat.zero_le _
  | x :: t, cur, h, hok => by
    simp only [payloadOk, Bool.and_eq_true] at hok
    have h1 : 1 ≤ (symbolBits is16 cur x).length := by
      unfold symbolBits; rw [List.length_append, bitsOfNat_length]; omega
    have h2 : 1 ≤ symbolNext cur x := by
      cases x with
      | delta d => exact h
      | width w =>
        have := hok.1
        simp only [symbolOk, Bool.and_eq_true, decide_eq_true_eq] at this
        exact this.1.1
    have := payloadBits_length t (symbolNext cur x) h2 hok.2
    simp only [payloadBits, List.length_append, List.length_cons]
    omega

theorem payloadDeltas_length (l : List ItSymbol) : (payloadDeltas l).length ≤ l.length := by
  induction l with
  | nil => exact le_refl 0
  | cons x t ih => cases x <;> simp only [payloadDeltas, List.length_cons] <;> omega

theorem samplesOf_length (is215 is16 : Bool) : ∀ (l : List Int) (m1 m2 : BitVec 16),
    (samplesOf is215 is16 m1 m2 l).length = l.length
  | [], _, _ => rfl
  | d :: t, m1, m2 => by simp [samplesOf, samplesOf_length is215 is16 t]

/-! ## MMCMP escapes (30_encoding.md R68, R69) -/

/-- What the code tables say of each width: the fetch is short, and every escape fits the code. -/
theorem codeTables_fit {is16 : Bool} {n : Nat} (h : n < codeWidths is16) :
    cmdTable is16 n < 2 ^ (n + 1) ∧
      ∀ m, m < codeWidths is16 → cmdTable is16 n + m / 2 ^ fetchTable is16 n < 2 ^ (n + 1) := by
  cases is16
  · have : ∀ n : Fin 8, cmdTable false n < 2 ^ (n.val + 1) ∧
        ∀ m : Fin 8, cmdTable false n + m.val / 2 ^ fetchTable false n < 2 ^ (n.val + 1) := by decide
    exact ⟨(this ⟨n, h⟩).1, fun m hm => (this ⟨n, h⟩).2 ⟨m, hm⟩⟩
  · have : ∀ n : Fin 16, cmdTable true n < 2 ^ (n.val + 1) ∧
        ∀ m : Fin 16, cmdTable true n + m.val / 2 ^ fetchTable true n < 2 ^ (n.val + 1) := by decide
    exact ⟨(this ⟨n, h⟩).1, fun m hm => (this ⟨n, h⟩).2 ⟨m, hm⟩⟩

/-- How an escape that names the width `m` is read. -/
theorem mmReadCode_escape {p : Params} {is16 : Bool} {r : MmRun} {m : Nat} {rest : List Bool}
    (hs : r.mm.br.Sound p.bufBytes) (hw : r.mm.codeWidth < codeWidths is16) (hm : m < codeWidths is16)
    (hb : r.mm.br.bits = escapeBits is16 r.mm.codeWidth m ++ rest) :
    ∃ br : PrivateReader, br.Sound p.bufBytes ∧ br.bits = rest ∧
      mmReadCode p is16 r =
        if m ≠ r.mm.codeWidth then (.width m, { r with mm := { r.mm with br := br } })
        else mmExtended p is16 { r with mm := { r.mm with br := br } } := by
  obtain ⟨_, hcm⟩ := codeTables_fit hw
  have hf := fetchTable_le is16 _ hw
  have h16 := codeWidths_le is16
  unfold escapeBits at hb
  rw [List.append_assoc] at hb
  obtain ⟨b1, r1, s1, e1⟩ := mmRead_of_bits (by omega) hs hb
  obtain ⟨b2, r2, s2, e2⟩ := mmRead_of_bits (r := { r with mm := { r.mm with br := b1 } }) (by omega) s1 e1
  refine ⟨b2, s2, e2, ?_⟩
  rw [Nat.mod_eq_of_lt (hcm m hm)] at r1
  unfold mmReadCode
  simp only [r1, if_neg (Nat.not_lt.mpr (Nat.le_add_right (cmdTable is16 r.mm.codeWidth) (m / 2 ^ fetchTable is16 r.mm.codeWidth))), r2]
  simp only [Nat.add_sub_cancel_left, Nat.mul_comm (m / _), Nat.mod_add_div]

end Sys2Proof.Machine
end

