-- ==== Sys2Proof/Laws/State.lean ====
section
/-! SUPPORT. Laws/State.lean: one lemma per field per update of the state, each true by unfolding, so that no later
proof unfolds a record update. -/
namespace Sys2Proof.Machine

/-! ## `complete` -/

@[simp] theorem complete_cmd (r : Word) (s : State) : (complete r s).cmd = s.cmd := rfl
@[simp] theorem complete_code (r : Word) (s : State) : (complete r s).code = .ok := rfl
@[simp] theorem complete_outValid (r : Word) (s : State) : (complete r s).outValid = s.outValid := rfl
@[simp] theorem complete_result (r : Word) (s : State) : (complete r s).result = r := rfl
@[simp] theorem complete_itChannels (r : Word) (s : State) : (complete r s).itChannels = s.itChannels := rfl
@[simp] theorem complete_itLength (r : Word) (s : State) : (complete r s).itLength = s.itLength := rfl
@[simp] theorem complete_src (r : Word) (s : State) : (complete r s).src = s.src := rfl
@[simp] theorem complete_smp (r : Word) (s : State) : (complete r s).smp = s.smp := rfl
@[simp] theorem complete_out (r : Word) (s : State) : (complete r s).out = s.out := rfl
@[simp] theorem complete_outLen (r : Word) (s : State) : (complete r s).outLen = s.outLen := rfl
@[simp] theorem complete_brSrc (r : Word) (s : State) : (complete r s).brSrc = s.brSrc := rfl
@[simp] theorem complete_br (r : Word) (s : State) : (complete r s).br = s.br := rfl
@[simp] theorem complete_itd (r : Word) (s : State) : (complete r s).itd = s.itd := rfl
@[simp] theorem complete_mmu (r : Word) (s : State) : (complete r s).mmu = s.mmu := rfl
@[simp] theorem complete_ppu (r : Word) (s : State) : (complete r s).ppu = s.ppu := rfl
@[simp] theorem complete_params (r : Word) (s : State) : (complete r s).params = s.params := rfl
@[simp] theorem complete_allocAnswers (r : Word) (s : State) : (complete r s).allocAnswers = s.allocAnswers := rfl
@[simp] theorem complete_script (r : Word) (s : State) : (complete r s).script = s.script := rfl
@[simp] theorem complete_hostData (r : Word) (s : State) : (complete r s).hostData = s.hostData := rfl
@[simp] theorem complete_brSource (r : Word) (s : State) : (complete r s).brSource = s.brSource := rfl
@[simp] theorem complete_brBound (r : Word) (s : State) : (complete r s).brBound = s.brBound := rfl

/-! ## `endOfData` -/

@[simp] theorem endOfData_cmd (s : State) : (endOfData s).cmd = s.cmd := rfl
@[simp] theorem endOfData_code (s : State) : (endOfData s).code = .eod := rfl
@[simp] theorem endOfData_outValid (s : State) : (endOfData s).outValid = s.outValid := rfl
@[simp] theorem endOfData_result (s : State) : (endOfData s).result = s.result := rfl
@[simp] theorem endOfData_itChannels (s : State) : (endOfData s).itChannels = s.itChannels := rfl
@[simp] theorem endOfData_itLength (s : State) : (endOfData s).itLength = s.itLength := rfl
@[simp] theorem endOfData_src (s : State) : (endOfData s).src = s.src := rfl
@[simp] theorem endOfData_smp (s : State) : (endOfData s).smp = s.smp := rfl
@[simp] theorem endOfData_out (s : State) : (endOfData s).out = s.out := rfl
@[simp] theorem endOfData_outLen (s : State) : (endOfData s).outLen = s.outLen := rfl
@[simp] theorem endOfData_brSrc (s : State) : (endOfData s).brSrc = s.brSrc := rfl
@[simp] theorem endOfData_br (s : State) : (endOfData s).br = s.br := rfl
@[simp] theorem endOfData_itd (s : State) : (endOfData s).itd = s.itd := rfl
@[simp] theorem endOfData_mmu (s : State) : (endOfData s).mmu = s.mmu := rfl
@[simp] theorem endOfData_ppu (s : State) : (endOfData s).ppu = s.ppu := rfl
@[simp] theorem endOfData_params (s : State) : (endOfData s).params = s.params := rfl
@[simp] theorem endOfData_allocAnswers (s : State) : (endOfData s).allocAnswers = s.allocAnswers := rfl
@[simp] theorem endOfData_script (s : State) : (endOfData s).script = s.script := rfl
@[simp] theorem endOfData_hostData (s : State) : (endOfData s).hostData = s.hostData := rfl
@[simp] theorem endOfData_brSource (s : State) : (endOfData s).brSource = s.brSource := rfl
@[simp] theorem endOfData_brBound (s : State) : (endOfData s).brBound = s.brBound := rfl

/-! ## `refuse` -/

@[simp] theorem refuse_cmd (s : State) : (refuse s).cmd = s.cmd := rfl
@[simp] theorem refuse_code (s : State) : (refuse s).code = .refused := rfl
@[simp] theorem refuse_outValid (s : State) : (refuse s).outValid = s.outValid := rfl
@[simp] theorem refuse_result (s : State) : (refuse s).result = s.result := rfl
@[simp] theorem refuse_itChannels (s : State) : (refuse s).itChannels = s.itChannels := rfl
@[simp] theorem refuse_itLength (s : State) : (refuse s).itLength = s.itLength := rfl
@[simp] theorem refuse_src (s : State) : (refuse s).src = s.src := rfl
@[simp] theorem refuse_smp (s : State) : (refuse s).smp = s.smp := rfl
@[simp] theorem refuse_out (s : State) : (refuse s).out = s.out := rfl
@[simp] theorem refuse_outLen (s : State) : (refuse s).outLen = s.outLen := rfl
@[simp] theorem refuse_brSrc (s : State) : (refuse s).brSrc = s.brSrc := rfl
@[simp] theorem refuse_br (s : State) : (refuse s).br = s.br := rfl
@[simp] theorem refuse_itd (s : State) : (refuse s).itd = s.itd := rfl
@[simp] theorem refuse_mmu (s : State) : (refuse s).mmu = s.mmu := rfl
@[simp] theorem refuse_ppu (s : State) : (refuse s).ppu = s.ppu := rfl
@[simp] theorem refuse_params (s : State) : (refuse s).params = s.params := rfl
@[simp] theorem refuse_allocAnswers (s : State) : (refuse s).allocAnswers = s.allocAnswers := rfl
@[simp] theorem refuse_script (s : State) : (refuse s).script = s.script := rfl
@[simp] theorem refuse_hostData (s : State) : (refuse s).hostData = s.hostData := rfl
@[simp] theorem refuse_brSource (s : State) : (refuse s).brSource = s.brSource := rfl
@[simp] theorem refuse_brBound (s : State) : (refuse s).brBound = s.brBound := rfl

/-! ## `failUnpack` -/

@[simp] theorem failUnpack_cmd (c : Code) (s : State) : (failUnpack c s).cmd = s.cmd := rfl
@[simp] theorem failUnpack_code (c : Code) (s : State) : (failUnpack c s).code = c := rfl
@[simp] theorem failUnpack_outValid (c : Code) (s : State) : (failUnpack c s).outValid = false := rfl
@[simp] theorem failUnpack_result (c : Code) (s : State) : (failUnpack c s).result = 0 := rfl
@[simp] theorem failUnpack_itChannels (c : Code) (s : State) : (failUnpack c s).itChannels = s.itChannels := rfl
@[simp] theorem failUnpack_itLength (c : Code) (s : State) : (failUnpack c s).itLength = s.itLength := rfl
@[simp] theorem failUnpack_src (c : Code) (s : State) : (failUnpack c s).src = s.src := rfl
@[simp] theorem failUnpack_smp (c : Code) (s : State) : (failUnpack c s).smp = s.smp := rfl
@[simp] theorem failUnpack_out (c : Code) (s : State) : (failUnpack c s).out = s.out := rfl
@[simp] theorem failUnpack_outLen (c : Code) (s : State) : (failUnpack c s).outLen = s.outLen := rfl
@[simp] theorem failUnpack_brSrc (c : Code) (s : State) : (failUnpack c s).brSrc = s.brSrc := rfl
@[simp] theorem failUnpack_br (c : Code) (s : State) : (failUnpack c s).br = s.br := rfl
@[simp] theorem failUnpack_itd (c : Code) (s : State) : (failUnpack c s).itd = s.itd := rfl
@[simp] theorem failUnpack_mmu (c : Code) (s : State) : (failUnpack c s).mmu = s.mmu := rfl
@[simp] theorem failUnpack_ppu (c : Code) (s : State) : (failUnpack c s).ppu = s.ppu := rfl
@[simp] theorem failUnpack_params (c : Code) (s : State) : (failUnpack c s).params = s.params := rfl
@[simp] theorem failUnpack_allocAnswers (c : Code) (s : State) : (failUnpack c s).allocAnswers = s.allocAnswers := rfl
@[simp] theorem failUnpack_script (c : Code) (s : State) : (failUnpack c s).script = s.script := rfl
@[simp] theorem failUnpack_hostData (c : Code) (s : State) : (failUnpack c s).hostData = s.hostData := rfl
@[simp] theorem failUnpack_brSource (c : Code) (s : State) : (failUnpack c s).brSource = s.brSource := rfl
@[simp] theorem failUnpack_brBound (c : Code) (s : State) : (failUnpack c s).brBound = s.brBound := rfl

/-! ## `dropOut` -/

@[simp] theorem dropOut_cmd (s : State) : (dropOut s).cmd = s.cmd := rfl
@[simp] theorem dropOut_code (s : State) : (dropOut s).code = s.code := rfl
@[simp] theorem dropOut_outValid (s : State) : (dropOut s).outValid = false := rfl
@[simp] theorem dropOut_result (s : State) : (dropOut s).result = s.result := rfl
@[simp] theorem dropOut_itChannels (s : State) : (dropOut s).itChannels = s.itChannels := rfl
@[simp] theorem dropOut_itLength (s : State) : (dropOut s).itLength = s.itLength := rfl
@[simp] theorem dropOut_src (s : State) : (dropOut s).src = s.src := rfl
@[simp] theorem dropOut_smp (s : State) : (dropOut s).smp = s.smp := rfl
@[simp] theorem dropOut_out (s : State) : (dropOut s).out = none := rfl
@[simp] theorem dropOut_outLen (s : State) : (dropOut s).outLen = 0 := rfl
@[simp] theorem dropOut_brSrc (s : State) : (dropOut s).brSrc = s.brSrc := rfl
@[simp] theorem dropOut_br (s : State) : (dropOut s).br = s.br := rfl
@[simp] theorem dropOut_itd (s : State) : (dropOut s).itd = s.itd := rfl
@[simp] theorem dropOut_mmu (s : State) : (dropOut s).mmu = s.mmu := rfl
@[simp] theorem dropOut_ppu (s : State) : (dropOut s).ppu = s.ppu := rfl
@[simp] theorem dropOut_params (s : State) : (dropOut s).params = s.params := rfl
@[simp] theorem dropOut_allocAnswers (s : State) : (dropOut s).allocAnswers = s.allocAnswers := rfl
@[simp] theorem dropOut_script (s : State) : (dropOut s).script = s.script := rfl
@[simp] theorem dropOut_hostData (s : State) : (dropOut s).hostData = s.hostData := rfl
@[simp] theorem dropOut_brSource (s : State) : (dropOut s).brSource = s.brSource := rfl
@[simp] theorem dropOut_brBound (s : State) : (dropOut s).brBound = s.brBound := rfl

/-! ## `mmPutBack` -/

@[simp] theorem mmPutBack_cmd (r : MmRun) (s : State) : (mmPutBack r s).cmd = s.cmd := rfl
@[simp] theorem mmPutBack_code (r : MmRun) (s : State) : (mmPutBack r s).code = s.code := rfl
@[simp] theorem mmPutBack_outValid (r : MmRun) (s : State) : (mmPutBack r s).outValid = s.outValid := rfl
@[simp] theorem mmPutBack_result (r : MmRun) (s : State) : (mmPutBack r s).result = s.result := rfl
@[simp] theorem mmPutBack_itChannels (r : MmRun) (s : State) : (mmPutBack r s).itChannels = s.itChannels := rfl
@[simp] theorem mmPutBack_itLength (r : MmRun) (s : State) : (mmPutBack r s).itLength = s.itLength := rfl
@[simp] theorem mmPutBack_src (r : MmRun) (s : State) : (mmPutBack r s).src = s.src := rfl
@[simp] theorem mmPutBack_smp (r : MmRun) (s : State) : (mmPutBack r s).smp = s.smp := rfl
@[simp] theorem mmPutBack_out (r : MmRun) (s : State) : (mmPutBack r s).out = some r.out := rfl
@[simp] theorem mmPutBack_outLen (r : MmRun) (s : State) : (mmPutBack r s).outLen = s.outLen := rfl
@[simp] theorem mmPutBack_brSrc (r : MmRun) (s : State) : (mmPutBack r s).brSrc = s.brSrc := rfl
@[simp] theorem mmPutBack_br (r : MmRun) (s : State) : (mmPutBack r s).br = s.br := rfl
@[simp] theorem mmPutBack_itd (r : MmRun) (s : State) : (mmPutBack r s).itd = s.itd := rfl
@[simp] theorem mmPutBack_mmu (r : MmRun) (s : State) : (mmPutBack r s).mmu = r.mm := rfl
@[simp] theorem mmPutBack_ppu (r : MmRun) (s : State) : (mmPutBack r s).ppu = s.ppu := rfl
@[simp] theorem mmPutBack_params (r : MmRun) (s : State) : (mmPutBack r s).params = s.params := rfl
@[simp] theorem mmPutBack_allocAnswers (r : MmRun) (s : State) : (mmPutBack r s).allocAnswers = s.allocAnswers := rfl
@[simp] theorem mmPutBack_script (r : MmRun) (s : State) : (mmPutBack r s).script = s.script := rfl
@[simp] theorem mmPutBack_hostData (r : MmRun) (s : State) : (mmPutBack r s).hostData = s.hostData := rfl
@[simp] theorem mmPutBack_brSource (r : MmRun) (s : State) : (mmPutBack r s).brSource = s.brSource := rfl
@[simp] theorem mmPutBack_brBound (r : MmRun) (s : State) : (mmPutBack r s).brBound = s.brBound := rfl

/-! ## `ppPutBack` -/

@[simp] theorem ppPutBack_cmd (r : PpRun) (s : State) : (ppPutBack r s).cmd = s.cmd := rfl
@[simp] theorem ppPutBack_code (r : PpRun) (s : State) : (ppPutBack r s).code = s.code := rfl
@[simp] theorem ppPutBack_outValid (r : PpRun) (s : State) : (ppPutBack r s).outValid = s.outValid := rfl
@[simp] theorem ppPutBack_result (r : PpRun) (s : State) : (ppPutBack r s).result = s.result := rfl
@[simp] theorem ppPutBack_itChannels (r : PpRun) (s : State) : (ppPutBack r s).itChannels = s.itChannels := rfl
@[simp] theorem ppPutBack_itLength (r : PpRun) (s : State) : (ppPutBack r s).itLength = s.itLength := rfl
@[simp] theorem ppPutBack_src (r : PpRun) (s : State) : (ppPutBack r s).src = s.src := rfl
@[simp] theorem ppPutBack_smp (r : PpRun) (s : State) : (ppPutBack r s).smp = s.smp := rfl
@[simp] theorem ppPutBack_out (r : PpRun) (s : State) : (ppPutBack r s).out = some r.out := rfl
@[simp] theorem ppPutBack_outLen (r : PpRun) (s : State) : (ppPutBack r s).outLen = s.outLen := rfl
@[simp] theorem ppPutBack_brSrc (r : PpRun) (s : State) : (ppPutBack r s).brSrc = s.brSrc := rfl
@[simp] theorem ppPutBack_br (r : PpRun) (s : State) : (ppPutBack r s).br = s.br := rfl
@[simp] theorem ppPutBack_itd (r : PpRun) (s : State) : (ppPutBack r s).itd = s.itd := rfl
@[simp] theorem ppPutBack_mmu (r : PpRun) (s : State) : (ppPutBack r s).mmu = s.mmu := rfl
@[simp] theorem ppPutBack_ppu (r : PpRun) (s : State) : (ppPutBack r s).ppu = r.pp := rfl
@[simp] theorem ppPutBack_params (r : PpRun) (s : State) : (ppPutBack r s).params = s.params := rfl
@[simp] theorem ppPutBack_allocAnswers (r : PpRun) (s : State) : (ppPutBack r s).allocAnswers = s.allocAnswers := rfl
@[simp] theorem ppPutBack_script (r : PpRun) (s : State) : (ppPutBack r s).script = s.script := rfl
@[simp] theorem ppPutBack_hostData (r : PpRun) (s : State) : (ppPutBack r s).hostData = s.hostData := rfl
@[simp] theorem ppPutBack_brSource (r : PpRun) (s : State) : (ppPutBack r s).brSource = s.brSource := rfl
@[simp] theorem ppPutBack_brBound (r : PpRun) (s : State) : (ppPutBack r s).brBound = s.brBound := rfl

/-! ## `itFinish` -/

@[simp] theorem itFinish_cmd (r : ItRun) (s : State) : (itFinish r s).cmd = s.cmd := rfl
@[simp] theorem itFinish_code (r : ItRun) (s : State) : (itFinish r s).code = .ok := rfl
@[simp] theorem itFinish_outValid (r : ItRun) (s : State) : (itFinish r s).outValid = s.outValid := rfl
@[simp] theorem itFinish_result (r : ItRun) (s : State) : (itFinish r s).result = 0 := rfl
@[simp] theorem itFinish_itChannels (r : ItRun) (s : State) : (itFinish r s).itChannels = s.itChannels := rfl
@[simp] theorem itFinish_itLength (r : ItRun) (s : State) : (itFinish r s).itLength = s.itLength := rfl
@[simp] theorem itFinish_src (r : ItRun) (s : State) : (itFinish r s).src = r.src := rfl
@[simp] theorem itFinish_smp (r : ItRun) (s : State) : (itFinish r s).smp = r.smp := rfl
@[simp] theorem itFinish_out (r : ItRun) (s : State) : (itFinish r s).out = s.out := rfl
@[simp] theorem itFinish_outLen (r : ItRun) (s : State) : (itFinish r s).outLen = s.outLen := rfl
@[simp] theorem itFinish_brSrc (r : ItRun) (s : State) : (itFinish r s).brSrc = s.brSrc := rfl
@[simp] theorem itFinish_br (r : ItRun) (s : State) : (itFinish r s).br = s.br := rfl
@[simp] theorem itFinish_itd (r : ItRun) (s : State) : (itFinish r s).itd = { r.itd with st := .idle } := rfl
@[simp] theorem itFinish_mmu (r : ItRun) (s : State) : (itFinish r s).mmu = s.mmu := rfl
@[simp] theorem itFinish_ppu (r : ItRun) (s : State) : (itFinish r s).ppu = s.ppu := rfl
@[simp] theorem itFinish_params (r : ItRun) (s : State) : (itFinish r s).params = s.params := rfl
@[simp] theorem itFinish_allocAnswers (r : ItRun) (s : State) : (itFinish r s).allocAnswers = s.allocAnswers := rfl
@[simp] theorem itFinish_script (r : ItRun) (s : State) : (itFinish r s).script = s.script := rfl
@[simp] theorem itFinish_hostData (r : ItRun) (s : State) : (itFinish r s).hostData = s.hostData := rfl

/-! ## `hostReset` -/

@[simp] theorem hostReset_src (s : State) : (hostReset s).src = s.src := rfl
@[simp] theorem hostReset_smp (s : State) : (hostReset s).smp = s.smp := rfl
@[simp] theorem hostReset_params (s : State) : (hostReset s).params = s.params := rfl
@[simp] theorem hostReset_allocAnswers (s : State) : (hostReset s).allocAnswers = s.allocAnswers := rfl
@[simp] theorem hostReset_script (s : State) : (hostReset s).script = s.script := rfl
@[simp] theorem hostReset_hostData (s : State) : (hostReset s).hostData = s.hostData := rfl

/-! ## `hostRead` -/

@[simp] theorem hostRead_cmd (o : Nat) (s : State) : (hostRead o s).cmd = s.cmd := rfl
@[simp] theorem hostRead_code (o : Nat) (s : State) : (hostRead o s).code = s.code := rfl
@[simp] theorem hostRead_outValid (o : Nat) (s : State) : (hostRead o s).outValid = s.outValid := rfl
@[simp] theorem hostRead_result (o : Nat) (s : State) : (hostRead o s).result = s.result := rfl
@[simp] theorem hostRead_itChannels (o : Nat) (s : State) : (hostRead o s).itChannels = s.itChannels := rfl
@[simp] theorem hostRead_itLength (o : Nat) (s : State) : (hostRead o s).itLength = s.itLength := rfl
@[simp] theorem hostRead_src (o : Nat) (s : State) : (hostRead o s).src = s.src := rfl
@[simp] theorem hostRead_smp (o : Nat) (s : State) : (hostRead o s).smp = s.smp := rfl
@[simp] theorem hostRead_out (o : Nat) (s : State) : (hostRead o s).out = s.out := rfl
@[simp] theorem hostRead_outLen (o : Nat) (s : State) : (hostRead o s).outLen = s.outLen := rfl
@[simp] theorem hostRead_brSrc (o : Nat) (s : State) : (hostRead o s).brSrc = s.brSrc := rfl
@[simp] theorem hostRead_br (o : Nat) (s : State) : (hostRead o s).br = s.br := rfl
@[simp] theorem hostRead_itd (o : Nat) (s : State) : (hostRead o s).itd = s.itd := rfl
@[simp] theorem hostRead_mmu (o : Nat) (s : State) : (hostRead o s).mmu = s.mmu := rfl
@[simp] theorem hostRead_ppu (o : Nat) (s : State) : (hostRead o s).ppu = s.ppu := rfl
@[simp] theorem hostRead_params (o : Nat) (s : State) : (hostRead o s).params = s.params := rfl
@[simp] theorem hostRead_allocAnswers (o : Nat) (s : State) : (hostRead o s).allocAnswers = s.allocAnswers := rfl
@[simp] theorem hostRead_script (o : Nat) (s : State) : (hostRead o s).script = s.script := rfl
@[simp] theorem hostRead_hostData (o : Nat) (s : State) : (hostRead o s).hostData = readReg s o := rfl
@[simp] theorem hostRead_brSource (o : Nat) (s : State) : (hostRead o s).brSource = s.brSource := rfl
@[simp] theorem hostRead_brBound (o : Nat) (s : State) : (hostRead o s).brBound = s.brBound := rfl

/-! ## `hostAnswer` -/

@[simp] theorem hostAnswer_cmd (r : Bool × ByteSource) (s : State) : (hostAnswer r s).cmd = s.cmd := rfl
@[simp] theorem hostAnswer_code (r : Bool × ByteSource) (s : State) : (hostAnswer r s).code = s.code := rfl
@[simp] theorem hostAnswer_outValid (r : Bool × ByteSource) (s : State) : (hostAnswer r s).outValid = s.outValid := rfl
@[simp] theorem hostAnswer_result (r : Bool × ByteSource) (s : State) : (hostAnswer r s).result = s.result := rfl
@[simp] theorem hostAnswer_itChannels (r : Bool × ByteSource) (s : State) : (hostAnswer r s).itChannels = s.itChannels := rfl
@[simp] theorem hostAnswer_itLength (r : Bool × ByteSource) (s : State) : (hostAnswer r s).itLength = s.itLength := rfl
@[simp] theorem hostAnswer_src (r : Bool × ByteSource) (s : State) : (hostAnswer r s).src = r.2 := rfl
@[simp] theorem hostAnswer_smp (r : Bool × ByteSource) (s : State) : (hostAnswer r s).smp = s.smp := rfl
@[simp] theorem hostAnswer_out (r : Bool × ByteSource) (s : State) : (hostAnswer r s).out = s.out := rfl
@[simp] theorem hostAnswer_outLen (r : Bool × ByteSource) (s : State) : (hostAnswer r s).outLen = s.outLen := rfl
@[simp] theorem hostAnswer_brSrc (r : Bool × ByteSource) (s : State) : (hostAnswer r s).brSrc = s.brSrc := rfl
@[simp] theorem hostAnswer_br (r : Bool × ByteSource) (s : State) : (hostAnswer r s).br = s.br := rfl
@[simp] theorem hostAnswer_itd (r : Bool × ByteSource) (s : State) : (hostAnswer r s).itd = s.itd := rfl
@[simp] theorem hostAnswer_mmu (r : Bool × ByteSource) (s : State) : (hostAnswer r s).mmu = s.mmu := rfl
@[simp] theorem hostAnswer_ppu (r : Bool × ByteSource) (s : State) : (hostAnswer r s).ppu = s.ppu := rfl
@[simp] theorem hostAnswer_params (r : Bool × ByteSource) (s : State) : (hostAnswer r s).params = s.params := rfl
@[simp] theorem hostAnswer_allocAnswers (r : Bool × ByteSource) (s : State) : (hostAnswer r s).allocAnswers = s.allocAnswers := rfl
@[simp] theorem hostAnswer_script (r : Bool × ByteSource) (s : State) : (hostAnswer r s).script = s.script := rfl
@[simp] theorem hostAnswer_hostData (r : Bool × ByteSource) (s : State) : (hostAnswer r s).hostData = if r.1 then 1 else 0 := rfl

/-! ## `hostAttach` -/

@[simp] theorem hostAttach_cmd (l : List (BitVec 16)) (s : State) : (hostAttach l s).cmd = s.cmd := rfl
@[simp] theorem hostAttach_code (l : List (BitVec 16)) (s : State) : (hostAttach l s).code = s.code := rfl
@[simp] theorem hostAttach_outValid (l : List (BitVec 16)) (s : State) : (hostAttach l s).outValid = s.outValid := rfl
@[simp] theorem hostAttach_result (l : List (BitVec 16)) (s : State) : (hostAttach l s).result = s.result := rfl
@[simp] theorem hostAttach_itChannels (l : List (BitVec 16)) (s : State) : (hostAttach l s).itChannels = s.itChannels := rfl
@[simp] theorem hostAttach_itLength (l : List (BitVec 16)) (s : State) : (hostAttach l s).itLength = s.itLength := rfl
@[simp] theorem hostAttach_src (l : List (BitVec 16)) (s : State) : (hostAttach l s).src = s.src := rfl
@[simp] theorem hostAttach_smp (l : List (BitVec 16)) (s : State) : (hostAttach l s).smp = ⟨l.length, Memory.ofList 0 l⟩ := rfl
@[simp] theorem hostAttach_out (l : List (BitVec 16)) (s : State) : (hostAttach l s).out = s.out := rfl
@[simp] theorem hostAttach_outLen (l : List (BitVec 16)) (s : State) : (hostAttach l s).outLen = s.outLen := rfl
@[simp] theorem hostAttach_brSrc (l : List (BitVec 16)) (s : State) : (hostAttach l s).brSrc = s.brSrc := rfl
@[simp] theorem hostAttach_br (l : List (BitVec 16)) (s : State) : (hostAttach l s).br = s.br := rfl
@[simp] theorem hostAttach_itd (l : List (BitVec 16)) (s : State) : (hostAttach l s).itd = s.itd := rfl
@[simp] theorem hostAttach_mmu (l : List (BitVec 16)) (s : State) : (hostAttach l s).mmu = s.mmu := rfl
@[simp] theorem hostAttach_ppu (l : List (BitVec 16)) (s : State) : (hostAttach l s).ppu = s.ppu := rfl
@[simp] theorem hostAttach_params (l : List (BitVec 16)) (s : State) : (hostAttach l s).params = s.params := rfl
@[simp] theorem hostAttach_allocAnswers (l : List (BitVec 16)) (s : State) : (hostAttach l s).allocAnswers = s.allocAnswers := rfl
@[simp] theorem hostAttach_script (l : List (BitVec 16)) (s : State) : (hostAttach l s).script = s.script := rfl
@[simp] theorem hostAttach_hostData (l : List (BitVec 16)) (s : State) : (hostAttach l s).hostData = s.hostData := rfl

/-! ## `setBr`: the source goes where `BR_SRC` refers to -/

@[simp] theorem State.setBrSource_cmd (s : State) (x : ByteSource) : (s.setBrSource x).cmd = s.cmd := by
  unfold State.setBrSource; split <;> rfl
@[simp] theorem State.setBr_cmd (s : State) (rd : Reader) (x : ByteSource) : (s.setBr rd x).cmd = s.cmd :=
  State.setBrSource_cmd s x
@[simp] theorem State.setBrSource_code (s : State) (x : ByteSource) : (s.setBrSource x).code = s.code := by
  unfold State.setBrSource; split <;> rfl
@[simp] theorem State.setBr_code (s : State) (rd : Reader) (x : ByteSource) : (s.setBr rd x).code = s.code :=
  State.setBrSource_code s x
@[simp] theorem State.setBrSource_outValid (s : State) (x : ByteSource) : (s.setBrSource x).outValid = s.outValid := by
  unfold State.setBrSource; split <;> rfl
@[simp] theorem State.setBr_outValid (s : State) (rd : Reader) (x : ByteSource) : (s.setBr rd x).outValid = s.outValid :=
  State.setBrSource_outValid s x
@[simp] theorem State.setBrSource_result (s : State) (x : ByteSource) : (s.setBrSource x).result = s.result := by
  unfold State.setBrSource; split <;> rfl
@[simp] theorem State.setBr_result (s : State) (rd : Reader) (x : ByteSource) : (s.setBr rd x).result = s.result :=
  State.setBrSource_result s x
@[simp] theorem State.setBrSource_itChannels (s : State) (x : ByteSource) : (s.setBrSource x).itChannels = s.itChannels := by
  unfold State.setBrSource; split <;> rfl
@[simp] theorem State.setBr_itChannels (s : State) (rd : Reader) (x : ByteSource) : (s.setBr rd x).itChannels = s.itChannels :=
  State.setBrSource_itChannels s x
@[simp] theorem State.setBrSource_itLength (s : State) (x : ByteSource) : (s.setBrSource x).itLength = s.itLength := by
  unfold State.setBrSource; split <;> rfl
@[simp] theorem State.setBr_itLength (s : State) (rd : Reader) (x : ByteSource) : (s.setBr rd x).itLength = s.itLength :=
  State.setBrSource_itLength s x
@[simp] theorem State.setBrSource_smp (s : State) (x : ByteSource) : (s.setBrSource x).smp = s.smp := by
  unfold State.setBrSource; split <;> rfl
@[simp] theorem State.setBr_smp (s : State) (rd : Reader) (x : ByteSource) : (s.setBr rd x).smp = s.smp :=
  State.setBrSource_smp s x
@[simp] theorem State.setBrSource_out (s : State) (x : ByteSource) : (s.setBrSource x).out = s.out := by
  unfold State.setBrSource; split <;> rfl
@[simp] theorem State.setBr_out (s : State) (rd : Reader) (x : ByteSource) : (s.setBr rd x).out = s.out :=
  State.setBrSource_out s x
@[simp] theorem State.setBrSource_outLen (s : State) (x : ByteSource) : (s.setBrSource x).outLen = s.outLen := by
  unfold State.setBrSource; split <;> rfl
@[simp] theorem State.setBr_outLen (s : State) (rd : Reader) (x : ByteSource) : (s.setBr rd x).outLen = s.outLen :=
  State.setBrSource_outLen s x
@[simp] theorem State.setBrSource_itd (s : State) (x : ByteSource) : (s.setBrSource x).itd = s.itd := by
  unfold State.setBrSource; split <;> rfl
@[simp] theorem State.setBr_itd (s : State) (rd : Reader) (x : ByteSource) : (s.setBr rd x).itd = s.itd :=
  State.setBrSource_itd s x
@[simp] theorem State.setBrSource_mmu (s : State) (x : ByteSource) : (s.setBrSource x).mmu = s.mmu := by
  unfold State.setBrSource; split <;> rfl
@[simp] theorem State.setBr_mmu (s : State) (rd : Reader) (x : ByteSource) : (s.setBr rd x).mmu = s.mmu :=
  State.setBrSource_mmu s x
@[simp] theorem State.setBrSource_ppu (s : State) (x : ByteSource) : (s.setBrSource x).ppu = s.ppu := by
  unfold State.setBrSource; split <;> rfl
@[simp] theorem State.setBr_ppu (s : State) (rd : Reader) (x : ByteSource) : (s.setBr rd x).ppu = s.ppu :=
  State.setBrSource_ppu s x
@[simp] theorem State.setBrSource_params (s : State) (x : ByteSource) : (s.setBrSource x).params = s.params := by
  unfold State.setBrSource; split <;> rfl
@[simp] theorem State.setBr_params (s : State) (rd : Reader) (x : ByteSource) : (s.setBr rd x).params = s.params :=
  State.setBrSource_params s x
@[simp] theorem State.setBrSource_allocAnswers (s : State) (x : ByteSource) : (s.setBrSource x).allocAnswers = s.allocAnswers := by
  unfold State.setBrSource; split <;> rfl
@[simp] theorem State.setBr_allocAnswers (s : State) (rd : Reader) (x : ByteSource) : (s.setBr rd x).allocAnswers = s.allocAnswers :=
  State.setBrSource_allocAnswers s x
@[simp] theorem State.setBrSource_script (s : State) (x : ByteSource) : (s.setBrSource x).script = s.script := by
  unfold State.setBrSource; split <;> rfl
@[simp] theorem State.setBr_script (s : State) (rd : Reader) (x : ByteSource) : (s.setBr rd x).script = s.script :=
  State.setBrSource_script s x
@[simp] theorem State.setBrSource_hostData (s : State) (x : ByteSource) : (s.setBrSource x).hostData = s.hostData := by
  unfold State.setBrSource; split <;> rfl
@[simp] theorem State.setBr_hostData (s : State) (rd : Reader) (x : ByteSource) : (s.setBr rd x).hostData = s.hostData :=
  State.setBrSource_hostData s x
@[simp] theorem State.setBr_br (s : State) (rd : Reader) (x : ByteSource) : (s.setBr rd x).br = rd := rfl

/-- After a read the bound source is the one put back. -/
theorem State.setBr_brSource {s : State} {y : ByteSource} (h : s.brSource = some y) (rd : Reader) (x : ByteSource) :
    (s.setBr rd x).brSource = some x := by
  unfold State.brSource at h
  unfold State.setBr State.setBrSource State.brSource
  cases hb : s.brSrc <;> simp [hb] at h ⊢

/-- Putting the bound source back unchanged changes nothing. -/
theorem State.setBr_self {s : State} {y : ByteSource} (h : s.brSource = some y) : s.setBr s.br y = s := by
  cases s with
  | mk cmd code outValid result itChannels itLength src smp out outLen brSrc br =>
    cases brSrc with
    | unbound => cases h
    | presented => cases h; rfl
    | detached x => cases h; rfl

/-! ## The unit registers forgotten -/

@[simp] theorem State.forgetUnits_cmd (s : State) : s.forgetUnits.cmd = s.cmd := rfl
@[simp] theorem State.forgetUnits_code (s : State) : s.forgetUnits.code = s.code := rfl
@[simp] theorem State.forgetUnits_outValid (s : State) : s.forgetUnits.outValid = s.outValid := rfl
@[simp] theorem State.forgetUnits_result (s : State) : s.forgetUnits.result = s.result := rfl
@[simp] theorem State.forgetUnits_itChannels (s : State) : s.forgetUnits.itChannels = s.itChannels := rfl
@[simp] theorem State.forgetUnits_itLength (s : State) : s.forgetUnits.itLength = s.itLength := rfl
@[simp] theorem State.forgetUnits_src (s : State) : s.forgetUnits.src = s.src := rfl
@[simp] theorem State.forgetUnits_smp (s : State) : s.forgetUnits.smp = s.smp := rfl
@[simp] theorem State.forgetUnits_out (s : State) : s.forgetUnits.out = s.out := rfl
@[simp] theorem State.forgetUnits_outLen (s : State) : s.forgetUnits.outLen = s.outLen := rfl
@[simp] theorem State.forgetUnits_brSrc (s : State) : s.forgetUnits.brSrc = s.brSrc := rfl
@[simp] theorem State.forgetUnits_br (s : State) : s.forgetUnits.br = s.br := rfl
@[simp] theorem State.forgetUnits_params (s : State) : s.forgetUnits.params = s.params := rfl
@[simp] theorem State.forgetUnits_allocAnswers (s : State) : s.forgetUnits.allocAnswers = s.allocAnswers := rfl
@[simp] theorem State.forgetUnits_script (s : State) : s.forgetUnits.script = s.script := rfl
@[simp] theorem State.forgetUnits_hostData (s : State) : s.forgetUnits.hostData = s.hostData := rfl

end Sys2Proof.Machine
end

