-- ==== Sys2Proof/Laws/Headers.lean ====
section
/-! SUPPORT. Laws/Headers.lean: the header fields and checks of the container units, as the machine computes them and
as Safety.lean states them (00_scope.md R10; 42_mmcmp.md R103, R107; 43_pp20.md R118, R122). -/
namespace Sys2Proof.Machine

/-! ## Fields as numbers -/

theorem le16At_toNat (bytes : List Byte) (a : Nat) : (le16At bytes a).toNat = le16Nat bytes a := by
  simp only [le16At, le16Nat, le16, BitVec.toNat_append]
  have := (byteAt bytes a).isLt
  rw [← Nat.shiftLeft_add_eq_or_of_lt (by omega), Nat.shiftLeft_eq]
  omega

theorem le32At_toNat (bytes : List Byte) (a : Nat) : (le32At bytes a).toNat = le32Nat bytes a := by
  simp only [le32At, le32Nat, le32, BitVec.toNat_append]
  generalize byteAt bytes a = b0; generalize byteAt bytes (a + 1) = b1
  generalize byteAt bytes (a + 2) = b2; generalize byteAt bytes (a + 3) = b3
  have := b0.isLt; have := b1.isLt; have := b2.isLt
  rw [← Nat.shiftLeft_add_eq_or_of_lt (a := b3.toNat <<< 8 ||| b2.toNat) (by omega),
    ← Nat.shiftLeft_add_eq_or_of_lt (by omega), ← Nat.shiftLeft_add_eq_or_of_lt (by omega)]
  simp only [Nat.shiftLeft_eq]
  omega

theorem be24At_toNat (bytes : List Byte) (a : Nat) : (be24At bytes a).toNat = be24Nat bytes a := by
  simp only [be24At, be24Nat, be24, BitVec.toNat_append]
  generalize byteAt bytes a = b0; generalize byteAt bytes (a + 1) = b1; generalize byteAt bytes (a + 2) = b2
  have := b1.isLt; have := b2.isLt
  rw [← Nat.shiftLeft_add_eq_or_of_lt (a := b0.toNat) (by omega), ← Nat.shiftLeft_add_eq_or_of_lt (by omega)]
  simp only [Nat.shiftLeft_eq]
  omega

/-! ## The header tests (R103, R118) -/

theorem byteAt_memRead (bytes : List Byte) {n a : Nat} (h : a < n) : byteAt (memRead bytes 0 n) a = byteAt bytes a := by
  simp only [byteAt, memRead, List.drop_zero, List.getD_eq_getElem?_getD, List.getElem?_take_of_lt h]

theorem mmValid_memRead (p : Params) (bytes : List Byte) : mmValid p (memRead bytes 0 24) = mmHeaderValid p bytes := by
  have h8 : (memRead bytes 0 24).take 8 = bytes.take 8 := by simp [memRead, List.take_take]
  have e16 : ∀ a, a + 1 < 24 → (le16At (memRead bytes 0 24) a).toNat = le16Nat bytes a := fun a ha => by
    simp only [le16At_toNat, le16Nat]
    repeat rw [byteAt_memRead _ (by omega)]
  have e32 : (le32At (memRead bytes 0 24) 14).toNat = le32Nat bytes 14 := by
    simp only [le32At_toNat, le32Nat]
    repeat rw [byteAt_memRead _ (by omega)]
  simp only [mmValid, mmHeaderValid, h8, e16 8 (by decide), e16 12 (by decide), e32, mmMagic, Bool.decide_and, Bool.and_assoc]

theorem ppValid_memRead (bytes : List Byte) : ppValid (memRead bytes 0 8) = ppHeaderValid bytes := by
  have h4 : (memRead bytes 0 8).take 4 = bytes.take 4 := by simp [memRead, List.take_take]
  simp only [ppValid, ppHeaderValid, h4, ppMagic]
  rw [show List.range 4 = [0, 1, 2, 3] from rfl]
  simp only [List.all_cons, List.all_nil]
  repeat rw [byteAt_memRead _ (by omega)]

theorem mmHeaderOk_eq (p : Params) (bytes : List Byte) :
    mmHeaderOk p bytes = (decide (24 ≤ bytes.length) && mmHeaderValid p bytes) := by
  simp [mmHeaderOk, mmValid_memRead]

theorem ppHeaderOk_eq (bytes : List Byte) : ppHeaderOk bytes = (decide (8 ≤ bytes.length) && ppHeaderValid bytes) := by
  simp [ppHeaderOk, ppValid_memRead]

/-! ## The checks before the allocation (R107, R122) -/

theorem overRatio_eq (ratio : Option Nat) (size len : Nat) : overRatio ratio size len = !withinRatio ratio size len := by
  unfold overRatio withinRatio
  cases ratio <;> simp [← decide_not]

theorem mmPreAllocFails_eq (p : Params) (bytes : List Byte) (m : Mmu) :
    mmPreAllocFails p bytes (mmLoadHeader bytes m) = !mmChecksPass p bytes := by
  simp only [mmPreAllocFails, mmChecksPass, overRatio_eq, mmLoadHeader, le16At_toNat, le32At_toNat, Bool.not_and]
  congr 1
  by_cases h : bytes.length < le32Nat bytes 18 + 4 * le16Nat bytes 12 <;> simp [h]; omega

theorem ppPreAllocFails_eq (p : Params) (bytes : List Byte) (u : Ppu) :
    (ppLengthFails p bytes || ppSizeFails p bytes (ppLoadLen bytes u)) = !ppChecksPass p bytes := by
  have hz : (be24At bytes (bytes.length - 4) = 0) ↔ be24Nat bytes (bytes.length - 4) = 0 := by
    rw [← be24At_toNat]
    exact ⟨fun h => by rw [h]; rfl, fun h => BitVec.eq_of_toNat_eq h⟩
  have hz' : decide ((ppLoadLen bytes u).dstLen = 0) = decide (be24Nat bytes (bytes.length - 4) = 0) :=
    decide_eq_decide.mpr hz
  simp only [ppLengthFails, ppSizeFails, ppChecksPass, overRatio_eq, Bool.not_and, hz']
  simp only [ppLoadLen, be24At_toNat]
  rw [← Bool.or_assoc]
  congr 1
  by_cases h1 : bytes.length < 12 <;> by_cases h2 : bytes.length % 2 = 1 <;> cases p.pp20RequireEven <;> simp [h1, h2]

end Sys2Proof.Machine
end

