-- ==== Sys2Proof/Laws/Pp20.lean ====
section
/-! SUPPORT. Laws/Pp20.lean: what the steps of `PP20.UNPACK` do, said once each (43_pp20.md R123 to R128): which
registers they may change, that every write stays inside `OUT`, that no loop outlives its bound, and that only an
underrun fails. -/
namespace Sys2Proof.Machine

/-! ## What holds and what stays -/

/-- What holds throughout the decoding. -/
structure PpInv (r : PpRun) : Prop where
  out : r.out.Sound
  size : r.out.size = r.pp.dstLen.toNat
  left : r.pp.left ≤ r.pp.dstLen.toNat
  bitCnt : r.pp.bitCnt ≤ 8

/-- What no step of the decoding changes, and what only goes down. -/
structure PpStays (r r' : PpRun) : Prop where
  dstLen : r'.pp.dstLen = r.pp.dstLen
  lo : r'.pp.lo = r.pp.lo
  modes : (r'.pp.mode0, r'.pp.mode1, r'.pp.mode2, r'.pp.mode3) = (r.pp.mode0, r.pp.mode1, r.pp.mode2, r.pp.mode3)
  p_le : r'.pp.p ≤ r.pp.p
  left_le : r'.pp.left ≤ r.pp.left

theorem PpStays.rfl' (r : PpRun) : PpStays r r := ⟨rfl, rfl, rfl, le_refl _, le_refl _⟩

theorem PpStays.trans {a b c : PpRun} (h : PpStays a b) (h' : PpStays b c) : PpStays a c :=
  ⟨h'.dstLen.trans h.dstLen, h'.lo.trans h.lo, h'.modes.trans h.modes, h'.p_le.trans h.p_le, h'.left_le.trans h.left_le⟩

/-- Outcomes of the steps: a normal end keeps the invariant and satisfies `Q`; a failure keeps it too, and is an
underrun under `Fail`; there is no fault. -/
def PpPost {α : Type} (p : Params) (r : PpRun) (run : α → PpRun) (Q : α → Prop) : Except (Stop PpRun) α → Prop
  | .ok x => PpInv (run x) ∧ PpStays r (run x) ∧ Q x
  | .error (.fail r') => PpInv r' ∧ PpStays r r' ∧ p.pp20Underrun = .fail
  | .error (.fault _) => False

theorem PpPost.after {α : Type} {p : Params} {r r' : PpRun} {run : α → PpRun} {Q Q' : α → Prop} (h : PpStays r r')
    (hq : ∀ x, Q x → Q' x) : ∀ {x : Except (Stop PpRun) α}, PpPost p r' run Q x → PpPost p r run Q' x
  | .ok _, hx => ⟨hx.1, h.trans hx.2.1, hq _ hx.2.2⟩
  | .error (.fail _), hx => ⟨hx.1, h.trans hx.2.1, hx.2.2⟩
  | .error (.fault _), hx => hx

/-! ## The reverse reader (R123, R124) -/

/-- The reader's registers are the only ones a read changes. -/
def PpReads (r r' : PpRun) : Prop :=
  ∃ a b c, r' = { r with pp := { r.pp with p := a, byte := b, bitCnt := c } } ∧ a ≤ r.pp.p ∧ c ≤ 8

theorem PpReads.trans {a b c : PpRun} : PpReads a b → PpReads b c → PpReads a c
  | ⟨_, _, _, e, h, _⟩, ⟨_, _, _, e', h', k'⟩ => by subst e; exact ⟨_, _, _, e', le_trans h' h, k'⟩

theorem PpReads.inv {r r' : PpRun} : PpReads r r' → PpInv r → PpInv r'
  | ⟨_, _, _, e, _, k⟩, h => by subst e; exact ⟨h.out, h.size, h.left, k⟩

theorem PpReads.stays {r r' : PpRun} : PpReads r r' → PpStays r r'
  | ⟨_, _, _, e, h, _⟩ => by subst e; exact ⟨rfl, rfl, rfl, h, le_refl _⟩

theorem PpReads.left {r r' : PpRun} : PpReads r r' → r'.pp.left = r.pp.left
  | ⟨_, _, _, e, _, _⟩ => by subst e; rfl

theorem PpReads.out {r r' : PpRun} : PpReads r r' → r'.out = r.out
  | ⟨_, _, _, e, _, _⟩ => by subst e; rfl

/-- The bits of a byte, the lowest first. -/
theorem byteBits_shift (b : Byte) (c : Nat) :
    (List.range (c + 1)).map b.getLsbD = decide (b.toNat % 2 = 1) :: (List.range c).map (b >>> 1).getLsbD := by
  rw [List.range_succ_eq_map, List.map_cons, List.map_map]
  congr 1
  · rw [← BitVec.testBit_toNat, Nat.testBit_zero]
  · apply List.map_congr_left
    intro i hi
    simp [BitVec.getLsbD_ushiftRight, Nat.add_comm]

/-- One bit of a byte that still has some. -/
theorem ppShift_spec {r : PpRun} {bytes : List Byte} (h0 : r.pp.bitCnt ≠ 0) (h8 : r.pp.bitCnt ≤ 8) :
    reverseBits bytes r.pp = decide ((ppShift r).1 = 1) :: reverseBits bytes (ppShift r).2.pp ∧ (ppShift r).1 < 2 ∧
      PpReads r (ppShift r).2 := by
  obtain ⟨c, hc⟩ : ∃ c, r.pp.bitCnt = c + 1 := ⟨r.pp.bitCnt - 1, by omega⟩
  refine ⟨?_, Nat.mod_lt _ (by decide), _, _, _, rfl, le_refl _, by show r.pp.bitCnt - 1 ≤ 8; omega⟩
  simp only [reverseBits, ppShift, hc, Nat.add_sub_cancel, byteBits_shift r.pp.byte c, List.cons_append]
  rfl

/-- The bits left when the next byte is loaded. -/
theorem reverseBits_load {r : PpRun} {bytes : List Byte} (h0 : r.pp.bitCnt = 0) (h : r.pp.lo < r.pp.p) :
    reverseBits bytes (ppLoad bytes (r.pp.p - 1) r).pp = reverseBits bytes r.pp := by
  obtain ⟨k, hk⟩ : ∃ k, r.pp.p - r.pp.lo = k + 1 := ⟨r.pp.p - r.pp.lo - 1, by omega⟩
  have hb : reverseBytes bytes r.pp = byteAt bytes (r.pp.p - 1) :: reverseBytes bytes (ppLoad bytes (r.pp.p - 1) r).pp := by
    simp only [reverseBytes, ppLoad]
    rw [show r.pp.p - 1 - r.pp.lo = k by omega, hk, List.range_succ_eq_map, List.map_cons, List.map_map]
    congr 1
    apply List.map_congr_left
    intro j _
    simp only [Function.comp, Nat.succ_eq_add_one]
    congr 1
    omega
  unfold reverseBits
  rw [hb, bitsOfBytes_cons, h0]
  rfl

/-- What reading one bit does (R124): the next bit of the region, or the underrun. -/
theorem ppBit_spec {p : Params} {bytes : List Byte} {r : PpRun} (h8 : r.pp.bitCnt ≤ 8) :
    match reverseBits bytes r.pp with
    | b :: rest => ∃ r', ppBit p bytes r = .ok (b.toNat, r') ∧ PpReads r r' ∧ reverseBits bytes r'.pp = rest
    | [] =>
      (p.pp20Underrun = .fail → ppBit p bytes r = .error (.fail r)) ∧
        (p.pp20Underrun = .repeatLowest → ∃ v r', ppBit p bytes r = .ok (v, r') ∧ v < 2 ∧ PpReads r r') := by
  have two : ∀ n : Nat, n < 2 → (decide (n = 1)).toNat = n := by intro n hn; interval_cases n <;> rfl
  by_cases h0 : r.pp.bitCnt = 0
  · by_cases hp : r.pp.lo < r.pp.p
    · obtain ⟨hb, hv, hr⟩ := ppShift_spec (r := ppLoad bytes (r.pp.p - 1) r) (bytes := bytes)
        (by show 8 ≠ 0; decide) (le_refl 8)
      rw [reverseBits_load h0 hp] at hb
      rw [hb]
      refine ⟨_, ?_, PpReads.trans ⟨_, _, _, rfl, Nat.sub_le _ _, le_refl 8⟩ hr, rfl⟩
      simp only [ppBit, ppFetch, if_pos h0, if_pos hp, two _ hv]
    · have he : reverseBits bytes r.pp = [] := by
        simp [reverseBits, reverseBytes, h0, show r.pp.p - r.pp.lo = 0 by omega]
      rw [he]
      refine ⟨fun hf => ?_, fun hf => ?_⟩
      · simp only [ppBit, ppFetch, if_pos h0, if_neg hp, hf]
      · obtain ⟨_, hv, hr⟩ := ppShift_spec (r := ppLoad bytes r.pp.p r) (bytes := bytes)
          (by show 8 ≠ 0; decide) (le_refl 8)
        refine ⟨_, _, ?_, hv, PpReads.trans ⟨_, _, _, rfl, le_refl _, le_refl 8⟩ hr⟩
        simp only [ppBit, ppFetch, if_pos h0, if_neg hp, hf]
  · obtain ⟨hb, hv, hr⟩ := ppShift_spec (bytes := bytes) h0 h8
    rw [hb]
    refine ⟨_, ?_, hr, rfl⟩
    simp only [ppBit, if_neg h0, two _ hv]

/-- `GetBits` whatever the region holds: only the reader moves, and only an underrun under `Fail` fails. -/
theorem ppBitsFrom_post {p : Params} {bytes : List Byte} : ∀ (n acc : Nat) (r : PpRun), r.pp.bitCnt ≤ 8 →
    match ppBitsFrom p bytes n acc r with
    | .ok (v, r') => PpReads r r' ∧ v < (acc + 1) * 2 ^ n
    | .error (.fail r') => PpReads r r' ∧ p.pp20Underrun = .fail
    | .error (.fault _) => False
  | 0, acc, r, h => ⟨⟨_, _, _, rfl, le_refl _, h⟩, by simp⟩
  | n + 1, acc, r, h => by
    have hb := ppBit_spec (p := p) (bytes := bytes) h
    have key : (∃ v r1, ppBit p bytes r = .ok (v, r1) ∧ v < 2 ∧ PpReads r r1) ∨
        (ppBit p bytes r = .error (.fail r) ∧ p.pp20Underrun = .fail) := by
      cases hr : reverseBits bytes r.pp with
      | nil =>
        rw [hr] at hb
        cases hu : p.pp20Underrun with
        | fail => exact Or.inr ⟨hb.1 hu, rfl⟩
        | repeatLowest => exact Or.inl (hb.2 hu)
      | cons b rest =>
        rw [hr] at hb
        obtain ⟨r1, e1, k1, _⟩ := hb
        exact Or.inl ⟨_, r1, e1, by cases b <;> decide, k1⟩
    rcases key with ⟨v, r1, e1, hv, k1⟩ | ⟨e1, hu⟩
    · have k1' := k1
      obtain ⟨_, _, _, ee, _, k8⟩ := k1'
      have ih := ppBitsFrom_post (p := p) (bytes := bytes) n (2 * acc + v) r1 (by rw [ee]; exact k8)
      simp only [ppBitsFrom, e1]
      cases hx : ppBitsFrom p bytes n (2 * acc + v) r1 with
      | ok x =>
        obtain ⟨w, r2⟩ := x
        rw [hx] at ih
        refine ⟨k1.trans ih.1, lt_of_lt_of_le ih.2 ?_⟩
        rw [Nat.pow_succ, Nat.mul_comm (2 ^ n) 2, ← Nat.mul_assoc]
        exact Nat.mul_le_mul_right _ (by omega)
      | error e =>
        rw [hx] at ih
        cases e with
        | fail r' => exact ⟨k1.trans ih.1, ih.2⟩
        | fault f => exact ih
    · simp only [ppBitsFrom, e1]
      exact ⟨⟨_, _, _, rfl, le_refl _, h⟩, hu⟩

/-- `GetBits(n)` (R124): only the reader moves, the value has `n` bits, only an underrun under `Fail` fails. -/
theorem ppBits_post {p : Params} {bytes : List Byte} (n : Nat) {r : PpRun} (h : PpInv r) :
    PpPost p r Prod.snd (fun x => PpReads r x.2 ∧ x.1 < 2 ^ n) (ppBits p bytes n r) := by
  have hp := ppBitsFrom_post (p := p) (bytes := bytes) n 0 r h.bitCnt
  unfold ppBits
  cases hx : ppBitsFrom p bytes n 0 r with
  | ok x =>
    obtain ⟨v, r'⟩ := x
    rw [hx] at hp
    exact ⟨hp.1.inv h, hp.1.stays, hp.1, by simpa using hp.2⟩
  | error e =>
    rw [hx] at hp
    cases e with
    | fail r' => exact ⟨hp.1.inv h, hp.1.stays, hp.2⟩
    | fault f => exact hp

/-- What the skip bits do (R123). -/
theorem ppSkip_post {p : Params} {bytes : List Byte} : ∀ (k : Nat) (r : PpRun), PpInv r →
    PpPost p r id (fun r' => PpReads r r') (ppSkip p bytes k r)
  | 0, r, h => ⟨h, PpStays.rfl' r, _, _, _, rfl, le_refl _, h.bitCnt⟩
  | k + 1, r, h => by
    have hp := ppBits_post (p := p) (bytes := bytes) 1 h
    unfold ppSkip
    cases hx : ppBits p bytes 1 r with
    | ok x =>
      obtain ⟨v, r'⟩ := x
      rw [hx] at hp
      exact PpPost.after hp.2.1 (fun y hy => hp.2.2.1.trans hy) (ppSkip_post k r' hp.1)
    | error e =>
      rw [hx] at hp
      cases e with
      | fail r' => exact hp
      | fault f => exact hp

/-! ## Counts, literals and copies (R125 to R127) -/

/-- What reading a count does: only the reader moves, the count does not go down, the bound is enough. -/
theorem ppCount_post {p : Params} {bytes : List Byte} {bits limit : Nat} (hb : 0 < bits) :
    ∀ (k count : Nat) (r : PpRun), PpInv r → limit ≤ count + k →
      PpPost p r Prod.snd (fun x => PpReads r x.2 ∧ count ≤ x.1) (ppCount p bytes bits limit k count r)
  | 0, count, r, h, hk => by
    unfold ppCount
    rw [if_neg (by omega)]
    exact ⟨h, PpStays.rfl' r, ⟨_, _, _, rfl, le_refl _, h.bitCnt⟩, le_refl _⟩
  | k + 1, count, r, h, hk => by
    unfold ppCount
    by_cases hl : count < limit
    · rw [if_pos hl]
      have hp := ppBits_post (p := p) (bytes := bytes) bits h
      cases hx : ppBits p bytes bits r with
      | error e =>
        rw [hx] at hp
        cases e with
        | fail r' => exact hp
        | fault f => exact hp
      | ok x =>
        obtain ⟨c, r'⟩ := x
        rw [hx] at hp
        obtain ⟨hi, hs, hr, _⟩ := hp
        simp only
        split
        · exact ⟨hi, hs, hr, Nat.le_add_right _ _⟩
        · rename_i hc
          have hc' : c = 2 ^ bits - 1 := by simpa using hc
          have h2 : 2 ≤ 2 ^ bits := by
            calc 2 = 2 ^ 1 := rfl
              _ ≤ 2 ^ bits := Nat.pow_le_pow_right (by decide) hb
          exact PpPost.after hs (fun y hy => ⟨hr.trans hy.1, le_trans (Nat.le_add_right _ _) hy.2⟩)
            (ppCount_post hb k (count + c) r' hi (by omega))
    · rw [if_neg hl]
      exact ⟨h, PpStays.rfl' r, ⟨_, _, _, rfl, le_refl _, h.bitCnt⟩, le_refl _⟩

theorem ppStore_of_lt {a : Nat} {v : Byte} {r : PpRun} (h : a < r.out.size) :
    ppStore a v r = .ok { r with out := { r.out with cells := Memory.write r.out.cells a v } } := by
  simp only [ppStore, outWrite_of_lt v h]

theorem ppDown_inv {r : PpRun} (h : PpInv r) : PpInv (ppDown r) :=
  ⟨h.out, h.size, le_trans (Nat.sub_le _ _) h.left, h.bitCnt⟩

theorem ppDown_stays (r : PpRun) : PpStays r (ppDown r) := ⟨rfl, rfl, rfl, le_refl _, Nat.sub_le _ _⟩

theorem ppStore_inv {a : Nat} {v : Byte} {r : PpRun} (h : PpInv r) (ha : a < r.out.size) :
    PpInv { r with out := { r.out with cells := Memory.write r.out.cells a v } } :=
  ⟨⟨Memory.write_wf h.out.1 a v, Memory.write_below ha v h.out.2⟩, h.size, h.left, h.bitCnt⟩

/-- What a run of literals does (R125): `k` bytes are written. -/
theorem ppLiterals_post {p : Params} {bytes : List Byte} : ∀ (k : Nat) (r : PpRun), PpInv r → k ≤ r.pp.left →
    PpPost p r id (fun r' => r'.pp.left = r.pp.left - k) (ppLiterals p bytes k r)
  | 0, r, h, _ => ⟨h, PpStays.rfl' r, rfl⟩
  | k + 1, r, h, hk => by
    have hp := ppBits_post (p := p) (bytes := bytes) 8 (ppDown_inv h)
    unfold ppLiterals
    cases hx : ppBits p bytes 8 (ppDown r) with
    | error e =>
      rw [hx] at hp
      cases e with
      | fail r' => exact ⟨hp.1, (ppDown_stays r).trans hp.2.1, hp.2.2⟩
      | fault f => exact hp
    | ok x =>
      obtain ⟨v, r1⟩ := x
      rw [hx] at hp
      obtain ⟨hi, hs, hr, _⟩ := hp
      have hl : r1.pp.left = r.pp.left - 1 := hr.left
      have hd := hi.size
      have hle := hi.left
      have hdl : r1.pp.dstLen = r.pp.dstLen := hs.dstLen
      have hrl := h.left
      have ha : r1.pp.left < r1.out.size := by rw [hd, hl, hdl]; omega
      simp only [ppStore_of_lt ha]
      have hw := ppLiterals_post (p := p) (bytes := bytes) k
        { r1 with out := { r1.out with cells := Memory.write r1.out.cells r1.pp.left (BitVec.ofNat 8 v) } } (ppStore_inv (v := BitVec.ofNat 8 v) hi ha)
        (by show k ≤ r1.pp.left; omega)
      refine PpPost.after (r' := { r1 with
          out := { r1.out with cells := Memory.write r1.out.cells r1.pp.left (BitVec.ofNat 8 v) } })
        (PpStays.trans (ppDown_stays r) (PpStays.trans hs ⟨rfl, rfl, rfl, le_refl _, le_refl _⟩))
        (fun y (hy : y.pp.left = r1.pp.left - k) => ?_) hw
      omega

/-- What `Copy(count, offset)` does to the registers (R127): `k` bytes are written, and `PP_LEFT` alone moves. -/
theorem ppCopy_spec {offset : Nat} : ∀ (k : Nat) (r : PpRun), PpInv r → k ≤ r.pp.left →
    ∃ r', ppCopy offset k r = .ok r' ∧ PpInv r' ∧ r'.pp = { r.pp with left := r.pp.left - k }
  | 0, r, h, _ => ⟨r, rfl, h, rfl⟩
  | k + 1, r, h, hk => by
    have hd := h.size
    have hle := h.left
    have ha : r.pp.left - 1 < r.out.size := by omega
    unfold ppCopy
    simp only [ppStore_of_lt ha]
    generalize (if r.pp.left + offset < r.pp.dstLen.toNat then outRead r.out (r.pp.left + offset) else 0) = v
    generalize hr1 : ppDown { r with out := { r.out with cells := Memory.write r.out.cells (r.pp.left - 1) v } } = r1
    have hi1 : PpInv r1 := hr1 ▸ ppDown_inv (ppStore_inv h ha)
    have hpp1 : r1.pp = { r.pp with left := r.pp.left - 1 } := by rw [← hr1]; rfl
    obtain ⟨r', e, hi, hpp⟩ := ppCopy_spec (offset := offset) k r1 hi1 (by rw [hpp1]; show k ≤ r.pp.left - 1; omega)
    exact ⟨r', e, hi, by rw [hpp, hpp1, show r.pp.left - (k + 1) = r.pp.left - 1 - k by omega]⟩

theorem ppCopy_post {p : Params} {offset k : Nat} {r : PpRun} (h : PpInv r) (hk : k ≤ r.pp.left) :
    PpPost p r id (fun r' => r'.pp.left = r.pp.left - k) (ppCopy offset k r) := by
  obtain ⟨r', e, hi, hpp⟩ := ppCopy_spec (offset := offset) k r h hk
  rw [e]
  exact ⟨hi, by show PpStays r r'; exact ⟨by rw [hpp], by rw [hpp], by rw [hpp], by rw [hpp], by rw [hpp]; exact Nat.sub_le _ _⟩,
    by show r'.pp.left = _; rw [hpp]⟩

/-- What `LiteralRun()` does (R125): at least one byte is written. -/
theorem ppLiteralRun_post {p : Params} {bytes : List Byte} {r : PpRun} (h : PpInv r) (hl : 0 < r.pp.left) :
    PpPost p r id (fun r' => r'.pp.left < r.pp.left) (ppLiteralRun p bytes r) := by
  have hp := ppCount_post (p := p) (bytes := bytes) (bits := 2) (limit := r.pp.left) (by decide) r.pp.left 1 r h (by omega)
  unfold ppLiteralRun
  cases hx : ppCount p bytes 2 r.pp.left r.pp.left 1 r with
  | error e =>
    rw [hx] at hp
    cases e with
    | fail r' => exact hp
    | fault f => exact hp
  | ok x =>
    obtain ⟨count, r1⟩ := x
    rw [hx] at hp
    obtain ⟨hi, hs, hr, hc⟩ := hp
    have hl1 : r1.pp.left = r.pp.left := hr.left
    have hc' : 1 ≤ count := hc
    exact PpPost.after hs (fun y (hy : y.pp.left = r1.pp.left - min count r1.pp.left) => by omega)
      (ppLiterals_post (min count r1.pp.left) r1 hi (Nat.min_le_right _ _))

/-- What `Match()` does in mode 3 (R126): at least one byte is written. -/
theorem ppMatchLong_post {p : Params} {bytes : List Byte} {r : PpRun} (h : PpInv r) (hl : 0 < r.pp.left) :
    PpPost p r id (fun r' => r'.pp.left < r.pp.left) (ppMatchLong p bytes r) := by
  have h1 := ppBits_post (p := p) (bytes := bytes) 1 h
  unfold ppMatchLong
  cases hx : ppBits p bytes 1 r with
  | error e =>
    rw [hx] at h1
    cases e with
    | fail r' => exact h1
    | fault f => exact h1
  | ok x =>
    obtain ⟨wide, r1⟩ := x
    rw [hx] at h1
    obtain ⟨hi1, hs1, hr1, _⟩ : PpInv r1 ∧ PpStays r r1 ∧ PpReads r r1 ∧ _ := h1
    have h2 := ppBits_post (p := p) (bytes := bytes) (ppWide r1.pp wide) hi1
    simp only
    cases hx2 : ppBits p bytes (ppWide r1.pp wide) r1 with
    | error e =>
      rw [hx2] at h2
      cases e with
      | fail r' => exact ⟨h2.1, PpStays.trans hs1 h2.2.1, h2.2.2⟩
      | fault f => exact h2
    | ok x2 =>
      obtain ⟨offset, r2⟩ := x2
      rw [hx2] at h2
      obtain ⟨hi2, hs2, hr2, _⟩ : PpInv r2 ∧ PpStays r1 r2 ∧ PpReads r1 r2 ∧ _ := h2
      have h3 := ppCount_post (p := p) (bytes := bytes) (bits := 3) (limit := r2.pp.left + 1) (by decide)
        (r2.pp.left + 1) 5 r2 hi2 (by omega)
      simp only
      cases hx3 : ppCount p bytes 3 (r2.pp.left + 1) (r2.pp.left + 1) 5 r2 with
      | error e =>
        rw [hx3] at h3
        cases e with
        | fail r' => exact ⟨h3.1, PpStays.trans (PpStays.trans hs1 hs2) h3.2.1, h3.2.2⟩
        | fault f => exact h3
      | ok x3 =>
        obtain ⟨count, r3⟩ := x3
        rw [hx3] at h3
        obtain ⟨hi3, hs3, hr3, hc⟩ : PpInv r3 ∧ PpStays r2 r3 ∧ PpReads r2 r3 ∧ _ := h3
        have e1 : r1.pp.left = r.pp.left := hr1.left
        have e2 : r2.pp.left = r1.pp.left := hr2.left
        have e3 : r3.pp.left = r2.pp.left := hr3.left
        have hc' : 5 ≤ count := hc
        exact PpPost.after (PpStays.trans (PpStays.trans hs1 hs2) hs3)
          (fun y (hy : y.pp.left = r3.pp.left - min count r3.pp.left) => by omega)
          (ppCopy_post hi3 (Nat.min_le_right _ _))

/-- What `Match()` does (R126): at least one byte is written. -/
theorem ppMatch_post {p : Params} {bytes : List Byte} {r : PpRun} (h : PpInv r) (hl : 0 < r.pp.left) :
    PpPost p r id (fun r' => r'.pp.left < r.pp.left) (ppMatch p bytes r) := by
  have h1 := ppBits_post (p := p) (bytes := bytes) 2 h
  unfold ppMatch
  cases hx : ppBits p bytes 2 r with
  | error e =>
    rw [hx] at h1
    cases e with
    | fail r' => exact h1
    | fault f => exact h1
  | ok x =>
    obtain ⟨idx, r1⟩ := x
    rw [hx] at h1
    obtain ⟨hi1, hs1, hr1, _⟩ : PpInv r1 ∧ PpStays r r1 ∧ PpReads r r1 ∧ _ := h1
    have e1 : r1.pp.left = r.pp.left := hr1.left
    simp only
    split
    · exact PpPost.after hs1 (fun y hy => by omega) (ppMatchLong_post hi1 (by omega))
    · have h2 := ppBits_post (p := p) (bytes := bytes) (ppMode r1.pp idx) hi1
      cases hx2 : ppBits p bytes (ppMode r1.pp idx) r1 with
      | error e =>
        rw [hx2] at h2
        cases e with
        | fail r' => exact ⟨h2.1, PpStays.trans hs1 h2.2.1, h2.2.2⟩
        | fault f => exact h2
      | ok x2 =>
        obtain ⟨offset, r2⟩ := x2
        rw [hx2] at h2
        obtain ⟨hi2, hs2, hr2, _⟩ : PpInv r2 ∧ PpStays r1 r2 ∧ PpReads r1 r2 ∧ _ := h2
        have e2 : r2.pp.left = r1.pp.left := hr2.left
        exact PpPost.after (PpStays.trans hs1 hs2)
          (fun y (hy : y.pp.left = r2.pp.left - min (idx + 2) r2.pp.left) => by omega)
          (ppCopy_post hi2 (Nat.min_le_right _ _))

/-! ## Tokens (R121, R128) -/

/-- What one pass of the token loop does: at least one byte is written (R128). -/
theorem ppPass_post {p : Params} {bytes : List Byte} {r : PpRun} (h : PpInv r) (hl : 0 < r.pp.left) :
    PpPost p r id (fun r' => r'.pp.left < r.pp.left) (ppPass p bytes r) := by
  have h1 := ppBits_post (p := p) (bytes := bytes) 1 h
  unfold ppPass
  cases hx : ppBits p bytes 1 r with
  | error e =>
    rw [hx] at h1
    cases e with
    | fail r' => exact h1
    | fault f => exact h1
  | ok x =>
    obtain ⟨flag, r1⟩ := x
    rw [hx] at h1
    obtain ⟨hi1, hs1, hr1, _⟩ : PpInv r1 ∧ PpStays r r1 ∧ PpReads r r1 ∧ _ := h1
    have e1 : r1.pp.left = r.pp.left := hr1.left
    simp only
    split
    · have h2 := ppLiteralRun_post (p := p) (bytes := bytes) hi1 (by omega)
      cases hx2 : ppLiteralRun p bytes r1 with
      | error e =>
        rw [hx2] at h2
        cases e with
        | fail r' => exact ⟨h2.1, PpStays.trans hs1 h2.2.1, h2.2.2⟩
        | fault f => exact h2
      | ok r2 =>
        rw [hx2] at h2
        obtain ⟨hi2, hs2, hlt⟩ := h2
        have hlt' : r2.pp.left < r1.pp.left := hlt
        simp only
        split
        · exact ⟨hi2, PpStays.trans hs1 hs2, by show r2.pp.left < _; omega⟩
        · exact PpPost.after (PpStays.trans hs1 hs2)
            (fun y (hy : y.pp.left < r2.pp.left) => show y.pp.left < r.pp.left by omega)
            (ppMatch_post (r := r2) hi2 (by omega))
    · exact PpPost.after hs1 (fun y (hy : y.pp.left < r1.pp.left) => by omega) (ppMatch_post hi1 (by omega))

/-- What the token loop does, when its bound covers the bytes left (R128): every byte is written. -/
theorem ppLoop_post {p : Params} {bytes : List Byte} : ∀ (k : Nat) (r : PpRun), PpInv r → r.pp.left ≤ k →
    PpPost p r id (fun r' => r'.pp.left = 0) (ppLoop p bytes k r)
  | 0, r, h, hk => by
    unfold ppLoop
    rw [if_pos (by omega)]
    exact ⟨h, PpStays.rfl' r, by show r.pp.left = 0; omega⟩
  | k + 1, r, h, hk => by
    unfold ppLoop
    by_cases h0 : r.pp.left = 0
    · rw [if_pos h0]; exact ⟨h, PpStays.rfl' r, h0⟩
    · rw [if_neg h0]
      have hp := ppPass_post (p := p) (bytes := bytes) h (by omega)
      cases hx : ppPass p bytes r with
      | error e =>
        rw [hx] at hp
        cases e with
        | fail r' => exact hp
        | fault f => exact hp
      | ok r1 =>
        rw [hx] at hp
        obtain ⟨hi, hs, hlt⟩ := hp
        have hlt' : r1.pp.left < r.pp.left := hlt
        exact PpPost.after hs (fun y hy => hy) (ppLoop_post k r1 hi (by omega))

/-- What the decoding does: every byte of `OUT` is written, or the reader ran under. -/
theorem ppDecode_post {p : Params} {bytes : List Byte} {r : PpRun} (h : PpInv r) :
    PpPost p r id (fun r' => r'.pp.left = 0) (ppDecode p bytes r) := by
  have hp := ppSkip_post (p := p) (bytes := bytes) (byteAt bytes (bytes.length - 1)).toNat r h
  unfold ppDecode
  cases hx : ppSkip p bytes (byteAt bytes (bytes.length - 1)).toNat r with
  | error e =>
    rw [hx] at hp
    cases e with
    | fail r' => exact hp
    | fault f => exact hp
  | ok r1 =>
    rw [hx] at hp
    obtain ⟨hi, hs, _⟩ := hp
    exact PpPost.after hs (fun y hy => hy) (ppLoop_post r1.pp.left r1 hi (le_refl _))

theorem ppInit_inv (bytes : List Byte) (u : Ppu) : PpInv ⟨ppInit bytes u, OutBuf.fresh u.dstLen.toNat⟩ :=
  ⟨OutBuf.fresh_sound _, rfl, le_refl _, Nat.zero_le _⟩

end Sys2Proof.Machine
end

