-- ==== Sys2Proof/Laws/Unpack.lean ====
section
/-! SUPPORT. Laws/Unpack.lean: every way `MMCMP.UNPACK` and `PP20.UNPACK` can end, said once each (42_mmcmp.md R106
to R108; 43_pp20.md R121, R122). -/
namespace Sys2Proof.Machine

/-- What asking the oracle does (20_memory.md R39). -/
theorem askAlloc_eq (s : State) :
    askAlloc s = (decide (s.allocAnswers.head? ≠ some false), { s with allocAnswers := s.allocAnswers.tail }) := by
  unfold askAlloc
  split
  · rename_i h; cases s; simp_all
  · rename_i a r h; simp [h]

/-- An oracle that does not succeed has a refusal as its next answer. -/
theorem refusal_of_head? {l : List Bool} (h : l.head? = some false) : ∃ rest, l = false :: rest := by
  cases l with
  | nil => cases h
  | cons a t => cases a; exacts [⟨t, rfl⟩, nomatch h]

/-- The run `MMCMP.UNPACK` decodes from (R106). -/
def mmFirstRun (s : State) : MmRun :=
  ⟨mmLoadHeader s.src.bytes s.mmu, OutBuf.fresh (le32At s.src.bytes 14).toNat, 0, 0⟩

/-- Every way `MMCMP.UNPACK` can end, from the state it starts in. -/
inductive MmEnd (s : State) (verify : Bool) : State → Prop
  | badHeader : mmHeaderOk s.params s.src.bytes = false → MmEnd s verify (failUnpack .failure (dropOut s))
  | verified : mmHeaderOk s.params s.src.bytes = true → verify = true →
      MmEnd s verify (complete 1 { dropOut s with mmu := mmLoadHeader s.src.bytes s.mmu })
  | badSize : mmHeaderOk s.params s.src.bytes = true → verify = false → mmChecksPass s.params s.src.bytes = false →
      MmEnd s verify (failUnpack .failure { dropOut s with mmu := mmLoadHeader s.src.bytes s.mmu })
  | noSpace (rest : List Bool) : mmHeaderOk s.params s.src.bytes = true → verify = false →
      mmChecksPass s.params s.src.bytes = true → s.allocAnswers = false :: rest →
      MmEnd s verify
        (failUnpack .resource { dropOut s with mmu := mmLoadHeader s.src.bytes s.mmu, allocAnswers := rest })
  | unpacked (r : MmRun) : mmHeaderOk s.params s.src.bytes = true → verify = false →
      mmChecksPass s.params s.src.bytes = true → s.allocSucceeds →
      MmInv (s.mmu.Widths ∧ s.src.bytes.length < 2 ^ 32) r → r.mm.filesize = le32At s.src.bytes 14 →
      mmBlocks s.params s.src.bytes (le16At s.src.bytes 12).toNat 0 (mmFirstRun s) = .ok r →
      MmEnd s verify (complete 1 { mmPutBack r { dropOut s with allocAnswers := s.allocAnswers.tail } with
        outLen := (le32At s.src.bytes 14).toNat
        outValid := true })
  | failed (r : MmRun) : mmHeaderOk s.params s.src.bytes = true → verify = false →
      mmChecksPass s.params s.src.bytes = true → s.allocSucceeds →
      MmInv (s.mmu.Widths ∧ s.src.bytes.length < 2 ^ 32) r → mmBlocksSound s.src.bytes = false →
      mmBlocks s.params s.src.bytes (le16At s.src.bytes 12).toNat 0 (mmFirstRun s) = .error (.fail r) →
      MmEnd s verify (failUnpack .failure (mmPutBack r { dropOut s with allocAnswers := s.allocAnswers.tail }))

/-- What the block loop does from its first run. -/
theorem mmFirstRun_post (s : State) (hc : mmChecksPass s.params s.src.bytes = true) :
    MmPost (s.mmu.Widths ∧ s.src.bytes.length < 2 ^ 32) (mmBlocksSound s.src.bytes = true) (mmFirstRun s) (fun _ => True)
      (mmBlocks s.params s.src.bytes (le16At s.src.bytes 12).toNat 0 (mmFirstRun s)) := by
  refine mmBlocks_post (fun hw => hw.2) _ 0 _ ?_ ?_ (fun hS j hj => ?_)
  · exact ⟨OutBuf.fresh_sound _, rfl, fun hw => ⟨hw.1.1, hw.1.2, hw.1.3, hw.1.4, hw.1.5, hw.1.6⟩⟩
  · have := (le16At s.src.bytes 12).isLt
    omega
  · simp only [mmBlocksSound, List.all_eq_true, List.mem_range] at hS
    have hb := hS j hj
    simp only [mmChecksPass, Bool.and_eq_true, decide_eq_true_eq] at hc
    refine ⟨?_, by simpa [mmFirstRun, mmLoadHeader, mmBlockPos] using hb⟩
    show (le32At s.src.bytes 18).toNat + 4 * (0 + j) + 4 ≤ _
    rw [le32At_toNat]
    rw [le16At_toNat] at hj
    omega

/-- `MMCMP.UNPACK` always ends, in one of the ways of `MmEnd`. -/
theorem execMmcmpUnpack_end (s : State) (verify : Bool) : ∃ t, execMmcmpUnpack verify s = .next t ∧ MmEnd s verify t := by
  unfold execMmcmpUnpack
  simp only
  split
  · exact ⟨_, rfl, .badHeader ‹_›⟩
  · rename_i h
    rw [Bool.not_eq_false] at h
    cases verify
    case true => exact ⟨_, rfl, .verified h rfl⟩
    simp only [Bool.false_eq_true, if_false, mmPreAllocFails_eq]
    cases hc : mmChecksPass s.params s.src.bytes
    case false => exact ⟨_, rfl, .badSize h rfl hc⟩
    simp only [Bool.not_true, Bool.false_eq_true, if_false, askAlloc_eq]
    by_cases ha : s.allocAnswers.head? = some false
    · rw [if_pos (by simp [dropOut, ha])]
      obtain ⟨rest, hr⟩ := refusal_of_head? ha
      refine ⟨_, rfl, ?_⟩
      have := MmEnd.noSpace (verify := false) rest h rfl hc hr
      simpa [dropOut, hr] using this
    · rw [if_neg (by simp [dropOut, ha])]
      have hp := mmFirstRun_post s hc
      show ∃ t, mmFinish (le32At s.src.bytes 14).toNat _
        (mmBlocks s.params s.src.bytes (le16At s.src.bytes 12).toNat 0 (mmFirstRun s)) = _ ∧ _
      cases hx : mmBlocks s.params s.src.bytes (le16At s.src.bytes 12).toNat 0 (mmFirstRun s) with
      | ok r =>
        rw [hx] at hp
        exact ⟨_, rfl, .unpacked r h rfl hc ha hp.1 (Mmu.filesize_of_file hp.2.1) hx⟩
      | error e =>
        rw [hx] at hp
        cases e with
        | fail r => exact ⟨_, rfl, .failed r h rfl hc ha hp.1 (by simpa using hp.2.2) hx⟩
        | fault f => exact hp.elim

/-- The run `PP20.UNPACK` decodes from (R121). -/
def ppFirstRun (s : State) : PpRun :=
  ⟨ppInit s.src.bytes (ppLoadLen s.src.bytes s.ppu), OutBuf.fresh (be24At s.src.bytes (s.src.bytes.length - 4)).toNat⟩

/-- Every way `PP20.UNPACK` can end, from the state it starts in. -/
inductive PpEnd (s : State) (verify : Bool) : State → Prop
  | badHeader : ppHeaderOk s.src.bytes = false → PpEnd s verify (failUnpack .failure (dropOut s))
  | verified : ppHeaderOk s.src.bytes = true → verify = true → PpEnd s verify (complete 1 (dropOut s))
  | badSize (u : Ppu) : ppHeaderOk s.src.bytes = true → verify = false → ppChecksPass s.params s.src.bytes = false →
      (u = s.ppu ∧ ppLengthFails s.params s.src.bytes = true ∨ u = ppLoadLen s.src.bytes s.ppu) → PpEnd s verify (failUnpack .failure { dropOut s with ppu := u })
  | noSpace (rest : List Bool) : ppHeaderOk s.src.bytes = true → verify = false →
      ppChecksPass s.params s.src.bytes = true → s.allocAnswers = false :: rest →
      PpEnd s verify
        (failUnpack .resource { dropOut s with ppu := ppLoadLen s.src.bytes s.ppu, allocAnswers := rest })
  | unpacked (r : PpRun) : ppHeaderOk s.src.bytes = true → verify = false →
      ppChecksPass s.params s.src.bytes = true → s.allocSucceeds → PpInv r → (s.src.bytes.length < 2 ^ 32 → r.pp.Widths) →
      r.pp.dstLen = be24At s.src.bytes (s.src.bytes.length - 4) →
      ppDecode s.params s.src.bytes (ppFirstRun s) = .ok r →
      PpEnd s verify (complete 1 { ppPutBack r { dropOut s with allocAnswers := s.allocAnswers.tail } with
        outLen := (be24At s.src.bytes (s.src.bytes.length - 4)).toNat
        outValid := true })
  | failed (r : PpRun) : ppHeaderOk s.src.bytes = true → verify = false →
      ppChecksPass s.params s.src.bytes = true → s.allocSucceeds → PpInv r → (s.src.bytes.length < 2 ^ 32 → r.pp.Widths) →
      s.params.pp20Underrun = .fail → ppDecode s.params s.src.bytes (ppFirstRun s) = .error (.fail r) →
      PpEnd s verify (failUnpack .failure (ppPutBack r { dropOut s with allocAnswers := s.allocAnswers.tail }))

/-- The widths of the PPU's registers during the decoding. -/
theorem ppFirstRun_widths {s : State} {r : PpRun} (hi : PpInv r) (hs : PpStays (ppFirstRun s) r)
    (hl : s.src.bytes.length < 2 ^ 32) : r.pp.Widths := by
  have h1 := hs.p_le
  have h2 := hi.left
  have h3 := r.pp.dstLen.isLt
  simp only [ppFirstRun, ppInit] at h1
  exact ⟨by omega, by omega, by rw [hs.lo]; show 4 < _; decide, hi.bitCnt⟩

/-- `PP20.UNPACK` always ends, in one of the ways of `PpEnd`. -/
theorem execPp20Unpack_end (s : State) (verify : Bool) : ∃ t, execPp20Unpack verify s = .next t ∧ PpEnd s verify t := by
  unfold execPp20Unpack
  simp only
  have hpre := ppPreAllocFails_eq s.params s.src.bytes s.ppu
  split
  · exact ⟨_, rfl, .badHeader ‹_›⟩
  · rename_i h
    rw [Bool.not_eq_false] at h
    cases verify
    case true => exact ⟨_, rfl, .verified h rfl⟩
    simp only [Bool.false_eq_true, if_false]
    split
    · rename_i hl
      rw [hl, Bool.true_or] at hpre
      exact ⟨_, rfl, .badSize s.ppu h rfl (by simpa using hpre.symm) (.inl ⟨rfl, hl⟩)⟩
    · rename_i hl
      rw [Bool.not_eq_true] at hl
      rw [hl, Bool.false_or] at hpre
      rw [hpre]
      cases hc : ppChecksPass s.params s.src.bytes
      case false => exact ⟨_, rfl, .badSize _ h rfl hc (.inr rfl)⟩
      simp only [Bool.not_true, Bool.false_eq_true, if_false, askAlloc_eq]
      by_cases ha : s.allocAnswers.head? = some false
      · rw [if_pos (by simp [dropOut, ha])]
        obtain ⟨rest, hr⟩ := refusal_of_head? ha
        refine ⟨_, rfl, ?_⟩
        have := PpEnd.noSpace (verify := false) rest h rfl hc hr
        simpa [dropOut, hr] using this
      · rw [if_neg (by simp [dropOut, ha])]
        have hp : PpPost s.params (ppFirstRun s) id (fun r' => r'.pp.left = 0)
            (ppDecode s.params s.src.bytes (ppFirstRun s)) := ppDecode_post (ppInit_inv s.src.bytes (ppLoadLen s.src.bytes s.ppu))
        show ∃ t, ppFinish (be24At s.src.bytes (s.src.bytes.length - 4)).toNat _
          (ppDecode s.params s.src.bytes (ppFirstRun s)) = _ ∧ _
        cases hx : ppDecode s.params s.src.bytes (ppFirstRun s) with
        | ok r =>
          rw [hx] at hp
          exact ⟨_, rfl, .unpacked r h rfl hc ha hp.1 (ppFirstRun_widths hp.1 hp.2.1) hp.2.1.dstLen hx⟩
        | error e =>
          rw [hx] at hp
          cases e with
          | fail r => exact ⟨_, rfl, .failed r h rfl hc ha hp.1 (ppFirstRun_widths hp.1 hp.2.1) hp.2.2 hx⟩
          | fault f => exact hp.elim

end Sys2Proof.Machine
end

