-- ==== Sys2Proof/Laws/Exec.lean ====
section
/-! SUPPORT. Laws/Exec.lean: every way each command can end, said once each, what a read of the BR unit leaves
whatever its state, and how a predicate that every command and every host action keeps is kept by a step
(40_bitreader.md R82; 41_it_decompress.md R84, R85). -/
namespace Sys2Proof.Machine

/-! ## The BR unit -/

theorem nextByte_bytes {B : Nat} {rd rd' : Reader} {src src' : ByteSource} {b : Byte}
    (h : nextByte B rd src = some (b, rd', src')) : src'.bytes = src.bytes := by
  unfold nextByte at h
  split at h
  · cases hr : refill B rd src with
    | none => rw [hr] at h; cases h
    | some x =>
      rw [hr] at h
      cases h
      unfold refill at hr
      split at hr
      · cases hr
      · rename_i heq
        cases hr
        exact (congrArg (fun x => x.2.bytes) heq).symm.trans rfl
  · cases h; rfl

theorem fillBits_bytes (B n : Nat) : ∀ (k : Nat) (rd : Reader) (src : ByteSource),
    (fillBits B n k rd src).2.2.bytes = src.bytes
  | 0, _, _ => rfl
  | k + 1, rd, src => by
    unfold fillBits
    split
    · rfl
    · cases h : nextByte B rd src with
      | none => rfl
      | some x => exact (fillBits_bytes B n k _ _).trans (nextByte_bytes h)

/-- A read leaves the source's bytes, whatever the instance holds (R29). -/
theorem readBits_bytes (B n : Nat) (rd : Reader) (src : ByteSource) : (readBits B n rd src).2.2.bytes = src.bytes := by
  have h := fillBits_bytes B n n rd src
  unfold readBits
  rcases h1 : fillBits B n n rd src with ⟨_ | _, a, b⟩ <;> (rw [h1] at h; exact h)

theorem brSource_eq_none (s : State) : s.brSource = none ↔ s.brBound = false := by
  unfold State.brSource State.brBound
  cases s.brSrc <;> simp

/-- Every way `BR.READBITS` can end. -/
inductive ReadbitsEnd (s : State) (n : BitVec 6) : State → Prop
  | refused : s.brBound = false ∨ 32 < n.toNat → ReadbitsEnd s n (refuse s)
  | read (v : Nat) (rd : Reader) (src src' : ByteSource) : s.brSource = some src → n.toNat ≤ 32 →
      readBits s.params.bufBytes n.toNat s.br src = (some v, rd, src') →
      ReadbitsEnd s n (complete (BitVec.ofNat 32 v) (s.setBr rd src'))
  | short (rd : Reader) (src src' : ByteSource) : s.brSource = some src → n.toNat ≤ 32 →
      readBits s.params.bufBytes n.toNat s.br src = (none, rd, src') → ReadbitsEnd s n (endOfData (s.setBr rd src'))

theorem execBrReadbits_end (s : State) (n : BitVec 6) : ∃ t, execBrReadbits n s = .next t ∧ ReadbitsEnd s n t := by
  unfold execBrReadbits
  cases hb : s.brSource with
  | none => exact ⟨_, rfl, .refused (.inl ((brSource_eq_none s).1 hb))⟩
  | some src =>
    simp only
    split
    · exact ⟨_, rfl, .refused (.inr ‹_›)⟩
    · rename_i hn
      rcases h : readBits s.params.bufBytes n.toNat s.br src with ⟨_ | v, rd, src'⟩
      · exact ⟨_, rfl, .short rd src src' hb (by omega) h⟩
      · exact ⟨_, rfl, .read v rd src src' hb (by omega) h⟩

/-- Every way `BR.GETPOS` can end. -/
inductive GetposEnd (s : State) : State → Prop
  | refused : s.brBound = false → GetposEnd s (refuse s)
  | position (src : ByteSource) : s.brSource = some src →
      GetposEnd s (complete (BitVec.ofInt 32 (getPosition s.br src)) s)

theorem execBrGetpos_end (s : State) : ∃ t, execBrGetpos s = .next t ∧ GetposEnd s t := by
  unfold execBrGetpos
  cases hb : s.brSource with
  | none => exact ⟨_, rfl, .refused ((brSource_eq_none s).1 hb)⟩
  | some src => exact ⟨_, rfl, .position src hb⟩

/-! ## The IT decompressor -/

/-- Every way `IT.DECODE` can end: refused, done, or stopped at an element the host did not attach. -/
inductive ItEnd (is215 is16 : Bool) (s : State) : Host.Outcome State Fault Refusal → Prop
  | refused : s.itChannels = 0 → ItEnd is215 is16 s (.next (refuse s))
  | decoded (r : ItRun) : s.itChannels ≠ 0 →
      itChannels s.params s.itChannels.toNat 0 (itStart is215 is16 s) = .ok r → ItKeeps (itStart is215 is16 s) r →
      r = itStart is215 is16 s ∨ ItInChannel (max 0x8000 s.itd.curLen) (max 65536 s.itd.width) r →
      ItEnd is215 is16 s (.next (itFinish r s))
  | outside : s.itChannels ≠ 0 → s.smp.len < s.itChannels.toNat * s.itLength.toNat →
      itChannels s.params s.itChannels.toNat 0 (itStart is215 is16 s) = .error .smpOutOfRange →
      ItEnd is215 is16 s (.fault .smpOutOfRange)

theorem execItDecode_end (is215 is16 : Bool) (s : State) : ItEnd is215 is16 s (execItDecode is215 is16 s) := by
  unfold execItDecode
  split
  · exact .refused ‹_›
  · have h := itChannels_post (p := s.params) (K := max 0x8000 s.itd.curLen) (N := max 65536 s.itd.width)
      (Nat.le_max_left _ _) (Nat.le_max_left _ _) s.itChannels.toNat 0 (itStart is215 is16 s) (by simp [itStart])
      (Nat.le_max_right _ _) (Nat.le_max_right _ _)
    cases hx : itChannels s.params s.itChannels.toNat 0 (itStart is215 is16 s) with
    | ok r => rw [hx] at h; exact .decoded r ‹_› hx h.1 h.2
    | error f => rw [hx] at h; obtain ⟨rfl, h2⟩ := h; exact .outside ‹_› h2 hx

/-! ## Every command, every step -/

/-- Every way a command can reach a next state. -/
inductive ExecEnd : Instr → State → State → Prop
  | brBind (s : State) : ExecEnd .brBind s (complete 0 { s with
      brSrc := .presented
      br := { s.br with acc := 0, nbits := 0, bufSize := 0, bufPos := 0 } })
  | brReadbits (n : BitVec 6) (s t : State) : ReadbitsEnd s n t → ExecEnd (.brReadbits n) s t
  | brGetpos (s t : State) : GetposEnd s t → ExecEnd .brGetpos s t
  | itDecode (is215 is16 : Bool) (s t : State) : ItEnd is215 is16 s (.next t) → ExecEnd (.itDecode is215 is16) s t
  | mmcmpProbe (s : State) : ExecEnd .mmcmpProbe s (complete (mmProbeVerdict s.params s.src.bytes) s)
  | mmcmpUnpack (verify : Bool) (s t : State) : MmEnd s verify t → ExecEnd (.mmcmpUnpack verify) s t
  | pp20Probe (s : State) : ExecEnd .pp20Probe s (complete (ppProbeVerdict s.src.bytes) s)
  | pp20Unpack (verify : Bool) (s t : State) : PpEnd s verify t → ExecEnd (.pp20Unpack verify) s t

theorem exec_end {i : Instr} {s t : State} (h : exec i s = .next t) : ExecEnd i s t := by
  have same : ∀ {x : Host.Outcome State Fault Refusal} {P : State → Prop}, x = .next t →
      (∃ t', x = .next t' ∧ P t') → P t := fun hx ⟨_, e, hp⟩ => by rw [hx] at e; cases e; exact hp
  cases i with
  | brBind => cases h; exact .brBind s
  | brReadbits n => exact .brReadbits _ _ _ (same h (execBrReadbits_end s n))
  | brGetpos => exact .brGetpos _ _ (same h (execBrGetpos_end s))
  | itDecode is215 is16 =>
    have he := execItDecode_end is215 is16 s
    rw [show execItDecode is215 is16 s = .next t from h] at he
    exact .itDecode _ _ _ _ he
  | mmcmpProbe => cases h; exact .mmcmpProbe s
  | mmcmpUnpack verify => exact .mmcmpUnpack _ _ _ (same h (execMmcmpUnpack_end s verify))
  | pp20Probe => cases h; exact .pp20Probe s
  | pp20Unpack verify => exact .pp20Unpack _ _ _ (same h (execPp20Unpack_end s verify))

/-- What every command and every host action keeps, every step keeps. -/
theorem step_keeps {I : State → Prop} (script : ∀ s l, I s → I { s with script := l })
    (cmd : ∀ s w, I s → I { s with cmd := w }) (command : ∀ i s t, I s → exec i s = .next t → I t)
    (reserved : ∀ s, I s → I (refuse s)) (write : ∀ o v s, I s → I (writeReg o v s)) (read : ∀ o s, I s → I (hostRead o s))
    (present : ∀ l s t, I s → hostPresent l s = .next t → I t)
    (seek : ∀ p s, I s → I (hostAnswer (srcSeek s.src p) s)) (skipBack : ∀ n s, I s → I (hostAnswer (srcSkipBack s.src n) s))
    (attach : ∀ l s, I s → I (hostAttach l s)) (reset : ∀ s, I s → I (hostReset s)) {s t : State} (hi : I s)
    (h : step s = .next t) : I t := by
  unfold step at h
  split at h
  · cases h; exact hi
  · rename_i a rest _
    have hi' := script s rest hi
    generalize ({ s with script := rest } : State) = s0 at hi' h
    cases a with
    | write o v =>
      simp only [hostAct, hostWrite] at h
      split at h
      · unfold runCommand at h
        split at h
        · exact command _ _ _ (cmd _ _ hi') h
        · cases h; exact reserved _ (cmd _ _ hi')
      · cases h; exact write _ _ _ hi'
    | read o => cases h; exact read _ _ hi'
    | present l => exact present _ _ _ hi' h
    | seek p => cases h; exact seek _ _ hi'
    | skipBack n => cases h; exact skipBack _ _ hi'
    | attach l => cases h; exact attach _ _ hi'
    | reset => cases h; exact reset _ hi'

end Sys2Proof.Machine
end

