-- ==== Sys2Proof/Laws/Loops.lean ====
section
/-! SUPPORT. Laws/Loops.lean: how the end of a loop follows from its next turn. -/
namespace Sys2Proof.Machine

variable {σ ε : Type} {step : σ → Except ε (LoopControl × σ)} {r r' : σ}

/-- A turn that ends the loop. -/
theorem LoopEnds.ended (h : step r = .ok (.endBlock, r')) : LoopEnds step r (.ok r') := ⟨r, .start, .inl ⟨r', h, rfl⟩⟩

/-- A turn that stops. -/
theorem LoopEnds.stopped {e : ε} (h : step r = .error e) : LoopEnds step r (.error e) := ⟨r, .start, .inr ⟨e, h, rfl⟩⟩

/-- A turn that lets the loop go on. -/
theorem LoopEnds.again {answer : Except ε σ} (h : step r = .ok (.again, r')) (hr : LoopEnds step r' answer) :
    LoopEnds step r answer := by
  obtain ⟨r1, hreach, hend⟩ := hr
  refine ⟨r1, ?_, hend⟩
  clear hend
  induction hreach with
  | start => exact .again .start h
  | again _ hs ih => exact .again ih hs

end Sys2Proof.Machine
end

