-- ==== Sys2Proof/Laws/PerInstr.lean ====
section
/-! SUPPORT. Laws/PerInstr.lean: a statement about every command as syntax, one lemma per constructor: the encoded
word has the fixed bits of its row of the command table (30_encoding.md R50). -/
namespace Sys2Proof.Laws.EncodedFixedBits

/-- The row's `mask` (R50). -/
def rowMask : Instr → Word
  | .brBind => 0xFFFFFFFF#32
  | .brReadbits _ => 0xFFFFFFC0#32
  | .brGetpos => 0xFFFFFFFF#32
  | .itDecode _ _ => 0xFFFFFFFC#32
  | .mmcmpProbe => 0xFFFFFFFF#32
  | .mmcmpUnpack _ => 0xFFFFFFFE#32
  | .pp20Probe => 0xFFFFFFFF#32
  | .pp20Unpack _ => 0xFFFFFFFE#32

/-- The row's `match` (R50). -/
def rowMatch : Instr → Word
  | .brBind => 0x00000000#32
  | .brReadbits _ => 0x01000000#32
  | .brGetpos => 0x02000000#32
  | .itDecode _ _ => 0x10000000#32
  | .mmcmpProbe => 0x20000000#32
  | .mmcmpUnpack _ => 0x21000000#32
  | .pp20Probe => 0x30000000#32
  | .pp20Unpack _ => 0x31000000#32

/-- `encode i AND mask = match`. -/
def Statement (i : Instr) : Prop := encode i &&& rowMask i = rowMatch i

theorem brBind : Statement .brBind := by unfold Statement; decide

theorem brReadbits (n : BitVec 6) : Statement (.brReadbits n) := by
  have h : ∀ n : BitVec 6, encode (.brReadbits n) &&& 0xFFFFFFC0#32 = 0x01000000#32 := by decide
  exact h n

theorem brGetpos : Statement .brGetpos := by unfold Statement; decide

theorem itDecode (is215 is16 : Bool) : Statement (.itDecode is215 is16) := by
  revert is215 is16; unfold Statement; decide

theorem mmcmpProbe : Statement .mmcmpProbe := by unfold Statement; decide

theorem mmcmpUnpack (verify : Bool) : Statement (.mmcmpUnpack verify) := by
  revert verify; unfold Statement; decide

theorem pp20Probe : Statement .pp20Probe := by unfold Statement; decide

theorem pp20Unpack (verify : Bool) : Statement (.pp20Unpack verify) := by
  revert verify; unfold Statement; decide

end Sys2Proof.Laws.EncodedFixedBits
end

