-- ==== Sys2Proof/Tests/Slice0.lean ====
section
/-! SUPPORT. Tests/Slice0.lean: small tests whose expected results are the vectors of 95_test_vectors.md or words
written out from 30_encoding.md R50, and for each statement with hypotheses a named state and operands that meet
them. -/
namespace Sys2Proof.Tests

open Sys2Proof Sys2Proof.Machine

/-! ## Helpers -/

/-- The defaults of the vectors, with an odd source length allowed. -/
def params : Params := { Config.defaults with pp20RequireEven := false }

/-- A block with this source presented and bound, two channels of two samples, four elements attached. -/
def onBytes (bytes : List Byte) : State :=
  { State.reset with
    params := params
    src := ⟨bytes, 0⟩
    brSrc := .presented
    itChannels := 2
    itLength := 2
    smp := ⟨4, []⟩ }

/-- The same with one channel of `n` samples. -/
def mono (n : Nat) (bytes : List Byte) : State :=
  { onBytes bytes with itChannels := 1, itLength := BitVec.ofNat 32 n, smp := ⟨n, []⟩ }

/-- What `f` sees of a next state. -/
def seen {α : Type} (o : Host.Outcome State Fault Refusal) (f : State → α) : Option α :=
  match o with
  | .next t => some (f t)
  | .fault _ => none
  | .refused _ => none

/-- The elements of `SMP`, as numbers. -/
def samples (s : State) : List Nat := (List.range s.smp.len).map fun i => (smpRead s.smp i).toNat

/-- The bytes of `OUT`, as numbers. -/
def output (s : State) : List Nat :=
  match s.out with
  | none => []
  | some o => (List.range o.size).map fun a => (outRead o a).toNat

/-- The 165 bytes of vector MM1 (95_test_vectors.md 2.3). -/
def mm1 : List Byte :=
  [0x7A, 0x69, 0x52, 0x43, 0x4F, 0x4E, 0x69, 0x61, 0x0E, 0x00, 0x10, 0x13, 0x04, 0x00, 0x0E, 0x00] ++
  [0x00, 0x00, 0x18, 0x00, 0x00, 0x00, 0x00, 0x00, 0x28, 0x00, 0x00, 0x00, 0x48, 0x00, 0x00, 0x00] ++
  [0x6B, 0x00, 0x00, 0x00, 0x88, 0x00, 0x00, 0x00, 0x04, 0x00, 0x00, 0x00, 0x04, 0x00, 0x00, 0x00] ++
  [0x00, 0x00, 0x00, 0x00, 0x01, 0x00, 0x00, 0x00, 0x00, 0x00, 0x00, 0x00, 0x00, 0x00, 0x00, 0x00] ++
  [0x04, 0x00, 0x00, 0x00, 0x41, 0x42, 0x43, 0x44, 0x04, 0x00, 0x00, 0x00, 0x07, 0x00, 0x00, 0x00] ++
  [0x00, 0x00, 0x00, 0x00, 0x01, 0x00, 0x01, 0x00, 0x04, 0x00, 0x01, 0x00, 0x04, 0x00, 0x00, 0x00] ++
  [0x04, 0x00, 0x00, 0x00, 0x10, 0x20, 0x30, 0x40, 0xF4, 0x64, 0x00, 0x04, 0x00, 0x00, 0x00, 0x01] ++
  [0x00, 0x00, 0x00, 0x00, 0x00, 0x00, 0x00, 0x01, 0x00, 0x07, 0x00, 0x00, 0x00, 0x03, 0x00, 0x08] ++
  [0x00, 0x00, 0x00, 0x04, 0x00, 0x00, 0x00, 0x3A, 0x02, 0x00, 0x00, 0x00, 0x01, 0x00, 0x00, 0x00] ++
  [0x00, 0x00, 0x00, 0x00, 0x01, 0x00, 0x05, 0x00, 0x00, 0x00, 0x03, 0x00, 0x0C, 0x00, 0x00, 0x00] ++
  [0x02, 0x00, 0x00, 0x00, 0x02]

/-- A file of one raw block of one byte at 28, the whole output. -/
def raw1 : List Byte :=
  [0x7A, 0x69, 0x52, 0x43, 0x4F, 0x4E, 0x69, 0x61, 0x0E, 0x00, 0x10, 0x13, 0x01, 0x00, 0x01, 0x00] ++
  [0x00, 0x00, 0x18, 0x00, 0x00, 0x00, 0x00, 0x00, 0x1C, 0x00, 0x00, 0x00, 0x01, 0x00, 0x00, 0x00] ++
  [0x01, 0x00, 0x00, 0x00, 0x00, 0x00, 0x00, 0x00, 0x01, 0x00, 0x00, 0x00, 0x00, 0x00, 0x00, 0x00] ++
  [0x00, 0x00, 0x00, 0x00, 0x01, 0x00, 0x00, 0x00, 0x5A]

/-- The 18 bytes of vector PP1 (95_test_vectors.md 2.4). -/
def pp1 : List Byte :=
  [0x50, 0x50, 0x32, 0x30, 0x09, 0x0A, 0x0B, 0x0B, 0x80, 0x18, 0x01, 0x04, 0x85, 0x00, 0x00, 0x00, 0x06, 0x06]

/-- The 18 bytes of vector PP2. -/
def pp2 : List Byte :=
  [0x50, 0x50, 0x32, 0x30, 0x09, 0x0A, 0x0B, 0x0B, 0x00, 0x00, 0x1B, 0xC0, 0x35, 0xA0, 0x00, 0x00, 0x14, 0x01]

/-- The 14 bytes of vector PP3. -/
def pp3 : List Byte := [0x50, 0x50, 0x32, 0x30, 0x09, 0x0A, 0x0B, 0x0B, 0x8A, 0x00, 0x00, 0x00, 0x01, 0x07]

/-- The 12 bytes of vector PP4. -/
def pp4 : List Byte := [0x50, 0x50, 0x32, 0x30, 0x09, 0x0A, 0x0B, 0x0B, 0x00, 0x00, 0x10, 0x00]

/-! ## Syntax and decoding (R50 to R53, vectors 2.5) -/

theorem test_wellFormed_bit_count : (Instr.brReadbits 32).wellFormed = true ∧ (Instr.brReadbits 33).wellFormed = false := by
  decide

/-- Words put together from R50: `UNIT`, `OP` and `ARG` of each row. -/
theorem test_decode_words :
    decode 0b00000000000000000000000000000000#32 = .ok .brBind ∧
    decode 0b00000001000000000000000000100000#32 = .ok (.brReadbits 32) ∧
    decode 0b00000010000000000000000000000000#32 = .ok .brGetpos ∧
    decode 0b00010000000000000000000000000010#32 = .ok (.itDecode false true) ∧
    decode 0b00010000000000000000000000000001#32 = .ok (.itDecode true false) ∧
    decode 0b00100000000000000000000000000000#32 = .ok .mmcmpProbe ∧
    decode 0b00100001000000000000000000000000#32 = .ok (.mmcmpUnpack false) ∧
    decode 0b00110000000000000000000000000000#32 = .ok .pp20Probe ∧
    decode 0b00110001000000000000000000000001#32 = .ok (.pp20Unpack true) := by decide

/-- The reserved words of vectors 2.5, each for its reason. -/
theorem test_decode_reserved :
    decode 0x00000001 = .error (.reservedArg 1) ∧ decode 0x10000004 = .error (.reservedArg 4) ∧
    decode 0x22000000 = .error (.unassignedOp 2 2) ∧ decode 0x40000000 = .error (.unassignedUnit 4) ∧
    decode 0xF0000000 = .error (.unassignedUnit 15) ∧ decode 0x21000002 = .error (.reservedArg 2) := by decide

/-! ## The BR unit (vectors BR1, BR3, BR4, BR5) -/

theorem test_bind_result : seen (exec .brBind { onBytes [0xB5] with result := 7, code := .eod })
    (fun t => (t.result, statusWord t)) = some (0, 0x20) := by decide

theorem test_readbits_low_bits_first : seen (exec (.brReadbits 3) (onBytes [0xB5, 0x6C]))
    (fun t => (t.result, t.br.acc, t.br.nbits, t.src.pos)) = some (0x5, 0x16, 5, 1) := by decide

theorem test_readbits_eod_keeps_bits : seen (exec (.brReadbits 12) (onBytes [0xAB]))
    (fun t => (t.code, t.br.acc, t.br.nbits, t.src.pos)) = some (.eod, 0xAB, 8, 1) := by decide

/-- Vector BR4 with `BUF_BYTES = 4`: the position is 2 although the cursor is 4. -/
theorem test_getpos_behind_the_cursor :
    seen (exec .brGetpos { onBytes [1, 2, 3, 4, 5] with
      src := ⟨[1, 2, 3, 4, 5], 4⟩
      br := ⟨0, 7, [1, 2, 3, 4], 4, 2⟩ }) (fun t => (t.result, t.src.pos)) = some (2, 4) := by decide

theorem test_getpos_refused : seen (exec .brGetpos State.reset) (fun t => (t.code, t.result)) = some (.refused, 0) := by
  decide

/-! ## The IT decompressor (vectors IT2, IT8 under IT2.15) -/

/-- Vector IT2: every mode of the 8-bit width machine. -/
theorem test_it_every_mode :
    seen (exec (.itDecode false false) (mono 6 [0x07, 0x00, 0x02, 0x53, 0xB1, 0xC4, 0xDD, 0x10, 0x10])) samples =
      some [0x01, 0xFE, 0x00, 0xC4, 0xFF, 0x7F] := by decide +kernel

/-- Program P2, line 7: two channels of IT2.15. -/
theorem test_it_stereo_second_integrator :
    seen (exec (.itDecode true false) (onBytes [0x03, 0x00, 0x01, 0x02, 0x00, 0x03, 0x00, 0xFF, 0xFE, 0x01]))
      (fun t => (samples t, t.src.pos)) = some ([0x01, 0xFF, 0x03, 0xFD], 10) := by decide +kernel

/-! ## The container units (vectors MM1, MM2, PP1, PP4, S2) -/

theorem test_mmcmp_probe : seen (exec .mmcmpProbe (onBytes mm1)) (·.result) = some 0 ∧
    seen (exec .mmcmpProbe (onBytes (mm1.take 23))) (·.result) = some 1 := by decide +kernel

theorem test_mmcmp_unpack : seen (exec (.mmcmpUnpack false) (onBytes mm1)) (fun t => (t.result, output t)) =
    some (1, [0x41, 0x42, 0x43, 0x44, 0x10, 0x20, 0x30, 0x40, 0x05, 0x00, 0x03, 0x00, 0x01, 0x80]) := by decide +kernel

/-- Vector MM2, `pk_size = 5`: an end of data ends block 1 alone. -/
theorem test_mmcmp_unpack_short_block :
    seen (exec (.mmcmpUnpack false) (onBytes (mm1.set 0x4C 5))) (fun t => (t.code, output t)) =
    some (.ok, [0x41, 0x42, 0x43, 0x44, 0x10, 0x20, 0x00, 0x00, 0x05, 0x00, 0x03, 0x00, 0x01, 0x80]) := by decide +kernel

theorem test_pp20_probe : seen (exec .pp20Probe (onBytes pp1)) (·.result) = some 0 ∧
    seen (exec .pp20Probe (onBytes [0x50, 0x50, 0x32, 0x30, 0x10, 0x10, 0x10, 0x10])) (·.result) = some 2 := by decide +kernel

theorem test_pp20_unpack : seen (exec (.pp20Unpack false) (onBytes pp1)) (fun t => (t.result, output t)) =
    some (1, [0x41, 0x42, 0x41, 0x42, 0x41, 0x42]) := by decide +kernel

/-- Vector PP4, `RepeatLowest`. -/
theorem test_pp20_unpack_underrun :
    seen (exec (.pp20Unpack false) { onBytes pp4 with params := { params with pp20Underrun := .repeatLowest } }) output =
    some [0x42, 0x42, 0x42, 0, 0, 0, 0, 0, 0x48, 0, 0, 0xA1, 0, 0, 0, 0] := by decide +kernel

/-! ## Witnesses: the command word and the host -/

theorem test_applies_EncodeOfDecode : decode 0x01000020 = .ok (.brReadbits 32) := by decide

/-- A step that writes a word that is no command, and one whose bit count is too large. -/
theorem test_applies_ReservedWordsAreRefused :
    ({ onBytes [] with script := [.write 0 0x22000000] } : State).script = .write 0 0x22000000 :: [] ∧
      (∀ i, decode 0x22000000 = .ok i → i.wellFormed = false) ∧
      ∀ i, decode 0x01000021 = .ok i → i.wellFormed = false := by
  refine ⟨rfl, ?_, ?_⟩
  · intro i h
    rw [show decode 0x22000000 = .error (.unassignedOp 2 2) by decide] at h
    cases h
  · intro i h
    rw [show decode 0x01000021 = .ok (.brReadbits 33) by decide] at h
    cases h
    decide

theorem test_applies_StepRunsTheWrittenCommand :
    ({ onBytes [] with script := [.write 0 0x02000000, .reset] } : State).script = .write 0 0x02000000 :: [.reset] ∧
      decode 0x02000000 = .ok .brGetpos := by decide

theorem test_applies_IdleStepChangesNothing : (onBytes []).script = [] := rfl

/-- A write of `IT_CHANNELS` (the boundary of its 8 bits, vector IT12) and its read back. -/
theorem test_applies_HostRegisterAccess :
    seen (step { onBytes [] with script := [.write 0x0C 0x1FF, .read 0x0C] }) (fun t => (t.itChannels, t.script)) =
      some (0xFF, [.read 0x0C]) ∧
    seen (step { onBytes [] with itChannels := 0xFF, script := [.read 0x0C] }) (·.hostData) = some 0xFF := by decide

theorem test_applies_ResetSetsEveryRegister :
    seen (step { onBytes [1] with allocAnswers := [false], hostData := 5, script := [.reset, .seek 1] })
      (fun t => (t.itChannels, t.allocAnswers, t.hostData, t.script)) = some (1, [false], 5, [.seek 1]) := by decide

/-- The BR unit keeps the old source, at its cursor. -/
theorem test_applies_PresentDoesNotRebind :
    seen (step { onBytes [1, 2] with src := ⟨[1, 2], 1⟩, script := [.present [3]] })
      (fun t => (t.brSource, t.src)) = some (some ⟨[1, 2], 1⟩, ⟨[3], 0⟩) := by decide

/-- Each answer of each operation, at the boundary. -/
theorem test_applies_SeekAndSkipBack :
    seen (step { onBytes [1, 2] with script := [.seek 2] }) (fun t => (t.src.pos, t.hostData)) = some (2, 1) ∧
    seen (step { onBytes [1, 2] with script := [.seek 3] }) (fun t => (t.src.pos, t.hostData)) = some (0, 0) ∧
    seen (step { onBytes [1, 2] with src := ⟨[1, 2], 1⟩, script := [.skipBack 1] }) (fun t => (t.src.pos, t.hostData)) =
      some (0, 1) ∧
    seen (step { onBytes [1, 2] with src := ⟨[1, 2], 1⟩, script := [.skipBack 2] }) (fun t => (t.src.pos, t.hostData)) =
      some (1, 0) := by decide

theorem test_applies_AttachedElementsAreRead :
    seen (step { onBytes [] with script := [.attach [0, 7, 0]] }) (fun t => (t.smp.len, t.smp.cells)) = some (3, [(1, 7)]) := by
  decide

/-- A read that ends at the end, one past it, and one at it. -/
theorem test_applies_SourceReadsAndChunks :
    srcRead ⟨[1, 2, 3], 1⟩ 2 = ([2, 3], ⟨[1, 2, 3], 3⟩) ∧ srcRead ⟨[1, 2, 3], 1⟩ 3 = ([2, 3], ⟨[1, 2, 3], 3⟩) ∧
      srcRead ⟨[1, 2, 3], 3⟩ 1 = ([], ⟨[1, 2, 3], 3⟩) ∧ srcChunk ⟨[1, 2, 3], 1⟩ 1 = (⟨[2], 0⟩, ⟨[1, 2, 3], 2⟩) := by decide

/-! ## Witnesses: the BR unit -/

theorem onBytes_readerSound (bytes : List Byte) (h : bytes.length < 2 ^ 32) : (onBytes bytes).ReaderSound :=
  ⟨Reader.empty_sound 1, ⟨Nat.zero_le _, h⟩, fun _ hs => by cases hs; exact ⟨Nat.zero_le _, h⟩⟩

theorem onBytes_bits (bytes : List Byte) : (streamBits (onBytes bytes).br ⟨bytes, 0⟩).length = 8 * bytes.length := by
  show (streamBits (Reader.empty 1) ⟨bytes, 0⟩).length = _
  rw [streamBits_empty, bitsOfBytes_length]
  rfl

/-- The widest read, of a stream that holds exactly its bits. -/
theorem test_applies_ReadbitsReturnsTheNextBits :
    (onBytes [1, 2, 3, 4]).ReaderSound ∧ (onBytes [1, 2, 3, 4]).brSource = some ⟨[1, 2, 3, 4], 0⟩ ∧
      (32 : BitVec 6).toNat ≤ 32 ∧ (32 : BitVec 6).toNat ≤ (streamBits (onBytes [1, 2, 3, 4]).br ⟨[1, 2, 3, 4], 0⟩).length :=
  ⟨onBytes_readerSound _ (by decide), rfl, by decide, by rw [onBytes_bits]; decide⟩

/-- Vector BR1 after its first read. -/
def br1 : State := { onBytes [0xB5, 0x6C, 0xFF, 0x01] with src := ⟨[0xB5, 0x6C, 0xFF, 0x01], 1⟩, br := ⟨0x16, 5, [0xB5], 1, 1⟩ }

/-- Its second read, of just the bits held; and one of a bit more, which takes one byte. -/
theorem test_applies_ReadbitsReturnsTheNextBits_held :
    br1.ReaderSound ∧ br1.brSource = some ⟨[0xB5, 0x6C, 0xFF, 0x01], 1⟩ ∧ (5 : BitVec 6).toNat ≤ br1.br.nbits ∧
      5 ≤ (streamBits br1.br ⟨[0xB5, 0x6C, 0xFF, 0x01], 1⟩).length ∧
      seen (exec (.brReadbits 5) br1) (fun t => (t.result, t.br.acc, t.br.nbits, t.src.pos)) = some (0x16, 0, 0, 1) ∧
      seen (exec (.brReadbits 6) br1) (fun t => (t.br.nbits, t.src.pos)) = some (7, 2) :=
  ⟨⟨⟨by decide, by decide, by decide, by decide, by decide, .inr (by decide)⟩, ⟨by decide, by decide⟩,
    fun _ hs => by cases hs; exact ⟨by decide, by decide⟩⟩, rfl, by decide, by decide, by decide, by decide⟩

/-- A read of one bit more than there are. -/
theorem test_applies_ReadbitsAtEndOfData :
    (onBytes [1]).ReaderSound ∧ (onBytes [1]).brSource = some ⟨[1], 0⟩ ∧ (9 : BitVec 6).toNat ≤ 32 ∧
      (streamBits (onBytes [1]).br ⟨[1], 0⟩).length < (9 : BitVec 6).toNat :=
  ⟨onBytes_readerSound _ (by decide), rfl, by decide, by rw [onBytes_bits]; decide⟩

theorem test_applies_ReadbitsAndGetposRefused :
    State.reset.brSource = none ∧ 32 < (33 : BitVec 6).toNat ∧ (onBytes []).brSource ≠ none := by decide

/-- `GETPOS` at the start, with nothing staged. -/
theorem test_applies_GetposIsTheFirstByteNotRead :
    (onBytes [1]).ReaderSound ∧ (onBytes [1]).brSource = some ⟨[1], 0⟩ ∧ (onBytes [1]).br.bufSize ≤ 0 + (onBytes [1]).br.bufPos :=
  ⟨onBytes_readerSound _ (by decide), rfl, by decide⟩

/-- The host has moved the cursor back to a byte below the staged ones: position -1. -/
theorem test_applies_GetposIsThePositionModulo :
    ({ onBytes [1, 2] with br := ⟨0, 0, [1, 2], 2, 1⟩ } : State).brSource = some ⟨[1, 2], 0⟩ ∧
      seen (exec .brGetpos { onBytes [1, 2] with br := ⟨0, 0, [1, 2], 2, 1⟩ }) (·.result) = some 0xFFFFFFFF := by decide

theorem test_applies_CursorRunsAheadByTheStagedBytes :
    (onBytes [1]).ReaderSound ∧ seen (exec (.brReadbits 1) (onBytes [1])) (·.code) = some .ok :=
  ⟨onBytes_readerSound _ (by decide), by decide⟩

/-- Vector BR4: nine bits from eight bytes, one byte and four bytes at once. -/
theorem test_applies_CursorRunsAheadByTheStagedBytes_fetch :
    ([1, 4].map fun b => seen (exec (.brReadbits 9) { onBytes [1, 2, 3, 4, 5, 6, 7, 8] with
        params := { params with bufBytesPred := b - 1 }, br := Reader.empty b })
      fun t => (t.result, t.src.pos, getPosition t.br t.src)) = [some (1, 2, 2), some (1, 4, 2)] := by decide

/-- Four bytes from five, three at once: the second fetch takes the last two; and a byte that is staged. -/
theorem test_applies_CursorRunsAheadByTheStagedBytes_twice :
    (readBits 3 32 (Reader.empty 3) ⟨[1, 2, 3, 4, 5], 0⟩).2.2 = ⟨[1, 2, 3, 4, 5], 5⟩ ∧
      (readBits 3 32 (Reader.empty 3) ⟨[1, 2, 3, 4, 5], 0⟩).2.1.bufSize = 2 ∧
      (readBits 3 32 (Reader.empty 3) ⟨[1, 2, 3, 4, 5], 0⟩).2.1.bufPos = 1 ∧
      (readBits 3 8 ⟨0, 0, [1, 2, 3], 3, 2⟩ ⟨[1, 2, 3, 4, 5], 3⟩).2 = (⟨0, 0, [1, 2, 3], 3, 3⟩, ⟨[1, 2, 3, 4, 5], 3⟩) := by
  decide

theorem test_applies_StagingSizeIsInvisibleToReads :
    (Reader.empty 1).Sound 1 ∧ (Reader.empty 4).Sound 4 ∧
      streamBits (Reader.empty 1) ⟨[1, 2], 0⟩ = streamBits (Reader.empty 4) ⟨[1, 2], 0⟩ ∧
      (Reader.empty 1).nbits = (Reader.empty 4).nbits :=
  ⟨Reader.empty_sound 1, Reader.empty_sound 4, by decide, rfl⟩

/-- The last bit there is, and the first there is not. -/
theorem test_applies_EndOfDataExactlyWhenShort :
    (onBytes [1]).ReaderSound ∧ (onBytes [1]).brSource = some ⟨[1], 0⟩ ∧ (9 : BitVec 6).toNat ≤ 32 ∧
      seen (exec (.brReadbits 8) (onBytes [1])) (·.code) = some .ok ∧
      seen (exec (.brReadbits 9) (onBytes [1])) (·.code) = some .eod :=
  ⟨onBytes_readerSound _ (by decide), rfl, by decide, by decide, by decide⟩

/-! ## Witnesses: the IT decompressor -/

/-- `C * L` elements attached, and no more. -/
theorem test_applies_ItDecodeCompletes :
    (onBytes []).itChannels ≠ 0 ∧ (onBytes []).itChannels.toNat * (onBytes []).itLength.toNat ≤ (onBytes []).smp.len := by decide

theorem test_applies_ItDecodeRefusedWithoutChannels :
    ({ onBytes [] with itChannels := 0 } : State).itChannels = 0 ∧
      seen (exec (.itDecode true true) { onBytes [] with itChannels := 0 }) (·.code) = some .refused := by decide

theorem test_applies_ItDecodeFrame : Memory.wf (onBytes []).smp.cells = true ∧
    seen (exec (.itDecode false false) (onBytes [])) (·.code) = some .ok := by decide +kernel

/-- `L = 0`, and a source with one byte left. -/
theorem test_applies_BlockHeaderBoundsTheBlock :
    (({ onBytes mm1 with itLength := 0 } : State).itChannels ≠ 0 ∧ ({ onBytes mm1 with itLength := 0 } : State).itLength = 0) ∧
      (onBytes [1]).itChannels ≠ 0 ∧ (onBytes [1]).src.bytes.length < (onBytes [1]).src.pos + 2 := by decide

/-- The run of a decode of one channel over one block (vector IT1, its first delta). -/
def itRun (bytes : List Byte) : ItRun := itStart false false (mono 1 bytes)

theorem test_applies_ItChannelWritesItsElements :
    Memory.wf (itRun [2, 0, 5, 0]).smp.cells = true ∧
      (match itChannel params 0 (itRun [2, 0, 5, 0]) with
        | .ok r => some (r.smp.cells, r.itd.written)
        | .error _ => none) = some ([(0, 5)], 1) := by decide +kernel

/-- What a block header leaves: whether there was one, its size, and the cursor. -/
def header (bytes : List Byte) : Bool × BitVec 16 × Nat :=
  let x := itBlockHeader params (itRun bytes)
  (x.1, x.2.itd.blkSize, x.2.src.pos)

/-- One byte left; a size of 0 (vector IT7); a whole block (vector IT1); and vector IT6, cut off in its chunk. -/
theorem test_applies_BlockHeaderBoundsTheBlock_headers :
    header [4] = (false, 0, 0) ∧ header [0, 0, 2, 0, 0x10, 0] = (true, 0, 2) ∧
      header [4, 0, 5, 0xFC, 0xED, 3] = (true, 4, 6) ∧ header [5, 0, 1, 4] = (true, 5, 4) ∧
      restBytes (itRun [5, 0, 1, 4]).src = 5 :: 0 :: [1, 4] ∧ 5 = (5 : Byte).toNat + 256 * (0 : Byte).toNat ∧
      seen (exec (.itDecode false false) (mono 4 [5, 0, 1, 4])) samples = some [1, 0, 0, 0] := by decide +kernel

/-- The last element attached. -/
theorem test_applies_SampleWriteStepsTheIntegrators :
    Memory.wf (itRun []).smp.cells = true ∧ (itRun []).itd.writePos < (itRun []).smp.len := by decide

/-- Each clause at its boundary: below the current width, at it, and at both ends of the widths. -/
theorem test_applies_ChangeWidthSkipsTheCurrentWidth :
    changeWidth 3 1 = 2 ∧ changeWidth 3 2 = 4 ∧ changeWidth 9 7 = 8 ∧ changeWidth 1 7 = 9 ∧
      (1 ≤ 9 ∧ 9 ≤ defWidth false ∧ 7 ≤ defWidth false - 2) ∧ (1 ≤ 17 ∧ 17 ≤ defWidth true ∧ 15 ≤ defWidth true - 2) := by decide

theorem test_applies_ModeBIntervalNamesTheOtherWidths :
    (1 ≤ 9 ∧ 9 ≤ defWidth false) ∧ (7 ≤ 7 ∧ 7 < defWidth false) ∧ 7 ≤ 16 ∧ 16 < defWidth true := by decide

/-- A run inside a block, at this width, with these bytes in its chunk. -/
def inBlock (is16 : Bool) (width : Nat) (chunk : List Byte) : ItRun :=
  let r := itRun []
  { r with itd := { r.itd with is16 := is16, width := width, curLen := 1, br := PrivateReader.over params.bufBytes ⟨chunk, 0⟩ } }

/-- A width one above the greatest, and one bit too few for the greatest. -/
theorem test_applies_OverflowAndEndOfDataEndTheBlock :
    defWidth false < (inBlock false 10 [1, 2]).itd.width ∧
      (inBlock false 9 [1]).itd.width ≤ defWidth false ∧ (inBlock false 9 [1]).itd.br.Sound params.bufBytes ∧
      (inBlock false 9 [1]).itd.br.bits.length < (inBlock false 9 [1]).itd.width ∧
      (match itSymbol params (inBlock false 9 [1]) with
        | .ok (c, _) => some c
        | .error _ => none) = some .endBlock :=
  ⟨by decide, by decide, PrivateReader.over_sound _ _, by decide, by decide +kernel⟩

/-- A Mode A marker in the widest width of that mode, one bit short of its index; and Mode C markers to a width above
`defWidth`, to it and to one below. -/
theorem test_applies_OverflowAndEndOfDataEndTheBlock_markers :
    (inBlock false 6 [0x20]).itd.br.Sound params.bufBytes ∧
      (inBlock false 6 [0x20]).itd.br.bits = bitsOfNat 6 (2 ^ 5) ++ [false, false] ∧
      [false, false].length < fetchA false ∧
      (inBlock false 9 [0x09, 0x01]).itd.br.Sound params.bufBytes ∧ 255 < 2 ^ 8 ∧
      (inBlock false 9 [0x09, 0x01]).itd.br.bits = bitsOfNat 9 (2 ^ 8 + 9) ++ List.replicate 7 false ∧
      ([[0x09, 0x01], [0x08, 0x01], [0x00, 0x01]].map fun chunk =>
        match itSymbol params (inBlock false 9 chunk) with
        | .ok (c, r) => some (c, r.itd.width)
        | .error _ => none) = [some (.again, 10), some (.again, 9), some (.again, 1)] :=
  ⟨PrivateReader.over_sound _ _, by decide, by decide, PrivateReader.over_sound _ _, by decide, by decide, by decide +kernel⟩

/-- The block of vector IT6 at its header's end: two bytes of the five that the size field says. -/
theorem test_applies_OverflowAndEndOfDataEndTheBlock_block :
    (itBlockHeader params (itRun [5, 0, 1, 4])).2.itd.br.Sound params.bufBytes ∧
      (itBlockHeader params (itRun [5, 0, 1, 4])).2.itd.br.bits.length = 16 ∧
      (itBlockHeader params (itRun [5, 0, 1, 4])).2.itd.blkSize = 5 :=
  ⟨PrivateReader.over_sound _ [1, 4], by decide, by decide⟩

/-- `SMP` after vector IT5. -/
def it5 (scope : AbortScope) (mem : MemReset) : Option (List Nat) :=
  seen (exec (.itDecode false false) { mono 3 [4, 0, 7, 0xFE, 7, 0, 2, 0, 9, 0] with
    params := { params with itAbortScope := scope, itMemReset := mem } }) samples

/-- Vector IT5: the width overflows in the first of two blocks. -/
theorem test_applies_OverflowAndEndOfDataEndTheBlock_scope :
    it5 .channel .perChannel = some [7, 0, 0] ∧ it5 .block .perChannel = some [7, 0x10, 0] ∧
      it5 .block .perBlock = some [7, 9, 0] := by decide +kernel

/-- Symbols an encoder may emit, in each mode at the ends of its range. -/
theorem test_applies_SymbolsDecodeAsEncoded_symbols :
    symbolOk false 1 (.delta 0) = true ∧ symbolOk false 6 (.delta (-31)) = true ∧ symbolOk false 6 (.delta 31) = true ∧
    symbolOk false 7 (.delta (-60)) = true ∧ symbolOk false 7 (.delta 59) = true ∧ symbolOk false 9 (.delta (-128)) = true ∧
    symbolOk true 16 (.delta 0x7FF7) = true ∧ symbolOk true 17 (.delta (-0x8000)) = true ∧
    symbolOk false 1 (.width 9) = true ∧ symbolOk false 6 (.width 1) = true ∧ symbolOk false 8 (.width 9) = true ∧
    symbolOk true 17 (.width 1) = true := by decide

/-- The first symbol of vector IT2: the Mode C marker to width 3, then the rest of the chunk. -/
theorem test_applies_SymbolsDecodeAsEncoded :
    (inBlock false 9 [0x02, 0x53]).itd.br.Sound params.bufBytes ∧ symbolOk false 9 (.width 3) = true ∧
      (inBlock false 9 [0x02, 0x53]).itd.br.bits =
        symbolBits false 9 (.width 3) ++ [true, false, false, true, false, true, false] :=
  ⟨PrivateReader.over_sound _ _, by decide, by decide⟩

/-- The two channels of vector IT8, as symbols and payloads. -/
def it8 : List (List ItBlock) :=
  [[⟨3, [.delta 1, .delta 1], [0x01, 0x02, 0x00]⟩], [⟨3, [.delta (-1), .delta (-1)], [0xFF, 0xFE, 0x01]⟩]]

/-- Vector IT8 with a byte after it. -/
theorem test_applies_EncodedSampleIsDecoded :
    (∀ c ∈ it8, itBlocksOk false 2 c) ∧ (∀ b ∈ it8.flatten, b.payload.length = b.size) ∧ (onBytes (itStream it8 ++ [0x77])).itChannels.toNat = it8.length ∧
      restBytes (onBytes (itStream it8 ++ [0x77])).src = itStream it8 ++ [0x77] ∧
      it8.length * 2 ≤ (onBytes (itStream it8 ++ [0x77])).smp.len ∧
      itStream it8 = [0x03, 0x00, 0x01, 0x02, 0x00, 0x03, 0x00, 0xFF, 0xFE, 0x01] := by
  refine ⟨fun c hc => ?_, by decide, by decide, by decide, by decide, by decide⟩
  have hpad : ∀ b : ItBlock, bitsOfBytes b.payload = payloadBits false 9 b.symbols ++ List.replicate 6 false →
      payloadOk false 9 b.symbols = true → b.size < 2 ^ 16 → b.payload.length ≤ b.size → b.Ok false :=
    fun b h1 h2 h3 h4 => ⟨h2, h3, h4, _, h1⟩
  simp only [it8, List.mem_cons, List.not_mem_nil, or_false] at hc
  rcases hc with rfl | rfl
  · exact ⟨by decide, .inr ⟨hpad _ (by decide) (by decide) (by decide) (by decide), by decide, rfl⟩⟩
  · exact ⟨by decide, .inr ⟨hpad _ (by decide) (by decide) (by decide) (by decide), by decide, rfl⟩⟩

/-- Vector IT7: the empty block, then one delta; here the size field says 3, and the file ends a byte early. -/
def it7 : List ItBlock := [.empty, ⟨3, [.delta 16], [0x10, 0x00]⟩]

/-- Vector IT7 cut off in its padding. -/
theorem test_applies_EncodedSampleIsDecoded_cut :
    itBlocksOk false 1 it7 ∧ itStream [it7] = [0x00, 0x00, 0x03, 0x00, 0x10, 0x00] ∧
      (∀ i b, [it7].flatten[i]? = some b →
        b.payload.length = b.size ∨ b.payload.length < b.size ∧ i + 1 = [it7].flatten.length ∧ ([] : List Byte) = []) ∧
      seen (exec (.itDecode false false) (mono 1 (itStream [it7]))) (fun t => (samples t, t.src.pos)) = some ([16], 6) := by
  refine ⟨⟨by decide, .inl ⟨rfl, by decide, .inr ⟨⟨by decide, by decide, by decide, List.replicate 7 false, by decide⟩,
    by decide, rfl⟩⟩⟩, by decide, fun i b h => ?_, by decide +kernel⟩
  match i, h with
  | 0, h => cases h; exact .inl rfl
  | 1, h => cases h; exact .inr ⟨by decide, rfl, rfl⟩

/-! ## Witnesses: the container units -/

/-- What MM1 and PP1 pass and what their variants fail (vectors MM2, PP5). -/
theorem test_applies_container_checks :
    (24 ≤ mm1.length ∧ mmHeaderValid params mm1 = true ∧ mmChecksPass params mm1 = true ∧ mmBlocksSound mm1 = true) ∧
      (mmHeaderValid params ((mm1.set 18 0xFF).set 19 0xFF) = true ∧
        mmChecksPass params ((mm1.set 18 0xFF).set 19 0xFF) = false) ∧
      (8 ≤ pp1.length ∧ ppHeaderValid pp1 = true ∧ ppChecksPass params pp1 = true) ∧
      (ppHeaderValid (pp1.set 16 0) = true ∧ ppChecksPass params (pp1.set 16 0) = false) ∧
      (onBytes mm1).allocSucceeds := by
  refine ⟨by decide +kernel, by decide +kernel, by decide +kernel, by decide +kernel, ?_⟩
  show none ≠ some false
  exact nofun

/-- Sources a byte short of a header, and headers with a wrong first byte; the next answer of the oracle is no. -/
theorem test_applies_ChecksBeforeAllocFailTheUnpack_header :
    ¬(24 ≤ (mm1.take 23).length) ∧ mmHeaderValid params (mm1.set 0 0) = false ∧ ¬(8 ≤ (pp1.take 7).length) ∧
      ppHeaderValid (pp1.set 0 0) = false ∧
      seen (exec (.mmcmpUnpack false) { onBytes (mm1.set 0 0) with allocAnswers := [false] })
        (fun t => (t.code, t.allocAnswers)) = some (.failure, [false]) ∧
      seen (exec (.pp20Unpack false) { onBytes (pp1.set 0 0) with allocAnswers := [false] })
        (fun t => (t.code, t.allocAnswers)) = some (.failure, [false]) := by decide +kernel

/-- A declared size over the ratio, in either unit; an odd source where that is refused; a source of 8 to 11 bytes. -/
theorem test_applies_ChecksBeforeAllocFailTheUnpack :
    (mmHeaderValid params (mm1.set 15 0x01) = true ∧
        mmChecksPass { params with mmcmpMaxRatioPred := some 0 } (mm1.set 15 0x01) = false) ∧
      (ppHeaderValid (pp1.set 16 0xFF) = true ∧
        ppChecksPass { params with pp20MaxRatioPred := some 0 } (pp1.set 16 0xFF) = false) ∧
      (ppHeaderValid (pp1 ++ [0]) = true ∧
        ppChecksPass { params with pp20RequireEven := true } (pp1 ++ [0]) = false) ∧
      (8 ≤ (pp1.take 8).length ∧ ppHeaderValid (pp1.take 8) = true ∧ ppChecksPass params (pp1.take 8) = false) ∧
      ((pp1.take 11).length = 11 ∧ ppHeaderValid (pp1.take 11) = true ∧ ppChecksPass params (pp1.take 11) = false) := by
  decide +kernel

/-- An unpack that ends with 1, one that ends with 0, and the probe after each. -/
theorem test_applies_UnpackedFilesProbeSuccess :
    seen (exec (.mmcmpUnpack true) (onBytes mm1)) (·.result) = some 1 ∧
      seen (exec .mmcmpProbe (onBytes mm1)) (·.result) = some 0 ∧
      seen (exec (.pp20Unpack true) (onBytes pp1)) (·.result) = some 1 ∧
      seen (exec .pp20Probe (onBytes pp1)) (·.result) = some 0 ∧
      (mm1.take 23).length < 24 ∧ mmHeaderValid params (mm1.set 8 15) = false ∧
      seen (exec .mmcmpProbe (onBytes (mm1.set 8 15))) (·.result) = some 2 ∧
      (pp1.take 6).length < 8 ∧ ppHeaderValid (pp1.set 4 8) = false ∧
      seen (exec .pp20Probe (onBytes (pp1.set 4 8))) (·.result) = some 2 := by decide +kernel

/-- An oracle that refuses first. -/
theorem test_applies_RefusedAllocationIsResource :
    ({ onBytes mm1 with allocAnswers := [false, true] } : State).allocAnswers = false :: [true] ∧
      seen (exec (.mmcmpUnpack false) { onBytes mm1 with allocAnswers := [false, true] })
        (fun t => (t.code, t.allocAnswers)) = some (.resource, [true]) ∧
      seen (exec (.pp20Unpack false) { onBytes pp1 with allocAnswers := [false, true] })
        (fun t => (t.code, t.allocAnswers)) = some (.resource, [true]) := by decide +kernel

theorem test_applies_RawMmcmpBlockIsCopied :
    24 ≤ raw1.length ∧ mmHeaderValid params raw1 = true ∧ mmChecksPass params raw1 = true ∧
      le16Nat raw1 12 = 1 ∧ le32Nat raw1 (le32Nat raw1 18) = 28 ∧ le16Nat raw1 (28 + 12) = 1 ∧
      (byteAt raw1 (28 + 14)).getLsbD 0 = false ∧ le32Nat raw1 (28 + 20) = 0 ∧
      le32Nat raw1 (28 + 24) = le32Nat raw1 14 ∧ 28 + 28 + le32Nat raw1 14 ≤ raw1.length := by decide +kernel

/-- A file that passes the checks made before its blocks, and whose block 0 fails (vector MM2). -/
theorem test_applies_SoundMmcmpFileUnpacks_failing :
    mmHeaderValid params (mm1.set 0x40 0) = true ∧ mmChecksPass params (mm1.set 0x40 0) = true ∧
      seen (exec (.mmcmpUnpack false) (onBytes (mm1.set 0x40 0))) (·.code) = some .failure := by decide +kernel

/-- Vector MM2, `filesize = 100`: bytes 14 to 99 are covered by no sub-block. -/
theorem test_applies_SoundMmcmpFileUnpacks_uncovered :
    mmHeaderValid params (mm1.set 14 100) = true ∧ mmChecksPass params (mm1.set 14 100) = true ∧
      seen (exec (.mmcmpUnpack false) (onBytes (mm1.set 14 100))) (fun t => (t.outLen, (output t).drop 13)) =
        some (100, 0x80 :: List.replicate 86 0) := by decide +kernel

/-- One answer of the oracle is used up, whether the unpack succeeds or fails after it. -/
theorem test_applies_UnpackAlwaysEnds_oracle :
    ([mm1, mm1.set 0x40 0].map fun bytes =>
      seen (exec (.mmcmpUnpack false) { onBytes bytes with allocAnswers := [true, false] }) fun t => (t.code, t.allocAnswers)) =
        [some (.ok, [false]), some (.failure, [false])] ∧
      ([pp1, pp4].map fun bytes =>
        seen (exec (.pp20Unpack false) { onBytes bytes with allocAnswers := [true, false] }) fun t => (t.code, t.allocAnswers)) =
        [some (.ok, [false]), some (.failure, [false])] := by decide +kernel

/-- How a raw block of these sub-blocks ends, its data `[1, 2, 3, 4]` from offset 2 of a file of 6 bytes: with these 5
bytes of `OUT` and this `MM_MEMPOS`, or not. -/
def rawBlock (sub : List SubBlock) : Option (List Nat × Nat) :=
  match mmRawBlock [9, 9, 1, 2, 3, 4] sub.length 0
    ⟨{ Mmu.reset 0 with filesize := 5, sub := sub, memPos := 2 }, OutBuf.fresh 5, 0, 0⟩ with
  | .ok r => some ((List.range 5).map fun a => (outRead r.out a).toNat, r.mm.memPos)
  | .error _ => none

/-- None; two apart; two that overlap, up to both ends; data a byte past the file; a sub-block a byte past the output;
an empty one. -/
theorem test_applies_RawMmcmpBlockIsCopied_subBlocks :
    rawBlock [] = some ([0, 0, 0, 0, 0], 2) ∧ rawBlock [⟨3, 2⟩, ⟨0, 1⟩] = some ([3, 0, 0, 1, 2], 5) ∧
      rawBlock [⟨2, 3⟩, ⟨2, 1⟩] = some ([0, 0, 4, 2, 3], 6) ∧ rawBlock [⟨0, 3⟩, ⟨3, 2⟩] = none ∧
      rawBlock [⟨0, 1⟩, ⟨4, 2⟩] = none ∧ rawBlock [⟨0, 1⟩, ⟨1, 0⟩] = none ∧ (OutBuf.fresh 5).Sound :=
  ⟨by decide +kernel, by decide +kernel, by decide +kernel, by decide +kernel, by decide +kernel, by decide +kernel,
    OutBuf.fresh_sound 5⟩

/-- An MMCMP run at a width, with these bytes in its view and an output of 4 bytes. -/
def mmRun (width : Nat) (view : List Byte) : MmRun :=
  ⟨{ Mmu.reset 0 with codeWidth := width, br := PrivateReader.over params.bufBytes ⟨view, 0⟩ }, OutBuf.fresh 4, 0, 4⟩

/-- Codes of every kind at the ends of their ranges. -/
theorem test_applies_MmcmpCodesReadAsEncoded_codes :
    codeOk false 0 (.value 0) = true ∧ codeOk false 7 (.value 0xF7) = true ∧ codeOk false 7 (.value 0xF8) = true ∧
    codeOk false 7 (.value 0xFF) = true ∧ codeOk true 15 (.value 0xFFFF) = true ∧ codeOk false 0 (.width 7) = true ∧
    codeOk true 15 (.width 0) = true ∧ codeOk true 15 .stop = true := by decide

/-- Vector MM3: its second code, the greatest value, at the first place of a view. -/
theorem test_applies_MmcmpCodesReadAsEncoded :
    (mmRun 7 [0xFF, 0x07]).mm.br.Sound params.bufBytes ∧ (mmRun 7 [0xFF, 0x07]).mm.codeWidth < codeWidths false ∧
      codeOk false (mmRun 7 [0xFF, 0x07]).mm.codeWidth (.value 0xFF) = true ∧
      (mmRun 7 [0xFF, 0x07]).mm.br.bits =
        codeBits false (mmRun 7 [0xFF, 0x07]).mm.codeWidth (.value 0xFF) ++ [false, false, false, false] :=
  ⟨PrivateReader.over_sound _ _, by decide, by decide, by decide⟩

/-- The width change of vector MM1's block 1: from index 1 to index 3, and nothing written. -/
theorem test_applies_MmcmpCodesReadAsEncoded_width :
    (mmRun 1 [0x0F]).mm.br.bits = codeBits false 1 (.width 3) ++ List.replicate 3 false ∧
      (match mmCode params false (mmRun 1 [0x0F]) with
        | .ok (c, r) => some (c, r.mm.codeWidth, r.mm.dwPos)
        | .error _ => none) = some (.again, 3, 0) := by decide +kernel

/-- The last byte of `OUT` for an 8-bit value, and the last place where two bytes fit. -/
theorem test_applies_MmcmpValuesAreWritten : (mmRun 7 []).out.Sound ∧
    3 = ({ mmRun 7 [] with pos := 3 } : MmRun).pos + ({ mmRun 7 [] with pos := 3 } : MmRun).mm.dwPos ∧
    3 < ({ mmRun 7 [] with pos := 3 } : MmRun).out.size ∧ 2 + 1 < ({ mmRun 7 [] with pos := 2 } : MmRun).out.size :=
  ⟨OutBuf.fresh_sound 4, by decide, by decide, by decide⟩

/-- A run in the first of `subBlk` sub-blocks, 2 bytes large, with `dwPos` bytes of it written, before the sub-block
`next`, in an output of 4 bytes. -/
def mmPlace (subBlk : BitVec 16) (dwPos : Nat) (next : SubBlock) : MmRun :=
  { mmRun 7 [] with
    mm := { (mmRun 7 []).mm with filesize := 4, subBlk := subBlk, sub := [⟨0, 2⟩, next], dwPos := dwPos }
    size := 2 }

/-- What `Advance()` makes of a run: how it ends, and the sub-block, place and size then. -/
def advanced (is16 : Bool) (r : MmRun) : Option (LoopControl × Nat × Nat × Nat) :=
  match mmAdvance is16 r with
  | .ok (c, r) => some (c, r.mm.subIdx, r.pos, r.size)
  | .error _ => none

/-- Not full; full and the last; full before a sub-block that just fits, one that is past the end by a byte, one that
is empty, and one that has no whole 16-bit sample. -/
theorem test_applies_MmcmpValuesAreWritten_advance :
    advanced false (mmPlace 2 1 ⟨2, 2⟩) = some (.again, 0, 0, 2) ∧
      advanced false (mmPlace 1 2 ⟨2, 2⟩) = some (.endBlock, 1, 0, 2) ∧
      advanced false (mmPlace 2 2 ⟨2, 2⟩) = some (.again, 1, 2, 2) ∧ subBytes true ⟨0, 3⟩ = 2 ∧
      advanced false (mmPlace 2 2 ⟨3, 2⟩) = none ∧ advanced false (mmPlace 2 2 ⟨2, 0⟩) = none ∧
      advanced true (mmPlace 2 2 ⟨2, 1⟩) = none := by decide +kernel

/-- The end-of-block code of vector MM3, and a view a bit short of a code. -/
theorem test_applies_MmcmpBlockIsLoadedAndDecoded :
    (mmRun 7 [0xFF, 0x0F]).mm.br.Sound params.bufBytes ∧ (mmReadCode params false (mmRun 7 [0xFF, 0x0F])).1 = .stop ∧
      (mmReadCode params false (mmRun 7 [])).1 = .eod ∧
      (mmRun 7 []).mm.br.bits.length < (mmRun 7 []).mm.codeWidth + 1 :=
  ⟨PrivateReader.over_sound _ _, by decide, by decide, by decide⟩

/-- The reader of an MMCMP run after its first `k` bits. -/
theorem mmRun_sound (width k : Nat) (view : List Byte) (hk : k ≤ 32) :
    (mmRead params k (mmRun width view)).2.mm.br.Sound params.bufBytes :=
  (readPrivate_spec (bufBytes_pos params) hk (PrivateReader.over_sound _ _)).1

/-- Views that end in a later field of a code: in the escape's width bits (the third code of vector MM2's block with
`pk_size = 5`), before the extended value, before the bit after it. -/
theorem test_applies_MmcmpBlockIsLoadedAndDecoded_ends :
    (mmRead params 4 (mmRun 1 [0xF4])).2.mm.br.bits ++ [false] = codeBits false 1 (.width 3) ∧
      codeOk false 1 (.width 3) = true ∧ (mmReadCode params false (mmRead params 4 (mmRun 1 [0xF4])).2).1 = .eod ∧
      (mmRun 7 [0xFF]).mm.br.bits ++ [true, true, true, false] = codeBits false 7 (.value 0xFF) ∧
      codeOk false 7 (.value 0xFF) = true ∧ (mmReadCode params false (mmRun 7 [0xFF])).1 = .eod ∧
      (mmRead params 5 (mmRun 7 [0xFF, 0xFF])).2.mm.br.bits ++ [true] = codeBits false 7 .stop ∧
      codeOk false 7 .stop = true ∧ (mmReadCode params false (mmRead params 5 (mmRun 7 [0xFF, 0xFF])).2).1 = .eod := by
  decide +kernel

/-- Block 1 of vector MM1, its header loaded: a table of 4 entries at 0x64, then 3 bytes of codes. -/
def mmBlock1 : Mmu :=
  { Mmu.reset 0 with
    filesize := 14, subBlk := 1, flags := 1, pkSize := 7, ttEntries := 4, numBits := 1, sub := [⟨4, 4⟩], memPos := 0x64 }

/-- How a packed block that starts so ends: with these bytes of `OUT`, or not. -/
def packed (m : Mmu) : Option (List Nat) :=
  match mmPackedBlock params mm1 ⟨m, OutBuf.fresh 14, 0, 0⟩ with
  | .ok r => some ((List.range 14).map fun a => (outRead r.out a).toNat)
  | .error _ => none

/-- The block itself, each check that fails it at its boundary, and a sub-block that is empty or ends a byte late. -/
theorem test_applies_MmcmpBlockIsLoadedAndDecoded_setup :
    packed mmBlock1 = some [0, 0, 0, 0, 0x10, 0x20, 0x30, 0x40, 0, 0, 0, 0, 0, 0] ∧
      packed { mmBlock1 with subBlk := 0 } = none ∧ packed { mmBlock1 with ttEntries := 8 } = none ∧
      packed { mmBlock1 with memPos := 162 } = none ∧ packed { mmBlock1 with numBits := 8 } = none ∧
      packed { mmBlock1 with sub := [⟨4, 0⟩] } = none ∧ packed { mmBlock1 with sub := [⟨11, 4⟩] } = none ∧
      (packed { mmBlock1 with sub := [⟨10, 4⟩], numBits := 7 }).isSome = true := by decide +kernel

/-- Whether block 3 of this file is decoded: of vector MM1, cut off after `n` bytes, its table entry at 0x24. -/
def block3 (n : Nat) : Bool :=
  match mmDecodeBlock params (mm1.take n) 3
    ⟨{ Mmu.reset 0 with filesize := 14, nblocks := 4, blkTable := 0x18 }, OutBuf.fresh 14, 0, 0⟩ with
  | .ok _ => true
  | .error _ => false

/-- Block 3 of vector MM1, whole, and without its data, its sub-block's last byte, its header's, its table entry's. -/
theorem test_applies_MmcmpBlockIsLoadedAndDecoded_block :
    le32Nat mm1 0x24 = 0x88 ∧ le16Nat mm1 (0x88 + 12) = 1 ∧ 0x88 + 20 + 8 * 1 < mm1.length ∧
      (byteAt mm1 (0x88 + 14)).getLsbD 0 = true ∧ block3 165 = true ∧ block3 164 = false ∧ block3 163 = false ∧
      block3 155 = false ∧ block3 0x27 = false := by decide +kernel

/-- A PP20 run over PP4's region, its 32 bits all to come. -/
def ppRun : PpRun := ⟨ppInit pp4 (ppLoadLen pp4 Ppu.reset), OutBuf.fresh 16⟩

/-- All the bits of the region, and one more. -/
theorem test_applies_ReverseReaderIsMsbFirst :
    ppRun.pp.bitCnt ≤ 8 ∧ 32 ≤ (reverseBits pp4 ppRun.pp).length ∧ (reverseBits pp4 ppRun.pp).length < 33 := by decide

/-- A PP20 run over a file's region, its first `k` bits read, with `left` bytes to write. -/
def ppAfter (bytes : List Byte) (k left : Nat) : PpRun :=
  match ppSkip params bytes k ⟨ppInit bytes (ppLoadLen bytes Ppu.reset), OutBuf.fresh left⟩ with
  | .ok r => { r with pp := { r.pp with left := left } }
  | .error _ => ppRun

/-- The two back-references of vector PP2: mode 3 with a short offset and its extension, and after a flag mode 0. -/
theorem test_applies_MatchCopiesTheBytesAbove :
    (ppAfter pp2 12 19).pp.bitCnt ≤ 8 ∧ PpMatch.ok (ppAfter pp2 12 19).pp ⟨3, false, 0, [7, 5]⟩ = true ∧
      PpMatch.count ⟨3, false, 0, [7, 5]⟩ = 17 ∧
      reverseBits pp2 (ppAfter pp2 12 19).pp =
        PpMatch.bits (ppAfter pp2 12 19).pp ⟨3, false, 0, [7, 5]⟩ ++ (true ::
          PpMatch.bits (ppAfter pp2 12 19).pp ⟨0, false, 0, []⟩ ++
            (List.replicate 8 false ++ bitsOfBytes [0x0B, 0x0B, 0x0A, 0x09])) ∧
      PpMatch.ok (ppAfter pp2 12 2).pp ⟨0, false, 0x1FF, []⟩ = true ∧
      PpMatch.ok (ppAfter pp2 12 4).pp ⟨3, true, 0x7FF, []⟩ = true ∧
      PpMatch.ok (ppAfter pp2 12 5).pp ⟨3, true, 0x7FF, []⟩ = false ∧
      PpMatch.ok (ppAfter pp2 12 5).pp ⟨3, true, 0x7FF, [0]⟩ = true := by decide +kernel

/-- A copy of all the bytes there are. -/
theorem test_applies_MatchCopiesTheBytesAbove_copy :
    ppRun.out.Sound ∧ ppRun.out.size = ppRun.pp.dstLen.toNat ∧ ppRun.pp.left ≤ ppRun.pp.dstLen.toNat ∧ 16 ≤ ppRun.pp.left :=
  ⟨OutBuf.fresh_sound 16, by decide, by decide, by decide⟩

theorem test_applies_Pp20UnpackCompletesUnderRepeatLowest :
    8 ≤ pp4.length ∧ ppHeaderValid pp4 = true ∧ ppChecksPass { params with pp20Underrun := .repeatLowest } pp4 = true := by
  decide +kernel

/-- The literal run of vector PP1: its length closed by the code 1, two bytes of the six left. -/
theorem test_applies_Pp20FileOfTokensUnpacks_run :
    (ppAfter pp1 7 6).pp.bitCnt ≤ 8 ∧ (ppAfter pp1 7 6).pp.left ≤ (ppAfter pp1 7 6).out.size ∧
      countCodesOk 2 6 1 [1] = true ∧ [(0x41 : Byte), 0x42].length = min (1 + [1].sum) 6 ∧
      reverseBits pp1 (ppAfter pp1 7 6).pp = runBits [1] [0x41, 0x42] ++ (reverseBits pp1 (ppAfter pp1 7 6).pp).drop 18 ∧
      Memory.wf (ppAfter pp1 7 6).out.cells = true ∧
      Memory.below (ppAfter pp1 7 6).out.size (ppAfter pp1 7 6).out.cells = true := by decide +kernel

/-- The tokens of vectors PP1, PP2 and PP3. -/
def tokens1 : List PpToken := [.run [1] [0x41, 0x42], .copy ⟨0, false, 1, []⟩, .copy ⟨0, false, 1, []⟩]
def tokens2 : List PpToken := [.run [0] [0x5A], .copy ⟨3, false, 0, [7, 5]⟩, .copy ⟨0, false, 0, []⟩]
def tokens3 : List PpToken := [.run [] [0x51]]

/-- A file's bits after its skip bits start with these tokens, which can be written for its length. -/
def holds (bytes : List Byte) (tokens : List PpToken) : Bool :=
  let bits := (regionBits bytes).drop (byteAt bytes (bytes.length - 1)).toNat
  let file := tokensBits (fileModes bytes) false tokens
  ppHeaderValid bytes && ppChecksPass params bytes &&
    tokensOk (fileModes bytes) false (be24Nat bytes (bytes.length - 4)) tokens && decide (bits.take file.length = file)

/-- What the tokens of the three vectors stand for. -/
theorem test_applies_Pp20FileOfTokensUnpacks :
    holds pp1 tokens1 = true ∧ holds pp2 tokens2 = true ∧ holds pp3 tokens3 = true ∧
      tokensOut 6 [] tokens1 = [0x41, 0x42, 0x41, 0x42, 0x41, 0x42] ∧ tokensOut 20 [] tokens2 = List.replicate 20 0x5A ∧
      tokensOut 1 [] tokens3 = [0x51] := by decide +kernel

/-- What vector PP4's bits hold for its declared 16 bytes, its region followed by nine times byte 4. -/
def tokensRepeat : List PpToken :=
  [.copy ⟨2, false, 0x434, []⟩, .run [0] [0xA1], .copy ⟨0, false, 0x109, []⟩, .run [0] [0x48], .copy ⟨1, false, 0x84, []⟩,
    .copy ⟨0, false, 0x48, []⟩, .run [2] [0x42, 0x42, 0x42]]

/-- The whole of vector PP4 under `RepeatLowest`. -/
theorem test_applies_Pp20UnpackCompletesUnderRepeatLowest_tokens :
    be24Nat pp4 (pp4.length - 4) = 16 ∧ (byteAt pp4 (pp4.length - 1)).toNat = 0 ∧
      tokensOk (fileModes pp4) false 16 tokensRepeat = true ∧
      (regionBits pp4 ++ bitsOfBytes (List.replicate 9 (byteAt pp4 4))).take (tokensBits (fileModes pp4) false tokensRepeat).length =
        tokensBits (fileModes pp4) false tokensRepeat ∧
      tokensOut 16 [] tokensRepeat = [0x42, 0x42, 0x42, 0, 0, 0, 0, 0, 0x48, 0, 0, 0xA1, 0, 0, 0, 0] := by decide +kernel

/-- Tokens of vector PP4's declared 16 bytes: the region ends in the offset of the third. -/
def tokens4 : List PpToken := [.copy ⟨2, false, 0x434, []⟩, .run [0] [0xA1], .copy ⟨0, false, 0x100, []⟩, .copy ⟨3, false, 0, [4]⟩]

/-- Vector PP4 under `Fail`. -/
theorem test_applies_Pp20FileOfTokensUnpacks_underrun :
    ppHeaderValid pp4 = true ∧ ppChecksPass params pp4 = true ∧ params.pp20Underrun = .fail ∧
      be24Nat pp4 (pp4.length - 4) = 16 ∧ (byteAt pp4 (pp4.length - 1)).toNat = 0 ∧
      tokensOk (fileModes pp4) false 16 tokens4 = true ∧ (tokensBits (fileModes pp4) false tokens4).drop 32 ≠ [] ∧
      regionBits pp4 ++ (tokensBits (fileModes pp4) false tokens4).drop 32 = tokensBits (fileModes pp4) false tokens4 ∧
      seen (exec (.pp20Unpack false) (onBytes pp4)) (fun t => (t.code, t.result, t.outValid)) =
        some (.failure, 0, false) := by decide +kernel

/-! ## Witnesses: the whole machine -/

/-- A command of each kind that reaches a next state, and a refused one. -/
theorem test_applies_exec_statements :
    seen (exec .brBind (onBytes [1])) (·.code) = some .ok ∧ seen (exec .brGetpos (onBytes [1])) (·.code) = some .ok ∧
      seen (exec (.brReadbits 9) (onBytes [1])) (·.code) = some .eod ∧
      seen (exec (.itDecode false false) (onBytes [])) (·.code) = some .ok ∧
      seen (exec .mmcmpProbe (onBytes mm1)) (·.code) = some .ok ∧
      seen (exec (.mmcmpUnpack false) (onBytes pp1)) (·.code) = some .failure ∧
      seen (exec .pp20Probe (onBytes pp1)) (·.code) = some .ok ∧
      seen (exec (.pp20Unpack true) (onBytes pp1)) (·.code) = some .ok ∧
      seen (exec (.brReadbits 1) State.reset) (·.code) = some .refused := by decide +kernel

/-- The two stops of a step. -/
theorem test_applies_StepStopsOnBrokenPremisesOnly :
    seen (step { mono 1 [2, 0, 5, 0] with smp := ⟨0, []⟩, script := [.write 0 0x10000000] }) (·.code) = none ∧
      seen (step { onBytes [] with script := [.write 0 0x10000000] }) (·.code) = some .ok := by decide +kernel

/-- A source one byte too long. -/
theorem test_applies_StepStopsOnBrokenPremisesOnly_source :
    step { onBytes [] with script := [.present (List.replicate (2 ^ 32) 0)] } = .fault .sourceTooLong := by
  have h : 2 ^ 32 ≤ (List.replicate (2 ^ 32) (0 : Byte)).length := by rw [List.length_replicate]
  generalize List.replicate (2 ^ 32) (0 : Byte) = bytes at h
  exact if_pos h

/-- A state that meets the four invariants and takes a step that changes all it may: an unpack. -/
theorem test_applies_invariants :
    (onBytes pp1).MemorySound ∧ (onBytes pp1).ReaderSound ∧ (onBytes pp1).StatusSound ∧
      seen (step { onBytes pp1 with script := [.write 0 0x31000000] }) (fun t => (t.code, t.outValid, t.outLen)) =
        some (.ok, true, 6) :=
  ⟨⟨rfl, rfl, nofun, nofun⟩, onBytes_readerSound _ (by decide), ⟨nofun, fun _ => rfl, nofun⟩, by decide +kernel⟩

theorem test_applies_StepKeepsUnitWidths : (onBytes pp1).UnitWidths :=
  ⟨⟨by decide, by decide, by decide, by decide, by decide⟩,
    ⟨by decide, by decide, List.length_replicate, by decide, by decide, by decide⟩,
    ⟨by decide, by decide, by decide, by decide⟩, PrivateReader.unbound_held _, PrivateReader.unbound_held _⟩

/-- Two states that differ in a unit's registers alone. -/
theorem test_applies_UnitRegistersAreNeverRead :
    (onBytes pp1).forgetUnits = ({ onBytes pp1 with ppu := { Ppu.reset with left := 9 } } : State).forgetUnits ∧
      (onBytes pp1).ppu ≠ ({ onBytes pp1 with ppu := { Ppu.reset with left := 9 } } : State).ppu := ⟨rfl, by decide⟩

end Sys2Proof.Tests
end

section
/-! Proofs: every step keeps the BR unit and its sources sound, and every counted register of the units inside its
width (00_scope.md R9; 10_state.md R20, R21, R23, R24). Each command and each action of the host that can change one of
these has a lemma of its own; `step_keeps` puts them together. -/
namespace Sys2Proof.Machine

/-! ## Sources (20_memory.md R29, R32) -/

theorem ByteSource.Sound.moved {src src' : ByteSource} (h : src.Sound) (hb : src'.bytes = src.bytes)
    (hp : src'.pos ≤ src.bytes.length) : src'.Sound :=
  ⟨by rw [hb]; exact hp, by rw [hb]; exact h.len_lt⟩

theorem srcSeek_sound {src : ByteSource} (h : src.Sound) (p : Nat) : (srcSeek src p).2.Sound := by
  unfold srcSeek
  split
  · exact h.moved rfl ‹_›
  · exact h

theorem srcSkipBack_sound {src : ByteSource} (h : src.Sound) (n : Nat) : (srcSkipBack src n).2.Sound := by
  unfold srcSkipBack
  split
  · exact h.moved rfl ((Nat.sub_le _ _).trans h.pos_le)
  · exact h

/-! ## The BR unit and its sources (10_state.md R20) -/

/-- A read keeps the reader and its source sound, whether the stream holds the bits or not. -/
theorem readBits_sound {B n : Nat} {rd : Reader} {src : ByteSource} (hB : 0 < B) (hn : n ≤ 32) (h : rd.Sound B)
    (hs : src.Sound) : (readBits B n rd src).2.1.Sound B ∧ (readBits B n rd src).2.2.Sound := by
  rcases Nat.lt_or_ge (streamBits rd src).length n with hl | hl
  · obtain ⟨rd', src', he, _, hrd, hb, _, _, hp⟩ := readBits_eod hB hn h hs.pos_le hl
    rw [he]
    exact ⟨hrd, hs.moved hb hp.le⟩
  · obtain ⟨rd', src', he, _, hrd, hb, hp, _⟩ := readBits_ok hB hn h hs.pos_le hl
    rw [he]
    exact ⟨hrd, hs.moved hb hp⟩

/-- The reader with its accumulator and its staging buffer emptied, as `BR.BIND` leaves it (R81). -/
theorem Reader.Sound.cleared {B : Nat} {rd : Reader} (h : rd.Sound B) :
    ({ rd with acc := 0, nbits := 0, bufSize := 0, bufPos := 0 } : Reader).Sound B :=
  ⟨Nat.one_pos, Nat.zero_le _, le_refl _, Nat.zero_le _, h.stage_len, .inl rfl⟩

/-- The BR unit unchanged, over a sound source on `SRC`. -/
theorem State.ReaderSound.frame {s t : State} (h : s.ReaderSound) (hp : t.params = s.params) (hb : t.br = s.br)
    (hr : t.brSrc = s.brSrc) (hs : t.src.Sound) : t.ReaderSound where
  br := by rw [hp, hb]; exact h.br
  src := hs
  bound := fun src hsrc => by
    have hbound := h.bound
    unfold State.brSource at hbound hsrc
    rw [hr] at hsrc
    cases hk : s.brSrc <;> rw [hk] at hsrc hbound
    case unbound => cases hsrc
    case presented => cases hsrc; exact hs
    case detached x => exact hbound src hsrc

/-- What a read puts back of a source changes `SRC` only to that source. -/
theorem State.setBr_src (s : State) (rd : Reader) (x : ByteSource) :
    (s.setBr rd x).src = x ∨ (s.setBr rd x).src = s.src := by
  unfold State.setBr State.setBrSource
  cases s.brSrc
  case presented => exact .inl rfl
  all_goals exact .inr rfl

theorem State.ReaderSound.setBr {s : State} {rd : Reader} {x y : ByteSource} (h : s.ReaderSound)
    (hy : s.brSource = some y) (hrd : rd.Sound s.params.bufBytes) (hx : x.Sound) : (s.setBr rd x).ReaderSound where
  br := by rw [State.setBr_params]; exact hrd
  src := by rcases s.setBr_src rd x with e | e <;> rw [e]; exacts [hx, h.src]
  bound := fun src hsrc => by rw [State.setBr_brSource hy] at hsrc; cases hsrc; exact hx

/-- A read of the BR unit keeps soundness, whatever it answers (R76, R77). -/
theorem State.ReaderSound.readBits {s : State} {n : BitVec 6} {answer : Option Nat} {rd : Reader} {src src' : ByteSource}
    (h : s.ReaderSound) (hb : s.brSource = some src) (hn : n.toNat ≤ 32)
    (hr : Machine.readBits s.params.bufBytes n.toNat s.br src = (answer, rd, src')) : (s.setBr rd src').ReaderSound := by
  have hs := readBits_sound (bufBytes_pos _) hn h.br (h.bound src hb)
  rw [hr] at hs
  exact h.setBr hb hs.1 hs.2

theorem ReadbitsEnd.readerSound {s t : State} {n : BitVec 6} (he : ReadbitsEnd s n t) (h : s.ReaderSound) :
    t.ReaderSound := by
  cases he with
  | refused => exact h.frame rfl rfl rfl h.src
  | read _ rd src src' hb hn hr | short rd src src' hb hn hr =>
    have hr' := h.readBits hb hn hr
    exact hr'.frame rfl rfl rfl hr'.src

/-- `IT.DECODE` moves the cursor inside the source (R84). -/
theorem ItEnd.readerSound {is215 is16 : Bool} {s t : State} (he : ItEnd is215 is16 s (.next t)) (h : s.ReaderSound) :
    t.ReaderSound := by
  cases he with
  | refused => exact h.frame rfl rfl rfl h.src
  | decoded r _ _ hk _ => exact h.frame rfl rfl rfl (h.src.moved hk.bytes (hk.pos h.src.pos_le))

theorem MmEnd.readerSound {s t : State} {verify : Bool} (he : MmEnd s verify t) (h : s.ReaderSound) : t.ReaderSound := by
  cases he <;> exact h.frame rfl rfl rfl h.src

theorem PpEnd.readerSound {s t : State} {verify : Bool} (he : PpEnd s verify t) (h : s.ReaderSound) : t.ReaderSound := by
  cases he <;> exact h.frame rfl rfl rfl h.src

/-- Every command keeps the BR unit and the sources sound. -/
theorem exec_readerSound {i : Instr} {s t : State} (h : s.ReaderSound) (ht : exec i s = .next t) : t.ReaderSound := by
  cases exec_end ht with
  | brBind => exact ⟨h.br.cleared, h.src, fun src hsrc => by cases hsrc; exact h.src⟩
  | brReadbits _ _ _ he => exact he.readerSound h
  | brGetpos _ _ he => cases he <;> exact h.frame rfl rfl rfl h.src
  | itDecode _ _ _ _ he => exact he.readerSound h
  | mmcmpProbe => exact h.frame rfl rfl rfl h.src
  | mmcmpUnpack _ _ _ he => exact he.readerSound h
  | pp20Probe => exact h.frame rfl rfl rfl h.src
  | pp20Unpack _ _ _ he => exact he.readerSound h

/-- A source too long is not presented (D3), and the one the BR unit reads was presented before (R148). -/
theorem hostPresent_readerSound {l : List Byte} {s t : State} (h : s.ReaderSound) (ht : hostPresent l s = .next t) :
    t.ReaderSound := by
  unfold hostPresent at ht
  split at ht
  · cases ht
  · rename_i hl
    have hbound := h.bound
    unfold State.brSource at hbound
    cases ht
    refine ⟨h.br, ⟨Nat.zero_le _, Nat.lt_of_not_le hl⟩, fun src hsrc => ?_⟩
    unfold State.brSource at hsrc
    cases hk : s.brSrc <;> simp only [hk] at hsrc hbound
    case unbound => cases hsrc
    all_goals exact hbound src hsrc

theorem hostReset_readerSound {s : State} (h : s.ReaderSound) : (hostReset s).ReaderSound :=
  ⟨Reader.empty_sound _, h.src, nofun⟩

/-! ## The units' registers: unchanged, and at reset -/

theorem State.UnitWidths.frame {s t : State} (h : s.UnitWidths) (hp : t.params = s.params) (hi : t.itd = s.itd)
    (hm : t.mmu = s.mmu) (hu : t.ppu = s.ppu) : t.UnitWidths :=
  ⟨hi ▸ h.itd, hm ▸ h.mmu, hu ▸ h.ppu, by rw [hp, hi]; exact h.itBr, by rw [hp, hm]; exact h.mmBr⟩

/-- A host write of a register changes the two configuration registers alone (10_state.md R14). -/
theorem writeReg_eq (o : Nat) (v : Word) (s : State) :
    ∃ c l, writeReg o v s = { s with itChannels := c, itLength := l } := by
  unfold writeReg
  split
  · exact ⟨_, s.itLength, rfl⟩
  · split
    · exact ⟨s.itChannels, _, rfl⟩
    · exact ⟨s.itChannels, s.itLength, rfl⟩

theorem Itd.reset_widths (B : Nat) : (Itd.reset B).Widths :=
  ⟨Nat.two_pow_pos _, Nat.two_pow_pos _, Nat.two_pow_pos _, Nat.two_pow_pos _, Nat.two_pow_pos _⟩

theorem Mmu.reset_widths (B : Nat) : (Mmu.reset B).Widths :=
  ⟨Nat.two_pow_pos _, Nat.two_pow_pos _, List.length_replicate, Nat.two_pow_pos _, Nat.two_pow_pos _, Nat.two_pow_pos _⟩

theorem Ppu.reset_widths : Ppu.reset.Widths := ⟨by decide, by decide, by decide, by decide⟩

theorem hostReset_unitWidths (s : State) : (hostReset s).UnitWidths :=
  ⟨Itd.reset_widths _, Mmu.reset_widths _, Ppu.reset_widths, PrivateReader.unbound_held _, PrivateReader.unbound_held _⟩

/-! ## The ITD (10_state.md R21) -/

/-- Inside a channel every register fits: the largest `IT_WRITEPOS` is `chn + l * c`, below `2 ^ 8 * 2 ^ 32`. -/
theorem ItInChannel.widths {K N : Nat} {r : ItRun} (h : ItInChannel K N r) (hK : K < 2 ^ 16) (hN : N < 2 ^ 17) :
    r.itd.Widths := by
  have hc := r.itd.c.isLt
  have hl := r.itd.l.isLt
  have hchn := h.chn
  have hwritten := h.written
  have hprod : r.itd.written * r.itd.c.toNat ≤ (2 ^ 32 - 1) * (2 ^ 8 - 1) := Nat.mul_le_mul (by omega) (by omega)
  refine ⟨by omega, by omega, ?_, h.curLen.trans_lt hK, h.width.trans_lt hN⟩
  rw [h.writePos]
  omega

theorem ItEnd.unitWidths {is215 is16 : Bool} {s t : State} (he : ItEnd is215 is16 s (.next t)) (h : s.UnitWidths) :
    t.UnitWidths := by
  cases he with
  | refused => exact h.frame rfl rfl rfl rfl
  | decoded r _ hrun _ hend =>
    obtain ⟨chn, written, writePos, curLen, width⟩ : r.itd.Widths := by
      rcases hend with rfl | hin
      · exact ⟨h.itd.chn, h.itd.written, h.itd.writePos, h.itd.curLen, h.itd.width⟩
      · exact hin.widths (Nat.max_lt.2 ⟨by decide, h.itd.curLen⟩) (Nat.max_lt.2 ⟨by decide, h.itd.width⟩)
    exact ⟨⟨chn, written, writePos, curLen, width⟩, h.mmu, h.ppu, itChannels_held _ _ _ _ hrun h.itBr, h.mmBr⟩

/-! ## The MMU (10_state.md R23) -/

/-- The file header's fields are bit vectors: loading them leaves the counted registers. -/
theorem mmLoadHeader_widths {m : Mmu} (h : m.Widths) (bytes : List Byte) : (mmLoadHeader bytes m).Widths :=
  ⟨h.blk, h.memPos, h.table, h.codeWidth, h.subIdx, h.dwPos⟩

/-- The reader through the blocks of an unpack, from the run it starts with. -/
theorem mmFirstRun_held {s : State} (h : s.UnitWidths) : MmHeld s.params.bufBytes
    (mmBlocks s.params s.src.bytes (le16At s.src.bytes 12).toNat 0 (mmFirstRun s)) :=
  mmBlocks_held _ _ _ h.mmBr

theorem MmEnd.unitWidths {s t : State} {verify : Bool} (he : MmEnd s verify t) (h : s.UnitWidths)
    (hl : s.src.bytes.length < 2 ^ 32) : t.UnitWidths := by
  have hload := mmLoadHeader_widths h.mmu s.src.bytes
  have hheld := mmFirstRun_held h
  cases he with
  | badHeader => exact h.frame rfl rfl rfl rfl
  | verified | badSize | noSpace => exact ⟨h.itd, hload, h.ppu, h.itBr, h.mmBr⟩
  | unpacked r _ _ _ _ hinv _ hrun | failed r _ _ _ _ hinv _ hrun =>
    rw [hrun] at hheld
    exact ⟨h.itd, hinv.widths ⟨h.mmu, hl⟩, h.ppu, h.itBr, hheld⟩

/-! ## The PPU (10_state.md R24) -/

/-- `PP_DSTLEN` is a bit vector: loading it leaves the counted registers. -/
theorem ppLoadLen_widths {u : Ppu} (h : u.Widths) (bytes : List Byte) : (ppLoadLen bytes u).Widths :=
  ⟨h.left, h.p, h.lo, h.bitCnt⟩

theorem PpEnd.unitWidths {s t : State} {verify : Bool} (he : PpEnd s verify t) (h : s.UnitWidths)
    (hl : s.src.bytes.length < 2 ^ 32) : t.UnitWidths := by
  have hload := ppLoadLen_widths h.ppu s.src.bytes
  cases he with
  | badHeader | verified => exact h.frame rfl rfl rfl rfl
  | badSize u _ _ _ hu =>
    have hw : u.Widths := by rcases hu with ⟨rfl, _⟩ | rfl; exacts [h.ppu, hload]
    exact ⟨h.itd, h.mmu, hw, h.itBr, h.mmBr⟩
  | noSpace => exact ⟨h.itd, h.mmu, hload, h.itBr, h.mmBr⟩
  | unpacked r _ _ _ _ _ hw | failed r _ _ _ _ _ hw => exact ⟨h.itd, h.mmu, hw hl, h.itBr, h.mmBr⟩

/-! ## Every command, every step -/

theorem ReadbitsEnd.unitWidths {s t : State} {n : BitVec 6} (he : ReadbitsEnd s n t) (h : s.UnitWidths) :
    t.UnitWidths := by
  cases he with
  | refused => exact h.frame rfl rfl rfl rfl
  | read | short => exact h.frame (by simp) (by simp) (by simp) (by simp)

/-- Every command keeps the widths: a unit's command changes its own unit alone, and no other command changes any. -/
theorem exec_unitWidths {i : Instr} {s t : State} (h : s.UnitWidths) (hl : s.src.bytes.length < 2 ^ 32)
    (ht : exec i s = .next t) : t.UnitWidths := by
  cases exec_end ht with
  | brBind => exact h.frame rfl rfl rfl rfl
  | brReadbits _ _ _ he => exact he.unitWidths h
  | brGetpos _ _ he => cases he <;> exact h.frame rfl rfl rfl rfl
  | itDecode _ _ _ _ he => exact he.unitWidths h
  | mmcmpProbe => exact h.frame rfl rfl rfl rfl
  | mmcmpUnpack _ _ _ he => exact he.unitWidths h hl
  | pp20Probe => exact h.frame rfl rfl rfl rfl
  | pp20Unpack _ _ _ he => exact he.unitWidths h hl

theorem hostPresent_unitWidths {l : List Byte} {s t : State} (h : s.UnitWidths) (ht : hostPresent l s = .next t) :
    t.UnitWidths := by
  unfold hostPresent at ht
  split at ht
  · cases ht
  · cases ht; exact h.frame rfl rfl rfl rfl

/-- Both invariants, where only fields that neither speaks of have changed. -/
theorem unitWidths_readerSound_frame {s t : State} (h : s.UnitWidths ∧ s.ReaderSound) (hsrc : t.src.Sound)
    (hp : t.params = s.params) (hi : t.itd = s.itd) (hm : t.mmu = s.mmu) (hu : t.ppu = s.ppu) (hb : t.br = s.br)
    (hr : t.brSrc = s.brSrc) : t.UnitWidths ∧ t.ReaderSound :=
  ⟨h.1.frame hp hi hm hu, h.2.frame hp hb hr hsrc⟩

/-- Settles O58: the two invariants are kept together, since the MMU's and the PPU's positions stay inside their widths
because the source is shorter than `2 ^ 32` bytes. -/
theorem stepKeepsUnitWidths : Obligations.StepKeepsUnitWidths := by
  unfold Obligations.StepKeepsUnitWidths
  intro s t hs ht
  refine step_keeps (I := fun s => s.UnitWidths ∧ s.ReaderSound) ?script ?cmd ?command ?reserved ?write ?read ?present
    ?seek ?skipBack ?attach ?reset hs ht
  case command => exact fun i s t h ht => ⟨exec_unitWidths h.1 h.2.src.len_lt ht, exec_readerSound h.2 ht⟩
  case present => exact fun l s t h ht => ⟨hostPresent_unitWidths h.1 ht, hostPresent_readerSound h.2 ht⟩
  case reset => exact fun s h => ⟨hostReset_unitWidths s, hostReset_readerSound h.2⟩
  case seek => exact fun p s h => unitWidths_readerSound_frame h (srcSeek_sound h.2.src p) rfl rfl rfl rfl rfl rfl
  case skipBack => exact fun n s h => unitWidths_readerSound_frame h (srcSkipBack_sound h.2.src n) rfl rfl rfl rfl rfl rfl
  case write =>
    intro o v s h
    obtain ⟨c, l, hw⟩ := writeReg_eq o v s
    rw [hw]
    exact unitWidths_readerSound_frame h h.2.src rfl rfl rfl rfl rfl rfl
  case script | cmd | read | attach => exact fun _ _ h => unitWidths_readerSound_frame h h.2.src rfl rfl rfl rfl rfl rfl
  case reserved => exact fun s h => unitWidths_readerSound_frame h h.2.src rfl rfl rfl rfl rfl rfl

end Sys2Proof.Machine
end

section
/-! Proofs: the host's registers and the step (10_state.md R14 to R27), and what every command may change and end with.
The frame and the codes of a command are read off `exec_end`, which says every way a command can end. -/
namespace Sys2Proof.Machine

/-! ## One step, one host action (20_memory.md R46) -/

theorem step_of_script {s : State} {a : HostAction} {rest : List HostAction} (h : s.script = a :: rest) :
    step s = hostAct a { s with script := rest } := by
  unfold step
  rw [h]

theorem runCommand_of_decode {w : Word} {i : Instr} (h : decode w = .ok i) (s : State) :
    runCommand w s = exec i { s with cmd := w } := by
  unfold runCommand
  rw [h]

/-- Settles O6: the oldest action is a write at offset 0, so the step runs the word, which decodes. -/
theorem stepRunsTheWrittenCommand : Obligations.StepRunsTheWrittenCommand := by
  unfold Obligations.StepRunsTheWrittenCommand
  intro s w rest i hs hd
  rw [step_of_script hs]
  exact runCommand_of_decode hd _

/-! ## The host's registers (10_state.md R14, R15) -/

/-- A write of a register but `CMD`, field by field: each of the two registers with storage has its own offset. -/
theorem writeReg_fields (offset : Nat) (v : Word) (s : State) :
    writeReg offset v s = { s with
      itChannels := if offset = 0x0C then v.setWidth 8 else s.itChannels
      itLength := if offset = 0x10 then v else s.itLength } := by
  unfold writeReg
  split
  · rw [if_neg (by omega)]
  · split <;> rfl

theorem hostWrite_of_ne_cmd {offset : Nat} (h : offset ≠ 0) (v : Word) (s : State) :
    hostWrite offset v s = .next (writeReg offset v s) := if_neg h

/-- Settles O8: a write is `writeReg` field by field; a read changes the host's datum alone. -/
theorem hostRegisterAccess : Obligations.HostRegisterAccess := by
  unfold Obligations.HostRegisterAccess
  intro s offset v rest
  constructor
  · intro hs hne
    rw [step_of_script hs]
    exact (hostWrite_of_ne_cmd hne _ _).trans (congrArg _ (writeReg_fields _ _ _))
  · intro hs
    rw [step_of_script hs]
    rfl

/-- The bits of `STATUS`, each at its field. -/
theorem statusWord_getLsbD (s : State) (i : Nat) :
    (statusWord s).getLsbD i =
      if i < 4 then s.code.bits.getLsbD i else if i = 4 then s.outValid else if i = 5 then s.brBound else false := by
  simp only [statusWord, BitVec.getLsbD_append, BitVec.getLsbD_ofBool]
  rcases i with _ | _ | _ | _ | _ | _ | i <;> simp

theorem statusWord_code (s : State) : (statusWord s).extractLsb' 0 4 = s.code.bits := by
  ext i hi
  simp [statusWord_getLsbD, hi]

/-- Settles O9: each field is read off the bits of `STATUS`. -/
theorem statusWordFields : Obligations.StatusWordFields := by
  unfold Obligations.StatusWordFields
  intro s
  refine ⟨?code, ?outValid, ?bound, ?zeros⟩
  case code => rw [statusWord_code]; cases s.code <;> rfl
  case outValid => exact statusWord_getLsbD s 4
  case bound => rw [statusWord_getLsbD s 5, ne_eq, brSource_eq_none, Bool.not_eq_false]; rfl
  case zeros =>
    intro i hi
    rw [statusWord_getLsbD, if_neg (by omega), if_neg (by omega), if_neg (by omega)]

/-! ## Reset (10_state.md R27, 70_reset_and_hazards.md R142) -/

theorem Reader.empty_isReset (B : Nat) : (Reader.empty B).IsReset :=
  ⟨rfl, rfl, rfl, rfl, fun _ h => List.eq_of_mem_replicate h⟩

theorem statusWord_hostReset (s : State) : statusWord (hostReset s) = 0 :=
  show statusWord State.reset = 0 by decide

theorem hostReset_registersReset (s : State) : (hostReset s).RegistersReset where
  cmd := rfl
  status := statusWord_hostReset s
  result := rfl
  itChannels := rfl
  itLength := rfl
  out := rfl
  outLen := rfl
  brSrc := rfl
  br := Reader.empty_isReset _
  itd := ⟨_, Reader.empty_isReset _, rfl⟩
  mmu := ⟨_, Reader.empty_isReset _, rfl⟩
  ppu := rfl

/-- The reset input changes nothing in the state right after reset. -/
theorem hostReset_reset : hostReset State.reset = State.reset := rfl

/-- Settles O10: both resets are `hostReset`, which keeps the host's side as it is. -/
theorem resetSetsEveryRegister : Obligations.ResetSetsEveryRegister := by
  unfold Obligations.ResetSetsEveryRegister
  refine ⟨hostReset_reset ▸ hostReset_registersReset State.reset, fun s rest hs => ?_⟩
  exact ⟨hostReset { s with script := rest }, step_of_script hs, hostReset_registersReset _, rfl, rfl, rfl, rfl, rfl, rfl⟩

theorem State.reset_memorySound : State.reset.MemorySound := ⟨rfl, rfl, nofun, nofun⟩

theorem State.reset_readerSound : State.reset.ReaderSound :=
  ⟨Reader.empty_sound _, ⟨le_refl _, Nat.two_pow_pos _⟩, nofun⟩

theorem State.reset_statusSound : State.reset.StatusSound := ⟨nofun, fun _ => rfl, fun _ => rfl⟩

/-- Settles O59, invariant by invariant. -/
theorem resetMeetsTheInvariants : Obligations.ResetMeetsTheInvariants :=
  ⟨State.reset_memorySound, State.reset_readerSound, State.reset_statusSound, hostReset_unitWidths State.reset⟩

/-! ## The IT constants (10_state.md R22, 41_it_decompress.md R92, R94) -/

/-- `ChangeWidth` skips one width, so an index stays inside the widths up to `d` exactly when it is at most `d - 2`. -/
theorem changeWidth_le_iff {cur d : Nat} (hd : cur ≤ d) (h2 : 2 ≤ d) (idx : Nat) :
    changeWidth cur idx ≤ d ↔ idx ≤ d - 2 := by
  unfold changeWidth
  split <;> omega

theorem defWidth_ge (is16 : Bool) : 2 ≤ defWidth is16 := by cases is16 <;> decide

theorem lowerB_ge (is16 : Bool) : -8 ≤ lowerB is16 := by cases is16 <;> decide

/-- R92: a Mode B width has its top bit at 64 or above, which no `lowerB` takes below 0. -/
theorem topBit_add_lowerB_nonneg {w : Nat} (hw : 7 ≤ w) (is16 : Bool) : 0 ≤ ((2 ^ (w - 1) : Nat) : Int) + lowerB is16 := by
  have htop : 2 ^ 6 ≤ 2 ^ (w - 1) := Nat.pow_le_pow_right (by decide) (by omega)
  have hlow := lowerB_ge is16
  omega

/-- Settles O31: the constants and the interval's size at each depth, the rest for all widths. -/
theorem modeBIntervalNamesTheOtherWidths : Obligations.ModeBIntervalNamesTheOtherWidths := by
  unfold Obligations.ModeBIntervalNamesTheOtherWidths
  intro is16
  refine ⟨rfl, rfl, rfl, rfl, rfl, rfl, ?size, ?indices, ?nonneg⟩
  case size => cases is16 <;> rfl
  case indices => exact fun cur idx _ hd => changeWidth_le_iff hd (defWidth_ge is16) idx
  case nonneg => exact fun w hw _ => topBit_add_lowerB_nonneg hw is16

/-! ## What every command leaves -/

/-- A read of the BR unit that is not refused changes its fields, the bound source's cursor, `RESULT` and the code. -/
theorem ReadbitsEnd.frame {s t : State} {n : BitVec 6} (he : ReadbitsEnd s n t) :
    t = { s with code := .refused } ∨ ∃ (src src' : ByteSource) (rd : Reader),
      s.brSource = some src ∧ src'.bytes = src.bytes ∧ t = { s.setBr rd src' with result := t.result, code := t.code } := by
  cases he with
  | refused => exact .inl rfl
  | read _ rd src src' hb _ hr | short rd src src' hb _ hr =>
    have hbytes := readBits_bytes s.params.bufBytes n.toNat s.br src
    rw [hr] at hbytes
    exact .inr ⟨src, src', rd, hb, hbytes, rfl⟩

/-- Settles O51, by the ways each command can end. -/
theorem whatEachCommandLeaves : Obligations.WhatEachCommandLeaves := by
  unfold Obligations.WhatEachCommandLeaves
  intro i s t ht
  cases exec_end ht with
  | brBind | mmcmpProbe | pp20Probe => rfl
  | brReadbits _ _ _ he => exact he.frame
  | brGetpos _ _ he => cases he <;> rfl
  | itDecode _ _ _ _ he => cases he <;> exact ⟨rfl, rfl⟩
  | mmcmpUnpack _ _ _ he => cases he <;> rfl
  | pp20Unpack _ _ _ he => cases he <;> rfl

/-! ## The code every command ends with (10_state.md R16, 60_exceptions.md R129) -/

/-- The code a command ends with, with what follows from it. -/
inductive CodeEnd (i : Instr) (s t : State) : Prop
  | ok : t.code = .ok → CodeEnd i s t
  | eod (n : BitVec 6) : i = .brReadbits n → t.code = .eod → t.result = s.result → CodeEnd i s t
  | refused : t.code = .refused → t.result = s.result → CodeEnd i s t
  | failure (verify : Bool) : i = .mmcmpUnpack verify ∨ i = .pp20Unpack verify → t.code = .failure → CodeEnd i s t
  | resource (rest : List Bool) : i = .mmcmpUnpack false ∨ i = .pp20Unpack false → s.allocAnswers = false :: rest →
      t.code = .resource → CodeEnd i s t

theorem ReadbitsEnd.codeEnd {s t : State} {n : BitVec 6} (he : ReadbitsEnd s n t) : CodeEnd (.brReadbits n) s t := by
  cases he with
  | refused => exact .refused rfl rfl
  | read => exact .ok rfl
  | short rd _ src' => exact .eod n rfl rfl (State.setBr_result s rd src')

theorem MmEnd.codeEnd {s t : State} {verify : Bool} (he : MmEnd s verify t) : CodeEnd (.mmcmpUnpack verify) s t := by
  cases he with
  | verified | unpacked => exact .ok rfl
  | badHeader | badSize | failed => exact .failure verify (.inl rfl) rfl
  | noSpace rest _ hv _ ha => exact .resource rest (.inl (congrArg _ hv)) ha rfl

theorem PpEnd.codeEnd {s t : State} {verify : Bool} (he : PpEnd s verify t) : CodeEnd (.pp20Unpack verify) s t := by
  cases he with
  | verified | unpacked => exact .ok rfl
  | badHeader | badSize | failed => exact .failure verify (.inr rfl) rfl
  | noSpace rest _ hv _ ha => exact .resource rest (.inr (congrArg _ hv)) ha rfl

theorem exec_codeEnd {i : Instr} {s t : State} (ht : exec i s = .next t) : CodeEnd i s t := by
  cases exec_end ht with
  | brBind | mmcmpProbe | pp20Probe => exact .ok rfl
  | brReadbits _ _ _ he => exact he.codeEnd
  | brGetpos _ _ he => cases he; exacts [.refused rfl rfl, .ok rfl]
  | itDecode _ _ _ _ he => cases he; exacts [.refused rfl rfl, .ok rfl]
  | mmcmpUnpack _ _ _ he => exact he.codeEnd
  | pp20Unpack _ _ _ he => exact he.codeEnd

/-- Settles O52: each code decides which clauses speak of the command. -/
theorem codesEachCommandMayEndWith : Obligations.CodesEachCommandMayEndWith := by
  unfold Obligations.CodesEachCommandMayEndWith
  intro i s t ht
  cases exec_codeEnd ht with
  | ok hc => simp [hc]
  | eod n hi hc hr => simp [hc, hi, hr]
  | refused hc hr => simp [hc, hr]
  | failure verify hi hc => exact ⟨by simp [hc], fun _ => ⟨verify, hi⟩, by simp [hc], by simp [hc]⟩
  | resource rest hi ha hc => exact ⟨by simp [hc], fun _ => ⟨false, hi⟩, fun _ => ⟨false, rest, rfl, ha, hi⟩, by simp [hc]⟩

end Sys2Proof.Machine
end

section
/-! Proofs: the byte sources and the sample buffer of the host (20_memory.md R29 to R36), and `BR.READBITS` as the
stream it reads (R40). That every step keeps the BR unit sound is put together from the lemma on each command and each
host action. -/
namespace Sys2Proof.Machine

/-! ## Every step (10_state.md R20) -/

/-- A host write of a register touches neither the BR unit nor a source (10_state.md R14). -/
theorem writeReg_readerSound {s : State} (h : s.ReaderSound) (offset : Nat) (v : Word) :
    (writeReg offset v s).ReaderSound := by
  obtain ⟨c, l, hw⟩ := writeReg_eq offset v s
  rw [hw]
  exact h.frame rfl rfl rfl h.src

/-- Settles O56: the commands, `present`, the source operations and the reset input have their lemmas; no other action
touches the BR unit or a source. -/
theorem stepKeepsReaderSound : Obligations.StepKeepsReaderSound := by
  unfold Obligations.StepKeepsReaderSound
  intro s t hs ht
  refine step_keeps (I := State.ReaderSound) ?script ?cmd ?command ?reserved ?write ?read ?present ?seek ?skipBack ?attach
    ?reset hs ht
  case command => exact fun _ _ _ => exec_readerSound
  case present => exact fun _ _ _ => hostPresent_readerSound
  case reset => exact fun _ => hostReset_readerSound
  case seek => exact fun p s h => h.frame rfl rfl rfl (srcSeek_sound h.src p)
  case skipBack => exact fun n s h => h.frame rfl rfl rfl (srcSkipBack_sound h.src n)
  case write => exact fun offset v _ h => writeReg_readerSound h offset v
  case script | cmd | read | attach => exact fun _ _ h => h.frame rfl rfl rfl h.src
  case reserved => exact fun _ h => h.frame rfl rfl rfl h.src

/-! ## The host's sources and samples (R30 to R36) -/

/-- Settles O12: inside the source the cursor moves and the answer is 1; outside nothing moves and it is 0. -/
theorem seekAndSkipBack : Obligations.SeekAndSkipBack := by
  unfold Obligations.SeekAndSkipBack
  refine fun s n rest => ⟨fun hs => ?_, fun hs => ?_⟩ <;> rw [step_of_script hs]
  · by_cases h : n ≤ s.src.bytes.length <;> simp [hostAct, hostAnswer, srcSeek, srcLen, h]
  · by_cases h : n ≤ s.src.pos <;> simp [hostAct, hostAnswer, srcSkipBack, h]

/-- Settles O13: the attached memory is `Memory.ofList` of the elements from address 0. -/
theorem attachedElementsAreRead : Obligations.AttachedElementsAreRead := by
  unfold Obligations.AttachedElementsAreRead
  intro s elems rest hs
  refine ⟨hostAttach elems { s with script := rest }, step_of_script hs, rfl, fun i => ?_, Memory.ofList_wf elems, rfl⟩
  have h := Memory.read_ofList 0 elems i
  rwa [Nat.zero_add] at h

/-- Settles O14: the bytes read are the next `n` from the cursor on, as many as there are. -/
theorem sourceReadsAndChunks : Obligations.SourceReadsAndChunks := by
  unfold Obligations.SourceReadsAndChunks
  intro s n hp
  obtain ⟨hbytes, hpos, hchunk⟩ := srcRead_spec s n
  have hlen : (srcRead s n).1.length = min n (s.bytes.length - s.pos) := by
    rw [hchunk, List.length_take, List.length_drop]
  refine ⟨hlen, fun i hi => ?_, ?_, fun hshort => ?_, fun hend => ?_, rfl, rfl⟩
  · rw [hchunk, List.getElem?_take_of_lt (by omega), List.getElem?_drop]
  · rw [← hpos, ← hbytes]
  · omega
  · exact List.eq_nil_of_length_eq_zero (by omega)

/-! ## `BR.READBITS` (40_bitreader.md R76, R82) -/

/-- `BR.READBITS` of a read that returns a value. -/
theorem execBrReadbits_of_some {s : State} {n : BitVec 6} {src src' : ByteSource} {rd : Reader} {v : Nat}
    (hb : s.brSource = some src) (hn : n.toNat ≤ 32)
    (hr : readBits s.params.bufBytes n.toNat s.br src = (some v, rd, src')) :
    execBrReadbits n s = .next (complete (BitVec.ofNat 32 v) (s.setBr rd src')) := by
  unfold execBrReadbits
  rw [hb]
  simp only [if_neg (Nat.not_lt.2 hn), hr]

/-- A value of at most 32 bits fits `RESULT`. -/
theorem toNat_ofNat_lsbValue {l : List Bool} (h : l.length ≤ 32) : (BitVec.ofNat 32 (lsbValue l)).toNat = lsbValue l := by
  rw [BitVec.toNat_ofNat]
  exact Nat.mod_eq_of_lt ((lsbValue_lt l).trans_le (Nat.pow_le_pow_right (by decide) h))

/-- Settles O16: `readBits_ok` says what is read and left; bits held already are served by `readBits_held`, and else just
the bytes needed are taken (`bytesNeeded`). -/
theorem readbitsReturnsTheNextBits : Obligations.ReadbitsReturnsTheNextBits := by
  unfold Obligations.ReadbitsReturnsTheNextBits
  intro s n src hs hb hn hlen
  obtain ⟨rd', src', hread, hrest, hsound, hbytes, hpos, hnbits⟩ :=
    readBits_ok (bufBytes_pos _) hn hs.br (hs.bound src hb).pos_le hlen
  refine ⟨rd', src', BitVec.ofNat 32 (lsbValue ((streamBits s.br src).take n.toNat)), execBrReadbits_of_some hb hn hread,
    toNat_ofNat_lsbValue ((List.length_take_le _ _).trans hn), hrest, hsound, hbytes, hbytes ▸ hpos, fun hheld => ?_,
    fun hmore => ?_⟩
  · rw [readBits_held hheld src] at hread
    obtain ⟨-, hrd⟩ := Prod.mk.inj hread
    obtain ⟨rfl, rfl⟩ := Prod.mk.inj hrd
    exact ⟨rfl, rfl⟩
  · rw [streamBits_length] at hlen
    rw [hnbits, bytesNeeded]
    omega

end Sys2Proof.Machine
end

section
/-! Proofs: a container unpack that has passed its checks and asks the oracle (20_memory.md R39; 42_mmcmp.md R106 to
R108; 43_pp20.md R121, R122). Which way of `MmEnd` or `PpEnd` it takes then depends on the oracle alone, and for an
MMCMP file on its blocks. -/
namespace Sys2Proof.Machine

/-! ## The oracle refuses (R108, R132) -/

theorem not_allocSucceeds {s : State} {rest : List Bool} (h : s.allocAnswers = false :: rest) : ¬ s.allocSucceeds :=
  fun ha => ha (congrArg List.head? h)

theorem MmEnd.eq_of_refused {s t : State} {rest : List Bool} (he : MmEnd s false t)
    (hh : mmHeaderOk s.params s.src.bytes = true) (hc : mmChecksPass s.params s.src.bytes = true)
    (ha : s.allocAnswers = false :: rest) :
    t = failUnpack .resource { dropOut s with mmu := mmLoadHeader s.src.bytes s.mmu, allocAnswers := rest } := by
  cases he with
  | badHeader hbad => rw [hh] at hbad; cases hbad
  | verified _ hv => cases hv
  | badSize _ _ hbad => rw [hc] at hbad; cases hbad
  | noSpace _ _ _ _ ha' => rw [ha] at ha'; cases ha'; rfl
  | unpacked _ _ _ _ hs | failed _ _ _ _ hs => exact absurd hs (not_allocSucceeds ha)

theorem PpEnd.eq_of_refused {s t : State} {rest : List Bool} (he : PpEnd s false t)
    (hh : ppHeaderOk s.src.bytes = true) (hc : ppChecksPass s.params s.src.bytes = true)
    (ha : s.allocAnswers = false :: rest) :
    t = failUnpack .resource { dropOut s with ppu := ppLoadLen s.src.bytes s.ppu, allocAnswers := rest } := by
  cases he with
  | badHeader hbad => rw [hh] at hbad; cases hbad
  | verified _ hv => cases hv
  | badSize _ _ _ hbad => rw [hc] at hbad; cases hbad
  | noSpace _ _ _ _ ha' => rw [ha] at ha'; cases ha'; rfl
  | unpacked _ _ _ _ hs | failed _ _ _ _ hs => exact absurd hs (not_allocSucceeds ha)

theorem mmHeaderOk_of_valid {p : Params} {bytes : List Byte} (hl : 24 ≤ bytes.length)
    (hv : mmHeaderValid p bytes = true) : mmHeaderOk p bytes = true := by
  rw [mmHeaderOk_eq, hv, decide_eq_true hl]
  rfl

theorem ppHeaderOk_of_valid {bytes : List Byte} (hl : 8 ≤ bytes.length) (hv : ppHeaderValid bytes = true) :
    ppHeaderOk bytes = true := by
  rw [ppHeaderOk_eq, hv, decide_eq_true hl]
  rfl

/-- Settles O40: past the checks a refusal leaves one way to end, whose fields are as stated. -/
theorem refusedAllocationIsResource : Obligations.RefusedAllocationIsResource := by
  unfold Obligations.RefusedAllocationIsResource
  refine fun s rest ha => ⟨fun hl hv hc => ?_, fun hl hv hc => ?_⟩
  · obtain ⟨t, ht, he⟩ := execMmcmpUnpack_end s false
    refine ⟨t, ht, ?_⟩
    rw [he.eq_of_refused (mmHeaderOk_of_valid hl hv) hc ha]
    exact ⟨rfl, rfl, rfl, rfl, rfl⟩
  · obtain ⟨t, ht, he⟩ := execPp20Unpack_end s false
    refine ⟨t, ht, ?_⟩
    rw [he.eq_of_refused (ppHeaderOk_of_valid hl hv) hc ha]
    exact ⟨rfl, rfl, rfl, rfl, rfl⟩

/-! ## The blocks in turn (42_mmcmp.md R106) -/

/-- A block loop that succeeds has decoded its blocks in turn. -/
theorem AfterBlocks.of_mmBlocks_ok {p : Params} {bytes : List Byte} {r0 r' : MmRun} : ∀ {k b : Nat} {r : MmRun},
    AfterBlocks p bytes r0 b r → mmBlocks p bytes k b r = .ok r' → AfterBlocks p bytes r0 (b + k) r'
  | 0, _, _, ha, h => by cases h; exact ha
  | k + 1, b, r, ha, h => by
    unfold mmBlocks at h
    split at h
    · cases h
    · rename_i hd
      rw [Nat.add_comm k, ← Nat.add_assoc]
      exact of_mmBlocks_ok (.next ha hd) h

/-- A block loop that stops has decoded the blocks before the one that stops it. -/
theorem AfterBlocks.of_mmBlocks_error {p : Params} {bytes : List Byte} {r0 : MmRun} {e : Stop MmRun} :
    ∀ {k b : Nat} {r : MmRun}, AfterBlocks p bytes r0 b r → mmBlocks p bytes k b r = .error e →
      ∃ j r1, j < b + k ∧ AfterBlocks p bytes r0 j r1 ∧
        mmDecodeBlock p bytes j { r1 with mm := { r1.mm with blk := j } } = .error e
  | 0, _, _, _, h => nomatch h
  | k + 1, b, r, ha, h => by
    unfold mmBlocks at h
    split at h
    · rename_i hd
      exact ⟨b, r, by omega, ha, hd.trans h⟩
    · rename_i hd
      rw [Nat.add_comm k, ← Nat.add_assoc]
      exact of_mmBlocks_error (.next ha hd) h

/-- The ways of `MmEnd` that are left once the checks are passed and the oracle allows the buffer. -/
inductive MmDecoded (s : State) : State → Prop
  | unpacked (r : MmRun) : r.out.size = (le32At s.src.bytes 14).toNat →
      mmBlocks s.params s.src.bytes (le16At s.src.bytes 12).toNat 0 (mmFirstRun s) = .ok r →
      MmDecoded s (complete 1 { mmPutBack r { dropOut s with allocAnswers := s.allocAnswers.tail } with
        outLen := (le32At s.src.bytes 14).toNat
        outValid := true })
  | failed (r : MmRun) : mmBlocksSound s.src.bytes = false →
      mmBlocks s.params s.src.bytes (le16At s.src.bytes 12).toNat 0 (mmFirstRun s) = .error (.fail r) →
      MmDecoded s (failUnpack .failure (mmPutBack r { dropOut s with allocAnswers := s.allocAnswers.tail }))

theorem MmEnd.decoded {s t : State} (he : MmEnd s false t) (hh : mmHeaderOk s.params s.src.bytes = true)
    (hc : mmChecksPass s.params s.src.bytes = true) (ha : s.allocSucceeds) : MmDecoded s t := by
  cases he with
  | badHeader hbad => rw [hh] at hbad; cases hbad
  | verified _ hv => cases hv
  | badSize _ _ hbad => rw [hc] at hbad; cases hbad
  | noSpace _ _ _ _ ha' => exact absurd ha (not_allocSucceeds ha')
  | unpacked r _ _ _ _ hinv hsize hrun => exact .unpacked r (by rw [hinv.size, hsize]) hrun
  | failed r _ _ _ _ _ hbad hrun => exact .failed r hbad hrun

theorem execMmcmpUnpack_decoded {s : State} (hl : 24 ≤ s.src.bytes.length)
    (hv : mmHeaderValid s.params s.src.bytes = true) (hc : mmChecksPass s.params s.src.bytes = true)
    (ha : s.allocSucceeds) : ∃ t, exec (.mmcmpUnpack false) s = .next t ∧ MmDecoded s t :=
  let ⟨t, ht, he⟩ := execMmcmpUnpack_end s false
  ⟨t, ht, he.decoded (mmHeaderOk_of_valid hl hv) hc ha⟩

/-- Settles O42: the block loop from the first run decodes the blocks in turn, and a file whose blocks pass every check
does not fail in it. -/
theorem soundMmcmpFileUnpacks : Obligations.SoundMmcmpFileUnpacks := by
  unfold Obligations.SoundMmcmpFileUnpacks
  refine ⟨fun s hl hv hc ha => ?_, fun s hl hv hc hsound ha => ?_⟩
  · obtain ⟨t, ht, hd⟩ := execMmcmpUnpack_decoded hl hv hc ha
    rw [← le16At_toNat, ← le32At_toNat, ← le32At_toNat]
    cases hd with
    | unpacked r _ hrun =>
      exact ⟨_, (mmFirstRun s).mm, (mmFirstRun s).out, _, r, ht, rfl, rfl, rfl, OutBuf.fresh_sound _, rfl,
        outRead_fresh _, AfterBlocks.start.of_mmBlocks_ok hrun, rfl, .inl ⟨Nat.zero_add _, rfl, rfl, rfl, rfl, rfl⟩⟩
    | failed r _ hrun =>
      obtain ⟨k, r1, hk, hafter, hstop⟩ := AfterBlocks.start.of_mmBlocks_error hrun
      exact ⟨_, (mmFirstRun s).mm, (mmFirstRun s).out, k, r1, ht, rfl, rfl, rfl, OutBuf.fresh_sound _, rfl,
        outRead_fresh _, hafter, rfl, .inr ⟨by omega, ⟨r, hstop⟩, rfl, rfl, rfl⟩⟩
  · obtain ⟨t, ht, hd⟩ := execMmcmpUnpack_decoded hl hv hc ha
    cases hd with
    | unpacked r hsize _ => exact ⟨_, r.out, ht, rfl, rfl, rfl, rfl, hsize, le32At_toNat _ _, rfl⟩
    | failed _ hbad _ => rw [hsound] at hbad; cases hbad

end Sys2Proof.Machine
end

section
/-! Proofs: the reverse bit reader of PP20 as the stream it reads (20_memory.md R42, 43_pp20.md R124), with both values
of `PP20_UNDERRUN`. -/
namespace Sys2Proof.Machine

section
variable {p : Params} {bytes : List Byte}

/-! ## What stays -/

theorem PpReads.refl {r : PpRun} (h8 : r.pp.bitCnt ≤ 8) : PpReads r r := ⟨_, _, _, rfl, le_refl _, h8⟩

theorem PpReads.bitCnt_le {r r' : PpRun} : PpReads r r' → r'.pp.bitCnt ≤ 8
  | ⟨_, _, _, e, _, h8⟩ => by subst e; exact h8

/-- Of the PPU only `PP_P`, `PP_BYTE` and `PP_BITCNT` move. -/
theorem PpReads.frame {r r' : PpRun} : PpReads r r' →
    { r'.pp with p := r.pp.p, byte := r.pp.byte, bitCnt := r.pp.bitCnt } = r.pp
  | ⟨_, _, _, e, _, _⟩ => by subst e; rfl

/-! ## Reads that the region covers, and underruns under `Fail` -/

/-- The next bits of the region, the first as the most significant. -/
theorem ppBitsFrom_of_le : ∀ (n acc : Nat) (r : PpRun), r.pp.bitCnt ≤ 8 → n ≤ (reverseBits bytes r.pp).length →
    ∃ r', ppBitsFrom p bytes n acc r = .ok (msbValueFrom acc ((reverseBits bytes r.pp).take n), r') ∧
      reverseBits bytes r'.pp = (reverseBits bytes r.pp).drop n ∧ PpReads r r'
  | 0, _, r, h8, _ => ⟨r, rfl, rfl, .refl h8⟩
  | n + 1, acc, r, h8, hn => by
    have hbit := ppBit_spec (p := p) (bytes := bytes) h8
    cases hr : reverseBits bytes r.pp with
    | nil => rw [hr] at hn; cases hn
    | cons b rest =>
      rw [hr] at hbit hn
      obtain ⟨r1, he, hreads, rfl⟩ := hbit
      obtain ⟨r', he', hrest, hreads'⟩ :=
        ppBitsFrom_of_le n (2 * acc + b.toNat) r1 hreads.bitCnt_le (Nat.le_of_succ_le_succ hn)
      refine ⟨r', ?_, hrest, hreads.trans hreads'⟩
      simp only [ppBitsFrom, he, he', List.take_succ_cons, msbValueFrom]

/-- Under `Fail` a read past the region fails where the region ends. -/
theorem ppBitsFrom_underrun_fail (hu : p.pp20Underrun = .fail) : ∀ (n acc : Nat) (r : PpRun), r.pp.bitCnt ≤ 8 →
    (reverseBits bytes r.pp).length < n → ∃ r', ppBitsFrom p bytes n acc r = .error (.fail r') ∧ PpReads r r'
  | 0, _, _, _, hn => absurd hn (Nat.not_lt_zero _)
  | n + 1, acc, r, h8, hn => by
    have hbit := ppBit_spec (p := p) (bytes := bytes) h8
    cases hr : reverseBits bytes r.pp with
    | nil =>
      rw [hr] at hbit
      exact ⟨r, by simp only [ppBitsFrom, hbit.1 hu], .refl h8⟩
    | cons b rest =>
      rw [hr] at hbit hn
      obtain ⟨r1, he, hreads, rfl⟩ := hbit
      obtain ⟨r', he', hreads'⟩ :=
        ppBitsFrom_underrun_fail hu n (2 * acc + b.toNat) r1 hreads.bitCnt_le (Nat.lt_of_succ_lt_succ hn)
      exact ⟨r', by simp only [ppBitsFrom, he, he'], hreads.trans hreads'⟩

/-! ## Reading on under `RepeatLowest` -/

/-- The address whose byte an underrun reads again: `PP_LO`, or `PP_P` where that is lower. -/
def lowestAddr (u : Ppu) : Nat := min u.lo u.p

/-- No fetch moves that address: `PP_P` goes down to `PP_LO` at most. -/
theorem ppFetch_lowestAddr {r r' : PpRun} (h : ppFetch p bytes r = .ok r') : lowestAddr r'.pp = lowestAddr r.pp := by
  unfold ppFetch at h
  split at h
  · cases h
    simp only [lowestAddr, ppLoad]
    omega
  · split at h <;> cases h
    rfl

theorem ppBit_lowestAddr {r r' : PpRun} {v : Nat} (h : ppBit p bytes r = .ok (v, r')) :
    lowestAddr r'.pp = lowestAddr r.pp := by
  unfold ppBit at h
  split at h
  · split at h
    · cases h
    · rename_i hf
      cases h
      exact (ppFetch_lowestAddr hf :)
  · cases h
    rfl

/-- With the region read to its end, the byte at `PP_P` holds all the bits there are once it is loaded. -/
theorem reverseBits_reload {r : PpRun} (h : reverseBits bytes r.pp = []) :
    r.pp.bitCnt = 0 ∧ r.pp.p ≤ r.pp.lo ∧
      reverseBits bytes (ppLoad bytes r.pp.p r).pp = bitsOfByte (byteAt bytes (lowestAddr r.pp)) := by
  have hlen := congrArg List.length h
  simp only [reverseBits, reverseBytes, List.length_append, List.length_map, List.length_range, bitsOfBytes_length,
    List.length_nil] at hlen
  have hp : r.pp.p ≤ r.pp.lo := by omega
  refine ⟨by omega, hp, ?_⟩
  simp [reverseBits, reverseBytes, ppLoad, lowestAddr, bitsOfByte, Nat.sub_eq_zero_of_le hp, Nat.min_eq_right hp]

theorem toNat_decide_eq_one {v : Nat} (h : v < 2) : (decide (v = 1)).toNat = v := by
  rcases Nat.le_one_iff_eq_zero_or_eq_one.1 (Nat.le_of_lt_succ h) with rfl | rfl <;> rfl

/-- Under `RepeatLowest` a bit is the next of the region, or, at its end, the first of the byte read again. -/
theorem ppBit_repeatLowest (hu : p.pp20Underrun = .repeatLowest) {r : PpRun} (h8 : r.pp.bitCnt ≤ 8) :
    ∃ (b : Bool) (r' : PpRun), ppBit p bytes r = .ok (b.toNat, r') ∧ PpReads r r' ∧
      (reverseBits bytes r.pp = b :: reverseBits bytes r'.pp ∨
        reverseBits bytes r.pp = [] ∧ bitsOfByte (byteAt bytes (lowestAddr r.pp)) = b :: reverseBits bytes r'.pp) := by
  cases hr : reverseBits bytes r.pp with
  | cons b rest =>
    have hbit := ppBit_spec (p := p) (bytes := bytes) h8
    rw [hr] at hbit
    obtain ⟨r', he, hreads, rfl⟩ := hbit
    exact ⟨b, r', he, hreads, .inl rfl⟩
  | nil =>
    obtain ⟨h0, hp, hload⟩ := reverseBits_reload hr
    obtain ⟨hbits, hv, hreads⟩ :=
      ppShift_spec (r := ppLoad bytes r.pp.p r) (bytes := bytes) (Nat.succ_ne_zero 7) (le_refl 8)
    refine ⟨_, (ppShift (ppLoad bytes r.pp.p r)).2, ?_, PpReads.trans ⟨_, _, _, rfl, le_refl _, le_refl 8⟩ hreads,
      .inr ⟨rfl, hload.symm.trans hbits⟩⟩
    simp only [ppBit, if_pos h0, ppFetch, if_neg (Nat.not_lt.2 hp), hu, toNat_decide_eq_one hv]

/-- Under `RepeatLowest` a read goes on in the bits of the lowest byte, loaded as often as it takes: what it leaves of
the last one is less than a byte. -/
theorem ppBitsFrom_repeatLowest (hu : p.pp20Underrun = .repeatLowest) : ∀ (n acc : Nat) (r : PpRun), r.pp.bitCnt ≤ 8 →
    ∃ (k : Nat) (bits : List Bool) (r' : PpRun),
      ppBitsFrom p bytes n acc r = .ok (msbValueFrom acc bits, r') ∧ bits.length = n ∧
      reverseBits bytes r.pp ++ bitsOfBytes (List.replicate k (byteAt bytes (lowestAddr r.pp))) =
        bits ++ reverseBits bytes r'.pp ∧
      ((reverseBits bytes r.pp).length < n + 8 → (reverseBits bytes r'.pp).length < 8) ∧ PpReads r r'
  | 0, _, r, h8 => ⟨0, [], r, rfl, rfl, by simp, by simp, .refl h8⟩
  | n + 1, acc, r, h8 => by
    obtain ⟨b, r1, he, hreads, hnext⟩ := ppBit_repeatLowest (bytes := bytes) hu h8
    obtain ⟨k, bits, r', he', hlen, hstream, hleft, hreads'⟩ :=
      ppBitsFrom_repeatLowest hu n (2 * acc + b.toNat) r1 hreads.bitCnt_le
    rw [ppBit_lowestAddr he] at hstream
    have hval : ppBitsFrom p bytes (n + 1) acc r = .ok (msbValueFrom acc (b :: bits), r') := by
      simp only [ppBitsFrom, he, he', msbValueFrom]
    rcases hnext with hregion | ⟨hend, hbyte⟩
    · refine ⟨k, b :: bits, r', hval, congrArg (· + 1) hlen, ?_, fun h => hleft ?_, hreads.trans hreads'⟩
      · rw [hregion, List.cons_append, hstream, List.cons_append]
      · rw [hregion, List.length_cons] at h
        omega
    · refine ⟨k + 1, b :: bits, r', hval, congrArg (· + 1) hlen, ?_, fun _ => hleft ?_, hreads.trans hreads'⟩
      · rw [hend, List.nil_append, List.replicate_succ, bitsOfBytes_cons, hbyte, List.cons_append, hstream,
          List.cons_append]
      · have h := congrArg List.length hbyte
        rw [bitsOfByte_length, List.length_cons] at h
        omega

end

/-- Settles O47: the three reads, from the value 0. -/
theorem reverseReaderIsMsbFirst : Obligations.ReverseReaderIsMsbFirst := by
  unfold Obligations.ReverseReaderIsMsbFirst
  intro p bytes n r h8
  refine ⟨fun hn => ?_, fun hn => ⟨fun hu => ?_, fun hu => ?_⟩⟩
  · obtain ⟨r', he, hrest, hreads⟩ := ppBitsFrom_of_le n 0 r h8 hn
    exact ⟨r', he, hrest, hreads.out, hreads.frame⟩
  · obtain ⟨r', he, hreads⟩ := ppBitsFrom_underrun_fail hu n 0 r h8 hn
    exact ⟨r', he, hreads.out, hreads.frame⟩
  · obtain ⟨k, bits, r', he, hlen, hstream, hleft, hreads⟩ := ppBitsFrom_repeatLowest hu n 0 r h8
    exact ⟨k, bits, r', he, hlen, hstream, hleft (by omega), hreads.out, hreads.frame⟩

end Sys2Proof.Machine
end

section
/-! Proofs: the command word (30_encoding.md R49 to R52). The encoder packs the three fields that the decoder takes
apart, so a word decodes to a command exactly when it is that command's encoding; the rows of R50 by mask and match are
read off that. -/
namespace Sys2Proof.Machine

/-! ## The three fields of a word (R49) -/

theorem packWord_toNat (unit op : BitVec 4) (arg : BitVec 24) :
    (packWord unit op arg).toNat = 2 ^ 28 * unit.toNat + 2 ^ 24 * op.toNat + arg.toNat := by
  simp only [packWord, BitVec.toNat_append]
  have := op.isLt
  have := arg.isLt
  rw [← Nat.shiftLeft_add_eq_or_of_lt (a := unit.toNat) (by omega), ← Nat.shiftLeft_add_eq_or_of_lt (by omega)]
  simp only [Nat.shiftLeft_eq]
  omega

theorem wordUnit_toNat (w : Word) : (wordUnit w).toNat = w.toNat / 2 ^ 28 := by
  simp only [wordUnit, BitVec.extractLsb'_toNat, Nat.shiftRight_eq_div_pow]
  omega

theorem wordOp_toNat (w : Word) : (wordOp w).toNat = w.toNat / 2 ^ 24 % 2 ^ 4 := by
  simp only [wordOp, BitVec.extractLsb'_toNat, Nat.shiftRight_eq_div_pow]

theorem wordArg_toNat (w : Word) : (wordArg w).toNat = w.toNat % 2 ^ 24 := by
  simp only [wordArg, BitVec.extractLsb'_toNat, Nat.shiftRight_zero]

@[simp] theorem wordUnit_packWord (unit op : BitVec 4) (arg : BitVec 24) : wordUnit (packWord unit op arg) = unit := by
  apply BitVec.eq_of_toNat_eq
  rw [wordUnit_toNat, packWord_toNat]
  omega

@[simp] theorem wordOp_packWord (unit op : BitVec 4) (arg : BitVec 24) : wordOp (packWord unit op arg) = op := by
  apply BitVec.eq_of_toNat_eq
  rw [wordOp_toNat, packWord_toNat]
  omega

@[simp] theorem wordArg_packWord (unit op : BitVec 4) (arg : BitVec 24) : wordArg (packWord unit op arg) = arg := by
  apply BitVec.eq_of_toNat_eq
  rw [wordArg_toNat, packWord_toNat]
  omega

/-- A word is its three fields. -/
theorem packWord_of_fields {w : Word} {unit op : BitVec 4} {arg : BitVec 24} (hu : (wordUnit w).toNat = unit.toNat)
    (ho : (wordOp w).toNat = op.toNat) (ha : arg = wordArg w) : packWord unit op arg = w := by
  apply BitVec.eq_of_toNat_eq
  rw [packWord_toNat, ha, wordArg_toNat, ← hu, wordUnit_toNat, ← ho, wordOp_toNat]
  omega

/-! ## The operand bits of `ARG` (R50, R51) -/

theorem argBelow_eq_ok {lo : Nat} {arg : BitVec 24} {i j : Instr} (h : argBelow lo arg i = .ok j) :
    arg >>> lo = 0#24 ∧ i = j := by
  unfold argBelow at h
  split at h
  · exact ⟨‹_›, Except.ok.inj h⟩
  · cases h

theorem argBelow_of_zero {lo : Nat} {arg : BitVec 24} (h : arg >>> lo = 0#24) (i : Instr) : argBelow lo arg i = .ok i :=
  if_pos h

theorem getLsbD_of_ushiftRight_eq_zero {n lo k : Nat} {v : BitVec n} (h : v >>> lo = 0#n) (hk : lo ≤ k) :
    v.getLsbD k = false := by
  have hb := congrArg (BitVec.getLsbD · (k - lo)) h
  simpa [Nat.add_sub_cancel' hk] using hb

theorem getLsbD_argBit {b : Bool} {place k : Nat} (hk : k < 24) :
    (argBit b place).getLsbD k = (decide (k = place) && b) := by
  rcases Nat.lt_trichotomy k place with h | rfl | h
  · simp [argBit, h, h.ne]
  · simp [argBit, hk]
  · simp [argBit, hk, h.ne', h.not_gt, show ¬ k - place = 0 by omega]

/-- `ARG` is its operand field when the bits above the field are zero. -/
theorem setWidth_extractLsb'_of_argBelow {lo : Nat} {arg : BitVec 24} (h : arg >>> lo = 0#24) :
    (arg.extractLsb' 0 lo).setWidth 24 = arg := by
  apply BitVec.eq_of_getLsbD_eq
  intro k hk
  by_cases hlo : k < lo
  · simp [hk, hlo]
  · rw [getLsbD_of_ushiftRight_eq_zero h (Nat.not_lt.1 hlo)]
    simp [hlo]

theorem argBit_of_argBelow {arg : BitVec 24} (h : arg >>> 1 = 0#24) : argBit (arg.getLsbD 0) 0 = arg := by
  apply BitVec.eq_of_getLsbD_eq
  intro k hk
  rw [getLsbD_argBit hk]
  rcases Nat.eq_zero_or_pos k with rfl | h0
  · simp
  · simp [h0.ne', getLsbD_of_ushiftRight_eq_zero h h0]

theorem argBits_of_argBelow {arg : BitVec 24} (h : arg >>> 2 = 0#24) :
    argBit (arg.getLsbD 0) 0 ||| argBit (arg.getLsbD 1) 1 = arg := by
  apply BitVec.eq_of_getLsbD_eq
  intro k hk
  rw [BitVec.getLsbD_or, getLsbD_argBit hk, getLsbD_argBit hk]
  match k, hk with
  | 0, _ => simp
  | 1, _ => simp
  | k + 2, _ => simp [getLsbD_of_ushiftRight_eq_zero h (Nat.le_add_left 2 k)]

/-! ## Round trips (R50, R51) -/

/-- Settles O2: a row of the decoder fixes `UNIT` and `OP`, and what it reads from `ARG` is all of it, since the bits
above are zero. -/
theorem encodeOfDecode : Obligations.EncodeOfDecode := by
  unfold Obligations.EncodeOfDecode
  intro w i h
  unfold decode at h
  simp only at h
  split at h
  case h_1 hu ho | h_3 hu ho | h_5 hu ho | h_7 hu ho =>
    obtain ⟨ha, rfl⟩ := argBelow_eq_ok h
    exact packWord_of_fields hu ho ha.symm
  case h_2 hu ho =>
    obtain ⟨ha, rfl⟩ := argBelow_eq_ok h
    exact packWord_of_fields hu ho (setWidth_extractLsb'_of_argBelow ha)
  case h_4 hu ho =>
    obtain ⟨ha, rfl⟩ := argBelow_eq_ok h
    exact packWord_of_fields hu ho (argBits_of_argBelow ha)
  case h_6 hu ho | h_8 hu ho =>
    obtain ⟨ha, rfl⟩ := argBelow_eq_ok h
    exact packWord_of_fields hu ho (argBit_of_argBelow ha)
  all_goals cases h

/-- The bit count of `BR.READBITS` fills its field and nothing above it. -/
theorem decode_encode_brReadbits (n : BitVec 6) : decode (encode (.brReadbits n)) = .ok (.brReadbits n) := by
  have hhigh : n.setWidth 24 >>> 6 = 0#24 := by
    apply BitVec.eq_of_getLsbD_eq
    intro k hk
    simp
  have hlow : (n.setWidth 24).extractLsb' 0 6 = n := by
    apply BitVec.eq_of_getLsbD_eq
    intro k hk
    simp [hk, show k < 24 by omega]
  simp only [decode, encode, wordUnit_packWord, wordOp_packWord, wordArg_packWord, hlow]
  exact argBelow_of_zero hhigh _

/-- Settles O1: every other command has at most four encodings. -/
theorem decodeOfEncode : Obligations.DecodeOfEncode := by
  unfold Obligations.DecodeOfEncode
  intro i
  cases i with
  | brReadbits n => exact decode_encode_brReadbits n
  | itDecode is215 is16 => revert is215 is16; decide
  | mmcmpUnpack verify | pp20Unpack verify => revert verify; decide
  | brBind | brGetpos | mmcmpProbe | pp20Probe => rfl

/-! ## The rows of the command table (R50) -/

/-- Decoding and encoding are each other's inverse. -/
theorem decode_eq_ok_iff {w : Word} {i : Instr} : decode w = .ok i ↔ w = encode i :=
  ⟨fun h => (encodeOfDecode w i h).symm, fun h => h ▸ decodeOfEncode i⟩

/-- A word is known by its bits from `lo` up and those below. -/
theorem eq_iff_high_and_low {w v : Word} (lo : Nat) : w = v ↔
    w &&& BitVec.allOnes 32 <<< lo = v &&& BitVec.allOnes 32 <<< lo ∧ w.extractLsb' 0 lo = v.extractLsb' 0 lo := by
  refine ⟨fun h => h ▸ ⟨rfl, rfl⟩, fun ⟨hhigh, hlow⟩ => BitVec.eq_of_getLsbD_eq fun k hk => ?_⟩
  by_cases h : k < lo
  · simpa [h] using congrArg (BitVec.getLsbD · k) hlow
  · have hbit := congrArg (BitVec.getLsbD · k) hhigh
    simpa only [BitVec.getLsbD_and, BitVec.getLsbD_shiftLeft, BitVec.getLsbD_allOnes, hk, h, decide_true, decide_false,
      Bool.not_false, Bool.true_and, show k - lo < 32 by omega, Bool.and_true] using hbit

open Laws.EncodedFixedBits in
theorem encode_and_rowMask (i : Instr) : encode i &&& rowMask i = rowMatch i := by
  cases i with
  | brBind => exact brBind
  | brReadbits n => exact brReadbits n
  | brGetpos => exact brGetpos
  | itDecode is215 is16 => exact itDecode is215 is16
  | mmcmpProbe => exact mmcmpProbe
  | mmcmpUnpack verify => exact mmcmpUnpack verify
  | pp20Probe => exact pp20Probe
  | pp20Unpack verify => exact pp20Unpack verify

/-- A word decodes to the command of a row when it has the row's fixed bits, those from `lo` up, and the operand bits
below them. -/
theorem decode_eq_ok_iff_mask {w : Word} {i : Instr} (lo : Nat)
    (hmask : Laws.EncodedFixedBits.rowMask i = BitVec.allOnes 32 <<< lo) :
    decode w = .ok i ↔ w &&& Laws.EncodedFixedBits.rowMask i = Laws.EncodedFixedBits.rowMatch i ∧
      w.extractLsb' 0 lo = (encode i).extractLsb' 0 lo := by
  rw [decode_eq_ok_iff, eq_iff_high_and_low lo, ← hmask, encode_and_rowMask]

theorem decode_eq_ok_iff_mask_of_noOperand {w : Word} {i : Instr}
    (hmask : Laws.EncodedFixedBits.rowMask i = 0xFFFFFFFF#32) :
    decode w = .ok i ↔ w &&& Laws.EncodedFixedBits.rowMask i = Laws.EncodedFixedBits.rowMatch i :=
  (decode_eq_ok_iff_mask 0 hmask).trans (and_iff_left (BitVec.eq_of_zero_length rfl))

/-- Settles O3: the fixed bits by `decode_eq_ok_iff_mask`; the operand bits of each row are its fields. -/
theorem commandWordsByMatchAndMask : Obligations.CommandWordsByMatchAndMask := by
  unfold Obligations.CommandWordsByMatchAndMask
  have hcount : ∀ n : BitVec 6, (encode (.brReadbits n)).extractLsb' 0 6 = n := by decide
  have hmodes : ∀ (v : BitVec 2) (is215 is16 : Bool), v = (encode (.itDecode is215 is16)).extractLsb' 0 2 ↔
      is215 = v.getLsbD 0 ∧ is16 = v.getLsbD 1 := by decide
  have hmmcmp : ∀ (v : BitVec 1) (verify : Bool), v = (encode (.mmcmpUnpack verify)).extractLsb' 0 1 ↔
      verify = v.getLsbD 0 := by decide
  have hpp20 : ∀ (v : BitVec 1) (verify : Bool), v = (encode (.pp20Unpack verify)).extractLsb' 0 1 ↔
      verify = v.getLsbD 0 := by decide
  have hlow : ∀ (w : Word) {k lo : Nat}, k < lo → (w.extractLsb' 0 lo).getLsbD k = w.getLsbD k := fun w k lo h => by
    simp [h]
  refine fun w => ⟨decode_eq_ok_iff_mask_of_noOperand rfl, fun n => ?_, decode_eq_ok_iff_mask_of_noOperand rfl,
    fun is215 is16 => ?_, decode_eq_ok_iff_mask_of_noOperand rfl, fun verify => ?_,
    decode_eq_ok_iff_mask_of_noOperand rfl, fun verify => ?_⟩
  · rw [decode_eq_ok_iff_mask 6 rfl, hcount, eq_comm (b := n)]
    rfl
  · rw [decode_eq_ok_iff_mask 2 rfl, hmodes, hlow w (by decide), hlow w (by decide)]
    rfl
  · rw [decode_eq_ok_iff_mask 1 rfl, hmmcmp, hlow w (by decide)]
    rfl
  · rw [decode_eq_ok_iff_mask 1 rfl, hpp20, hlow w (by decide)]
    rfl

/-! ## Reserved words (R52, R134) and written words (R53) -/

theorem runCommand_of_reserved {w : Word} {e : DecodeReject} (h : decode w = .error e) (s : State) :
    runCommand w s = .next (refuse { s with cmd := w }) := by
  unfold runCommand
  rw [h]

/-- The one command with an illegal operand is refused, bound or not (40_bitreader.md R82). -/
theorem exec_of_not_wellFormed {i : Instr} (h : i.wellFormed = false) (s : State) : exec i s = .next (refuse s) := by
  cases i with
  | brReadbits n =>
    have hn : 32 < n.toNat := Nat.not_le.1 (of_decide_eq_false h)
    show execBrReadbits n s = _
    unfold execBrReadbits
    split
    · rfl
    · exact if_pos hn
  | brBind | brGetpos | itDecode | mmcmpProbe | mmcmpUnpack | pp20Probe | pp20Unpack => cases h

/-- Settles O4: the write runs the word, which the decoder or the command refuses. -/
theorem reservedWordsAreRefused : Obligations.ReservedWordsAreRefused := by
  unfold Obligations.ReservedWordsAreRefused
  intro s w rest hs hw
  rw [step_of_script hs]
  show runCommand w _ = _
  cases hd : decode w with
  | error e => exact runCommand_of_reserved hd _
  | ok i => exact (runCommand_of_decode hd _).trans (exec_of_not_wellFormed (hw i hd) _)

/-- Settles O5. -/
theorem writtenWordsDecode : Obligations.WrittenWordsDecode := by
  unfold Obligations.WrittenWordsDecode
  simp only [decode_eq_ok_iff]
  decide

end Sys2Proof.Machine
end

section
/-! Proofs: the symbols of an IT payload (30_encoding.md R56 to R62). The reader gives the number a symbol starts with;
each mode then tells a width change from a delta by where that number lies. -/
namespace Sys2Proof.Machine

/-! ## The number a symbol starts with (R58 to R61) -/

/-- The two's complement of a delta that `n` bits carry. -/
theorem toNat_emod_two_pow {n : Nat} {d : Int} (hn : 0 < n) (h1 : -((2 ^ (n - 1) : Nat) : Int) ≤ d)
    (h2 : d < ((2 ^ (n - 1) : Nat) : Int)) :
    (((d % ((2 ^ n : Nat) : Int)).toNat : Nat) : Int) = if d < 0 then d + 2 * ((2 ^ (n - 1) : Nat) : Int) else d := by
  have hp : 2 ^ n = 2 * 2 ^ (n - 1) := by rw [← Nat.pow_succ']; congr 1; omega
  rw [hp]
  generalize 2 ^ (n - 1) = T at *
  split
  · rw [← Int.add_emod_right, Int.emod_eq_of_lt (by omega) (by omega)]
    omega
  · rw [Int.emod_eq_of_lt (by omega) (by omega)]
    omega

theorem convertWidth_of_lt {cur w : Nat} (h : w < cur) : convertWidth cur w = w - 1 := if_pos h

theorem convertWidth_of_gt {cur w : Nat} (h : cur < w) : convertWidth cur w = w - 2 := if_neg (by omega)

/-- `ChangeWidth` undoes `ConvertWidth` (R57). -/
theorem changeWidth_convertWidth {cur w : Nat} (hcur : 1 ≤ cur) (hw : 1 ≤ w) (hne : w ≠ cur) :
    changeWidth cur (convertWidth cur w) = w := by
  unfold changeWidth
  rcases Nat.lt_or_gt_of_ne hne with h | h
  · rw [convertWidth_of_lt h, if_neg (by omega), Nat.sub_add_cancel hw]
  · rw [convertWidth_of_gt h, if_pos (by omega), Nat.sub_add_cancel (by omega)]

/-- A width other than the current one has one of `defWidth - 1` indices. -/
theorem convertWidth_le {is16 : Bool} {cur w : Nat} (hcur : cur ≤ defWidth is16) (hw : w ≤ defWidth is16) (hne : w ≠ cur) :
    convertWidth cur w ≤ defWidth is16 - 2 := by
  rcases Nat.lt_or_gt_of_ne hne with h | h
  · rw [convertWidth_of_lt h]
    omega
  · rw [convertWidth_of_gt h]
    omega

/-- The indices fill the fetch of Mode A and the interval of Mode B (10_state.md R22). -/
theorem defWidth_indices (is16 : Bool) :
    2 ^ fetchA is16 = defWidth is16 - 1 ∧ upperB is16 - lowerB is16 = (defWidth is16 - 2 : Nat) ∧
      lowerB is16 < 0 ∧ 0 < upperB is16 ∧ itW is16 = defWidth is16 - 1 ∧ 9 ≤ defWidth is16 ∧ defWidth is16 ≤ 17 := by
  revert is16
  decide

/-! ## One symbol (R56, R89 to R93) -/

/-- The mode of the current width acts on the number read. -/
def itMode (p : Params) (v : Nat) (r : ItRun) : Except Fault (LoopControl × ItRun) :=
  if r.itd.width ≤ 6 then itModeA p v (2 ^ (r.itd.width - 1)) r
  else if r.itd.width < defWidth r.itd.is16 then itModeB v (2 ^ (r.itd.width - 1)) r
  else itModeC v (2 ^ (r.itd.width - 1)) r

section
variable {p : Params} {r : ItRun} {rest : List Bool}

/-- A symbol is its number, read in the current width, and what its mode makes of it. -/
theorem itSymbol_of_bits {v : Nat} (hs : r.itd.br.Sound p.bufBytes) (hw : r.itd.width ≤ defWidth r.itd.is16)
    (hv : v < 2 ^ r.itd.width) (hb : r.itd.br.bits = bitsOfNat r.itd.width v ++ rest) :
    ∃ br : PrivateReader, br.Sound p.bufBytes ∧ br.bits = rest ∧
      itSymbol p r = itMode p v { r with itd := { r.itd with br := br } } := by
  have hdef := (defWidth_indices r.itd.is16).2.2.2.2.2.2
  obtain ⟨br, hread, hbr, hrest⟩ := itRead_of_bits (by omega) hs hb
  refine ⟨br, hbr, hrest, ?_⟩
  rw [Nat.mod_eq_of_lt hv] at hread
  unfold itSymbol itMode
  simp only [if_neg (Nat.not_lt.2 hw), hread]

theorem itModeA_sample {v : Nat} (hv : v ≠ 2 ^ (r.itd.width - 1)) :
    itModeA p v (2 ^ (r.itd.width - 1)) r = itSample (sextNat r.itd.width v) r := if_neg hv

theorem itModeA_marker {idx : Nat} (hs : r.itd.br.Sound p.bufBytes) (hidx : idx < 2 ^ fetchA r.itd.is16)
    (hb : r.itd.br.bits = bitsOfNat (fetchA r.itd.is16) idx ++ rest) :
    ∃ br : PrivateReader, br.Sound p.bufBytes ∧ br.bits = rest ∧
      itModeA p (2 ^ (r.itd.width - 1)) (2 ^ (r.itd.width - 1)) r =
        .ok (.again, { r with itd := { r.itd with br := br, width := changeWidth r.itd.width idx } }) := by
  obtain ⟨br, hread, hbr, hrest⟩ := itRead_of_bits (by unfold fetchA; split <;> omega) hs hb
  refine ⟨br, hbr, hrest, ?_⟩
  rw [Nat.mod_eq_of_lt hidx] at hread
  unfold itModeA
  simp only [if_true, hread]
  rfl

theorem itModeB_sample {v : Nat}
    (hv : (v : Int) < ((2 ^ (r.itd.width - 1) : Nat) : Int) + lowerB r.itd.is16 ∨
      ((2 ^ (r.itd.width - 1) : Nat) : Int) + upperB r.itd.is16 < v) :
    itModeB v (2 ^ (r.itd.width - 1)) r = itSample (sextNat r.itd.width v) r := if_neg (by omega)

theorem itModeB_marker {v idx : Nat} (hv : (v : Int) = ((2 ^ (r.itd.width - 1) : Nat) : Int) + lowerB r.itd.is16 + idx)
    (hidx : (idx : Int) ≤ upperB r.itd.is16 - lowerB r.itd.is16) :
    itModeB v (2 ^ (r.itd.width - 1)) r = .ok (.again, itSetWidth (changeWidth r.itd.width idx) r) := by
  unfold itModeB
  rw [if_pos (by omega), hv, show ∀ a b : Int, a + b - a = b from fun a b => by omega, Int.toNat_natCast]

theorem itModeC_sample {v : Nat} (hv : v < 2 ^ (r.itd.width - 1)) :
    itModeC v (2 ^ (r.itd.width - 1)) r = itSample v r := by
  unfold itModeC
  rw [if_neg (by simp [Nat.testBit_lt_two_pow hv]), Nat.mod_eq_of_lt hv]

theorem itModeC_marker {m : Nat} (hm : m < 2 ^ (r.itd.width - 1)) :
    itModeC (2 ^ (r.itd.width - 1) + m) (2 ^ (r.itd.width - 1)) r = .ok (.again, itSetWidth (m + 1) r) := by
  unfold itModeC
  rw [if_pos, Nat.add_mod_left, Nat.mod_eq_of_lt hm]
  rw [Nat.testBit_two_pow_add_eq, Nat.testBit_lt_two_pow hm]
  rfl

end

/-! ## Legal symbols -/

theorem toNat_emod_lt (d : Int) (n : Nat) : (d % ((2 ^ n : Nat) : Int)).toNat < 2 ^ n := by
  have hpos : (0 : Int) < ((2 ^ n : Nat) : Int) := by exact_mod_cast Nat.two_pow_pos n
  have := Int.emod_lt_of_pos d hpos
  have := Int.emod_nonneg d hpos.ne'
  omega

theorem symbolValue_delta {is16 : Bool} {cur : Nat} (hcur : cur ≤ defWidth is16) (d : Int) :
    symbolValue is16 cur (.delta d) =
      (d % ((2 ^ (if cur < defWidth is16 then cur else cur - 1) : Nat) : Int)).toNat := by
  have hW : itW is16 = defWidth is16 - 1 := (defWidth_indices is16).2.2.2.2.1
  unfold symbolValue
  simp only
  split
  · rfl
  · rw [hW, show cur = defWidth is16 by omega]

theorem symbolValue_delta_lt {is16 : Bool} {cur : Nat} (hcur : cur ≤ defWidth is16) (d : Int) :
    symbolValue is16 cur (.delta d) < 2 ^ cur := by
  rw [symbolValue_delta hcur]
  refine (toNat_emod_lt d _).trans_le (Nat.pow_le_pow_right (by decide) ?_)
  split <;> omega

/-- A legal delta's number is taken for a sample of that delta. -/
theorem itMode_delta {p : Params} {r : ItRun} {d : Int} (h1 : 1 ≤ r.itd.width) (hw : r.itd.width ≤ defWidth r.itd.is16)
    (hok : symbolOk r.itd.is16 r.itd.width (.delta d) = true) :
    itMode p (symbolValue r.itd.is16 r.itd.width (.delta d)) r = itSample d r := by
  obtain ⟨-, -, hlow, hup, hW, hdef, -⟩ := defWidth_indices r.itd.is16
  rw [symbolValue_delta hw]
  unfold itMode
  by_cases hA : r.itd.width ≤ 6
  · simp only [symbolOk, if_pos hA, Bool.and_eq_true, decide_eq_true_eq] at hok
    obtain ⟨hlo, hhi⟩ := hok
    have hnum := toNat_emod_two_pow h1 hlo.le hhi
    rw [if_pos (show _ < _ by omega), if_pos hA, itModeA_sample (by split at hnum <;> omega), sextNat_emod h1 hlo.le hhi]
  · by_cases hB : r.itd.width < defWidth r.itd.is16
    · simp only [symbolOk, if_neg hA, if_pos hB, Bool.and_eq_true, decide_eq_true_eq] at hok
      obtain ⟨hlo, hhi⟩ := hok
      have hlo' : -((2 ^ (r.itd.width - 1) : Nat) : Int) ≤ d := by omega
      have hhi' : d < ((2 ^ (r.itd.width - 1) : Nat) : Int) := by omega
      have hnum := toNat_emod_two_pow h1 hlo' hhi'
      rw [if_pos hB, if_neg hA, if_pos hB, itModeB_sample (by split at hnum <;> omega), sextNat_emod h1 hlo' hhi']
    · have hnonneg := Int.emod_nonneg d (b := ((2 ^ (r.itd.width - 1) : Nat) : Int)) (by positivity)
      rw [if_neg hB, if_neg hA, if_neg hB, itModeC_sample (toNat_emod_lt d _), Int.toNat_of_nonneg hnonneg,
        show r.itd.width - 1 = itW r.itd.is16 by omega]
      unfold itSample
      rw [itWrite_emod]

section
variable {is16 : Bool} {cur w : Nat}

theorem symbolOk_width (h : symbolOk is16 cur (.width w) = true) : 1 ≤ w ∧ w ≤ defWidth is16 ∧ w ≠ cur := by
  simpa only [symbolOk, Bool.and_eq_true, decide_eq_true_eq, and_assoc] using h

/-- A legal width change's number: the top bit, in Mode B `lowerB` and the index from it, in Mode C the width below it. -/
theorem symbolValue_width (h1 : 1 ≤ cur) (hcur : cur ≤ defWidth is16) (hok : symbolOk is16 cur (.width w) = true) :
    (symbolValue is16 cur (.width w) : Int) = ((2 ^ (cur - 1) : Nat) : Int) +
        (if cur ≤ 6 then 0 else if cur < defWidth is16 then lowerB is16 + convertWidth cur w else (w - 1 : Nat)) ∧
      symbolValue is16 cur (.width w) < 2 ^ cur := by
  obtain ⟨-, hspan, hlow, hup, -, hdef, hdef'⟩ := defWidth_indices is16
  obtain ⟨hw1, hwd, hne⟩ := symbolOk_width hok
  have htwo : 2 ^ cur = 2 * 2 ^ (cur - 1) := by rw [← Nat.pow_succ']; congr 1; omega
  have hpos := Nat.two_pow_pos (cur - 1)
  unfold symbolValue
  simp only
  split
  · omega
  · have htop : 2 ^ 6 ≤ 2 ^ (cur - 1) := Nat.pow_le_pow_right (by decide) (by omega)
    have hnonneg := topBit_add_lowerB_nonneg (w := cur) (by omega) is16
    have hidx := convertWidth_le hcur hwd hne
    have hupB : upperB is16 ≤ 7 := by cases is16 <;> decide
    split <;> omega

end

/-- A legal width change is taken for one, with the index after it in Mode A. -/
theorem itMode_width {p : Params} {r : ItRun} {w : Nat} {rest : List Bool} (hs : r.itd.br.Sound p.bufBytes)
    (h1 : 1 ≤ r.itd.width) (hw : r.itd.width ≤ defWidth r.itd.is16)
    (hok : symbolOk r.itd.is16 r.itd.width (.width w) = true)
    (hb : r.itd.br.bits =
      (if r.itd.width ≤ 6 then bitsOfNat (fetchA r.itd.is16) (convertWidth r.itd.width w) else []) ++ rest) :
    ∃ br : PrivateReader, br.Sound p.bufBytes ∧ br.bits = rest ∧
      itMode p (symbolValue r.itd.is16 r.itd.width (.width w)) r =
        .ok (.again, { r with itd := { r.itd with br := br, width := w } }) := by
  obtain ⟨hfetch, hspan, -, -, -, hdef, hdef'⟩ := defWidth_indices r.itd.is16
  obtain ⟨hw1, hwd, hne⟩ := symbolOk_width hok
  have hidx := convertWidth_le hw hwd hne
  have hchange := changeWidth_convertWidth h1 hw1 hne
  have hval := (symbolValue_width h1 hw hok).1
  unfold itMode
  by_cases hA : r.itd.width ≤ 6
  · rw [if_pos hA] at hb hval
    obtain ⟨br, hbr, hrest, hmode⟩ := itModeA_marker hs (by omega) hb
    rw [hchange] at hmode
    exact ⟨br, hbr, hrest, by rw [if_pos hA, show symbolValue _ _ _ = 2 ^ (r.itd.width - 1) by omega, hmode]⟩
  · rw [if_neg hA] at hb hval
    refine ⟨r.itd.br, hs, hb, ?_⟩
    rw [if_neg hA]
    by_cases hB : r.itd.width < defWidth r.itd.is16
    · rw [if_pos hB, ← Int.add_assoc] at hval
      rw [if_pos hB, itModeB_marker hval (by omega), hchange]
      rfl
    · have htop : 2 ^ 8 ≤ 2 ^ (r.itd.width - 1) := Nat.pow_le_pow_right (by decide) (by omega)
      rw [if_neg hB] at hval
      rw [if_neg hB, show symbolValue _ _ _ = 2 ^ (r.itd.width - 1) + (w - 1) by omega, itModeC_marker (by omega),
        Nat.sub_add_cancel hw1]
      rfl

/-- Settles O33: the number is read in the current width, and then the mode takes it for what the symbol says. -/
theorem symbolsDecodeAsEncoded : Obligations.SymbolsDecodeAsEncoded := by
  unfold Obligations.SymbolsDecodeAsEncoded
  intro p r x rest hs h1 hw hok hb
  have hbits := hb.trans (List.append_assoc _ _ _)
  cases x with
  | delta d =>
    obtain ⟨br, hbr, hrest, hsym⟩ := itSymbol_of_bits hs hw (symbolValue_delta_lt hw d) hbits
    exact ⟨br, hbr, hrest, hsym.trans (itMode_delta (r := { r with itd := { r.itd with br := br } }) h1 hw hok)⟩
  | width w =>
    obtain ⟨br, hbr, hrest, hsym⟩ := itSymbol_of_bits hs hw (symbolValue_width h1 hw hok).2 hbits
    obtain ⟨br', hbr', hrest', hmode⟩ :=
      itMode_width (r := { r with itd := { r.itd with br := br } }) hbr h1 hw hok hrest
    exact ⟨br', hbr', hrest', hsym.trans hmode⟩

end Sys2Proof.Machine
end

section
/-! Proofs: the codes of a packed MMCMP block (30_encoding.md R68, R69; 42_mmcmp.md R113, R114, R116). One lemma says
what reading a code does to a stream that holds the code, or all of it but some bits at its end. -/
namespace Sys2Proof.Machine

/-! ## Streams that hold a field, or end in it -/

/-- The run with its reader at another place. -/
def MmRun.setReader (r : MmRun) (br : PrivateReader) : MmRun := { r with mm := { r.mm with br := br } }

/-- What a read does to a run whose reader holds some field, less the bits `missing` at its end, and then `rest`: it
moves past the field and answers as `next` says, or, where the stream ends before, it answers `short`. -/
def MmReads {α : Type} (p : Params) (r : MmRun) (missing rest : List Bool) (short : α) (next : MmRun → α × MmRun)
    (x : α × MmRun) : Prop :=
  (missing ≠ [] ∧ ∃ r', x = (short, r')) ∨
    ∃ br : PrivateReader, br.Sound p.bufBytes ∧ br.bits ++ missing = rest ∧ x = next (r.setReader br)

section
variable {p : Params} {is16 : Bool} {r : MmRun} {missing rest : List Bool}

/-- Where the field ends the stream does not matter to what is read after it. -/
theorem MmReads.bind {α : Type} {rest' : List Bool} {short : α} {next next' : MmRun → α × MmRun} {x : α × MmRun}
    (h : MmReads p r missing rest short next x)
    (hnext : ∀ br : PrivateReader, br.Sound p.bufBytes → br.bits ++ missing = rest →
      MmReads p (r.setReader br) missing rest' short next'
        (next (r.setReader br))) :
    MmReads p r missing rest' short next' x := by
  rcases h with hshort | ⟨br, hbr, hrest, rfl⟩
  · exact .inl hshort
  · exact hnext br hbr hrest

theorem mmRead_reads {n v : Nat} (hn : n ≤ 32) (hv : v < 2 ^ n) (hs : r.mm.br.Sound p.bufBytes)
    (hb : r.mm.br.bits ++ missing = bitsOfNat n v ++ rest) :
    MmReads p r missing rest none (fun r' => (some v, r')) (mmRead p n r) := by
  rcases Nat.lt_or_ge r.mm.br.bits.length n with hl | hl
  · refine .inl ⟨fun hm => ?_, _, Prod.ext (mmRead_short hn hs hl) rfl⟩
    have := congrArg List.length hb
    rw [hm, List.append_nil, List.length_append, bitsOfNat_length] at this
    omega
  · obtain ⟨tail, htail⟩ := List.prefix_of_prefix_length_le ⟨rest, hb.symm⟩ ⟨missing, rfl⟩
      ((bitsOfNat_length n v).trans_le hl)
    obtain ⟨br, hread, hbr, hrest⟩ := mmRead_of_bits hn hs htail.symm
    rw [Nat.mod_eq_of_lt hv] at hread
    rw [← htail, List.append_assoc] at hb
    exact .inr ⟨br, hbr, by rw [hrest]; exact List.append_cancel_left hb, hread⟩

/-- A read whose short answer is an end of data, and what is done with the number read. -/
theorem MmReads.then {n v : Nat} {x : MmCode × MmRun} {next : MmRun → MmCode × MmRun}
    (h : MmReads p r missing rest none (fun r' => (some v, r')) (mmRead p n r))
    (hnone : ∀ r', mmRead p n r = (none, r') → x = (.eod, r'))
    (hsome : ∀ br, mmRead p n r = (some v, r.setReader br) → x = next (r.setReader br)) : MmReads p r missing rest .eod next x := by
  rcases h with ⟨hm, r', hread⟩ | ⟨br, hbr, hrest, hread⟩
  · exact .inl ⟨hm, r', hnone r' hread⟩
  · exact .inr ⟨br, hbr, hrest, hsome br hread⟩

/-! ## The parts of a code (R69) -/

theorem codeFields_le {n : Nat} (hn : n < codeWidths is16) : n + 1 ≤ 32 ∧ fetchTable is16 n ≤ 32 ∧ extBits is16 ≤ 32 := by
  have := codeWidths_le is16
  have := fetchTable_le is16 n hn
  exact ⟨by omega, by omega, by cases is16 <;> decide⟩

theorem mmReadCode_value {v : Nat} (hw : r.mm.codeWidth < codeWidths is16) (hs : r.mm.br.Sound p.bufBytes)
    (hv : v < cmdTable is16 r.mm.codeWidth)
    (hb : r.mm.br.bits ++ missing = bitsOfNat (r.mm.codeWidth + 1) v ++ rest) :
    MmReads p r missing rest .eod (fun r' => (.value v, r')) (mmReadCode p is16 r) := by
  have hfit := (codeTables_fit hw).1
  refine (mmRead_reads (codeFields_le hw).1 (hv.trans hfit) hs hb).then (fun r' hread => ?_) (fun br hread => ?_) <;>
    unfold mmReadCode <;> simp only [hread]
  exact if_pos hv

/-- What follows an escape that names the width index `m`: nothing, or, for the current one, an extended value. -/
def mmEscaped (p : Params) (is16 : Bool) (m : Nat) (r : MmRun) : MmCode × MmRun :=
  if m ≠ r.mm.codeWidth then (.width m, r) else mmExtended p is16 r

theorem mmEscaped_same (br : PrivateReader) :
    mmEscaped p is16 r.mm.codeWidth (r.setReader br) = mmExtended p is16 (r.setReader br) := if_neg (not_not.2 rfl)

theorem mmReadCode_escaped {m : Nat} (hw : r.mm.codeWidth < codeWidths is16) (hs : r.mm.br.Sound p.bufBytes)
    (hm : m < codeWidths is16) (hb : r.mm.br.bits ++ missing = escapeBits is16 r.mm.codeWidth m ++ rest) :
    MmReads p r missing rest .eod (mmEscaped p is16 m) (mmReadCode p is16 r) := by
  obtain ⟨hcode, hfetch, -⟩ := codeFields_le hw
  unfold escapeBits at hb
  rw [← bitsOfNat_mod _ m, List.append_assoc] at hb
  rcases mmRead_reads hcode ((codeTables_fit hw).2 m hm) hs hb with ⟨hmissing, r1, hread⟩ | ⟨br, hbr, hrest, hread⟩
  · exact .inl ⟨hmissing, r1, by unfold mmReadCode; simp only [hread]⟩
  · have hlow := Nat.mod_lt m (Nat.two_pow_pos (fetchTable is16 r.mm.codeWidth))
    refine MmReads.then (r := r.setReader br) (mmRead_reads hfetch hlow hbr hrest)
      (fun r' hread' => ?_) (fun br' hread' => ?_) <;>
      unfold mmReadCode <;>
      simp only [hread, if_neg (Nat.not_lt.2 (Nat.le_add_right _ _)), hread', Nat.add_sub_cancel_left,
        Nat.mul_comm (m / _), Nat.mod_add_div]
    rfl

/-- The extended value after an escape to the same width: below the last one it ends the code. -/
theorem mmExtended_value {x : Nat} (hx : x < 2 ^ extBits is16 - 1) (hs : r.mm.br.Sound p.bufBytes)
    (hb : r.mm.br.bits ++ missing = bitsOfNat (extBits is16) x ++ rest) :
    MmReads p r missing rest .eod (fun r' => (.value (extBase is16 + x), r')) (mmExtended p is16 r) := by
  have hext : extBits is16 ≤ 32 := by cases is16 <;> decide
  refine (mmRead_reads hext (by omega) hs hb).then (fun r' hread => ?_) (fun br hread => ?_) <;>
    unfold mmExtended <;> simp only [hread]
  exact if_neg hx.ne

/-- The last extended value has a bit after it, which tells it from the end code. -/
theorem mmExtended_last {b : Bool} (hs : r.mm.br.Sound p.bufBytes)
    (hb : r.mm.br.bits ++ missing = bitsOfNat (extBits is16) (2 ^ extBits is16 - 1) ++ b :: rest) :
    MmReads p r missing rest .eod
      (fun r' => (if b then .stop else .value (extBase is16 + (2 ^ extBits is16 - 1)), r')) (mmExtended p is16 r) := by
  have hext : extBits is16 ≤ 32 := by cases is16 <;> decide
  have hlast : 2 ^ extBits is16 - 1 < 2 ^ extBits is16 := Nat.sub_lt (Nat.two_pow_pos _) Nat.one_pos
  have hbit : b :: rest = bitsOfNat 1 b.toNat ++ rest := by cases b <;> rfl
  rw [hbit] at hb
  rcases mmRead_reads hext hlast hs hb with ⟨hmissing, r1, hread⟩ | ⟨br, hbr, hrest, hread⟩
  · exact .inl ⟨hmissing, r1, by unfold mmExtended; simp only [hread]⟩
  · refine MmReads.then (r := r.setReader br)
      (mmRead_reads (by decide) (Bool.toNat_lt b) hbr hrest) (fun r' hread' => ?_) (fun br' hread' => ?_) <;>
      unfold mmExtended <;> simp only [hread, if_true, hread']
    cases b <;> rfl

/-- Every code that can be written is read as what it says. -/
theorem mmReadCode_reads {c : MmCode} (hw : r.mm.codeWidth < codeWidths is16) (hs : r.mm.br.Sound p.bufBytes)
    (hok : codeOk is16 r.mm.codeWidth c = true)
    (hb : r.mm.br.bits ++ missing = codeBits is16 r.mm.codeWidth c ++ rest) :
    MmReads p r missing rest .eod (fun r' => (c, r')) (mmReadCode p is16 r) := by
  cases c with
  | eod => cases hok
  | width m =>
    simp only [codeOk, Bool.and_eq_true, decide_eq_true_eq] at hok
    refine (mmReadCode_escaped hw hs hok.1 hb).bind fun br hbr hrest => ?_
    exact .inr ⟨br, hbr, hrest, if_pos hok.2⟩
  | stop =>
    simp only [codeBits, List.append_assoc] at hb
    refine (mmReadCode_escaped hw hs hw hb).bind fun br hbr hrest => ?_
    rw [mmEscaped_same]
    exact mmExtended_last (b := true) hbr hrest
  | value v =>
    by_cases hv : v < cmdTable is16 r.mm.codeWidth
    · rw [codeBits, if_pos hv] at hb
      exact mmReadCode_value hw hs hv hb
    · simp only [codeOk, Bool.or_eq_true, Bool.and_eq_true, decide_eq_true_eq, hv, false_or] at hok
      obtain ⟨x, rfl⟩ := Nat.exists_eq_add_of_le hok.1
      simp only [codeBits, if_neg hv, Nat.add_sub_cancel_left, List.append_assoc] at hb
      refine (mmReadCode_escaped hw hs hw hb).bind fun br hbr hrest => ?_
      rw [mmEscaped_same]
      by_cases hx : x = 2 ^ extBits is16 - 1
      · subst hx
        rw [if_pos rfl] at hrest
        exact mmExtended_last (b := false) hbr hrest
      · rw [if_neg hx] at hrest
        exact mmExtended_value (by omega) hbr hrest

/-! ## What a code does (R113, R114, R116) -/

theorem mmCode_of_value {v : Nat} {r' r'' : MmRun} (hread : mmReadCode p is16 r = (.value v, r'))
    (hemit : (if is16 then mmEmit16 v r' else mmEmit8 v r') = .ok r'') : mmCode p is16 r = mmAdvance is16 r'' := by
  unfold mmCode
  simp only [hread, hemit]

theorem mmCode_of_width {m : Nat} {r' : MmRun} (hread : mmReadCode p is16 r = (.width m, r')) (hm : m < codeWidths is16) :
    mmCode p is16 r = .ok (.again, { r' with mm := { r'.mm with codeWidth := m } }) := by
  unfold mmCode
  simp only [hread, Nat.mod_eq_of_lt hm]

theorem mmCode_of_end {c : MmCode} {r' : MmRun} (hread : mmReadCode p is16 r = (c, r')) (hc : c = .eod ∨ c = .stop) :
    mmCode p is16 r = .ok (.endBlock, r') := by
  unfold mmCode
  rcases hc with rfl | rfl <;> simp only [hread]

end

/-- Settles O44: a stream that holds all of the code's bits has none missing. -/
theorem mmcmpCodesReadAsEncoded : Obligations.MmcmpCodesReadAsEncoded := by
  unfold Obligations.MmcmpCodesReadAsEncoded
  refine ⟨⟨rfl, rfl, rfl, rfl, fun is16 => ⟨rfl, rfl, rfl⟩⟩, fun p is16 r c rest hs hw hok hb => ?_⟩
  have hreads := mmReadCode_reads (missing := []) hw hs hok ((List.append_nil _).trans hb)
  obtain ⟨hne, -⟩ | ⟨br, hbr, hrest, hread⟩ := hreads
  · exact absurd rfl hne
  refine ⟨br, _, hbr, (List.append_nil _).symm.trans hrest, rfl, hread, ?_⟩
  cases c with
  | value v => exact fun r'' hemit => mmCode_of_value hread hemit
  | width m =>
    simp only [codeOk, Bool.and_eq_true, decide_eq_true_eq] at hok
    exact mmCode_of_width hread hok.1
  | stop => exact mmCode_of_end hread (.inr rfl)
  | eod => trivial

end Sys2Proof.Machine
end

section
/-! Proofs: what a value of a packed MMCMP block writes (42_mmcmp.md R113, R114) and where the next one goes (R110,
R115). -/
namespace Sys2Proof.Machine

/-! ## Bytes (00_scope.md R10) -/

/-- The low two bytes of a word. -/
theorem lowBytes_toNat (x : Word) :
    (x.extractLsb' 0 8).toNat + 256 * (x.extractLsb' 8 8).toNat = x.toNat % 2 ^ 16 := by
  simp only [BitVec.extractLsb'_toNat, Nat.shiftRight_eq_div_pow]
  omega

theorem toNat_ofInt_emod (z : Int) : (((BitVec.ofInt 32 z).toNat % 2 ^ 16 : Nat) : Int) = z % 2 ^ 16 := by
  rw [BitVec.toNat_ofInt]
  omega

/-- Flipping bit 15 adds `2 ^ 15` modulo `2 ^ 16`. -/
theorem toNat_xor_signBit (x : Word) : (x ^^^ 0x8000#32).toNat % 2 ^ 16 = (x.toNat + 2 ^ 15) % 2 ^ 16 := by
  have hflip : ∀ b : Byte, (b ^^^ 0x80#8).toNat = (b.toNat + 2 ^ 7) % 2 ^ 8 := by decide
  have hlow : (x ^^^ 0x8000#32).extractLsb' 0 8 = x.extractLsb' 0 8 := by
    rw [BitVec.extractLsb'_xor]
    exact BitVec.xor_zero
  have hhigh : (x ^^^ 0x8000#32).extractLsb' 8 8 = x.extractLsb' 8 8 ^^^ 0x80#8 := BitVec.extractLsb'_xor
  rw [← lowBytes_toNat, hlow, hhigh, hflip]
  have := lowBytes_toNat x
  omega

/-! ## The value (R113, R114) -/

theorem mmByte8_fst (m : Mmu) (v : Nat) : (mmByte8 m v).1.toNat =
    ((m.table.getD v 0).toNat + if m.flags.getLsbD 1 then m.oldVal.toNat else 0) % 2 ^ 8 := by
  unfold mmByte8 flagDelta
  split
  · simp
  · exact (Nat.mod_eq_of_lt (BitVec.isLt _)).symm

theorem mmByte8_snd (m : Mmu) (v : Nat) : (mmByte8 m v).2 =
    { m with oldVal := if m.flags.getLsbD 1 then (mmByte8 m v).1.setWidth 32 else m.oldVal } := by
  unfold mmByte8 flagDelta
  split <;> rfl

theorem zigzag_eq (v : Nat) : zigzag v = if v % 2 = 1 then -((v : Int) + 1) / 2 else (v : Int) / 2 := by
  unfold zigzag
  split <;> omega

/-- The number a 16-bit value stands for. -/
def mmNumber16 (m : Mmu) (v : Nat) : Int :=
  if m.flags.getLsbD 1 then zigzag v + m.oldVal.toNat else if m.flags.getLsbD 9 then zigzag v else zigzag v + 2 ^ 15

theorem mmWord16_of_delta {m : Mmu} (h : m.flags.getLsbD 1 = true) (v : Nat) : mmWord16 m v =
    (BitVec.ofInt 32 (mmNumber16 m v), { m with oldVal := BitVec.ofInt 32 (mmNumber16 m v) }) := by
  have hsum : BitVec.ofInt 32 (mmNumber16 m v) = BitVec.ofInt 32 (zigzag v) + m.oldVal := by
    rw [mmNumber16, if_pos h, BitVec.ofInt_add, BitVec.ofInt_natCast, BitVec.ofNat_toNat, BitVec.setWidth_eq]
  rw [hsum]
  exact if_pos h

theorem mmWord16_of_not_delta {m : Mmu} (h : ¬ m.flags.getLsbD 1 = true) (v : Nat) : mmWord16 m v =
    (if m.flags.getLsbD 9 then BitVec.ofInt 32 (zigzag v) else BitVec.ofInt 32 (zigzag v) ^^^ 0x8000#32, m) := by
  refine (if_neg h).trans ?_
  unfold flagAbs16
  split <;> rfl

theorem mmWord16_fst (m : Mmu) (v : Nat) :
    (((mmWord16 m v).1.toNat % 2 ^ 16 : Nat) : Int) = mmNumber16 m v % 2 ^ 16 := by
  by_cases h : m.flags.getLsbD 1 = true
  · rw [mmWord16_of_delta h]
    exact toNat_ofInt_emod _
  · rw [mmWord16_of_not_delta h, mmNumber16, if_neg h]
    have hz := toNat_ofInt_emod (zigzag v)
    by_cases ha : m.flags.getLsbD 9 = true
    · rw [if_pos ha, if_pos ha]
      exact hz
    · rw [if_neg ha, if_neg ha, toNat_xor_signBit]
      omega

theorem mmWord16_snd (m : Mmu) (v : Nat) : (mmWord16 m v).2 =
    { m with oldVal := if m.flags.getLsbD 1 then BitVec.ofInt 32 (mmNumber16 m v) else m.oldVal } := by
  by_cases h : m.flags.getLsbD 1 = true
  · rw [mmWord16_of_delta h, if_pos h]
  · rw [mmWord16_of_not_delta h, if_neg h]

/-! ## The output (R113, R114) -/

theorem mmEmit8_writes {v : Nat} {r : MmRun} (ho : r.out.Sound) (hq : r.pos + r.mm.dwPos < r.out.size) :
    ∃ out, mmEmit8 v r = .ok (mmAdvanceBy 1 { r with out := out, mm := (mmByte8 r.mm v).2 }) ∧
      ∀ a, outRead out a = if a = r.pos + r.mm.dwPos then (mmByte8 r.mm v).1 else outRead r.out a := by
  have hw := outWrite_of_lt (mmByte8 r.mm v).1 hq
  refine ⟨_, ?_, (outWrite_spec hw ho).2.2⟩
  unfold mmEmit8
  simp only [hw]

/-- The two bytes of a 16-bit value, in the order `ENDIAN` says. -/
theorem mmEmit16_writes {v : Nat} {r : MmRun} (ho : r.out.Sound) (hq : r.pos + r.mm.dwPos + 1 < r.out.size) :
    ∃ out, mmEmit16 v r = .ok (mmAdvanceBy 2 { r with out := out, mm := (mmWord16 r.mm v).2 }) ∧
      outRead out (if r.mm.flags.getLsbD 10 then r.pos + r.mm.dwPos + 1 else r.pos + r.mm.dwPos) =
        (mmWord16 r.mm v).1.extractLsb' 0 8 ∧
      outRead out (if r.mm.flags.getLsbD 10 then r.pos + r.mm.dwPos else r.pos + r.mm.dwPos + 1) =
        (mmWord16 r.mm v).1.extractLsb' 8 8 ∧
      ∀ a, a ≠ r.pos + r.mm.dwPos → a ≠ r.pos + r.mm.dwPos + 1 → outRead out a = outRead r.out a := by
  generalize hq' : r.pos + r.mm.dwPos = q at *
  unfold mmEmit16 flagEndian
  simp only [hq']
  cases r.mm.flags.getLsbD 10 with
  | false =>
    obtain ⟨out, hw, -, -, hread⟩ := outWriteAll_spec
      [(mmWord16 r.mm v).1.extractLsb' 0 8, (mmWord16 r.mm v).1.extractLsb' 8 8] q r.out ho hq
    refine ⟨out, by simp only [Bool.false_eq_true, if_false, hw], ?_, ?_, fun a h1 h2 => ?_⟩
    · rw [hread]; simp
    · rw [hread]; simp
    · rw [hread, if_neg (by simp only [List.length_cons, List.length_nil]; omega)]
  | true =>
    obtain ⟨out, hw, -, -, hread⟩ := outWriteAll_spec
      [(mmWord16 r.mm v).1.extractLsb' 8 8, (mmWord16 r.mm v).1.extractLsb' 0 8] q r.out ho hq
    refine ⟨out, by simp only [if_true, hw], ?_, ?_, fun a h1 h2 => ?_⟩
    · rw [hread]; simp
    · rw [hread]; simp
    · rw [hread, if_neg (by simp only [List.length_cons, List.length_nil]; omega)]

/-! ## Sub-blocks (R110) -/

/-- The size of a sub-block without its low bit is its size in whole 16-bit samples. -/
theorem subSize_eq_subBytes (is16 : Bool) (e : SubBlock) : subSize is16 e = subBytes is16 e := by
  have hmask : ~~~1#32 = BitVec.allOnes 32 <<< 1 := by decide
  have hlt := e.size.isLt
  unfold subSize subBytes
  split
  · rw [hmask, ← BitVec.shiftLeft_ushiftRight, BitVec.toNat_shiftLeft, BitVec.toNat_ushiftRight,
      Nat.shiftRight_eq_div_pow, Nat.shiftLeft_eq]
    omega
  · rfl

/-- A sub-block that is not empty and lies inside an output of `filesize` bytes. -/
def SubFits (is16 : Bool) (filesize : Nat) (e : SubBlock) : Prop :=
  0 < subBytes is16 e ∧ e.pos.toNat + subBytes is16 e ≤ filesize

theorem subRangeOk_iff {is16 : Bool} {filesize : Nat} {e : SubBlock} :
    subRangeOk is16 filesize e = true ↔ SubFits is16 filesize e := by
  unfold subRangeOk SubFits
  simp only [subSize_eq_subBytes, Bool.and_eq_true, decide_eq_true_eq]
  omega

section
variable {i : Nat} {is16 : Bool} {r : MmRun}

theorem mmSubRange_of_fits (h : SubFits is16 r.mm.filesize.toNat (r.mm.sub.getD i ⟨0, 0⟩)) :
    mmSubRange i is16 r = .ok { r with
      pos := (r.mm.sub.getD i ⟨0, 0⟩).pos.toNat
      size := subBytes is16 (r.mm.sub.getD i ⟨0, 0⟩) } := by
  unfold mmSubRange
  rw [if_pos (subRangeOk_iff.2 h), subSize_eq_subBytes]

theorem mmSubRange_of_not_fits (h : ¬ SubFits is16 r.mm.filesize.toNat (r.mm.sub.getD i ⟨0, 0⟩)) :
    mmSubRange i is16 r = .error (.fail r) :=
  if_neg fun hok => h (subRangeOk_iff.1 hok)

/-! ## `Advance()` (R115) -/

theorem mmAdvance_of_not_full (h : r.mm.dwPos < r.size) : mmAdvance is16 r = .ok (.again, r) := if_neg (by omega)

/-- The MMU at the start of the next sub-block. -/
def Mmu.nextSub (m : Mmu) : Mmu := { m with subIdx := m.subIdx + 1, dwPos := 0 }

theorem mmAdvance_of_last (h : r.size ≤ r.mm.dwPos) (hlast : r.mm.subBlk.toNat ≤ r.mm.subIdx + 1) :
    mmAdvance is16 r = .ok (.endBlock, { r with mm := r.mm.nextSub }) := (if_pos h).trans (if_pos hlast)

theorem mmAdvance_of_next (h : r.size ≤ r.mm.dwPos) (hnext : r.mm.subIdx + 1 < r.mm.subBlk.toNat) :
    mmAdvance is16 r = (mmSubRange (r.mm.subIdx + 1) is16 { r with mm := r.mm.nextSub }).map (.again, ·) := by
  refine (if_pos h).trans ((if_neg (Nat.not_le.2 hnext)).trans ?_)
  unfold Mmu.nextSub
  cases mmSubRange (r.mm.subIdx + 1) is16 { r with mm := { r.mm with subIdx := r.mm.subIdx + 1, dwPos := 0 } } <;> rfl

end

/-- Settles O45: the bytes a value writes, and the three cases of `Advance()`. -/
theorem mmcmpValuesAreWritten : Obligations.MmcmpValuesAreWritten := by
  unfold Obligations.MmcmpValuesAreWritten
  refine ⟨fun v q r ho hq => ⟨fun hlt => ?_, fun hlt => ?_⟩, fun is16 r e m he hm => ⟨?_, ?_, ?_⟩⟩
  · subst hq
    obtain ⟨out, hemit, hread⟩ := mmEmit8_writes (v := v) ho hlt
    have hbyte := hread (r.pos + r.mm.dwPos)
    rw [if_pos rfl] at hbyte
    refine ⟨_, hemit, rfl, ?_, fun a ha => (hread a).trans (if_neg ha), ?_⟩
    · exact (congrArg BitVec.toNat hbyte).trans (mmByte8_fst r.mm v)
    · show (mmAdvanceBy 1 { r with out := out, mm := (mmByte8 r.mm v).2 }).mm = _
      rw [mmByte8_snd, ← hbyte]
      rfl
  · subst hq
    obtain ⟨out, hemit, hlow, hhigh, hother⟩ := mmEmit16_writes (v := v) ho hlt
    refine ⟨_, _, mmNumber16 r.mm v, hemit, rfl, zigzag_eq v, rfl, ?_, hother, ?_⟩
    · rw [← mmWord16_fst, ← lowBytes_toNat, ← hlow, ← hhigh]
      rfl
    · rw [mmWord16_snd]
      rfl
  · exact mmAdvance_of_not_full
  · subst hm
    exact mmAdvance_of_last
  · subst hm he
    intro hfull hnext
    rw [mmAdvance_of_next hfull hnext]
    by_cases hfits : SubFits is16 r.mm.filesize.toNat (r.mm.sub.getD (r.mm.subIdx + 1) ⟨0, 0⟩)
    · rw [mmSubRange_of_fits (r := { r with mm := r.mm.nextSub }) hfits]
      exact (if_pos hfits).symm
    · rw [mmSubRange_of_not_fits (r := { r with mm := r.mm.nextSub }) hfits]
      exact (if_neg hfits).symm

end Sys2Proof.Machine
end

section
/-! Proofs: how an MMCMP block is loaded (42_mmcmp.md R109), and how a packed one starts, runs its codes and ends (R112,
R116, R117). -/
namespace Sys2Proof.Machine

/-! ## The block header (R66, R109) -/

theorem mmLoadSubs_of_le {bytes : List Byte} {blkpos : Nat} : ∀ {k i : Nat} {r : MmRun},
    blkpos + 20 + 8 * (i + k) ≤ bytes.length → mmLoadSubs bytes blkpos k i r = .ok { r with
      mm := { r.mm with sub := r.mm.sub ++ (List.range' i k).map (mmSubAt bytes blkpos) } }
  | 0, _, r, _ => by simp [mmLoadSubs]
  | k + 1, i, r, h => by
    unfold mmLoadSubs
    rw [if_neg (by omega), List.range'_succ, List.map_cons, List.append_cons]
    exact mmLoadSubs_of_le (by omega)

theorem mmLoadSubs_of_lt {bytes : List Byte} {blkpos : Nat} : ∀ {k i : Nat} {r : MmRun}, 0 < k →
    bytes.length < blkpos + 20 + 8 * (i + k) → ∃ r', mmLoadSubs bytes blkpos k i r = .error (.fail r') ∧ r'.out = r.out
  | k + 1, i, r, _, h => by
    unfold mmLoadSubs
    by_cases hi : bytes.length < blkpos + 20 + 8 * i + 8
    · exact ⟨r, if_pos hi, rfl⟩
    · rw [if_neg hi]
      exact mmLoadSubs_of_lt (r := { r with mm := { r.mm with sub := r.mm.sub ++ [mmSubAt bytes blkpos i] } })
        (by omega) (by omega)

/-- The MMU with the header and the sub-block table of the block at `blk`, and `MM_MEMPOS` at its data. -/
def mmLoaded (bytes : List Byte) (blk : Nat) (m : Mmu) : Mmu :=
  { mmLoadBlock bytes blk m with
    sub := (List.range' 0 (le16Nat bytes (blk + 12))).map (mmSubAt bytes blk)
    memPos := blk + 20 + 8 * le16Nat bytes (blk + 12) }

theorem mmLoaded_sub {bytes : List Byte} {blk i : Nat} {m : Mmu} (h : i < le16Nat bytes (blk + 12)) :
    (mmLoaded bytes blk m).sub.getD i ⟨0, 0⟩ = mmSubAt bytes blk i := by
  rw [mmLoaded, ← List.range_eq_range']
  exact getD_map_range _ _ h

theorem le16At_getLsbD_zero (bytes : List Byte) (a : Nat) : (le16At bytes a).getLsbD 0 = (byteAt bytes a).getLsbD 0 := by
  rw [le16At, le16, BitVec.getLsbD_append, if_pos (by decide)]

section
variable {p : Params} {bytes : List Byte} {b : Nat} {r : MmRun} {entry blk n : Nat}

/-- What is left of `DecodeBlock(b)` once the table entry and the header's fields are read. -/
theorem mmDecodeBlock_of_header (hentry : entry = r.mm.blkTable.toNat + 4 * b) (hblk : blk = le32Nat bytes entry)
    (he : entry + 4 ≤ bytes.length) (hh : blk + 20 ≤ bytes.length) :
    mmDecodeBlock p bytes b r =
      (mmLoadSubs bytes blk (le16Nat bytes (blk + 12)) 0 { r with mm := mmLoadBlock bytes blk r.mm }).bind fun r' =>
        mmBlockData p bytes { r' with mm := { r'.mm with memPos := blk + 20 + 8 * le16Nat bytes (blk + 12) } } := by
  unfold mmDecodeBlock
  simp only [← hentry, if_neg (Nat.not_lt.2 he), le32At_toNat, ← hblk, if_neg (Nat.not_lt.2 hh)]
  rw [show (mmLoadBlock bytes blk r.mm).subBlk.toNat = le16Nat bytes (blk + 12) from le16At_toNat _ _]
  cases mmLoadSubs bytes blk (le16Nat bytes (blk + 12)) 0 { r with mm := mmLoadBlock bytes blk r.mm } <;> rfl

theorem mmDecodeBlock_of_loaded (hentry : entry = r.mm.blkTable.toNat + 4 * b) (hblk : blk = le32Nat bytes entry)
    (hn : n = le16Nat bytes (blk + 12)) (he : entry + 4 ≤ bytes.length) (hd : blk + 20 + 8 * n < bytes.length) :
    mmDecodeBlock p bytes b r =
      if (byteAt bytes (blk + 14)).getLsbD 0 then mmPackedBlock p bytes { r with mm := mmLoaded bytes blk r.mm }
      else mmRawBlock bytes n 0 { r with mm := mmLoaded bytes blk r.mm } := by
  rw [mmDecodeBlock_of_header hentry hblk he (by omega), mmLoadSubs_of_le (i := 0) (by omega)]
  refine (if_neg (Nat.not_le.2 (hn ▸ hd))).trans ?_
  rw [← le16At_getLsbD_zero, hn]
  conv_rhs => rw [← le16At_toNat]
  rfl

/-- A block fails that has a field or its data's start past the end of the file. -/
theorem mmDecodeBlock_of_short (hentry : entry = r.mm.blkTable.toNat + 4 * b) (hblk : blk = le32Nat bytes entry)
    (hn : n = le16Nat bytes (blk + 12)) (h : bytes.length < entry + 4 ∨ bytes.length ≤ blk + 20 + 8 * n) :
    ∃ r', mmDecodeBlock p bytes b r = .error (.fail r') ∧ r'.out = r.out := by
  by_cases he : bytes.length < entry + 4
  · exact ⟨r, if_pos (hentry ▸ he), rfl⟩
  by_cases hh : bytes.length < blk + 20
  · refine ⟨r, (if_neg (hentry ▸ he)).trans (if_pos ?_), rfl⟩
    rwa [le32At_toNat, ← hentry, ← hblk]
  rw [mmDecodeBlock_of_header hentry hblk (Nat.not_lt.1 he) (Nat.not_lt.1 hh), ← hn]
  by_cases hs : bytes.length < blk + 20 + 8 * n
  · obtain ⟨r', hload, hout⟩ := mmLoadSubs_of_lt (bytes := bytes) (blkpos := blk) (i := 0) (r := { r with mm := mmLoadBlock bytes blk r.mm })
      (show 0 < n by omega) (by omega)
    rw [hload]
    exact ⟨r', rfl, hout⟩
  · rw [mmLoadSubs_of_le (bytes := bytes) (blkpos := blk) (i := 0) (k := n) (by omega)]
    exact ⟨_, if_pos (show bytes.length ≤ blk + 20 + 8 * n by omega), rfl⟩

end

/-! ## The code loop (R112, R117) -/

/-- What a turn of the code loop leaves for the next one: the run, with the reader and the width index it has. -/
def MmReady (p : Params) (is16 : Bool) (r : MmRun) : Prop :=
  r.mm.br.Sound p.bufBytes ∧ r.mm.codeWidth < codeWidths is16

section
variable {p : Params} {is16 : Bool} {r r' : MmRun}

theorem mmSubRange_mm {i : Nat} (h : mmSubRange i is16 r = .ok r') : r'.mm = r.mm := by
  unfold mmSubRange at h
  simp only at h
  split at h <;> cases h
  rfl

theorem mmAdvance_reader {c : LoopControl} (h : mmAdvance is16 r = .ok (c, r')) :
    r'.mm.br = r.mm.br ∧ r'.mm.codeWidth = r.mm.codeWidth := by
  unfold mmAdvance at h
  simp only at h
  split at h
  · split at h
    · cases h
      exact ⟨rfl, rfl⟩
    · split at h <;> cases h
      rename_i hsub
      rw [mmSubRange_mm hsub]
      exact ⟨rfl, rfl⟩
  · cases h
    exact ⟨rfl, rfl⟩

/-- A code after which the block goes on has taken a bit. -/
theorem mmCode_again (hr : MmReady p is16 r) (h : mmCode p is16 r = .ok (.again, r')) :
    MmReady p is16 r' ∧ r'.mm.br.bits.length < r.mm.br.bits.length := by
  obtain ⟨br, hrun, hbr, hbits⟩ := mmReadCode_spec hr.2 hr.1
  unfold mmCode at h
  generalize mmReadCode p is16 r = x at h hrun hbits
  obtain ⟨c, r1⟩ := x
  simp only at h hrun hbits
  subst hrun
  cases c with
  | eod | stop => cases h
  | width m =>
    cases h
    exact ⟨⟨hbr, Nat.mod_lt _ (by cases is16 <;> decide)⟩, hbits nofun⟩
  | value v =>
    simp only at h
    split at h
    · cases h
    · rename_i r2 hemit
      obtain ⟨hbr2, hcw2⟩ := mmEmit_reader hemit
      obtain ⟨hbr3, hcw3⟩ := mmAdvance_reader h
      unfold MmReady
      rw [hbr3, hbr2, hcw3, hcw2]
      exact ⟨⟨hbr, hr.2⟩, hbits nofun⟩

/-- A bound that covers the bits of the view does not end the loop (R117). -/
theorem mmCodes_ends : ∀ (k : Nat) (r : MmRun), MmReady p is16 r → r.mm.br.bits.length < k →
    LoopEnds (mmCode p is16) r (mmCodes p is16 k r)
  | k + 1, r, hr, hk => by
    unfold mmCodes
    cases hc : mmCode p is16 r with
    | error e => exact .stopped hc
    | ok x =>
      obtain ⟨c, r1⟩ := x
      cases c with
      | endBlock => exact .ended hc
      | again =>
        obtain ⟨hr1, hlt⟩ := mmCode_again hr hc
        exact .again hc (mmCodes_ends k r1 hr1 (by omega))

/-! ## The start of a packed block (R112) -/

theorem mmPackedBlock_of_bad {bytes : List Byte} (h : mmPackedBad bytes r.mm = true) :
    mmPackedBlock p bytes r = .error (.fail r) := if_pos h

theorem mmPackedBlock_of_not_fits {bytes : List Byte} (h : mmPackedBad bytes r.mm = false)
    (hfits : ¬ SubFits (flag16Bit r.mm.flags) r.mm.filesize.toNat (r.mm.sub.getD 0 ⟨0, 0⟩)) :
    ∃ r', mmPackedBlock p bytes r = .error (.fail r') ∧ r'.out = r.out := by
  refine ⟨{ r with mm := mmPackedStart p bytes r.mm }, ?_, rfl⟩
  unfold mmPackedBlock
  rw [if_neg (by simp [h]), mmSubRange_of_not_fits (r := { r with mm := mmPackedStart p bytes r.mm }) hfits]

/-- The run the first code of a packed block is read from. -/
def mmPackedRun (p : Params) (bytes : List Byte) (r : MmRun) : MmRun :=
  { r with
    mm := { mmPackedStart p bytes r.mm with dwPos := 0 }
    pos := (r.mm.sub.getD 0 ⟨0, 0⟩).pos.toNat
    size := subBytes (flag16Bit r.mm.flags) (r.mm.sub.getD 0 ⟨0, 0⟩) }

theorem mmPackedBlock_of_fits {bytes : List Byte} (h : mmPackedBad bytes r.mm = false)
    (hfits : SubFits (flag16Bit r.mm.flags) r.mm.filesize.toNat (r.mm.sub.getD 0 ⟨0, 0⟩)) :
    LoopEnds (mmCode p (flag16Bit r.mm.flags)) (mmPackedRun p bytes r) (mmPackedBlock p bytes r) := by
  have hstart : mmPackedBlock p bytes r =
      mmCodes p (flag16Bit r.mm.flags) (8 * (mmView bytes r.mm).length + 1) (mmPackedRun p bytes r) := by
    unfold mmPackedBlock
    rw [if_neg (by simp [h]), mmSubRange_of_fits (r := { r with mm := mmPackedStart p bytes r.mm }) hfits]
    rfl
  have hbits : (mmPackedRun p bytes r).mm.br.bits = bitsOfBytes (mmView bytes r.mm) := PrivateReader.over_bits _ _
  simp only [mmPackedBad, Bool.or_eq_false_iff, decide_eq_false_iff_not, not_le] at h
  rw [hstart]
  exact mmCodes_ends _ _ ⟨PrivateReader.over_sound _ _, h.2⟩ (by rw [hbits, bitsOfBytes_length]; omega)

theorem mmPackedBad_iff {bytes : List Byte} {m : Mmu} : mmPackedBad bytes m = true ↔
    m.subBlk = 0 ∨ m.pkSize.toNat < m.ttEntries.toNat ∨ bytes.length < m.memPos + m.ttEntries.toNat ∨
      codeWidths (flag16Bit m.flags) ≤ m.numBits.toNat := by
  simp only [mmPackedBad, Bool.or_eq_true, decide_eq_true_eq, or_assoc]

/-- The view is what the packed size leaves after the table, as far as the file goes. -/
theorem mmView_eq (bytes : List Byte) (m : Mmu) :
    mmView bytes m = (bytes.drop (m.memPos + m.ttEntries.toNat)).take (m.pkSize.toNat - m.ttEntries.toNat) := by
  unfold mmView memRead
  refine List.take_eq_take_iff.2 ?_
  rw [List.length_drop]
  omega

theorem mmTable_getD (bytes : List Byte) (m : Mmu) (j : Nat) : (mmTable bytes m).getD j 0 =
    if j < 256 ∧ j < m.ttEntries.toNat then byteAt bytes (m.memPos + j) else 0 := by
  unfold mmTable
  by_cases h : j < 256
  · rw [getD_map_range _ _ h]
    simp only [h, true_and]
  · rw [if_neg fun hj => h hj.1]
    exact List.getD_eq_default _ _ (by simpa using h)

/-! ## The end of a packed block (R116) -/

theorem mmCode_of_ended (hr : MmReady p is16 r)
    (h : (mmReadCode p is16 r).1 = .eod ∨ (mmReadCode p is16 r).1 = .stop) :
    ∃ br, mmCode p is16 r = .ok (.endBlock, r.setReader br) := by
  obtain ⟨br, hrun, -, -⟩ := mmReadCode_spec hr.2 hr.1
  exact ⟨br, mmCode_of_end (Prod.ext rfl hrun) h⟩

theorem mmReadCode_of_short (hr : MmReady p is16 r) (h : r.mm.br.bits.length < r.mm.codeWidth + 1) :
    (mmReadCode p is16 r).1 = .eod := by
  obtain ⟨r', hread⟩ : ∃ r', mmRead p (r.mm.codeWidth + 1) r = (none, r') :=
    ⟨_, Prod.ext (mmRead_short (codeFields_le hr.2).1 hr.1 h) rfl⟩
  unfold mmReadCode
  simp only [hread]

/-- Bits that are a proper part of a code's end in one of its fields. -/
theorem mmReadCode_of_part {c : MmCode} {missing : List Bool} (hr : MmReady p is16 r)
    (hok : codeOk is16 r.mm.codeWidth c = true) (hm : missing ≠ [])
    (hb : r.mm.br.bits ++ missing = codeBits is16 r.mm.codeWidth c) : (mmReadCode p is16 r).1 = .eod := by
  obtain ⟨-, r', hread⟩ | ⟨br, -, hnil, -⟩ := mmReadCode_reads hr.2 hr.1 hok (hb.trans (List.append_nil _).symm)
  · rw [hread]
  · exact absurd (List.append_eq_nil_iff.1 hnil).2 hm

end

/-- Settles O46: the header's checks and fields, the start of a packed block, and the ways its last code is read. -/
theorem mmcmpBlockIsLoadedAndDecoded : Obligations.MmcmpBlockIsLoadedAndDecoded := by
  unfold Obligations.MmcmpBlockIsLoadedAndDecoded
  refine ⟨fun p bytes b r entry blk n hentry hblk hn => ⟨fun h => ?_, fun he hd => ?_⟩,
    fun p bytes r is16 e h16 he => ⟨fun h => ?_, fun h1 h2 h3 h4 => ⟨fun h => ?_, fun h5 h6 => ?_⟩⟩,
    fun p is16 r hs hw => ⟨mmCode_of_ended ⟨hs, hw⟩, mmReadCode_of_short ⟨hs, hw⟩,
      fun _ _ => mmReadCode_of_part ⟨hs, hw⟩⟩⟩
  · refine mmDecodeBlock_of_short hentry hblk hn ?_
    rcases h with h | h | ⟨i, hi, h⟩ | h
    · exact .inl h
    · exact .inr (by omega)
    · exact .inr (by omega)
    · exact .inr h
  · have hlen : (mmLoaded bytes blk r.mm).sub.length = n := by simp [mmLoaded, hn]
    refine ⟨mmLoaded bytes blk r.mm, ?_, le32At_toNat _ _, le32At_toNat _ _, le32At_toNat _ _,
      (le16At_toNat _ _).trans hn.symm, le16At_toNat _ _, le16At_toNat _ _, le16At_toNat _ _, hlen, fun i hi => ?_,
      by rw [hn]; rfl, rfl⟩
    · rw [hlen]
      exact mmDecodeBlock_of_loaded hentry hblk hn he hd
    · rw [mmLoaded_sub (hn ▸ hi)]
      exact ⟨le32At_toNat _ _, le32At_toNat _ _⟩
  · subst h16
    exact mmPackedBlock_of_bad (mmPackedBad_iff.2 h)
  all_goals
    subst h16 he
    have hgood : mmPackedBad bytes r.mm = false := by
      rw [← Bool.not_eq_true, mmPackedBad_iff]
      rintro (h | h | h | h)
      exacts [h1 h, Nat.not_lt.2 h2 h, Nat.not_lt.2 h3 h, Nat.not_le.2 h4 h]
  · exact mmPackedBlock_of_not_fits hgood fun ⟨hpos, hle⟩ => h.elim hpos.ne' (Nat.not_lt.2 hle)
  · exact ⟨mmPackedRun p bytes r, mmPackedBlock_of_fits hgood ⟨h5, h6⟩, rfl, rfl, rfl, PrivateReader.over_sound _ _,
      (PrivateReader.over_bits _ _).trans (congrArg bitsOfBytes (mmView_eq bytes r.mm)), mmTable_getD bytes r.mm, rfl⟩

end Sys2Proof.Machine
end

section
/-! Proofs: a raw MMCMP block (42_mmcmp.md R111): its sub-blocks take consecutive data, and later ones write over earlier
ones. -/
namespace Sys2Proof.Machine

/-! ## One sub-block (R110, R111) -/

/-- A sub-block that is not empty, lies inside the output, and whose data, from `pos` on, lie inside the file. -/
def RawFits (bytes : List Byte) (filesize pos : Nat) (e : SubBlock) : Prop :=
  SubFits false filesize e ∧ pos + e.size.toNat ≤ bytes.length

/-- The byte at `a` after a sub-block's data, from `pos` on, are copied over a buffer that holds `b` there. -/
def rawByte (bytes : List Byte) (pos : Nat) (e : SubBlock) (a : Nat) (b : Byte) : Byte :=
  if e.pos.toNat ≤ a ∧ a < e.pos.toNat + e.size.toNat then byteAt bytes (pos + (a - e.pos.toNat)) else b

section
variable {bytes : List Byte} {i : Nat} {r : MmRun} {e : SubBlock}

theorem mmRawSub_of_fits (he : r.mm.sub.getD i ⟨0, 0⟩ = e) (ho : r.out.Sound) (hz : r.out.size = r.mm.filesize.toNat)
    (hfits : RawFits bytes r.mm.filesize.toNat r.mm.memPos e) :
    ∃ r', mmRawSub bytes i r = .ok r' ∧ r'.mm = { r.mm with memPos := r.mm.memPos + e.size.toNat } ∧ r'.out.Sound ∧
      r'.out.size = r.out.size ∧ ∀ a, outRead r'.out a = rawByte bytes r.mm.memPos e a (outRead r.out a) := by
  obtain ⟨hsub, hdata⟩ := hfits
  have hlen : (memRead bytes r.mm.memPos e.size.toNat).length = e.size.toNat := by
    simp only [memRead, List.length_take, List.length_drop]
    omega
  obtain ⟨out, hw, hsound, hsize, hread⟩ := outWriteAll_spec (memRead bytes r.mm.memPos e.size.toNat) e.pos.toNat r.out ho
    (by rw [hlen, hz]; exact hsub.2)
  refine ⟨{ r with
      out := out
      mm := { r.mm with memPos := r.mm.memPos + e.size.toNat }
      pos := e.pos.toNat
      size := e.size.toNat }, ?_, rfl, hsound, hsize, fun a => ?_⟩
  · subst he
    unfold mmRawSub
    rw [mmSubRange_of_fits hsub]
    exact (if_neg (Nat.not_lt.2 hdata)).trans (by simp only [show subBytes false _ = BitVec.toNat _ from rfl, hw])
  · rw [hread, hlen, rawByte]
    split
    · simp only [byteAt, memRead, List.getD_eq_getElem?_getD]
      rw [List.getElem?_take_of_lt (by omega), List.getElem?_drop]
    · rfl

theorem mmRawSub_of_not_fits (he : r.mm.sub.getD i ⟨0, 0⟩ = e)
    (hfits : ¬ RawFits bytes r.mm.filesize.toNat r.mm.memPos e) : ∃ r', mmRawSub bytes i r = .error (.fail r') := by
  subst he
  unfold mmRawSub
  by_cases hsub : SubFits false r.mm.filesize.toNat (r.mm.sub.getD i ⟨0, 0⟩)
  · rw [mmSubRange_of_fits hsub]
    exact ⟨_, if_pos (Nat.lt_of_not_le fun hdata => hfits ⟨hsub, hdata⟩)⟩
  · rw [mmSubRange_of_not_fits hsub]
    exact ⟨_, rfl⟩

end

/-! ## Sub-blocks in order (R111) -/

@[simp] theorem subData_cons (e : SubBlock) (l : List SubBlock) : subData (e :: l) = e.size.toNat + subData l := by
  simp [subData]

/-- Each sub-block fits, its data following those of the ones before. -/
def RawAllFit (bytes : List Byte) (filesize : Nat) : Nat → List SubBlock → Prop
  | _, [] => True
  | pos, e :: t => RawFits bytes filesize pos e ∧ RawAllFit bytes filesize (pos + e.size.toNat) t

/-- The byte at `a` after the sub-blocks' data are copied in order over a buffer that holds `b` there. -/
def rawBytes (bytes : List Byte) (a : Nat) : Nat → List SubBlock → Byte → Byte
  | _, [], b => b
  | pos, e :: t, b => rawBytes bytes a (pos + e.size.toNat) t (rawByte bytes pos e a b)

section
variable {bytes : List Byte}

theorem rawAllFit_iff {filesize : Nat} : ∀ {l : List SubBlock} {pos : Nat}, RawAllFit bytes filesize pos l ↔
    ∀ j e, l[j]? = some e → 0 < e.size.toNat ∧ e.pos.toNat + e.size.toNat ≤ filesize ∧
      pos + subData (l.take (j + 1)) ≤ bytes.length
  | [], _ => by simp [RawAllFit]
  | e :: t, pos => by
    rw [RawAllFit, rawAllFit_iff]
    constructor
    · rintro ⟨⟨⟨hpos, hin⟩, hdata⟩, ht⟩ j e' hj
      cases j with
      | zero =>
        cases hj
        exact ⟨hpos, hin, hdata⟩
      | succ j => simpa [Nat.add_assoc] using ht j e' hj
    · intro h
      obtain ⟨hpos, hin, hdata⟩ := h 0 e rfl
      exact ⟨⟨⟨hpos, hin⟩, hdata⟩, fun j e' hj => by simpa [Nat.add_assoc] using h (j + 1) e' hj⟩

/-- Sub-blocks that fit are copied. -/
theorem mmRawBlock_of_fit : ∀ {l pre : List SubBlock} {r : MmRun}, r.mm.sub = pre ++ l → r.out.Sound →
    r.out.size = r.mm.filesize.toNat → RawAllFit bytes r.mm.filesize.toNat r.mm.memPos l →
    ∃ r', mmRawBlock bytes l.length pre.length r = .ok r' ∧ r'.mm = { r.mm with memPos := r.mm.memPos + subData l } ∧
      r'.out.size = r.out.size ∧ ∀ a, outRead r'.out a = rawBytes bytes a r.mm.memPos l (outRead r.out a)
  | [], _, r, _, _, _, _ => ⟨r, rfl, rfl, rfl, fun _ => rfl⟩
  | e :: t, pre, r, hsub, ho, hz, ⟨hfits, ht⟩ => by
    obtain ⟨r1, hrun, hmm, ho1, hz1, hread⟩ := mmRawSub_of_fits (i := pre.length) (by simp [hsub]) ho hz hfits
    obtain ⟨r', hrun', hmm', hz', hread'⟩ := mmRawBlock_of_fit (l := t) (pre := pre ++ [e]) (r := r1)
      (by rw [hmm]; simpa using hsub) ho1 (by rw [hz1, hmm]; exact hz) (by rw [hmm]; exact ht)
    refine ⟨r', ?_, ?_, hz'.trans hz1, fun a => ?_⟩
    · simpa [mmRawBlock, hrun] using hrun'
    · rw [hmm', hmm, subData_cons, ← Nat.add_assoc]
    · rw [hread', hread, hmm]
      rfl

/-- The first that does not fit fails the block. -/
theorem mmRawBlock_of_not_fit : ∀ {l pre : List SubBlock} {r : MmRun}, r.mm.sub = pre ++ l → r.out.Sound →
    r.out.size = r.mm.filesize.toNat → ¬ RawAllFit bytes r.mm.filesize.toNat r.mm.memPos l →
    ∃ r', mmRawBlock bytes l.length pre.length r = .error (.fail r')
  | [], _, _, _, _, _, h => absurd trivial h
  | e :: t, pre, r, hsub, ho, hz, h => by
    have he : r.mm.sub.getD pre.length ⟨0, 0⟩ = e := by simp [hsub]
    by_cases hfits : RawFits bytes r.mm.filesize.toNat r.mm.memPos e
    · obtain ⟨r1, hrun, hmm, ho1, hz1, -⟩ := mmRawSub_of_fits he ho hz hfits
      obtain ⟨r', hrun'⟩ := mmRawBlock_of_not_fit (l := t) (pre := pre ++ [e]) (r := r1) (by rw [hmm]; simpa using hsub)
        ho1 (by rw [hz1, hmm]; exact hz) (by rw [hmm]; exact fun ht => h ⟨hfits, ht⟩)
      exact ⟨r', by simpa [mmRawBlock, hrun] using hrun'⟩
    · obtain ⟨r', hrun⟩ := mmRawSub_of_not_fits he hfits
      exact ⟨r', by simp only [List.length_cons, mmRawBlock, hrun]⟩

/-- A byte that no sub-block covers stays. -/
theorem rawBytes_of_uncovered {a : Nat} : ∀ {l : List SubBlock} {pos : Nat} {b : Byte},
    (∀ e ∈ l, a < e.pos.toNat ∨ e.pos.toNat + e.size.toNat ≤ a) → rawBytes bytes a pos l b = b
  | [], _, _, _ => rfl
  | e :: t, pos, b, h => by
    have he := h e List.mem_cons_self
    rw [rawBytes, rawBytes_of_uncovered fun e' he' => h e' (List.mem_cons_of_mem _ he'), rawByte, if_neg (by omega)]

/-- A byte is the last covering sub-block's. -/
theorem rawBytes_of_last {a : Nat} : ∀ {l : List SubBlock} {j pos : Nat} {b : Byte} {e : SubBlock}, l[j]? = some e →
    e.pos.toNat ≤ a → a < e.pos.toNat + e.size.toNat →
    (∀ j' e', j < j' → l[j']? = some e' → a < e'.pos.toNat ∨ e'.pos.toNat + e'.size.toNat ≤ a) →
    rawBytes bytes a pos l b = byteAt bytes (pos + subData (l.take j) + (a - e.pos.toNat))
  | e :: t, 0, pos, b, _, hj, h1, h2, hlast => by
    cases hj
    rw [rawBytes, rawBytes_of_uncovered, rawByte, if_pos ⟨h1, h2⟩]
    · rfl
    · intro e' he'
      obtain ⟨j', hj'⟩ := List.mem_iff_getElem?.1 he'
      exact hlast (j' + 1) e' (Nat.succ_pos j') hj'
  | e :: t, j + 1, pos, b, e', hj, h1, h2, hlast => by
    rw [rawBytes, rawBytes_of_last (l := t) hj h1 h2 fun j' e'' hlt hj' => hlast (j' + 1) e'' (by omega) hj',
      List.take_succ_cons, subData_cons, ← Nat.add_assoc]

end

/-! ## A file of one raw block (R106, R109) -/

theorem mmBlocks_one (p : Params) (bytes : List Byte) (b : Nat) (r : MmRun) :
    mmBlocks p bytes 1 b r = mmDecodeBlock p bytes b { r with mm := { r.mm with blk := b } } := by
  unfold mmBlocks
  cases mmDecodeBlock p bytes b { r with mm := { r.mm with blk := b } } <;> rfl

/-- A raw block whose one sub-block is the whole output. -/
theorem mmDecodeBlock_of_one_raw {p : Params} {bytes : List Byte} {b blk n : Nat} {r : MmRun} (ho : r.out.Sound)
    (hz : r.out.size = r.mm.filesize.toNat) (hn : r.mm.filesize.toNat = n) (hn0 : 0 < n)
    (hentry : r.mm.blkTable.toNat + 4 * b + 4 ≤ bytes.length)
    (hblk : le32Nat bytes (r.mm.blkTable.toNat + 4 * b) = blk) (hsubs : le16Nat bytes (blk + 12) = 1)
    (hraw : (byteAt bytes (blk + 14)).getLsbD 0 = false) (hpos : le32Nat bytes (blk + 20) = 0)
    (hsize : le32Nat bytes (blk + 24) = n) (hend : blk + 28 + n ≤ bytes.length) :
    ∃ r', mmDecodeBlock p bytes b r = .ok r' ∧ r'.out.size = n ∧
      ∀ a, a < n → outRead r'.out a = byteAt bytes (blk + 28 + a) := by
  have hsub : (mmLoaded bytes blk r.mm).sub = [mmSubAt bytes blk 0] := by
    rw [mmLoaded, hsubs]
    rfl
  have hmem : (mmLoaded bytes blk r.mm).memPos = blk + 28 := by rw [mmLoaded, hsubs]
  have hpos' : (mmSubAt bytes blk 0).pos.toNat = 0 := (le32At_toNat _ _).trans hpos
  have hsize' : (mmSubAt bytes blk 0).size.toNat = n := (le32At_toNat _ _).trans hsize
  have hfit : RawFits bytes n (blk + 28) (mmSubAt bytes blk 0) := by
    refine ⟨⟨?_, ?_⟩, hsize'.symm ▸ hend⟩
    · exact hn0.trans_eq hsize'.symm
    · show (mmSubAt bytes blk 0).pos.toNat + (mmSubAt bytes blk 0).size.toNat ≤ n
      omega
  obtain ⟨r', hrun, -, hz', hread⟩ := mmRawBlock_of_fit (bytes := bytes) (pre := [])
    (r := { r with mm := mmLoaded bytes blk r.mm }) hsub ho hz (by rw [hmem]; exact ⟨hn ▸ hfit, trivial⟩)
  refine ⟨r', ?_, hz'.trans (hz.trans hn), fun a ha => ?_⟩
  · rw [mmDecodeBlock_of_loaded rfl hblk.symm hsubs.symm hentry (by omega), hraw]
    exact hrun
  · rw [hread, hmem, rawBytes, rawBytes, rawByte, hpos', hsize']
    exact if_pos (by omega)

theorem mmHeaderValid_size {p : Params} {bytes : List Byte} (h : mmHeaderValid p bytes = true) : 0 < le32Nat bytes 14 := by
  simp only [mmHeaderValid, decide_eq_true_eq] at h
  obtain ⟨-, -, -, hsize, -⟩ := h
  exact hsize

/-- Settles O43: the sub-blocks fit one after the other, or the first that does not fails the block; the file's block
is one that fits. -/
theorem rawMmcmpBlockIsCopied : Obligations.RawMmcmpBlockIsCopied := by
  unfold Obligations.RawMmcmpBlockIsCopied
  refine ⟨fun bytes r ho hz => ⟨fun ⟨j, e, hj, hbad⟩ => ?_, fun h => ?_⟩,
    fun s blk hl hv hc ha hn hblk hsubs hraw hpos hwhole hend => ?_⟩
  · refine mmRawBlock_of_not_fit (pre := []) rfl ho hz fun h => ?_
    have := rawAllFit_iff.1 h j e hj
    omega
  · obtain ⟨r', hrun, hmm, hz', hread⟩ := mmRawBlock_of_fit (pre := []) rfl ho hz (rawAllFit_iff.2 h)
    refine ⟨r', hrun, hmm, hz', fun a => ⟨fun j e hj h1 h2 hlast => ?_, fun hun => ?_⟩⟩
    · rw [hread, rawBytes_of_last hj h1 h2 hlast]
    · rw [hread, rawBytes_of_uncovered hun]
  · have hfit := hc
    simp only [mmChecksPass, Bool.and_eq_true, decide_eq_true_eq] at hfit
    have htable : (mmFirstRun s).mm.blkTable.toNat = le32Nat s.src.bytes 18 := le32At_toNat _ _
    obtain ⟨r, hrun, hz, hread⟩ := mmDecodeBlock_of_one_raw (p := s.params) (b := 0)
      (r := { mmFirstRun s with mm := { (mmFirstRun s).mm with blk := 0 } }) (OutBuf.fresh_sound _) rfl
      (le32At_toNat _ _) (mmHeaderValid_size hv) (by rw [htable]; omega) (by rw [htable]; exact hblk) hsubs hraw hpos
      hwhole hend
    rw [← mmBlocks_one] at hrun
    obtain ⟨t, ht, hd⟩ := execMmcmpUnpack_decoded hl hv hc ha
    cases hd with
    | unpacked r' _ hrun' =>
      rw [le16At_toNat, hn, hrun] at hrun'
      cases hrun'
      exact ⟨_, r.out, ht, rfl, rfl, rfl, rfl, hz, hread⟩
    | failed r' _ hrun' =>
      rw [le16At_toNat, hn, hrun] at hrun'
      cases hrun'

end Sys2Proof.Machine
end

section
/-! Proofs: the tokens of a PP20 file (30_encoding.md R72, 43_pp20.md R121 to R127). Each reader is said once for a stream
that holds its bits, or all of them but some at the end: then the region ends in them, and the read fails under
`PP20_UNDERRUN = Fail`. -/
namespace Sys2Proof.Machine

/-! ## Values, the first bit as the most significant (R124) -/

theorem msbValueFrom_append (acc : Nat) (l : List Bool) (b : Bool) :
    msbValueFrom acc (l ++ [b]) = 2 * msbValueFrom acc l + b.toNat := by
  induction l generalizing acc with
  | nil => rfl
  | cons _ _ ih => exact ih _

theorem msbValue_reverse (l : List Bool) : msbValue l.reverse = lsbValue l := by
  induction l with
  | nil => rfl
  | cons b t ih => rw [List.reverse_cons, msbValue, msbValueFrom_append, ← msbValue, ih, lsbValue, Nat.add_comm]

theorem msbValue_msbBits (n v : Nat) : msbValue (msbBits n v) = v % 2 ^ n :=
  (msbValue_reverse _).trans (lsbValue_bitsOfNat n v)

@[simp] theorem msbBits_length (n v : Nat) : (msbBits n v).length = n := by simp [msbBits]

theorem literalBits_eq (b : Byte) : literalBits b = msbBits 8 b.toNat := rfl

theorem msbBits_one (b : Bool) : msbBits 1 b.toNat = [b] := by cases b <;> rfl

/-! ## Reads (R124) -/

/-- A step whose bits the region holds, less those of `missing` at their end: it answers as `Q` says, or fails where the
region ends before. -/
def PpEnds {β : Type} (missing : List Bool) (Q : β → Prop) (x : Except (Stop PpRun) β) : Prop :=
  (missing ≠ [] ∧ ∃ r, x = .error (.fail r)) ∨ ∃ y, x = .ok y ∧ Q y

/-- The reader moves, to where the stream `rest` follows. -/
def PpMoves (bytes : List Byte) (missing rest : List Bool) (r r' : PpRun) : Prop :=
  PpReads r r' ∧ reverseBits bytes r'.pp ++ missing = rest

theorem PpMoves.trans {bytes : List Byte} {missing rest rest' : List Bool} {r r' r'' : PpRun}
    (h : PpMoves bytes missing rest r r') (h' : PpMoves bytes missing rest' r' r'') : PpMoves bytes missing rest' r r'' :=
  ⟨h.1.trans h'.1, h'.2⟩

section
variable {p : Params} {bytes : List Byte} {missing rest : List Bool} {r : PpRun}
variable (hm : missing ≠ [] → p.pp20Underrun = .fail)
include hm

theorem ppBits_ends {n v : Nat} (h8 : r.pp.bitCnt ≤ 8) (hv : v < 2 ^ n)
    (hb : reverseBits bytes r.pp ++ missing = msbBits n v ++ rest) :
    PpEnds missing (fun x => x.1 = v ∧ PpMoves bytes missing rest r x.2) (ppBits p bytes n r) := by
  rcases Nat.lt_or_ge (reverseBits bytes r.pp).length n with hl | hl
  · have hne : missing ≠ [] := fun hnil => by
      have := congrArg List.length hb
      rw [hnil, List.append_nil, List.length_append, msbBits_length] at this
      omega
    obtain ⟨r', he, -⟩ := ppBitsFrom_underrun_fail (hm hne) n 0 r h8 hl
    exact .inl ⟨hne, r', he⟩
  · obtain ⟨tail, htail⟩ := List.prefix_of_prefix_length_le ⟨rest, hb.symm⟩ ⟨missing, rfl⟩
      ((msbBits_length n v).trans_le hl)
    obtain ⟨r', he, hrest, hreads⟩ := ppBitsFrom_of_le (p := p) n 0 r h8 hl
    rw [← htail, List.append_assoc] at hb
    rw [← htail, List.drop_left' (msbBits_length n v)] at hrest
    refine .inr ⟨_, he, ?_, hreads, by rw [hrest]; exact List.append_cancel_left hb⟩
    rw [← htail, List.take_left' (msbBits_length n v)]
    exact (msbValue_msbBits n v).trans (Nat.mod_eq_of_lt hv)

theorem ppBit_ends {b : Bool} (h8 : r.pp.bitCnt ≤ 8) (hb : reverseBits bytes r.pp ++ missing = b :: rest) :
    PpEnds missing (fun x => x.1 = b.toNat ∧ PpMoves bytes missing rest r x.2) (ppBits p bytes 1 r) :=
  ppBits_ends hm h8 (Bool.toNat_lt b) (by rw [msbBits_one]; exact hb)

/-- The skip bits (R123). -/
theorem ppSkip_ends : ∀ {skip : List Bool} {r : PpRun}, r.pp.bitCnt ≤ 8 →
    reverseBits bytes r.pp ++ missing = skip ++ rest →
    PpEnds missing (PpMoves bytes missing rest r) (ppSkip p bytes skip.length r)
  | [], r, h8, hb => .inr ⟨r, rfl, .refl h8, hb⟩
  | b :: skip, r, h8, hb => by
    rcases ppBit_ends hm h8 hb with ⟨hne, r', he⟩ | ⟨⟨v, r1⟩, he, -, hmove⟩
    · exact .inl ⟨hne, r', by simp only [List.length_cons, ppSkip, he]⟩
    · simp only [List.length_cons, ppSkip, he]
      rcases ppSkip_ends (skip := skip) hmove.1.bitCnt_le hmove.2 with hfail | ⟨r2, he2, hmove2⟩
      · exact .inl hfail
      · exact .inr ⟨r2, he2, hmove.trans hmove2⟩

/-- The codes that extend a count (R125, R126). -/
theorem ppCount_ends {bits limit : Nat} (hbits : 0 < bits) : ∀ {codes : List Nat} {k count : Nat} {r : PpRun},
    r.pp.bitCnt ≤ 8 → limit ≤ count + k → countCodesOk bits limit count codes = true →
    reverseBits bytes r.pp ++ missing = countBits bits codes ++ rest →
    PpEnds missing (fun x => x.1 = count + codes.sum ∧ PpMoves bytes missing rest r x.2)
      (ppCount p bytes bits limit k count r)
  | [], k, count, r, h8, hk, hok, hb => by
    have hle : limit ≤ count := of_decide_eq_true hok
    refine .inr ⟨(count, r), ?_, rfl, .refl h8, hb⟩
    cases k <;> exact if_neg (Nat.not_lt.2 hle)
  | c :: codes, k, count, r, h8, hk, hok, hb => by
    simp only [countCodesOk, Bool.and_eq_true, decide_eq_true_eq] at hok
    obtain ⟨⟨hlt, hc⟩, hnext⟩ := hok
    obtain ⟨k, rfl⟩ : ∃ k', k = k' + 1 := ⟨k - 1, by omega⟩
    simp only [countBits, List.flatMap_cons, List.append_assoc] at hb
    rcases ppBits_ends hm h8 hc hb with ⟨hne, r', he⟩ | ⟨⟨v, r1⟩, he, hv, hmove⟩
    · exact .inl ⟨hne, r', by simp only [ppCount, if_pos hlt, he]⟩
    · simp only at hv hmove
      subst hv
      simp only [ppCount, if_pos hlt, he, List.sum_cons, ← Nat.add_assoc]
      by_cases hall : v = 2 ^ bits - 1
      · have hpow : 2 ^ 1 ≤ 2 ^ bits := Nat.pow_le_pow_right (by decide) hbits
        rw [if_pos hall] at hnext
        rw [if_neg (not_not.2 hall)]
        rcases ppCount_ends hbits (codes := codes) (k := k) hmove.1.bitCnt_le (by omega) hnext hmove.2 with
          hfail | ⟨x, he2, hsum, hmove2⟩
        · exact .inl hfail
        · exact .inr ⟨x, he2, hsum, hmove.trans hmove2⟩
      · rw [if_neg hall] at hnext
        obtain rfl := of_decide_eq_true hnext
        rw [if_pos hall]
        exact .inr ⟨_, rfl, rfl, hmove⟩

end

/-! ## Writing downward (R125, R127) -/

/-- What a run of literals or a copy leaves: `data` below `PP_LEFT`, and of the PPU the reader and `PP_LEFT` alone moved. -/
structure PpWrote (data : List Byte) (r r' : PpRun) : Prop where
  frame : ∃ a b c, c ≤ 8 ∧
    r'.pp = { r.pp with left := r.pp.left - data.length, p := a, byte := b, bitCnt := c }
  sound : r'.out.Sound
  size : r'.out.size = r.out.size
  read : ∀ a, outRead r'.out a =
    if r.pp.left - data.length ≤ a ∧ a < r.pp.left then data.getD (a - (r.pp.left - data.length)) 0 else outRead r.out a

section
variable {data data' : List Byte} {r r' r'' : PpRun}

theorem PpWrote.left (h : PpWrote data r r') : r'.pp.left = r.pp.left - data.length := by
  obtain ⟨_, _, _, -, hpp⟩ := h.frame
  rw [hpp]

theorem PpWrote.bitCnt_le (h : PpWrote data r r') : r'.pp.bitCnt ≤ 8 := by
  obtain ⟨_, _, _, h8, hpp⟩ := h.frame
  rw [hpp]
  exact h8

theorem PpWrote.nil (h8 : r.pp.bitCnt ≤ 8) (ho : r.out.Sound) : PpWrote [] r r :=
  ⟨⟨_, _, _, h8, rfl⟩, ho, rfl, fun _ => (if_neg (by simp)).symm⟩

/-- Where the reader stands before does not matter. -/
theorem PpWrote.of_reads (h : PpReads r r') (hw : PpWrote data r' r'') : PpWrote data r r'' := by
  obtain ⟨_, _, _, rfl, -, -⟩ := h
  exact ⟨hw.frame, hw.sound, hw.size, hw.read⟩

/-- What is written after is lower. -/
theorem PpWrote.trans (h : PpWrote data r r') (h' : PpWrote data' r' r'') (hfit : data.length + data'.length ≤ r.pp.left) :
    PpWrote (data' ++ data) r r'' := by
  obtain ⟨_, _, _, -, hpp⟩ := h.frame
  obtain ⟨a, b, c, h8, hpp'⟩ := h'.frame
  refine ⟨⟨a, b, c, h8, ?_⟩, h'.sound, h'.size.trans h.size, fun i => ?_⟩
  · rw [hpp', hpp, List.length_append, Nat.add_comm, Nat.sub_add_eq]
  · rw [h'.read, h.read, h.left, List.length_append]
    by_cases hlow : i < r.pp.left - data.length
    · rw [if_neg (show ¬ (r.pp.left - data.length ≤ i ∧ i < r.pp.left) by omega)]
      by_cases hin : r.pp.left - data.length - data'.length ≤ i
      · rw [if_pos ⟨hin, hlow⟩, if_pos (by omega), List.getD_append _ _ _ _ (by omega)]
        congr 1
        omega
      · rw [if_neg (by omega), if_neg (by omega)]
    · rw [if_neg (by omega)]
      by_cases hin : i < r.pp.left
      · rw [if_pos (by omega), if_pos (by omega), List.getD_append_right _ _ _ _ (by omega)]
        congr 1
        omega
      · rw [if_neg (by omega), if_neg (by omega)]

theorem PpWrote.one {b : Byte} (h8 : r'.pp.bitCnt ≤ 8) (ho : r.out.Sound) (h0 : 0 < r.pp.left)
    (hpp : r'.pp = { r.pp with left := r.pp.left - 1, p := r'.pp.p, byte := r'.pp.byte, bitCnt := r'.pp.bitCnt })
    (hout : outWrite r.out (r.pp.left - 1) b = .ok r'.out) : PpWrote [b] r r' := by
  obtain ⟨hsound, hsize, hread⟩ := outWrite_spec hout ho
  refine ⟨⟨_, _, _, h8, hpp⟩, hsound, hsize, fun a => ?_⟩
  rw [hread, List.length_singleton]
  by_cases ha : a = r.pp.left - 1
  · rw [if_pos ha, if_pos (by omega), ha, Nat.sub_self]
    rfl
  · rw [if_neg ha, if_neg (by omega)]

/-- A literal is written below `PP_LEFT` once its bits are read (R125). -/
theorem ppStore_literal {r1 : PpRun} (b : Byte) (h : PpReads (ppDown r) r1) (ho : r.out.Sound) (h0 : 0 < r.pp.left)
    (hl : r.pp.left ≤ r.out.size) :
    ∃ r2, ppStore r1.pp.left b r1 = .ok r2 ∧ PpWrote [b] r r2 ∧ r2.pp = r1.pp := by
  obtain ⟨a, byte, c, rfl, -, h8⟩ := h
  have hlt : r.pp.left - 1 < r.out.size := by omega
  exact ⟨_, ppStore_of_lt hlt, .one h8 ho h0 rfl (outWrite_of_lt b hlt), rfl⟩

end

section
variable {p : Params} {bytes : List Byte} {missing rest : List Bool} {r : PpRun}
variable (hm : missing ≠ [] → p.pp20Underrun = .fail)
include hm

/-- The bytes of a run, from the last down (R125). -/
theorem ppLiterals_ends : ∀ {l : List Byte} {r : PpRun}, r.pp.bitCnt ≤ 8 → r.out.Sound → l.length ≤ r.pp.left →
    r.pp.left ≤ r.out.size → reverseBits bytes r.pp ++ missing = l.flatMap literalBits ++ rest →
    PpEnds missing (fun r' => PpWrote l.reverse r r' ∧ reverseBits bytes r'.pp ++ missing = rest)
      (ppLiterals p bytes l.length r)
  | [], r, h8, ho, _, _, hb => .inr ⟨r, rfl, .nil h8 ho, hb⟩
  | b :: l, r, h8, ho, hk, hl, hb => by
    rw [List.length_cons] at hk
    rw [List.flatMap_cons, List.append_assoc, literalBits_eq] at hb
    rcases ppBits_ends (r := ppDown r) hm h8 b.isLt hb with ⟨hne, r', he⟩ | ⟨⟨v, r1⟩, he, hv, hreads, hrest⟩
    · exact .inl ⟨hne, r', by simp only [List.length_cons, ppLiterals, he]⟩
    · obtain ⟨r2, hstore, hwrote, hpp⟩ := ppStore_literal b hreads ho (by omega) hl
      simp only at hv hrest
      subst hv
      have hrun : ppLiterals p bytes (l.length + 1) r = ppLiterals p bytes l.length r2 := by
        simp only [ppLiterals, he, BitVec.ofNat_toNat, BitVec.setWidth_eq, hstore]
      have hleft : r2.pp.left = r.pp.left - 1 := hwrote.left
      rw [List.length_cons, hrun, List.reverse_cons]
      rcases ppLiterals_ends (l := l) hwrote.bitCnt_le hwrote.sound (by omega) (by rw [hwrote.size]; omega)
        (by rw [hpp]; exact hrest) with hfail | ⟨r', he', hwrote', hrest'⟩
      · exact .inl hfail
      · exact .inr ⟨r', he', hwrote.trans hwrote' (by rw [List.length_singleton, List.length_reverse]; omega), hrest'⟩

/-- A literal run, from its length codes on (R125). -/
theorem ppLiteralRun_ends {codes : List Nat} {data : List Byte} (h8 : r.pp.bitCnt ≤ 8) (ho : r.out.Sound)
    (hl : r.pp.left ≤ r.out.size) (hcodes : countCodesOk 2 r.pp.left 1 codes = true)
    (hdata : data.length = min (1 + codes.sum) r.pp.left)
    (hb : reverseBits bytes r.pp ++ missing = runBits codes data ++ rest) :
    PpEnds missing (fun r' => PpWrote data r r' ∧ reverseBits bytes r'.pp ++ missing = rest)
      (ppLiteralRun p bytes r) := by
  unfold runBits at hb
  rw [List.append_assoc] at hb
  rcases ppCount_ends hm (k := r.pp.left) (by decide) h8 (by omega) hcodes hb with
    ⟨hne, r', he⟩ | ⟨⟨count, r1⟩, he, hcount, hreads, hrest⟩
  · exact .inl ⟨hne, r', by simp only [ppLiteralRun, he]⟩
  · simp only at hcount hreads hrest
    have hleft := hreads.left
    have hrun : ppLiteralRun p bytes r = ppLiterals p bytes data.reverse.length r1 := by
      simp only [ppLiteralRun, he, hcount, hleft, List.length_reverse, hdata]
    rw [hrun]
    rcases ppLiterals_ends hm hreads.bitCnt_le (hreads.out ▸ ho) (by rw [List.length_reverse]; omega)
      (by rw [hreads.out]; omega) hrest with hfail | ⟨r', he', hwrote, hrest'⟩
    · exact .inl hfail
    · rw [List.reverse_reverse] at hwrote
      exact .inr ⟨r', he', .of_reads hreads hwrote, hrest'⟩

end

/-! ## Copies and back-references (R126, R127) -/

/-- The bytes written so far: those of `out`, down to `PP_LEFT`, in an output of `n` bytes. -/
def PpHolds (n : Nat) (out : List Byte) (r : PpRun) : Prop :=
  r.pp.left + out.length = n ∧ ∀ i, i < out.length → outRead r.out (r.pp.left + i) = out.getD i 0

theorem PpHolds.wrote {n : Nat} {out data : List Byte} {r r' : PpRun} (h : PpHolds n out r) (hw : PpWrote data r r')
    (hd : data.length ≤ r.pp.left) : PpHolds n (data ++ out) r' := by
  obtain ⟨hlen, hread⟩ := h
  refine ⟨?_, fun i hi => ?_⟩
  · rw [hw.left, List.length_append]
    omega
  · rw [List.length_append] at hi
    rw [hw.read, hw.left]
    by_cases hlow : i < data.length
    · rw [if_pos (by omega), List.getD_append _ _ _ _ hlow, Nat.add_sub_cancel_left]
    · rw [if_neg (by omega), List.getD_append_right _ _ _ _ (by omega), ← hread _ (by omega)]
      congr 1
      omega

/-- `k` bytes are copied, each from what is written so far. -/
theorem ppCopy_wrote {n offset : Nat} : ∀ {k : Nat} {r : PpRun} {out : List Byte}, PpInv r → r.pp.dstLen.toNat = n →
    k ≤ r.pp.left → PpHolds n out r →
    ∃ r' data, ppCopy offset k r = .ok r' ∧ PpWrote data r r' ∧ data.length = k ∧
      r'.pp = { r.pp with left := r.pp.left - k } ∧ data ++ out = copiedBelow offset k out
  | 0, r, out, h, _, _, _ => ⟨r, [], rfl, .nil h.bitCnt h.out, rfl, rfl, rfl⟩
  | k + 1, r, out, h, hn, hk, hout => by
    have hbyte : (if r.pp.left + offset < r.pp.dstLen.toNat then outRead r.out (r.pp.left + offset) else 0) =
        out.getD offset 0 := by
      obtain ⟨hlen, hread⟩ := hout
      split
      · exact hread _ (by omega)
      · exact (List.getD_eq_default _ _ (by omega)).symm
    have hlt : r.pp.left - 1 < r.out.size := by
      have := h.left
      have := h.size
      omega
    obtain ⟨r1, hr1⟩ : ∃ r1, r1 = ppDown { r with
      out := { r.out with cells := Memory.write r.out.cells (r.pp.left - 1) (out.getD offset 0) } } := ⟨_, rfl⟩
    have hpp1 : r1.pp = { r.pp with left := r.pp.left - 1 } := by rw [hr1]; rfl
    have hone : PpWrote [out.getD offset 0] r r1 :=
      .one (by rw [hpp1]; exact h.bitCnt) h.out (by omega) (by rw [hpp1]) (by rw [hr1]; exact outWrite_of_lt _ hlt)
    have hrun : ppCopy offset (k + 1) r = ppCopy offset k r1 := by
      simp only [ppCopy, hbyte, ppStore_of_lt hlt, hr1]
    have hinv : PpInv r1 := hr1 ▸ ppDown_inv (ppStore_inv h hlt)
    obtain ⟨r', data, he, hwrote, hlen, hpp, hcopied⟩ := ppCopy_wrote (offset := offset) (k := k) hinv
      (by rw [hpp1]; exact hn) (by rw [hpp1]; show k ≤ r.pp.left - 1; omega) (hout.wrote hone (by simp; omega))
    refine ⟨r', data ++ [out.getD offset 0], hrun.trans he, hone.trans hwrote (by simp; omega), by simp [hlen], ?_, ?_⟩
    · rw [hpp, hpp1, Nat.sub_sub, Nat.add_comm 1]
    · rw [List.append_assoc]
      exact hcopied

theorem ppMode_of_reads {r r' : PpRun} (h : PpReads r r') : ppMode r'.pp = ppMode r.pp := by
  obtain ⟨_, _, _, rfl, -, -⟩ := h
  rfl

theorem PpMatch.offsetBits_eq_ppMode {u : Ppu} {m : PpMatch} (h : m.idx < 3) : m.offsetBits u = ppMode u m.idx := by
  obtain ⟨idx, wide, offset, codes⟩ := m
  match idx, h with
  | 0, _ | 1, _ | 2, _ => rfl

theorem PpMatch.offsetBits_eq_ppWide {u : Ppu} {m : PpMatch} (h : m.idx = 3) :
    m.offsetBits u = ppWide u m.wide.toNat := by
  obtain ⟨idx, wide, offset, codes⟩ := m
  obtain rfl : idx = 3 := h
  cases wide <;> rfl

section
variable {p : Params} {bytes : List Byte} {missing rest : List Bool} {r : PpRun}
variable (hm : missing ≠ [] → p.pp20Underrun = .fail)
include hm

/-- A back-reference in mode 3, from its long-offset flag on and up to its copy (R126). -/
theorem ppMatchLong_ends {wide : Bool} {offset : Nat} {codes : List Nat} (h8 : r.pp.bitCnt ≤ 8)
    (ho : offset < 2 ^ ppWide r.pp wide.toNat) (hcodes : countCodesOk 3 (r.pp.left + 1) 5 codes = true)
    (hb : reverseBits bytes r.pp ++ missing =
      wide :: (msbBits (ppWide r.pp wide.toNat) offset ++ (countBits 3 codes ++ rest))) :
    (missing ≠ [] ∧ ∃ r', ppMatchLong p bytes r = .error (.fail r')) ∨
      ∃ r1, PpMoves bytes missing rest r r1 ∧
        ppMatchLong p bytes r = ppCopy offset (min (5 + codes.sum) r.pp.left) r1 := by
  rcases ppBit_ends hm h8 hb with ⟨hne, r', he⟩ | ⟨⟨flag, r1⟩, he1, hflag, hmove1⟩
  · exact .inl ⟨hne, r', by simp only [ppMatchLong, he]⟩
  simp only at hflag hmove1
  subst hflag
  have hwide : ppWide r.pp wide.toNat = ppWide r1.pp wide.toNat := by simp only [ppWide, ppMode_of_reads hmove1.1]
  rw [hwide] at ho hmove1
  rcases ppBits_ends hm hmove1.1.bitCnt_le ho hmove1.2 with ⟨hne, r', he⟩ | ⟨⟨value, r2⟩, he2, hvalue, hmove2⟩
  · exact .inl ⟨hne, r', by simp only [ppMatchLong, he1, he]⟩
  simp only at hvalue hmove2
  subst hvalue
  have hleft : r2.pp.left = r.pp.left := hmove2.1.left.trans hmove1.1.left
  rw [← hleft] at hcodes
  rcases ppCount_ends hm (k := r2.pp.left + 1) (by decide) hmove2.1.bitCnt_le (by omega) hcodes hmove2.2 with
    ⟨hne, r', he⟩ | ⟨⟨count, r3⟩, he3, hcount, hmove3⟩
  · exact .inl ⟨hne, r', by simp only [ppMatchLong, he1, he2, he]⟩
  simp only at hcount hmove3
  subst hcount
  have hleft3 : r3.pp.left = r.pp.left := hmove3.1.left.trans hleft
  exact .inr ⟨r3, (hmove1.trans hmove2).trans hmove3, by simp only [ppMatchLong, he1, he2, he3, hleft3]⟩

/-- A back-reference, up to its copy (R126). -/
theorem ppMatch_ends {m : PpMatch} (h8 : r.pp.bitCnt ≤ 8) (hok : m.ok r.pp = true)
    (hb : reverseBits bytes r.pp ++ missing = m.bits r.pp ++ rest) :
    (missing ≠ [] ∧ ∃ r', ppMatch p bytes r = .error (.fail r')) ∨
      ∃ r1, PpMoves bytes missing rest r r1 ∧ ppMatch p bytes r = ppCopy m.offset (min m.count r.pp.left) r1 := by
  simp only [PpMatch.ok, Bool.and_eq_true, decide_eq_true_eq] at hok
  obtain ⟨⟨hidx, ho⟩, hcodes⟩ := hok
  simp only [PpMatch.bits, List.append_assoc] at hb
  rcases ppBits_ends hm h8 (Nat.lt_succ_of_le hidx) hb with ⟨hne, r', he⟩ | ⟨⟨idx, r1⟩, he1, hv, hmove1⟩
  · exact .inl ⟨hne, r', by simp only [ppMatch, he]⟩
  simp only at hv hmove1
  have hmode : ppMode r.pp = ppMode r1.pp := (ppMode_of_reads hmove1.1).symm
  by_cases h3 : m.idx = 3
  · have hrun : ppMatch p bytes r = ppMatchLong p bytes r1 := by simp only [ppMatch, he1, hv.trans h3, if_true]
    have hbits : m.offsetBits r.pp = ppWide r1.pp m.wide.toNat := by
      rw [PpMatch.offsetBits_eq_ppWide h3, ppWide, hmode, ← ppWide]
    have hcount : m.count = 5 + m.codes.sum := by rw [PpMatch.count, h3]
    rw [if_pos h3, ← hmove1.1.left] at hcodes
    rw [if_pos h3, hbits] at hmove1
    rw [hbits] at ho
    rw [hrun, hcount, ← hmove1.1.left]
    rcases ppMatchLong_ends hm hmove1.1.bitCnt_le ho hcodes hmove1.2 with hfail | ⟨r2, hmove2, he2⟩
    · exact .inl hfail
    · exact .inr ⟨r2, hmove1.trans hmove2, he2⟩
  · have hbits : m.offsetBits r.pp = ppMode r1.pp m.idx := by rw [PpMatch.offsetBits_eq_ppMode (by omega), hmode]
    rw [if_neg h3, decide_eq_true_eq] at hcodes
    rw [if_neg h3, hbits, hcodes] at hmove1
    rw [hbits] at ho
    rcases ppBits_ends hm hmove1.1.bitCnt_le ho hmove1.2 with ⟨hne, r', he⟩ | ⟨⟨offset, r2⟩, he2, hoffset, hmove2⟩
    · exact .inl ⟨hne, r', by simp only [ppMatch, he1, hv, if_neg h3, he]⟩
    · simp only at hoffset hmove2
      subst hoffset
      have hleft : r2.pp.left = r.pp.left := hmove2.1.left.trans hmove1.1.left
      refine .inr ⟨r2, hmove1.trans hmove2, ?_⟩
      simp only [ppMatch, he1, hv, if_neg h3, he2, hleft, PpMatch.count, hcodes, List.sum_nil, Nat.add_zero]

end

/-! ## Tokens (R121) -/

/-- The four widths of the mode table (R24). -/
def ppModes (u : Ppu) : Byte × Byte × Byte × Byte := (u.mode0, u.mode1, u.mode2, u.mode3)

theorem PpMatch.offsetBits_of_modes {u u' : Ppu} (h : ppModes u' = ppModes u) (m : PpMatch) :
    m.offsetBits u' = m.offsetBits u := by
  simp only [ppModes, Prod.mk.injEq] at h
  obtain ⟨h0, h1, h2, h3⟩ := h
  simp only [PpMatch.offsetBits, h0, h1, h2, h3]

theorem PpMatch.bits_of_modes {u u' : Ppu} (h : ppModes u' = ppModes u) (m : PpMatch) : m.bits u' = m.bits u := by
  simp only [PpMatch.bits, offsetBits_of_modes h]

theorem PpMatch.ok_of_modes {u u' : Ppu} (h : ppModes u' = ppModes u) (m : PpMatch) :
    m.ok u' = m.ok { u with left := u'.left } := by
  have hleft : m.offsetBits { u with left := u'.left } = m.offsetBits u := rfl
  simp only [PpMatch.ok, offsetBits_of_modes h, hleft]

/-- A run of the decoding of an output of `n` bytes, by the mode table of `u`: `out` is written, `stream` is to be read. -/
structure PpAt (bytes : List Byte) (missing : List Bool) (n : Nat) (u : Ppu) (out : List Byte) (stream : List Bool)
    (r : PpRun) : Prop where
  inv : PpInv r
  len : r.pp.dstLen.toNat = n
  modes : ppModes r.pp = ppModes u
  holds : PpHolds n out r
  bits : reverseBits bytes r.pp ++ missing = stream

/-- The tokens to come, after those that wrote what the run holds: together they stand for `final`, and `rest` follows. -/
def PpToCome (bytes : List Byte) (missing : List Bool) (n : Nat) (u : Ppu) (final : List Byte) (rest : List Bool)
    (afterRun : Bool) (r : PpRun) : Prop :=
  ∃ out tokens, PpAt bytes missing n u out (tokensBits u afterRun tokens ++ rest) r ∧
    tokensOk u afterRun r.pp.left tokens = true ∧ tokensOut n out tokens = final

section
variable {p : Params} {bytes : List Byte} {missing rest stream stream' : List Bool} {n : Nat} {u : Ppu}
variable {out data final : List Byte} {afterRun : Bool} {r r' : PpRun}

theorem PpAt.moves (h : PpAt bytes missing n u out stream r) (hmove : PpMoves bytes missing stream' r r') :
    PpAt bytes missing n u out stream' r' := by
  obtain ⟨hreads, hbits⟩ := hmove
  refine ⟨hreads.inv h.inv, hreads.stays.dstLen ▸ h.len, hreads.stays.modes.trans h.modes, ?_, hbits⟩
  unfold PpHolds
  rw [hreads.left, hreads.out]
  exact h.holds

theorem PpAt.wrote (h : PpAt bytes missing n u out stream r) (hw : PpWrote data r r') (hd : data.length ≤ r.pp.left)
    (hbits : reverseBits bytes r'.pp ++ missing = stream') : PpAt bytes missing n u (data ++ out) stream' r' := by
  obtain ⟨_, _, _, -, hpp⟩ := hw.frame
  have hlen : r'.pp.dstLen = r.pp.dstLen := by rw [hpp]
  have hmodes : ppModes r'.pp = ppModes r.pp := by rw [hpp]; rfl
  have hleft := hw.left
  have hle := h.inv.left
  refine ⟨⟨hw.sound, ?_, ?_, hw.bitCnt_le⟩, hlen ▸ h.len, hmodes.trans h.modes, h.holds.wrote hw hd, hbits⟩
  · rw [hw.size, hlen]
    exact h.inv.size
  · rw [hlen]
    omega

/-- No token is left once no byte is. -/
theorem PpToCome.done (h : PpToCome bytes missing n u final rest afterRun r) (h0 : r.pp.left = 0) :
    PpAt bytes missing n u final rest r := by
  obtain ⟨out, tokens, hat, hok, hfinal⟩ := h
  rw [h0] at hok
  cases tokens with
  | nil =>
    simp only [tokensOut] at hfinal
    subst hfinal
    exact hat
  | cons tok t => cases tok <;> simp [tokensOk] at hok

variable (hm : missing ≠ [] → p.pp20Underrun = .fail)
include hm

/-- A back-reference (R126, R127). -/
theorem ppMatch_copies {m : PpMatch} {t : List PpToken} (h0 : 0 < r.pp.left) (h : PpAt bytes missing n u out
      (m.bits u ++ (tokensBits u false t ++ rest)) r)
    (hok : m.ok { u with left := r.pp.left } = true) (ht : tokensOk u false (r.pp.left - min m.count r.pp.left) t = true) :
    PpEnds missing (fun r' => PpToCome bytes missing n u (tokensOut n out (.copy m :: t)) rest false r' ∧
      r'.pp.left < r.pp.left) (ppMatch p bytes r) := by
  rw [← PpMatch.ok_of_modes h.modes] at hok
  rcases ppMatch_ends hm h.inv.bitCnt hok (by rw [PpMatch.bits_of_modes h.modes]; exact h.bits) with
    hfail | ⟨r1, hmove, hrun⟩
  · exact .inl hfail
  have h1 := h.moves hmove
  have hleft1 : r1.pp.left = r.pp.left := hmove.1.left
  obtain ⟨r2, data, hcopy, hw, hdata, hpp, hcopied⟩ := ppCopy_wrote (offset := m.offset) (k := min m.count r.pp.left)
    h1.inv h1.len (by omega) h1.holds
  have hleft2 : r2.pp.left = r.pp.left - min m.count r.pp.left := by rw [hpp, hleft1]
  have hcount : min m.count r.pp.left = min m.count (n - out.length) := by rw [← h.holds.1, Nat.add_sub_cancel]
  have hpos : 0 < m.count := by unfold PpMatch.count; omega
  refine .inr ⟨r2, hrun.trans hcopy, ⟨_, t, h1.wrote hw (by omega) ?_, hleft2 ▸ ht, ?_⟩, by omega⟩
  · rw [hpp]
    exact hmove.2
  · rw [tokensOut, ← hcount, hcopied]

/-- A literal run after its flag (R125). -/
theorem ppLiteralRun_writes {codes : List Nat} {t : List PpToken} (h0 : 0 < r.pp.left)
    (h : PpAt bytes missing n u out (runBits codes data ++ (tokensBits u true t ++ rest)) r)
    (hcodes : countCodesOk 2 r.pp.left 1 codes = true) (hdata : data.length = min (1 + codes.sum) r.pp.left)
    (ht : tokensOk u true (r.pp.left - data.length) t = true) :
    PpEnds missing (fun r' => PpToCome bytes missing n u (tokensOut n out (.run codes data :: t)) rest true r' ∧
      r'.pp.left < r.pp.left) (ppLiteralRun p bytes r) := by
  rcases ppLiteralRun_ends hm h.inv.bitCnt h.inv.out (h.inv.size ▸ h.inv.left) hcodes hdata h.bits with
    hfail | ⟨r1, hrun, hw, hbits⟩
  · exact .inl hfail
  · have hleft := hw.left
    exact .inr ⟨r1, hrun, ⟨_, t, h.wrote hw (by omega) hbits, hleft ▸ ht, rfl⟩, by omega⟩

/-- After a run that leaves bytes to write comes a back-reference without a flag. -/
theorem ppMatch_after_run (h0 : 0 < r.pp.left) (h : PpToCome bytes missing n u final rest true r) :
    PpEnds missing (fun r' => PpToCome bytes missing n u final rest false r' ∧ r'.pp.left < r.pp.left)
      (ppMatch p bytes r) := by
  obtain ⟨out, tokens, hat, hok, rfl⟩ := h
  match tokens with
  | [] => exact absurd (of_decide_eq_true hok) (Nat.ne_of_gt h0)
  | .run codes data :: t => simp [tokensOk] at hok
  | .copy m :: t =>
    simp only [tokensOk, Bool.and_eq_true] at hok
    obtain ⟨⟨-, hm'⟩, ht⟩ := hok
    simp only [tokensBits, if_true, List.nil_append, List.append_assoc] at hat
    exact ppMatch_copies hm h0 hat hm' ht

/-- One pass of the token loop: a back-reference, or a run and the back-reference after it, if a byte is left. -/
theorem ppPass_ends (h0 : 0 < r.pp.left) (h : PpToCome bytes missing n u final rest false r) :
    PpEnds missing (fun r' => PpToCome bytes missing n u final rest false r' ∧ r'.pp.left < r.pp.left)
      (ppPass p bytes r) := by
  obtain ⟨out, tokens, hat, hok, rfl⟩ := h
  match tokens with
  | [] => exact absurd (of_decide_eq_true hok) (Nat.ne_of_gt h0)
  | .run codes data :: t =>
    simp only [tokensOk, Bool.and_eq_true, decide_eq_true_eq] at hok
    obtain ⟨⟨⟨-, hcodes⟩, hdata⟩, ht⟩ := hok
    simp only [tokensBits, List.cons_append, List.append_assoc] at hat
    rcases ppBit_ends hm hat.inv.bitCnt hat.bits with ⟨hne, r', he⟩ | ⟨⟨flag, r1⟩, he, hflag, hmove⟩
    · exact .inl ⟨hne, r', by simp only [ppPass, he]⟩
    simp only [Bool.toNat_false] at hflag hmove
    subst hflag
    have hleft := hmove.1.left
    rw [← hleft] at h0 hcodes hdata ht
    rcases ppLiteralRun_writes hm h0 (hat.moves hmove) hcodes hdata ht with ⟨hne, r', he'⟩ | ⟨r2, he', h2, hlt⟩
    · exact .inl ⟨hne, r', by simp only [ppPass, he, if_true, he']⟩
    by_cases hdone : r2.pp.left = 0
    · exact .inr ⟨r2, by simp only [ppPass, he, if_true, he', hdone], ⟨_, [], h2.done hdone, decide_eq_true hdone, rfl⟩,
        by omega⟩
    · have hrun : ppPass p bytes r = ppMatch p bytes r2 := by simp only [ppPass, he, if_true, he', if_neg hdone]
      rw [hrun]
      rcases ppMatch_after_run hm (Nat.pos_of_ne_zero hdone) h2 with hfail | ⟨r3, he3, h3, hlt3⟩
      · exact .inl hfail
      · exact .inr ⟨r3, he3, h3, by omega⟩
  | .copy m :: t =>
    simp only [tokensOk, Bool.and_eq_true] at hok
    obtain ⟨⟨-, hm'⟩, ht⟩ := hok
    simp only [tokensBits, Bool.false_eq_true, if_false, List.cons_append, List.nil_append, List.append_assoc] at hat
    rcases ppBit_ends hm hat.inv.bitCnt hat.bits with ⟨hne, r', he⟩ | ⟨⟨flag, r1⟩, he, hflag, hmove⟩
    · exact .inl ⟨hne, r', by simp only [ppPass, he]⟩
    simp only [Bool.toNat_true] at hflag hmove
    subst hflag
    have hrun : ppPass p bytes r = ppMatch p bytes r1 := by simp only [ppPass, he, Nat.one_ne_zero, if_false]
    rw [← hmove.1.left] at h0 hm' ht ⊢
    rw [hrun]
    exact ppMatch_copies hm h0 (hat.moves hmove) hm' ht

/-- The token loop (R121). -/
theorem ppLoop_ends : ∀ {k : Nat} {r : PpRun}, r.pp.left ≤ k → PpToCome bytes missing n u final rest false r →
    PpEnds missing (fun r' => PpAt bytes missing n u final rest r' ∧ r'.pp.left = 0) (ppLoop p bytes k r)
  | 0, r, hk, h => by
    have h0 : r.pp.left = 0 := Nat.le_zero.1 hk
    exact .inr ⟨r, if_pos h0, h.done h0, h0⟩
  | k + 1, r, hk, h => by
    unfold ppLoop
    by_cases h0 : r.pp.left = 0
    · exact .inr ⟨r, if_pos h0, h.done h0, h0⟩
    · rw [if_neg h0]
      rcases ppPass_ends hm (Nat.pos_of_ne_zero h0) h with ⟨hne, r', he⟩ | ⟨r1, he, h1, hlt⟩
      · exact .inl ⟨hne, r', by rw [he]⟩
      · rw [he]
        exact ppLoop_ends (by omega) h1

end

/-! ## Files (R121, R123) -/

/-- The reader starts at the end of the region. -/
theorem reverseBits_ppInit {bytes : List Byte} (u : Ppu) (h : 8 ≤ bytes.length) :
    reverseBits bytes (ppInit bytes u) = regionBits bytes := by
  have hbytes : reverseBytes bytes (ppInit bytes u) = ((bytes.drop 4).take (bytes.length - 8)).reverse := by
    refine List.ext_getElem (by simp [reverseBytes, ppInit]; omega) fun i h1 h2 => ?_
    simp only [reverseBytes, ppInit, List.length_map, List.length_range] at h1
    simp only [reverseBytes, ppInit, List.getElem_map, List.getElem_range, List.getElem_reverse, List.getElem_take,
      List.getElem_drop, List.length_take, List.length_drop, byteAt]
    rw [List.getD_eq_getElem _ _ (by omega)]
    congr 1
    omega
  simp only [reverseBits, hbytes]
  rfl

section
variable {s : State} {tokens : List PpToken} {skip missing rest : List Bool} {n : Nat}

theorem ppFirstRun_at (hlen : 8 ≤ s.src.bytes.length) (hn : be24Nat s.src.bytes (s.src.bytes.length - 4) = n) :
    PpAt s.src.bytes missing n (fileModes s.src.bytes) [] (regionBits s.src.bytes ++ missing) (ppFirstRun s) := by
  have hdst : (ppLoadLen s.src.bytes s.ppu).dstLen.toNat = n := (be24At_toNat _ _).trans hn
  exact ⟨ppInit_inv _ _, hdst, rfl, ⟨hdst, fun i hi => absurd hi (Nat.not_lt_zero i)⟩,
    by rw [← reverseBits_ppInit (ppLoadLen s.src.bytes s.ppu) hlen]; rfl⟩

/-- The decoding of a file of tokens, or of one that ends in them (R121, R123). -/
theorem ppDecode_ends (hm : missing ≠ [] → s.params.pp20Underrun = .fail) (hlen : 8 ≤ s.src.bytes.length)
    (hn : be24Nat s.src.bytes (s.src.bytes.length - 4) = n)
    (hskip : (byteAt s.src.bytes (s.src.bytes.length - 1)).toNat = skip.length)
    (hok : tokensOk (fileModes s.src.bytes) false n tokens = true)
    (hb : regionBits s.src.bytes ++ missing = skip ++ (tokensBits (fileModes s.src.bytes) false tokens ++ rest)) :
    PpEnds missing (fun r' => PpAt s.src.bytes missing n (fileModes s.src.bytes) (tokensOut n [] tokens) rest r' ∧
      r'.pp.left = 0) (ppDecode s.params s.src.bytes (ppFirstRun s)) := by
  have h := ppFirstRun_at (missing := missing) hlen hn
  unfold ppDecode
  rw [hskip]
  rcases ppSkip_ends hm h.inv.bitCnt (h.bits.trans hb) with ⟨hne, r', he⟩ | ⟨r1, he, hmove⟩
  · exact .inl ⟨hne, r', by rw [he]⟩
  · have h1 := h.moves hmove
    have hleft : r1.pp.left = n := h1.holds.1
    rw [he]
    exact ppLoop_ends hm (le_refl _) ⟨[], tokens, h1, by rw [hleft]; exact hok, rfl⟩

/-- Every way `PP20.UNPACK` can end past the checks, when the oracle ALLOC succeeds. -/
inductive PpDecoded (s : State) : State → Prop
  | unpacked (r : PpRun) : ppDecode s.params s.src.bytes (ppFirstRun s) = .ok r →
      PpDecoded s (complete 1 { ppPutBack r { dropOut s with allocAnswers := s.allocAnswers.tail } with
        outLen := be24Nat s.src.bytes (s.src.bytes.length - 4)
        outValid := true })
  | failed (r : PpRun) : ppDecode s.params s.src.bytes (ppFirstRun s) = .error (.fail r) →
      PpDecoded s (failUnpack .failure (ppPutBack r { dropOut s with allocAnswers := s.allocAnswers.tail }))

theorem execPp20Unpack_decoded (hl : 8 ≤ s.src.bytes.length) (hv : ppHeaderValid s.src.bytes = true)
    (hc : ppChecksPass s.params s.src.bytes = true) (ha : s.allocSucceeds) :
    ∃ t, exec (.pp20Unpack false) s = .next t ∧ PpDecoded s t := by
  obtain ⟨t, ht, he⟩ := execPp20Unpack_end s false
  refine ⟨t, ht, ?_⟩
  cases he with
  | badHeader hbad => rw [ppHeaderOk_of_valid hl hv] at hbad; cases hbad
  | verified _ h => cases h
  | badSize _ _ _ hbad => rw [hc] at hbad; cases hbad
  | noSpace _ _ _ _ ha' => exact absurd ha (not_allocSucceeds ha')
  | unpacked r _ _ _ _ _ _ _ hrun => rw [be24At_toNat]; exact .unpacked r hrun
  | failed r _ _ _ _ _ _ _ hrun => exact .failed r hrun

end

/-- Settles O50: each reader says what it makes of its bits, and what of a region that ends in them; a pass of the
loop puts them together, and the loop by induction on its bound. -/
theorem pp20FileOfTokensUnpacks : Obligations.Pp20FileOfTokensUnpacks := by
  unfold Obligations.Pp20FileOfTokensUnpacks
  refine ⟨fun p bytes data codes rest r h8 ho hl hcodes hdata hb => ?_,
    fun s tokens skip missing n hl hv hc ha hu hn hskip hok hne hb => ?_,
    fun s tokens skip rest n hl hv hc ha hn hskip hok hb => ?_⟩
  · rcases ppLiteralRun_ends (missing := []) (p := p) (fun h => absurd rfl h) h8 ho hl hcodes hdata
      (by rw [List.append_nil]; exact hb) with ⟨hne, -⟩ | ⟨r', hrun, hw, hrest⟩
    · exact absurd rfl hne
    · obtain ⟨a, b, c, -, hpp⟩ := hw.frame
      rw [List.append_nil] at hrest
      exact ⟨r', hrun, hw.bitCnt_le, hrest, by rw [hpp], hw.size, hw.read⟩
  · obtain ⟨t, ht, hd⟩ := execPp20Unpack_decoded hl hv hc ha
    rcases ppDecode_ends (missing := missing) (rest := []) (fun _ => hu) hl hn hskip hok (by rw [List.append_nil]; exact hb) with
      ⟨-, r, he⟩ | ⟨r, he, hat, -⟩
    · cases hd with
      | unpacked r' hrun => rw [he] at hrun; cases hrun
      | failed r' hrun => exact ⟨_, ht, rfl, rfl, rfl, rfl⟩
    · exact absurd (List.append_eq_nil_iff.1 hat.bits).2 hne
  · obtain ⟨t, ht, hd⟩ := execPp20Unpack_decoded hl hv hc ha
    rcases ppDecode_ends (missing := []) (fun h => absurd rfl h) hl hn hskip hok
      (by rw [List.append_nil, hb, List.append_assoc]) with ⟨hne, -⟩ | ⟨r, he, hat, h0⟩
    · exact absurd rfl hne
    · cases hd with
      | unpacked r' hrun =>
        rw [he] at hrun
        cases hrun
        obtain ⟨hlen, hread⟩ := hat.holds
        rw [h0, Nat.zero_add] at hlen
        refine ⟨_, r.out, ht, rfl, rfl, rfl, rfl, hat.inv.size.trans hat.len, hn, rfl, fun i hi => ?_⟩
        rw [← hread i (by omega), h0, Nat.zero_add]
      | failed r' hrun => rw [he] at hrun; cases hrun

end Sys2Proof.Machine
end

section
/-! Proofs: `ReadBits` of any reader as a function of the bits its stream holds (40_bitreader.md R75 to R80): what it
answers and leaves depends on those bits and on how many of them are in the accumulator, never on the size of the staging
buffer. What stays in that buffer is followed byte by byte through `NextByte`. Then the three commands of the BR unit (R81
to R83). -/
namespace Sys2Proof.Machine

/-! ## What the stream still holds (R78, R79) -/

theorem stagedBytes_length {B : Nat} {rd : Reader} (h : rd.StageSound B) :
    (stagedBytes rd).length = rd.bufSize - rd.bufPos := by
  rw [stagedBytes, List.length_drop, List.length_take, h.stage_len, Nat.min_eq_left h.bufSize_le]

theorem streamBits_length_of_stageSound {B : Nat} {rd : Reader} (h : rd.StageSound B) (src : ByteSource) :
    (streamBits rd src).length = rd.nbits + 8 * ((rd.bufSize - rd.bufPos) + (src.bytes.length - src.pos)) := by
  rw [streamBits_length, List.length_append, stagedBytes_length h, restBytes, List.length_drop]

/-- When every byte there is has been moved, the stream is the accumulator. -/
theorem streamBits_of_all_moved {rd : Reader} {src : ByteSource} (hs : rd.bufPos = rd.bufSize)
    (hp : src.pos = src.bytes.length) : stagedBytes rd ++ restBytes src = [] ∧ streamBits rd src = accBits rd := by
  have hnil : stagedBytes rd ++ restBytes src = [] := by
    rw [stagedBytes, restBytes, hs, hp, List.drop_length, List.append_nil]
    exact List.drop_eq_nil_of_le (List.length_take_le _ _)
  exact ⟨hnil, by rw [streamBits, hnil, bitsOfBytes_nil, List.append_nil]⟩

/-- Over the same bytes, the position is fixed by how many bits are held and how many the stream holds (R79). -/
theorem getPosition_eq_of_length {b1 b2 : Nat} {rd1 rd2 : Reader} {src1 src2 : ByteSource} (h1 : rd1.StageSound b1)
    (h2 : rd2.StageSound b2) (hp1 : src1.pos ≤ src1.bytes.length) (hp2 : src2.pos ≤ src2.bytes.length)
    (hb : src1.bytes = src2.bytes) (hn : rd1.nbits = rd2.nbits)
    (hl : (streamBits rd1 src1).length = (streamBits rd2 src2).length) : getPosition rd1 src1 = getPosition rd2 src2 := by
  rw [streamBits_length, streamBits_length] at hl
  rw [getPosition_eq h1 hp1, getPosition_eq h2 hp2, hb]
  omega

/-! ## `ReadBits` as a function of the stream (R76 to R78) -/

/-- The bits left in the accumulator by a read of `n` bits, of `len` the stream holds, `nbits` of them in it before. -/
def heldAfterRead (n nbits len : Nat) : Nat :=
  if n ≤ len then nbits + 8 * bytesNeeded n nbits ((len - nbits) / 8) - n else len

section
variable {B n : Nat} {rd : Reader} {src : ByteSource} (hB : 0 < B) (hn : n ≤ 32) (h : rd.Sound B)
  (hp : src.pos ≤ src.bytes.length)
include hB hn h hp

/-- What `ReadBits` answers and leaves of a sound reader, whether the stream holds the bits or not. -/
theorem readBits_spec : ∃ rd' src',
    readBits B n rd src =
      (if n ≤ (streamBits rd src).length then some (lsbValue ((streamBits rd src).take n)) else none, rd', src') ∧
    streamBits rd' src' = (if n ≤ (streamBits rd src).length then (streamBits rd src).drop n else streamBits rd src) ∧
    rd'.nbits = heldAfterRead n rd.nbits (streamBits rd src).length ∧
    rd'.Sound B ∧ src'.bytes = src.bytes ∧ src'.pos ≤ src'.bytes.length := by
  unfold heldAfterRead
  by_cases hl : n ≤ (streamBits rd src).length
  · obtain ⟨rd', src', he, hst, hs, hb, hpos, hnb⟩ := readBits_ok hB hn h hp hl
    have hbytes : ((streamBits rd src).length - rd.nbits) / 8 = (stagedBytes rd ++ restBytes src).length := by
      rw [streamBits_length]; omega
    simp only [if_pos hl, hbytes]
    exact ⟨rd', src', he, hst, hnb, hs, hb, hb ▸ hpos⟩
  · obtain ⟨rd', src', he, hst, hs, hb, hnb, -, hpos⟩ := readBits_eod hB hn h hp (Nat.lt_of_not_le hl)
    simp only [if_neg hl]
    exact ⟨rd', src', he, hst, hnb, hs, hb, by rw [hb, hpos]⟩

/-- R78, the stream counted in the reader's registers and the source's cursor. -/
theorem readBits_eq_none_iff : (readBits B n rd src).1 = none ↔
    rd.nbits + 8 * ((rd.bufSize - rd.bufPos) + (src.bytes.length - src.pos)) < n := by
  obtain ⟨rd', src', he, -⟩ := readBits_spec hB hn h hp
  rw [he, ← streamBits_length_of_stageSound h.stage]
  simp

end

/-- With no byte left to move, a read of more bits than are held ends `EOD` and changes nothing (R77). -/
theorem readBits_of_all_moved {B m : Nat} {rd : Reader} {src : ByteSource} (hB : 0 < B) (h : rd.StageSound B)
    (hs : rd.bufPos = rd.bufSize) (hp : src.pos = src.bytes.length) (hm : rd.nbits < m) :
    readBits B m rd src = (none, rd, src) := by
  have hnext := nextByte_spec hB h hp.le
  rw [(streamBits_of_all_moved hs hp).1] at hnext
  obtain ⟨k, rfl⟩ : ∃ k, m = k + 1 := ⟨m - 1, by omega⟩
  simp only [readBits, fillBits, if_neg (Nat.not_le.2 hm), hnext.1]

/-! ## What a read leaves staged (R75, R76, R80) -/

/-- One byte more: after `NextByte` takes the first of them from the staging buffer, or fetches it with those that follow.
A fetch that gives fewer bytes than the buffer's size is the last one, so no byte is then taken beyond it. -/
theorem BytesTaken.succ {B k : Nat} {b : Byte} {rd rd1 rd' : Reader} {src src1 src' : ByteSource} (hB : 0 < B)
    (hs : rd.bufPos ≤ rd.bufSize) (hp : src.pos ≤ src.bytes.length) (hn : nextByte B rd src = some (b, rd1, src1))
    (hs' : rd'.bufPos ≤ rd'.bufSize) (h : BytesTaken B k rd1 src1 rd' src') : BytesTaken B (k + 1) rd src rd' src' := by
  unfold BytesTaken at h ⊢
  by_cases he : rd.bufPos = rd.bufSize
  · obtain ⟨hlt, rfl, hsize, hstage, hpos, -⟩ := nextByte_fetch hp he hn
    rw [if_neg (by omega)]
    simp only at h hsize
    split at h
    · -- the bytes are all in this first fetch
      obtain ⟨rfl, hst, hsz, hps⟩ := h
      have hk : k / B = 0 := Nat.div_eq_of_lt (by omega)
      refine ⟨0, src.pos, ?_, rfl, rfl, hsz.trans hsize, ?_, ?_⟩
      · rw [he, Nat.sub_self]; exact hk.symm
      · rw [hst, hsz, hstage]
      · omega
    · obtain ⟨chunks, start, hchunks, hstart, rfl, hsz, hst, hps⟩ := h
      have hle := Nat.mul_div_le (k - (rd1.bufSize - rd1.bufPos) - 1) B
      rw [← hchunks] at hle
      simp only at hstart hsz hst ⊢
      have hfull : rd1.bufSize = B := by omega
      have hk : k / B = chunks + 1 := by
        rw [Nat.div_eq_sub_div hB (by omega), hchunks]
        congr 2
        omega
      refine ⟨chunks + 1, start, ?_, ?_, rfl, hsz, hst, ?_⟩
      · rw [he, Nat.sub_self]; exact hk.symm
      · rw [Nat.mul_add]; omega
      · rw [Nat.mul_add]; omega
  · rw [nextByte_staged he] at hn
    cases hn
    simp only at h
    split at h
    · rw [if_pos (by omega)]
      obtain ⟨hsrc, hst, hsz, hps⟩ := h
      exact ⟨hsrc, hst, hsz, by omega⟩
    · rw [if_neg (by omega)]
      rwa [show k + 1 - (rd.bufSize - rd.bufPos) = k - (rd.bufSize - (rd.bufPos + 1)) by omega]

theorem bytesTaken_zero (B : Nat) (rd : Reader) (src : ByteSource) : BytesTaken B 0 rd src rd src := by
  rw [BytesTaken, if_pos (Nat.zero_le _)]
  exact ⟨rfl, rfl, rfl, rfl⟩

/-- The loop of `ReadBits`, when it reaches `n` bits, takes just the bytes that bring `NBITS` there. -/
theorem fillBits_bytesTaken {B n : Nat} (hB : 0 < B) : ∀ (k : Nat) (rd : Reader) (src : ByteSource) {rd' : Reader}
    {src' : ByteSource}, rd.StageSound B → src.pos ≤ src.bytes.length → rd'.bufPos ≤ rd'.bufSize →
      fillBits B n k rd src = (true, rd', src') → BytesTaken B ((n - rd.nbits + 7) / 8) rd src rd' src'
  | 0, rd, src, rd', src', _, _, _, hf => by
    obtain ⟨hle, hend⟩ := Prod.mk.inj hf
    cases hend
    have hle : n ≤ rd.nbits := of_decide_eq_true hle
    rw [show (n - rd.nbits + 7) / 8 = 0 by omega]
    exact bytesTaken_zero B rd src
  | k + 1, rd, src, rd', src', hs, hp, hs', hf => by
    unfold fillBits at hf
    split at hf
    · cases hf
      rw [show (n - rd.nbits + 7) / 8 = 0 by omega]
      exact bytesTaken_zero B rd src
    · have hnext := nextByte_spec hB hs hp
      split at hnext
      · rw [hnext.1] at hf
        cases hf
      · obtain ⟨rd1, src1, hn1, -, -, hnb, hs1, hb1, hp1⟩ := hnext
        rw [hn1] at hf
        have hrest := fillBits_bytesTaken hB k _ src1 (hs1.absorb _) (hb1 ▸ hp1) hs' hf
        rw [show (n - rd.nbits + 7) / 8 = (n - (rd1.nbits + 8) + 7) / 8 + 1 by omega]
        exact BytesTaken.succ hB hs.bufPos_le hp hn1 hs' hrest

/-- Consuming bits leaves the staging buffer, so a read takes the bytes its loop takes. -/
theorem readBits_bytesTaken {B n v : Nat} {rd rd' : Reader} {src src' : ByteSource} (hB : 0 < B) (h : rd.Sound B)
    (hp : src.pos ≤ src.bytes.length) (hs' : rd'.bufPos ≤ rd'.bufSize)
    (hr : readBits B n rd src = (some v, rd', src')) : BytesTaken B ((n - rd.nbits + 7) / 8) rd src rd' src' := by
  unfold readBits at hr
  rcases hf : fillBits B n n rd src with ⟨_ | _, rd1, src1⟩ <;> rw [hf] at hr <;> cases hr
  have htaken := fillBits_bytesTaken (rd' := rd1) hB n rd src h.stage hp hs' hf
  exact htaken

/-- A filled staging buffer has had a byte taken from it. -/
theorem Reader.Sound.staged_le {B : Nat} {rd : Reader} (h : rd.Sound B) : rd.bufSize - rd.bufPos ≤ B - 1 := by
  have hsize := h.bufSize_le
  have htaken := h.taken
  omega

theorem pos_sub_getPosition (rd : Reader) (src : ByteSource) :
    (src.pos : Int) - getPosition rd src = rd.bufSize - rd.bufPos := by
  rw [getPosition]
  ring

/-- What a read that returns a value leaves of the staging buffer and the source. -/
theorem readBits_staged {B n v : Nat} {rd rd' : Reader} {src src' : ByteSource} (hB : 0 < B) (hn : n ≤ 32)
    (h : rd.Sound B) (hp : src.pos ≤ src.bytes.length) (hr : readBits B n rd src = (some v, rd', src')) :
    rd'.bufPos ≤ rd'.bufSize ∧ rd'.bufSize - rd'.bufPos ≤ B - 1 ∧
      BytesTaken B ((n - rd.nbits + 7) / 8) rd src rd' src' := by
  obtain ⟨rd1, src1, he, -, -, hs, -⟩ := readBits_spec hB hn h hp
  rw [hr] at he
  obtain ⟨-, he⟩ := Prod.mk.inj he
  cases he
  exact ⟨hs.bufPos_le, hs.staged_le, readBits_bytesTaken hB h hp hs.bufPos_le hr⟩

/-! ## The commands of the BR unit (R81 to R83) -/

/-- `BR.READBITS` of a read past the end of the data. -/
theorem execBrReadbits_of_none {s : State} {n : BitVec 6} {src src' : ByteSource} {rd : Reader}
    (hb : s.brSource = some src) (hn : n.toNat ≤ 32)
    (hr : readBits s.params.bufBytes n.toNat s.br src = (none, rd, src')) :
    execBrReadbits n s = .next (endOfData (s.setBr rd src')) := by
  unfold execBrReadbits
  rw [hb]
  simp only [if_neg (Nat.not_lt.2 hn), hr]

theorem execBrReadbits_of_refused {s : State} {n : BitVec 6} (h : s.brSource = none ∨ 32 < n.toNat) :
    execBrReadbits n s = .next (refuse s) := by
  unfold execBrReadbits
  cases hb : s.brSource with
  | none => rfl
  | some src => exact if_pos (h.resolve_left (by rw [hb]; exact Option.some_ne_none src))

/-- `BR.READBITS` ends `EOD` exactly when the read of the bound source gives no value. -/
theorem execBrReadbits_code_eod_iff {s : State} {n : BitVec 6} {src : ByteSource} (hb : s.brSource = some src)
    (hn : n.toNat ≤ 32) : (∃ t, execBrReadbits n s = .next t ∧ t.code = .eod) ↔
      (readBits s.params.bufBytes n.toNat s.br src).1 = none := by
  rcases hr : readBits s.params.bufBytes n.toNat s.br src with ⟨_ | v, rd, src'⟩
  · exact iff_of_true ⟨_, execBrReadbits_of_none hb hn hr, rfl⟩ rfl
  · refine iff_of_false ?_ (Option.some_ne_none v)
    rintro ⟨t, ht, hc⟩
    rw [execBrReadbits_of_some hb hn hr] at ht
    cases ht
    cases hc

theorem consume_zero (rd : Reader) : consume 0 rd = (0, rd) := by
  rw [consume, Nat.pow_zero, Nat.mod_one, BitVec.ushiftRight_zero, Nat.sub_zero]

/-- A read of no bits is served by the accumulator whatever it holds. -/
theorem execBrReadbits_zero {s : State} {src : ByteSource} (hb : s.brSource = some src) :
    execBrReadbits 0 s = .next (complete 0 s) := by
  have hr : readBits s.params.bufBytes (0 : BitVec 6).toNat s.br src = (some 0, s.br, src) := by
    show readBits s.params.bufBytes 0 s.br src = _
    rw [readBits_held (Nat.zero_le _), consume_zero]
  rw [execBrReadbits_of_some hb (Nat.zero_le _) hr, State.setBr_self hb]
  rfl

theorem execBrGetpos_of_none {s : State} (h : s.brSource = none) : execBrGetpos s = .next (refuse s) := by
  rw [execBrGetpos, h]

theorem execBrGetpos_of_bound {s : State} {src : ByteSource} (h : s.brSource = some src) :
    execBrGetpos s = .next (complete (BitVec.ofInt 32 (getPosition s.br src)) s) := by
  rw [execBrGetpos, h]

/-- A position inside a presented source fits `RESULT`. -/
theorem toNat_ofInt_getPosition {B : Nat} {rd : Reader} {src : ByteSource} (h : rd.StageSound B) (hs : src.Sound)
    (h0 : rd.bufSize ≤ src.pos + rd.bufPos) :
    (BitVec.ofInt 32 (getPosition rd src)).toNat + rd.bufSize = src.pos + rd.bufPos := by
  have hle := h.bufPos_le
  have hpos := hs.pos_le
  have hlen := hs.len_lt
  rw [BitVec.toNat_ofInt, getPosition]
  omega

/-! ## The obligations -/

/-- Settles O17: all the bits are then in the accumulator (`readBits_eod`), which serves what it holds, and the next byte
is missing for any more. -/
theorem readbitsAtEndOfData : Obligations.ReadbitsAtEndOfData := by
  unfold Obligations.ReadbitsAtEndOfData
  refine ⟨fun B n rd src hB hn h hp hlen => ?_, fun s n src hs hb hn hlen => ?_⟩
  · obtain ⟨rd', src', hread, hstream, hs, hbytes, hnb, hstaged, hpos⟩ := readBits_eod hB hn h hp hlen
    have hend : src'.pos = src'.bytes.length := by rw [hpos, hbytes]
    have hacc : accBits rd' = streamBits rd src := (streamBits_of_all_moved hstaged hend).2.symm.trans hstream
    refine ⟨rd', src', hread, hacc, hnb, hstaged, hbytes, hpos, fun m hm => ?_,
      fun m hm => readBits_of_all_moved hB hs.stage hstaged hend hm⟩
    rw [readBits_held hm, ← hacc, ← (consume_spec hm).1]
  · obtain ⟨rd', src', hread, -⟩ := readBits_eod (bufBytes_pos _) hn hs.br (hs.bound src hb).pos_le hlen
    rw [hread]
    exact execBrReadbits_of_none hb hn hread

/-- Settles O21: the bytes a read takes, one after the other, and what its soundness says of the buffer they leave; the
unit's own reads are those of the way `BR.READBITS` ends in `OK`. -/
theorem cursorRunsAheadByTheStagedBytes : Obligations.CursorRunsAheadByTheStagedBytes := by
  unfold Obligations.CursorRunsAheadByTheStagedBytes
  refine ⟨pos_sub_getPosition, fun B n v rd rd' src src' hB hn h hp hr => readBits_staged hB hn h hp hr,
    fun s t n hs ht hc => ?_⟩
  cases exec_end ht with
  | brReadbits _ _ _ he =>
    cases he with
    | refused | short => cases hc
    | read v rd src src' hb hn hr =>
      obtain ⟨hle, hahead, htaken⟩ := readBits_staged (bufBytes_pos _) hn hs.br (hs.bound src hb).pos_le hr
      refine ⟨src, src', hb, State.setBr_brSource hb rd src', pos_sub_getPosition _ src', hle, ?_, htaken⟩
      rw [complete_params, State.setBr_params]
      exact hahead

/-- Settles O22: `readBits_spec` gives answer, stream and bits held by the stream and the bits held before, whatever the
staging buffer's size, and these fix the position. -/
theorem stagingSizeIsInvisibleToReads : Obligations.StagingSizeIsInvisibleToReads := by
  unfold Obligations.StagingSizeIsInvisibleToReads
  intro b1 b2 n rd1 rd2 src1 src2 hb1 hb2 hn h1 h2 hp1 hp2 hstream
  obtain ⟨rd1', src1', he1, hst1, hnb1, hs1, hbytes1, hpos1⟩ := readBits_spec hb1 hn h1 hp1
  obtain ⟨rd2', src2', he2, hst2, hnb2, hs2, hbytes2, hpos2⟩ := readBits_spec hb2 hn h2 hp2
  rw [hstream] at he1 hst1 hnb1
  have hst : streamBits rd1' src1' = streamBits rd2' src2' := hst1.trans hst2.symm
  rw [he1, he2]
  refine ⟨rfl, hst, fun hbytes hheld => ?_⟩
  have hnb : rd1'.nbits = rd2'.nbits := by rw [hnb1, hnb2, hheld]
  exact ⟨hnb, getPosition_eq_of_length hs1.stage hs2.stage hpos1 hpos2 (by rw [hbytes1, hbytes2, hbytes]) hnb
    (congrArg _ hst)⟩

/-- Settles O23: `readBits_eq_none_iff`, which `BR.READBITS` takes over by the two ways a read of a bound source ends. -/
theorem endOfDataExactlyWhenShort : Obligations.EndOfDataExactlyWhenShort := by
  unfold Obligations.EndOfDataExactlyWhenShort
  exact ⟨fun B n rd src hB hn h hp => readBits_eq_none_iff hB hn h hp,
    fun s n src hs hb hn => (execBrReadbits_code_eod_iff hb hn).trans
      (readBits_eq_none_iff (bufBytes_pos _) hn hs.br (hs.bound src hb).pos_le)⟩

/-- Settles O15: the state is the definition's own; with nothing held and nothing staged the stream is the source. -/
theorem bindStartsAtTheCursor : Obligations.BindStartsAtTheCursor := by
  unfold Obligations.BindStartsAtTheCursor
  exact fun s => ⟨_, rfl, rfl, rfl, rfl, rfl⟩

/-- Settles O18: a bound unit answers a read of no bits from the accumulator; the other clauses are the refusals. -/
theorem readbitsAndGetposRefused : Obligations.ReadbitsAndGetposRefused := by
  unfold Obligations.ReadbitsAndGetposRefused
  refine fun s n => ⟨execBrReadbits_of_refused, execBrGetpos_of_none, fun hb => ?_⟩
  obtain ⟨src, hsrc⟩ := Option.ne_none_iff_exists'.1 hb
  exact execBrReadbits_zero hsrc

/-- Settles O19: the position is not negative and inside the source, so `RESULT` holds it as it is. -/
theorem getposIsTheFirstByteNotRead : Obligations.GetposIsTheFirstByteNotRead := by
  unfold Obligations.GetposIsTheFirstByteNotRead
  exact fun s src hs hb h0 =>
    ⟨_, execBrGetpos_of_bound hb, toNat_ofInt_getPosition hs.br.stage (hs.bound src hb) h0⟩

end Sys2Proof.Machine
end

section
/-! Proofs: the steps of `IT.DECODE` one at a time (41_it_decompress.md R85 to R99): the width an index names, one sample,
every way a symbol and a block header can end, and the two loops as turns. -/
namespace Sys2Proof.Machine

/-! ## Widths (R94) -/

theorem changeWidth_of_lt {cur idx : Nat} (h : idx + 1 < cur) : changeWidth cur idx = idx + 1 := if_neg (by omega)

theorem changeWidth_of_ge {cur idx : Nat} (h : cur ≤ idx + 1) : changeWidth cur idx = idx + 2 := if_pos h

/-- `ConvertWidth` undoes `ChangeWidth`, which never names the current width (R94, 30_encoding.md R57). -/
theorem convertWidth_changeWidth (cur idx : Nat) :
    changeWidth cur idx ≠ cur ∧ convertWidth cur (changeWidth cur idx) = idx := by
  rcases Nat.lt_or_ge (idx + 1) cur with h | h
  · rw [changeWidth_of_lt h, convertWidth_of_lt h]
    omega
  · rw [changeWidth_of_ge h, convertWidth_of_gt (by omega)]
    omega

/-- Settles O30: an index lies below the current width or not, and `convertWidth` undoes either. -/
theorem changeWidthSkipsTheCurrentWidth : Obligations.ChangeWidthSkipsTheCurrentWidth := by
  unfold Obligations.ChangeWidthSkipsTheCurrentWidth
  refine ⟨fun _ _ => ⟨changeWidth_of_lt, changeWidth_of_ge⟩,
    fun is16 cur h1 hcur => ⟨fun idx hidx => ?_, fun w hw1 hw hne => ?_⟩, rfl, rfl, rfl⟩
  · have hle := (changeWidth_le_iff hcur (defWidth_ge is16) idx).2 hidx
    exact ⟨changeWidth_pos cur idx, hle, convertWidth_changeWidth cur idx⟩
  · exact ⟨changeWidth_convertWidth h1 hw1 hne, convertWidth_le hcur hw hne⟩

/-! ## The command (R84, R85) -/

/-- Settles O25: with a channel the command ends with `OK`, or not at all. -/
theorem itDecodeRefusedWithoutChannels : Obligations.ItDecodeRefusedWithoutChannels := by
  unfold Obligations.ItDecodeRefusedWithoutChannels
  refine fun s is215 is16 => ⟨fun hc => if_pos hc, fun t ht hcode => ?_⟩
  cases exec_end ht with
  | itDecode _ _ _ _ hend =>
    cases hend with
    | refused hc => exact hc
    | decoded r => cases hcode

/-! ## One sample (R95) -/

theorem addMod_toNat {W : Nat} (hW : W ≤ 16) (m : BitVec 16) (d : Int) :
    ((addMod W m d).toNat : Int) = ((m.toNat : Int) + d) % ((2 ^ W : Nat) : Int) := by
  have hpos : (0 : Int) < ((2 ^ W : Nat) : Int) := by exact_mod_cast Nat.two_pow_pos W
  have h0 := Int.emod_nonneg ((m.toNat : Int) + d) hpos.ne'
  have hlt := Int.emod_lt_of_pos ((m.toNat : Int) + d) hpos
  have hle : (2 : Nat) ^ W ≤ 2 ^ 16 := Nat.pow_le_pow_right (by decide) hW
  rw [addMod, BitVec.toNat_ofNat, Nat.mod_eq_of_lt (by omega), Int.toNat_of_nonneg h0]

theorem itW_le (is16 : Bool) : itW is16 ≤ 16 := by cases is16 <;> decide

/-- Inside the buffer a sample is written. -/
theorem itWrite_of_lt (d : Int) {r : ItRun} (h : r.itd.writePos < r.smp.len) : ∃ r', itWrite d r = .ok r' := by
  cases hw : itWrite d r with
  | ok r' => exact ⟨r', rfl⟩
  | error f => exact absurd (itWrite_error hw).2 (Nat.not_le.2 h)

/-- Settles O29: `itWrite_ok` says what is written, `addMod_toNat` what the sums are. -/
theorem sampleWriteStepsTheIntegrators : Obligations.SampleWriteStepsTheIntegrators := by
  unfold Obligations.SampleWriteStepsTheIntegrators
  intro d r hwf hlt
  obtain ⟨r', hr'⟩ := itWrite_of_lt d hlt
  obtain ⟨-, hsrc, hitd, hsmp⟩ := itWrite_ok hr'
  have hread := fun a => Memory.read_write hwf r.itd.writePos a (if r.itd.is215 then r'.itd.mem2 else r'.itd.mem1)
  have hW := itW_le r.itd.is16
  refine ⟨r', hr', ?_, fun h => ?_, fun h => ?_, ?_, fun a ha => ?_, ?_, ?_, ?_, hsrc, ?_, ?_, fun d' hd' => ?_⟩
  · rw [hitd]
    exact addMod_toNat hW _ d
  · rw [hitd]
    simp only [if_pos h]
    exact Int.ofNat_inj.1 (addMod_toNat hW _ _)
  · rw [hitd, h]
    rfl
  · rw [hsmp]
    exact (hread _).trans (if_pos rfl)
  · rw [hsmp]
    exact (hread a).trans (if_neg ha)
  · rw [hitd]
  · rw [hitd]
  · rw [hitd]
  · rw [hsmp]
  · rw [hitd]
  · rw [← itWrite_emod d' r, hd', itWrite_emod d r, hr']

/-! ## One symbol (R89, R98, R99) -/

section
variable {p : Params} {r r' : ItRun}

/-- An abort changes `IT_CHAN_OVER` alone, and only in the scope of the channel. -/
theorem itAbort_eq (p : Params) (r : ItRun) : itAbort p r = { r with itd := { r.itd with
    chanOver := if p.itAbortScope = .channel then true else r.itd.chanOver } } := by
  unfold itAbort
  cases p.itAbortScope <;> rfl

/-- Every way a symbol can end: the block is over and nothing but the reader and `IT_CHAN_OVER` has changed, or the width
has, or a sample is written. -/
inductive ItSymbolEnd (p : Params) (r : ItRun) : LoopControl → ItRun → Prop
  | aborted (br : PrivateReader) : ItSymbolEnd p r .endBlock (itAbort p { r with itd := { r.itd with br := br } })
  | width (br : PrivateReader) (w : Nat) : ItSymbolEnd p r .again { r with itd := { r.itd with br := br, width := w } }
  | sample (br : PrivateReader) (d : Int) (r' : ItRun) : itWrite d { r with itd := { r.itd with br := br } } = .ok r' →
      ItSymbolEnd p r .again r'

theorem itSample_eq_ok {d : Int} {c : LoopControl} (h : itSample d r = .ok (c, r')) : c = .again ∧ itWrite d r = .ok r' := by
  unfold itSample at h
  split at h
  · cases h
  · cases h
    exact ⟨rfl, ‹_›⟩

theorem itSample_end {d : Int} {c : LoopControl} {br : PrivateReader}
    (h : itSample d { r with itd := { r.itd with br := br } } = .ok (c, r')) : ItSymbolEnd p r c r' := by
  obtain ⟨rfl, hw⟩ := itSample_eq_ok h
  exact .sample br d r' hw

theorem itSymbol_end {c : LoopControl} (h : itSymbol p r = .ok (c, r')) : ItSymbolEnd p r c r' := by
  unfold itSymbol at h
  simp only at h
  split at h
  · cases h
    exact .aborted r.itd.br
  · split at h
    · rename_i hread
      obtain ⟨-, rfl⟩ := Prod.mk.inj hread
      cases h
      exact .aborted _
    · rename_i hread
      obtain ⟨-, rfl⟩ := Prod.mk.inj hread
      split at h
      · unfold itModeA at h
        split at h
        · split at h
          · rename_i hread2
            obtain ⟨-, rfl⟩ := Prod.mk.inj hread2
            cases h
            exact .aborted _
          · rename_i hread2
            obtain ⟨-, rfl⟩ := Prod.mk.inj hread2
            cases h
            exact .width _ _
        · exact itSample_end h
      · unfold itModeB itModeC at h
        repeat' split at h
        · cases h
          exact .width _ _
        · exact itSample_end h
        · cases h
          exact .width _ _
        · exact itSample_end h

end

/-! ## Block headers (R87) -/

/-- The run after a header of `size` with `left` bytes behind it, with its reader. -/
def itHeaderRun (p : Params) (size left : Nat) (br : PrivateReader) (r : ItRun) : ItRun :=
  { r with
    src := { r.src with pos := r.src.pos + 2 + min size left }
    itd := { r.itd with
      st := .hdr
      blkSize := BitVec.ofNat 16 size
      br := br
      mem1 := if size ≠ 0 ∧ p.itMemReset = .perBlock then 0 else r.itd.mem1
      mem2 := if size ≠ 0 ∧ p.itMemReset = .perBlock then 0 else r.itd.mem2 } }

theorem itBlockHeader_of_short {p : Params} {r : ItRun} (h : r.src.bytes.length < r.src.pos + 2) :
    itBlockHeader p r = (false, { r with itd := { r.itd with st := .hdr } }) := by
  have hcan : srcCanRead r.src 2 = false := decide_eq_false (by unfold srcLen; omega)
  unfold itBlockHeader
  simp only [hcan]
  rfl

theorem le16_eq_ofNat (b0 b1 : Byte) : le16 b0 b1 = BitVec.ofNat 16 (b0.toNat + 256 * b1.toNat) := by
  have h : (le16 b0 b1).toNat = b0.toNat + 256 * b1.toNat := le16At_toNat [b0, b1] 0
  rw [← h, BitVec.ofNat_toNat, BitVec.setWidth_eq]

theorem itBlockHeader_of_bytes {p : Params} {r : ItRun} {b0 b1 : Byte} {rest : List Byte} {size : Nat}
    (h : restBytes r.src = b0 :: b1 :: rest) (hsize : size = b0.toNat + 256 * b1.toNat) :
    ∃ br : PrivateReader, itBlockHeader p r = (true, itHeaderRun p size rest.length br r) ∧
      (size = 0 → br = r.itd.br) ∧ (size ≠ 0 → br.Sound p.bufBytes ∧ br.bits = bitsOfBytes (rest.take size)) := by
  have hlt : size < 2 ^ 16 := by have := b0.isLt; have := b1.isLt; omega
  have hlen := congrArg List.length h
  simp only [restBytes, List.length_drop, List.length_cons] at hlen
  have hcan : srcCanRead r.src 2 = true := decide_eq_true (by unfold srcLen; omega)
  have hread : srcRead r.src 2 = ([b0, b1], { r.src with pos := r.src.pos + 2 }) := by
    unfold restBytes at h
    simp only [srcRead, h]
    rfl
  have hrest : r.src.bytes.drop (r.src.pos + 2) = rest := by
    rw [← List.drop_drop]
    exact congrArg (List.drop 2) h
  have hchunk : srcChunk { r.src with pos := r.src.pos + 2 } size =
      (⟨rest.take size, 0⟩, { r.src with pos := r.src.pos + 2 + min size rest.length }) := by
    simp only [srcChunk, srcRead, hrest, List.length_take]
  unfold itBlockHeader
  simp only [hcan, if_true, hread, List.getD_cons_zero, List.getD_cons_succ, le16_eq_ofNat, ← hsize]
  by_cases hz : size = 0
  · subst hz
    refine ⟨r.itd.br, ?_, fun _ => rfl, fun h => absurd rfl h⟩
    simp [itHeaderRun]
  · have hne : BitVec.ofNat 16 size ≠ 0 := fun he => hz (by
      have := congrArg BitVec.toNat he
      rwa [BitVec.toNat_ofNat, Nat.mod_eq_of_lt hlt] at this)
    refine ⟨_, ?_, fun h => absurd h hz, fun _ =>
      ⟨PrivateReader.over_sound p.bufBytes (rest.take size), PrivateReader.over_bits _ _⟩⟩
    simp only [if_neg hne, BitVec.toNat_ofNat, Nat.mod_eq_of_lt hlt, hchunk]
    unfold itHeaderRun
    by_cases hm : p.itMemReset = .perBlock
    · simp [hm, hz, itClearMem]
    · simp [hm]

/-- A source holds a size field, or fewer than 2 bytes. -/
theorem short_or_restBytes (src : ByteSource) :
    src.bytes.length < src.pos + 2 ∨ ∃ b0 b1 rest, restBytes src = b0 :: b1 :: rest := by
  have hlen : (restBytes src).length = src.bytes.length - src.pos := List.length_drop
  match h : restBytes src with
  | [] | [_] =>
    rw [h] at hlen
    simp only [List.length_nil, List.length_cons] at hlen
    exact .inl (by omega)
  | b0 :: b1 :: rest => exact .inr ⟨b0, b1, rest, rfl⟩

/-! ## The two loops as turns (R84, R89) -/

/-- What a loop answers after one turn. -/
def afterTurn {σ ε : Type} (next : σ → Except ε σ) : Except ε (LoopControl × σ) → Except ε σ
  | .error e => .error e
  | .ok (.endBlock, r) => .ok r
  | .ok (.again, r) => next r

theorem LoopEnds.of_afterTurn {σ ε : Type} {step : σ → Except ε (LoopControl × σ)} {next : σ → Except ε σ} {r : σ}
    (h : ∀ r', step r = .ok (.again, r') → LoopEnds step r' (next r')) : LoopEnds step r (afterTurn next (step r)) := by
  cases ht : step r with
  | error e => exact .stopped ht
  | ok x =>
    obtain ⟨c, r'⟩ := x
    cases c with
    | endBlock => exact .ended ht
    | again => exact .again ht (h r' ht)

section
variable {p : Params} {r r' : ItRun}

theorem itSymbols_succ (k : Nat) : itSymbols p (k + 1) r = afterTurn (itSymbols p k) (itSymbolTurn p r) := by
  unfold itSymbols itSymbolTurn
  by_cases h : r.itd.curLen = 0
  · rw [if_pos h, if_neg (by omega), afterTurn]
  · rw [if_neg h, if_pos (by omega)]
    rcases itSymbol p r with f | ⟨_ | _, r'⟩ <;> rfl

/-- A turn of the symbol loop ends it with no sample to go, or is a symbol. -/
theorem itSymbolTurn_end {c : LoopControl} (h : itSymbolTurn p r = .ok (c, r')) :
    r.itd.curLen = 0 ∧ c = .endBlock ∧ r' = r ∨ 0 < r.itd.curLen ∧ itSymbol p r = .ok (c, r') := by
  unfold itSymbolTurn at h
  split at h
  · exact .inr ⟨‹_›, h⟩
  · cases h
    exact .inl ⟨by omega, rfl, rfl⟩

theorem itBlocks_succ (k : Nat) : itBlocks p (k + 1) r = afterTurn (itBlocks p k) (itBlockTurn p r) := by
  unfold itBlocks itBlockTurn
  split
  · rcases itBlockHeader p r with ⟨_ | _, r1⟩
    · rfl
    · simp only
      split
      · rfl
      · cases itDecodeBlock p r1 <;> rfl
  · rfl

theorem itBlockTurn_of_done (h : ¬ (r.itd.written < r.itd.l.toNat ∧ r.itd.chanOver = false)) :
    itBlockTurn p r = .ok (.endBlock, r) := if_neg h

/-- Without a size field the block loop ends. -/
theorem itBlockTurn_of_short (h : r.src.bytes.length < r.src.pos + 2) : ∃ r', itBlockTurn p r = .ok (.endBlock, r') ∧
    r'.itd.l = r.itd.l ∧ r'.src = r.src ∧ r'.smp = r.smp := by
  unfold itBlockTurn
  split
  · rw [itBlockHeader_of_short h]
    exact ⟨_, rfl, rfl, rfl, rfl⟩
  · exact ⟨r, rfl, rfl, rfl, rfl⟩

/-- Every way a turn of the block loop can end: nothing left to write, no size field left, a size of 0, or a block. -/
inductive ItTurnEnd (p : Params) (r : ItRun) : LoopControl → ItRun → Prop
  | done : ¬ (r.itd.written < r.itd.l.toNat ∧ r.itd.chanOver = false) → ItTurnEnd p r .endBlock r
  | short : r.itd.written < r.itd.l.toNat → r.src.bytes.length < r.src.pos + 2 →
      ItTurnEnd p r .endBlock { r with itd := { r.itd with st := .hdr } }
  | skipped (b0 b1 : Byte) (rest : List Byte) : r.itd.written < r.itd.l.toNat → restBytes r.src = b0 :: b1 :: rest →
      b0.toNat + 256 * b1.toNat = 0 → ItTurnEnd p r .again (itHeaderRun p 0 rest.length r.itd.br r)
  | block (b0 b1 : Byte) (rest : List Byte) (size : Nat) (br : PrivateReader) (r' : ItRun) :
      r.itd.written < r.itd.l.toNat → restBytes r.src = b0 :: b1 :: rest → size = b0.toNat + 256 * b1.toNat →
      size ≠ 0 → br.Sound p.bufBytes → br.bits = bitsOfBytes (rest.take size) →
      itDecodeBlock p (itHeaderRun p size rest.length br r) = .ok r' → ItTurnEnd p r .again r'

theorem itBlockTurn_end {c : LoopControl} (h : itBlockTurn p r = .ok (c, r')) : ItTurnEnd p r c r' := by
  unfold itBlockTurn at h
  split at h
  · rename_i hmore
    rcases short_or_restBytes r.src with hs | ⟨b0, b1, rest, hrest⟩
    · rw [itBlockHeader_of_short hs] at h
      cases h
      exact .short hmore.1 hs
    · obtain ⟨br, hh, hz, hnz⟩ := itBlockHeader_of_bytes (p := p) hrest rfl
      rw [hh] at h
      simp only at h
      split at h
      · rename_i hblk
        have hsize : b0.toNat + 256 * b1.toNat = 0 := by
          have hmod : (b0.toNat + 256 * b1.toNat) % 2 ^ 16 = 0 := congrArg BitVec.toNat hblk
          have := b0.isLt
          have := b1.isLt
          omega
        cases h
        rw [hz hsize, hsize]
        exact .skipped b0 b1 rest hmore.1 hrest hsize
      · rename_i hblk
        split at h
        · cases h
        · rename_i hd
          cases h
          have hsize : b0.toNat + 256 * b1.toNat ≠ 0 := fun h0 => hblk (by rw [h0]; rfl)
          obtain ⟨hbr, hbits⟩ := hnz hsize
          exact .block b0 b1 rest _ br _ hmore.1 hrest rfl hsize hbr hbits hd
  · cases h
    exact .done ‹_›

theorem itDecodeBlock_src (h : itDecodeBlock p r = .ok r') : r'.src = r.src := by
  unfold itDecodeBlock at h
  have hsrc := itSymbols_src _ h
  exact hsrc

/-- A header takes its size field and what there is of its chunk. -/
theorem restBytes_itHeaderRun {b0 b1 : Byte} {rest : List Byte} (h : restBytes r.src = b0 :: b1 :: rest) (size : Nat)
    (br : PrivateReader) : restBytes (itHeaderRun p size rest.length br r).src = rest.drop size := by
  have hrest : r.src.bytes.drop (r.src.pos + 2) = rest := by
    rw [← List.drop_drop]
    exact congrArg (List.drop 2) h
  show r.src.bytes.drop (r.src.pos + 2 + min size rest.length) = _
  rw [← List.drop_drop, hrest]
  rcases Nat.le_total size rest.length with hle | hle
  · rw [Nat.min_eq_left hle]
  · rw [Nat.min_eq_right hle, List.drop_length, List.drop_eq_nil_of_le hle]

/-- A turn after which the block loop goes on has taken a size field (R101). -/
theorem itBlockTurn_again (h : itBlockTurn p r = .ok (.again, r')) :
    (restBytes r'.src).length + 2 ≤ (restBytes r.src).length := by
  cases itBlockTurn_end h with
  | skipped b0 b1 rest _ hrest =>
    rw [restBytes_itHeaderRun hrest, hrest]
    exact Nat.le_refl _
  | block b0 b1 rest size br _ _ hrest _ _ _ _ hd =>
    rw [itDecodeBlock_src hd, restBytes_itHeaderRun hrest, hrest]
    simp

/-- A bound that covers the bits of the chunk does not end the symbol loop (R101). -/
theorem itSymbols_ends : ∀ (k : Nat) (r : ItRun), r.itd.br.Sound p.bufBytes → 1 ≤ r.itd.width →
    r.itd.br.bits.length < k → LoopEnds (itSymbolTurn p) r (itSymbols p k r)
  | k + 1, r, hs, hw, hk => by
    rw [itSymbols_succ]
    refine .of_afterTurn fun r1 ht => ?_
    obtain ⟨-, hc, -⟩ | ⟨-, hsym⟩ := itSymbolTurn_end ht
    · cases hc
    · obtain ⟨hs1, hw1, hlt⟩ := itSymbol_again hsym hs hw
      exact itSymbols_ends k r1 hs1 hw1 (by omega)

/-- A bound that covers the size fields of the source does not end the block loop (R101). -/
theorem itBlocks_ends : ∀ (k : Nat) (r : ItRun), (restBytes r.src).length < 2 * k →
    LoopEnds (itBlockTurn p) r (itBlocks p k r)
  | k + 1, r, hk => by
    rw [itBlocks_succ]
    refine .of_afterTurn fun r1 ht => ?_
    have hlt := itBlockTurn_again ht
    exact itBlocks_ends k r1 (by omega)

end

/-! ## The obligations on headers and on how the loops end -/

theorem itChannelStart_run (p : Params) (chn : Nat) (r : ItRun) : itChannelStart p chn r =
    { r with itd := { r.itd with
        chn := chn
        st := .chan
        written := 0
        writePos := chn
        chanOver := false
        mem1 := if p.itMemReset = .perChannel then 0 else r.itd.mem1
        mem2 := if p.itMemReset = .perChannel then 0 else r.itd.mem2 } } := by
  unfold itChannelStart itClearMem
  cases p.itMemReset <;> rfl

/-- With no sample to decode, or no size field to read, the channels read nothing and write nothing. -/
theorem itChannels_of_nothing {p : Params} : ∀ (k chn : Nat) {r : ItRun},
    r.itd.l = 0 ∨ r.src.bytes.length < r.src.pos + 2 →
      ∃ r', itChannels p k chn r = .ok r' ∧ r'.src = r.src ∧ r'.smp = r.smp
  | 0, _, r, _ => ⟨r, rfl, rfl, rfl⟩
  | k + 1, chn, r, h => by
    have hturn : ∃ r', itBlockTurn p (itChannelStart p chn r) = .ok (.endBlock, r') ∧
        r'.itd.l = r.itd.l ∧ r'.src = r.src ∧ r'.smp = r.smp := by
      rw [itChannelStart_run]
      rcases h with hl | hs
      · exact ⟨_, itBlockTurn_of_done (by simp [hl]), rfl, rfl, rfl⟩
      · exact itBlockTurn_of_short hs
    obtain ⟨r1, ht, hl, hsrc, hsmp⟩ := hturn
    have hchan : itChannel p chn r = .ok r1 := by rw [itChannel, itBlocks_succ, ht, afterTurn]
    obtain ⟨r2, h2, hsrc2, hsmp2⟩ := itChannels_of_nothing k (chn + 1) (r := r1) (by rw [hl, hsrc]; exact h)
    exact ⟨r2, by rw [itChannels, hchan]; exact h2, hsrc2.trans hsrc, hsmp2.trans hsmp⟩

/-- Settles O27: the three ends of a header, and the channels that have nothing to read. -/
theorem blockHeaderBoundsTheBlock : Obligations.BlockHeaderBoundsTheBlock := by
  unfold Obligations.BlockHeaderBoundsTheBlock
  refine ⟨fun p r => itBlockHeader_of_short, fun p r b0 b1 rest size => itBlockHeader_of_bytes,
    fun s is215 is16 hc h => ?_⟩
  obtain ⟨r, hr, hsrc, hsmp⟩ := itChannels_of_nothing s.itChannels.toNat 0 (p := s.params) (r := itStart is215 is16 s) h
  refine ⟨itFinish r s, ?_, rfl, hsrc, hsmp⟩
  show execItDecode is215 is16 s = _
  rw [execItDecode, if_neg hc, hr]

section
variable {p : Params} {r : ItRun}

theorem itRead_of_short {n : Nat} (hn : n ≤ 32) (hs : r.itd.br.Sound p.bufBytes) (hl : r.itd.br.bits.length < n) :
    (itRead p n r).1 = none := by
  obtain ⟨-, ⟨hle, -⟩ | ⟨-, hnone, -⟩⟩ := readPrivate_spec (bufBytes_pos p) hn hs
  · omega
  · exact hnone

theorem itSymbol_of_overflow (h : defWidth r.itd.is16 < r.itd.width) : itSymbol p r = .ok (.endBlock, itAbort p r) :=
  if_pos h

/-- A symbol with too few bits for its number ends the block. -/
theorem itSymbol_of_short (hw : r.itd.width ≤ defWidth r.itd.is16) (hs : r.itd.br.Sound p.bufBytes)
    (hl : r.itd.br.bits.length < r.itd.width) : ∃ r', itSymbol p r = .ok (.endBlock, r') := by
  have hdef := (defWidth_indices r.itd.is16).2.2.2.2.2.2
  have hread := itRead_of_short (p := p) (by omega) hs hl
  unfold itSymbol
  rw [if_neg (by omega)]
  rcases h : itRead p r.itd.width r with ⟨_ | v, r1⟩
  · exact ⟨_, rfl⟩
  · rw [h] at hread
    cases hread

/-- So does a Mode A marker with too few bits for its index. -/
theorem itModeA_of_short (hs : r.itd.br.Sound p.bufBytes) (hl : r.itd.br.bits.length < fetchA r.itd.is16) :
    ∃ r', itModeA p (2 ^ (r.itd.width - 1)) (2 ^ (r.itd.width - 1)) r = .ok (.endBlock, r') := by
  have hread := itRead_of_short (p := p) (by cases r.itd.is16 <;> decide) hs hl
  unfold itModeA
  rw [if_pos rfl]
  rcases h : itRead p (fetchA r.itd.is16) r with ⟨_ | v, r1⟩
  · exact ⟨_, rfl⟩
  · rw [h] at hread
    cases hread

end

/-- Settles O32: the loops end by `itSymbols_ends` and `itBlocks_ends`, whose bounds cover the chunk and the source; a symbol
by `itSymbol_end`, and by what its reads find. -/
theorem overflowAndEndOfDataEndTheBlock : Obligations.OverflowAndEndOfDataEndTheBlock := by
  unfold Obligations.OverflowAndEndOfDataEndTheBlock
  refine ⟨fun p r hs hb => ?_, fun p chn r => ?_, fun p r => ⟨fun r' h => ?_, fun hover => ?_, itSymbol_of_short,
    fun rest h1 h6 hs hb hl => ?_, fun m rest hw hm hs hb => ?_⟩⟩
  · refine itSymbols_ends _ _ hs ?_ (Nat.lt_succ_of_le hb)
    show 1 ≤ if r.itd.is16 then 17 else 9
    split <;> omega
  · rw [itChannel, itChannelStart_run]
    refine itBlocks_ends _ _ ?_
    simp only [restBytes, List.length_drop, srcLen]
    omega
  · cases itSymbol_end h with
    | aborted br => rw [itAbort_eq]
  · exact ⟨_, itSymbol_of_overflow hover, by rw [itAbort_eq]⟩
  · have hdef := (defWidth_indices r.itd.is16).2.2.2.2.2.1
    obtain ⟨br, hbr, hrest, hsym⟩ :=
      itSymbol_of_bits hs (by omega) (Nat.pow_lt_pow_right (by decide) (by omega)) hb
    rw [hsym, itMode, if_pos h6]
    exact itModeA_of_short (r := { r with itd := { r.itd with br := br } }) hbr (hrest.symm ▸ hl)
  · have hdef := (defWidth_indices r.itd.is16).2.2.2.2.2.1
    have htwo : 2 ^ r.itd.width = 2 * 2 ^ (r.itd.width - 1) := by rw [← Nat.pow_succ']; congr 1; omega
    obtain ⟨br, hbr, hrest, hsym⟩ := itSymbol_of_bits hs hw.le (by omega) hb
    refine ⟨br, hbr, hrest, ?_⟩
    rw [hsym, itMode, if_neg (show ¬ r.itd.width ≤ 6 by omega), if_neg (Nat.not_lt.2 hw.ge)]
    exact itModeC_marker (r := { r with itd := { r.itd with br := br } }) hm

end Sys2Proof.Machine
end

section
/-! Proofs: the channels of `IT.DECODE` (41_it_decompress.md R84, R86, R95, R96, R100). A loop that ends well keeps what
each of its turns keeps; a channel writes its own elements, so what the others hold stays. -/
namespace Sys2Proof.Machine

/-! ## What the loops keep -/

/-- What holds at the start of a loop and is kept by every turn holds where its last turn starts. -/
theorem LoopEnds.last_turn {σ ε : Type} {step : σ → Except ε (LoopControl × σ)} {r r' : σ} {I : σ → Prop}
    (h : LoopEnds step r (.ok r')) (h0 : I r) (hstep : ∀ a b, I a → step a = .ok (.again, b) → I b) :
    ∃ r1, I r1 ∧ step r1 = .ok (.endBlock, r') := by
  obtain ⟨r1, hreach, ⟨r2, hend, he⟩ | ⟨_, _, he⟩⟩ := h
  · cases he
    refine ⟨r1, ?_, hend⟩
    clear hend
    induction hreach with
    | start => exact h0
    | again _ hs ih => exact hstep _ _ ih hs
  · cases he

section
variable {p : Params} {r r' : ItRun}

/-- A symbol loop that answers a run has ended in it, whatever its bound. -/
theorem itSymbols_loop : ∀ {k : Nat} {r : ItRun}, itSymbols p k r = .ok r' → LoopEnds (itSymbolTurn p) r (.ok r')
  | 0, r, h => by
    unfold itSymbols at h
    split at h
    · cases h
      exact .ended (if_neg (by omega))
    · cases h
  | k + 1, r, h => by
    rw [itSymbols_succ] at h
    rw [← h]
    refine .of_afterTurn fun r1 ht => ?_
    rw [ht, afterTurn] at h
    rw [h]
    exact itSymbols_loop h

theorem itBlocks_loop : ∀ {k : Nat} {r : ItRun}, itBlocks p k r = .ok r' → LoopEnds (itBlockTurn p) r (.ok r')
  | k + 1, r, h => by
    rw [itBlocks_succ] at h
    rw [← h]
    refine .of_afterTurn fun r1 ht => ?_
    rw [ht, afterTurn] at h
    rw [h]
    exact itBlocks_loop h

/-! ## How many samples a channel writes (R86, R88) -/

/-- A symbol writes a sample of those to go, or none. -/
theorem itSymbol_room {c : LoopControl} (h : itSymbol p r = .ok (c, r')) (hcur : 0 < r.itd.curLen) :
    r'.itd.l = r.itd.l ∧ r'.itd.written + r'.itd.curLen = r.itd.written + r.itd.curLen := by
  cases itSymbol_end h with
  | aborted br => rw [itAbort_eq]; exact ⟨rfl, rfl⟩
  | width br w => exact ⟨rfl, rfl⟩
  | sample br d _ hw =>
    rw [(itWrite_ok hw).2.2.1]
    exact ⟨rfl, by simp only; omega⟩

theorem itDecodeBlock_written_le (h : itDecodeBlock p r = .ok r') (hw : r.itd.written ≤ r.itd.l.toNat) :
    r'.itd.written ≤ r'.itd.l.toNat := by
  obtain ⟨r1, hroom, hend⟩ := (itSymbols_loop h).last_turn
    (I := fun a => a.itd.written + a.itd.curLen ≤ a.itd.l.toNat) (by simp only; omega) fun a b ha ht => by
      obtain ⟨-, hc, -⟩ | ⟨hcur, hsym⟩ := itSymbolTurn_end ht
      · cases hc
      · obtain ⟨hl, hsum⟩ := itSymbol_room hsym hcur
        rw [hl]
        omega
  obtain ⟨-, -, rfl⟩ | ⟨hcur, hsym⟩ := itSymbolTurn_end hend
  · omega
  · obtain ⟨hl, hsum⟩ := itSymbol_room hsym hcur
    rw [hl]
    omega

theorem itChannel_written_le {chn : Nat} (h : itChannel p chn r = .ok r') : r'.itd.written ≤ r'.itd.l.toNat := by
  obtain ⟨r1, hle, hend⟩ := (itBlocks_loop h).last_turn (I := fun a => a.itd.written ≤ a.itd.l.toNat)
    (by rw [itChannelStart_run]; exact Nat.zero_le _) fun a b ha ht => by
      cases itBlockTurn_end ht with
      | skipped => exact ha
      | block b0 b1 rest size br _ _ _ _ _ _ _ hd => exact itDecodeBlock_written_le hd ha
  cases itBlockTurn_end hend with
  | done => exact hle
  | short => exact hle

end

/-! ## Which elements a channel writes (R95, R96) -/

section
variable {p : Params} {chn : Nat} {r r' : ItRun}

theorem itChannel_writes (h : itChannel p chn r = .ok r') : ItWrites p chn (itChannelStart p chn r) r' :=
  itBlocks_writes _ _ _ h

/-- Settles O28: the samples written, by the block loop's room; the elements, by what all its steps write. -/
theorem itChannelWritesItsElements : Obligations.ItChannelWritesItsElements := by
  unfold Obligations.ItChannelWritesItsElements
  intro p chn r r' hwf h
  have hwrites := itChannel_writes h
  have hle := itChannel_written_le h
  rw [itChannelStart_run] at hwrites
  refine ⟨by rw [← show r'.itd.l = r.itd.l from hwrites.l]; exact hle, fun a ha => ?_⟩
  exact hwrites.only hwf (by simp) a fun k _ hk => ha k hk

theorem itChannel_keeps (hc : chn < r.itd.c.toNat) (h : itChannel p chn r = .ok r') : ItKeeps r r' := by
  have hpost := itChannel_post (p := p) hc (Nat.le_max_left _ r.itd.curLen) (Nat.le_max_left _ r.itd.width)
    (Nat.le_max_right _ _) (Nat.le_max_right _ _)
  rw [h] at hpost
  exact hpost.1

theorem itChannels_keeps {k : Nat} (hc : chn + k ≤ r.itd.c.toNat) (h : itChannels p k chn r = .ok r') : ItKeeps r r' := by
  have hpost := itChannels_post (p := p) (Nat.le_max_left _ r.itd.curLen) (Nat.le_max_left _ r.itd.width) k chn r hc
    (Nat.le_max_right _ _) (Nat.le_max_right _ _)
  rw [h] at hpost
  exact hpost.1

/-- The elements of two channels are apart. -/
theorem element_ne {C i j m n : Nat} (hi : i < C) (hj : j < C) (hne : i ≠ j) : i + m * C ≠ j + n * C := fun h => hne (by
  have := congrArg (· % C) h
  simpa [Nat.mod_eq_of_lt hi, Nat.mod_eq_of_lt hj] using this)

/-- A channel leaves the elements of the others. -/
theorem itChannel_others {i : Nat} (m : Nat) (hc : chn < r.itd.c.toNat) (hi : i < r.itd.c.toNat) (hne : i ≠ chn)
    (hwf : Memory.wf r.smp.cells = true) (h : itChannel p chn r = .ok r') :
    smpRead r'.smp (i + m * r.itd.c.toNat) = smpRead r.smp (i + m * r.itd.c.toNat) :=
  (itChannelWritesItsElements p chn r r' hwf h).2 _ fun _ _ => element_ne hi hc hne

theorem itChannels_succ_ok {k : Nat} (h : itChannels p (k + 1) chn r = .ok r') :
    ∃ r1, itChannel p chn r = .ok r1 ∧ itChannels p k (chn + 1) r1 = .ok r' := by
  unfold itChannels at h
  split at h
  · cases h
  · exact ⟨_, ‹_›, h⟩

/-- So do the channels in turn. -/
theorem itChannels_others {i : Nat} (m : Nat) : ∀ {k chn : Nat} {r : ItRun}, chn + k ≤ r.itd.c.toNat →
    i < r.itd.c.toNat → i < chn ∨ chn + k ≤ i → Memory.wf r.smp.cells = true → itChannels p k chn r = .ok r' →
      smpRead r'.smp (i + m * r.itd.c.toNat) = smpRead r.smp (i + m * r.itd.c.toNat)
  | 0, _, _, _, _, _, _, h => by cases h; rfl
  | k + 1, chn, r, hc, hi, hout, hwf, h => by
    obtain ⟨r1, h1, h2⟩ := itChannels_succ_ok h
    have hkeeps := itChannel_keeps (by omega) h1
    have ih := itChannels_others m (by rw [hkeeps.c]; omega) (by rwa [hkeeps.c]) (by omega) (hkeeps.wf hwf) h2
    rw [hkeeps.c] at ih
    exact ih.trans (itChannel_others m (by omega) hi (by omega) hwf h1)

/-- The first channels of a run, and the one after them, when the channels from 0 on all end. -/
theorem itChannels_split {c k : Nat} (h : itChannels p (c + 1 + k) 0 r = .ok r') :
    ∃ r0 r1, itChannels p c 0 r = .ok r0 ∧ itChannel p c r0 = .ok r1 ∧ itChannels p (c + 1) 0 r = .ok r1 ∧
      itChannels p k (c + 1) r1 = .ok r' := by
  rw [itChannels_append] at h
  split at h
  · cases h
  · rename_i r1 h1
    have h01 := h1
    rw [itChannels_append] at h01
    split at h01
    · cases h01
    · rename_i r0 h0
      obtain ⟨r2, h2, he⟩ := itChannels_succ_ok h01
      cases he
      rw [Nat.zero_add] at h h2
      exact ⟨r0, r1, h0, h2, h1, h⟩

/-- What channel `c` did not write reads at the end as it did at the start (R96). -/
theorem itChannels_unwritten {c k : Nat} (hc : c + 1 + k = r.itd.c.toNat) (hwf : Memory.wf r.smp.cells = true)
    (h : itChannels p (c + 1 + k) 0 r = .ok r') :
    ∃ r1, itChannels p (c + 1) 0 r = .ok r1 ∧ r1.itd.written ≤ r.itd.l.toNat ∧ ∀ m, r1.itd.written ≤ m →
      smpRead r'.smp (c + m * r.itd.c.toNat) = smpRead r.smp (c + m * r.itd.c.toNat) := by
  obtain ⟨r0, r1, h0, hchan, h1, h2⟩ := itChannels_split h
  have hk0 := itChannels_keeps (by omega) h0
  have hk1 := itChannels_keeps (by omega) h1
  obtain ⟨hle, honly⟩ := itChannelWritesItsElements p c r0 r1 (hk0.wf hwf) hchan
  refine ⟨r1, h1, by rw [← hk0.l]; exact hle, fun m hm => ?_⟩
  have hlater := itChannels_others m (i := c) (by rw [hk1.c]; omega) (by rw [hk1.c]; omega) (.inl (by omega))
    (hk1.wf hwf) h2
  have hearlier := itChannels_others m (i := c) (by omega) (by omega) (.inr (by omega)) hwf h0
  have hpos : 0 < r.itd.c.toNat := by omega
  rw [hk1.c] at hlater
  rw [hlater, honly _ fun n hn => ?_, hearlier]
  rw [hk0.c]
  intro he
  have := Nat.eq_of_mul_eq_mul_right hpos (Nat.add_left_cancel he)
  omega

end

/-! ## The command (R84) -/

/-- A command that ends with a channel there has decoded the channels. -/
theorem itDecode_decoded {s t : State} {is215 is16 : Bool} (hc : s.itChannels ≠ 0)
    (h : exec (.itDecode is215 is16) s = .next t) :
    ∃ r, itChannels s.params s.itChannels.toNat 0 (itStart is215 is16 s) = .ok r ∧ t = itFinish r s := by
  cases exec_end h with
  | itDecode _ _ _ _ hend =>
    cases hend with
    | refused h0 => exact absurd h0 hc
    | decoded r _ hr => exact ⟨r, hr, rfl⟩

/-- With `C * L` elements attached no sample is outside them. -/
theorem itDecode_of_attached {s : State} {is215 is16 : Bool} (hc : s.itChannels ≠ 0)
    (hlen : s.itChannels.toNat * s.itLength.toNat ≤ s.smp.len) :
    ∃ r, itChannels s.params s.itChannels.toNat 0 (itStart is215 is16 s) = .ok r ∧
      exec (.itDecode is215 is16) s = .next (itFinish r s) := by
  have hend := execItDecode_end is215 is16 s
  generalize hx : execItDecode is215 is16 s = x at hend
  cases hend with
  | refused h0 => exact absurd h0 hc
  | decoded r _ hr => exact ⟨r, hr, hx⟩
  | outside _ hshort => omega

/-- Channels that all end are decoded in turn. -/
theorem AfterChannels.of_itChannels_ok {p : Params} {r0 r' : ItRun} : ∀ {k chn : Nat} {r : ItRun},
    AfterChannels p r0 chn r → itChannels p k chn r = .ok r' → AfterChannels p r0 (chn + k) r'
  | 0, _, _, ha, h => by cases h; exact ha
  | k + 1, chn, r, ha, h => by
    obtain ⟨r1, h1, h2⟩ := itChannels_succ_ok h
    rw [Nat.add_comm k, ← Nat.add_assoc]
    exact of_itChannels_ok (.next ha h1) h2

/-- Settles O24: no sample falls outside the buffer, and no bound runs out (`execItDecode_end`). -/
theorem itDecodeCompletes : Obligations.ItDecodeCompletes := by
  unfold Obligations.ItDecodeCompletes
  intro s is215 is16 hc hlen
  obtain ⟨r, hr, ht⟩ := itDecode_of_attached (is215 := is215) (is16 := is16) hc hlen
  have hkeeps := itChannels_keeps (by rw [Nat.zero_add]; exact Nat.le_refl _) hr
  refine ⟨_, r, ht, rfl, rfl, rfl, hkeeps.is215, hkeeps.is16, hkeeps.c, hkeeps.l, ?_, rfl, rfl⟩
  have hafter := AfterChannels.of_itChannels_ok .start hr
  rw [Nat.zero_add] at hafter
  exact hafter

/-- Settles O26: what every step keeps, and for each channel what it did not write. -/
theorem itDecodeFrame : Obligations.ItDecodeFrame := by
  unfold Obligations.ItDecodeFrame
  intro s t is215 is16 hwf ht
  by_cases hc : s.itChannels = 0
  · obtain rfl : t = refuse s := by
      have hrefused := (itDecodeRefusedWithoutChannels s is215 is16).1 hc
      rw [ht] at hrefused
      cases hrefused
      rfl
    exact ⟨rfl, rfl, rfl, fun _ _ => rfl, fun c hlt => absurd hlt (by simp [hc])⟩
  · obtain ⟨r, hr, rfl⟩ := itDecode_decoded hc ht
    have hkeeps := itChannels_keeps (by rw [Nat.zero_add]; exact Nat.le_refl _) hr
    refine ⟨rfl, hkeeps.bytes, hkeeps.len, hkeeps.outside hwf, fun c hlt => ?_⟩
    obtain ⟨k, hk⟩ := Nat.exists_eq_add_of_le (Nat.succ_le_of_lt hlt)
    rw [hk] at hr
    exact itChannels_unwritten (r := itStart is215 is16 s) hk.symm hwf hr

end Sys2Proof.Machine
end

section
/-! Proofs: a compressed sample decodes to its samples (30_encoding.md R55 to R62, 41_it_decompress.md R102). The symbol
loop and the block loop each keep that the elements written and the samples that the stream still stands for make up the
channel; where either loop ends, nothing is left to come. -/
namespace Sys2Proof.Machine

/-! ## The samples to come -/

/-- The samples that a channel's rest stands for: deltas of the current block, from the integrators on, and blocks. -/
def samplesToCome (reset : MemReset) (is215 is16 : Bool) (m1 m2 : BitVec 16) (deltas : List Int) (blocks : List ItBlock) :
    List (BitVec 16) :=
  match reset with
  | .perChannel => samplesOf is215 is16 m1 m2 (deltas ++ blocks.flatMap fun b => payloadDeltas b.symbols)
  | .perBlock =>
    samplesOf is215 is16 m1 m2 deltas ++ blocks.flatMap fun b => samplesOf is215 is16 0 0 (payloadDeltas b.symbols)

section
variable {reset : MemReset} {is215 is16 : Bool} {m1 m2 : BitVec 16}

theorem samplesToCome_nil : samplesToCome reset is215 is16 m1 m2 [] [] = [] := by cases reset <;> rfl

/-- The next delta gives the next sample (R95). -/
theorem samplesToCome_cons (d : Int) (deltas : List Int) (blocks : List ItBlock) :
    samplesToCome reset is215 is16 m1 m2 (d :: deltas) blocks =
      (if is215 then addMod (itW is16) m2 (addMod (itW is16) m1 d).toNat else addMod (itW is16) m1 d) ::
        samplesToCome reset is215 is16 (addMod (itW is16) m1 d)
          (if is215 then addMod (itW is16) m2 (addMod (itW is16) m1 d).toNat else m2) deltas blocks := by
  cases reset <;> cases is215 <;> rfl

/-- The next block begins, with the integrators at zero where they restart in each (R87). -/
theorem samplesToCome_block (b : ItBlock) (blocks : List ItBlock) :
    samplesToCome reset is215 is16 m1 m2 [] (b :: blocks) =
      samplesToCome reset is215 is16 (if reset = .perBlock then 0 else m1) (if reset = .perBlock then 0 else m2)
        (payloadDeltas b.symbols) blocks := by
  cases reset <;> rfl

theorem samplesToCome_empty (blocks : List ItBlock) :
    samplesToCome reset is215 is16 m1 m2 [] (.empty :: blocks) = samplesToCome reset is215 is16 m1 m2 [] blocks := by
  cases reset <;> rfl

/-- A channel's samples are to come where it starts (R86). -/
theorem samplesToCome_start (blocks : List ItBlock) :
    samplesToCome reset is215 is16 (if reset = .perChannel then 0 else m1) (if reset = .perChannel then 0 else m2) [] blocks =
      channelSamples reset is215 is16 blocks := by
  cases reset <;> rfl

end

/-! ## A channel on its way -/

/-- A run on its way through channel `chn`, whose samples are `final`: those written are in their elements, and the others
are what `deltas` and `blocks` stand for. -/
structure ItChannelAt (p : Params) (chn : Nat) (final : List (BitVec 16)) (deltas : List Int) (blocks : List ItBlock)
    (r : ItRun) : Prop where
  chn_lt : chn < r.itd.c.toNat
  notOver : r.itd.chanOver = false
  wf : Memory.wf r.smp.cells = true
  pos : r.itd.writePos = chn + r.itd.written * r.itd.c.toNat
  done : ∀ k, k < r.itd.written → smpRead r.smp (chn + k * r.itd.c.toNat) = final.getD k 0
  toCome : final.drop r.itd.written =
    samplesToCome p.itMemReset r.itd.is215 r.itd.is16 r.itd.mem1 r.itd.mem2 deltas blocks

section
variable {p : Params} {chn : Nat} {final : List (BitVec 16)} {blocks : List ItBlock} {r r' : ItRun}

/-- A sample of the next delta is the channel's next one. -/
theorem ItChannelAt.write {d : Int} {deltas : List Int} (h : ItChannelAt p chn final (d :: deltas) blocks r)
    (hw : itWrite d r = .ok r') : ItChannelAt p chn final deltas blocks r' := by
  obtain ⟨-, -, hitd, hsmp⟩ := itWrite_ok hw
  have hcome := h.toCome
  rw [samplesToCome_cons] at hcome
  have hlt : r.itd.written < final.length := by
    by_contra hge
    rw [List.drop_eq_nil_of_le (by omega)] at hcome
    cases hcome
  rw [List.drop_eq_getElem_cons hlt] at hcome
  obtain ⟨hget, hdrop⟩ := List.cons.inj hcome
  have hc : r'.itd.c = r.itd.c := by rw [hitd]
  have hwritten : r'.itd.written = r.itd.written + 1 := by rw [hitd]
  have hpos : 0 < r.itd.c.toNat := Nat.zero_lt_of_lt h.chn_lt
  refine ⟨hc ▸ h.chn_lt, by rw [hitd]; exact h.notOver, by rw [hsmp]; exact Memory.write_wf h.wf _ _, ?_,
    fun k hk => ?_, ?_⟩
  · rw [hwritten, hc, show r'.itd.writePos = r.itd.writePos + r.itd.c.toNat by rw [hitd], h.pos]
    ring
  · rw [hsmp, hc]
    refine (Memory.read_write h.wf _ _ _).trans ?_
    rcases Nat.lt_succ_iff_lt_or_eq.1 (hwritten ▸ hk) with hold | rfl
    · rw [if_neg, ← h.done k hold]
      · rfl
      · rw [h.pos]
        intro he
        have := Nat.eq_of_mul_eq_mul_right hpos (Nat.add_left_cancel he)
        omega
    · rw [if_pos h.pos.symm, List.getD_eq_getElem _ _ hlt, hget, hitd]
      cases r.itd.is215 <;> rfl
  · rw [hwritten, hdrop, hitd]

/-- The samples do not depend on how they are read. -/
theorem ItChannelAt.reader {deltas : List Int} (h : ItChannelAt p chn final deltas blocks r) (br : PrivateReader) (w : Nat) :
    ItChannelAt p chn final deltas blocks { r with itd := { r.itd with br := br, width := w } } :=
  ⟨h.chn_lt, h.notOver, h.wf, h.pos, h.done, h.toCome⟩

end

/-! ## The symbols of a block (R89, R97) -/

/-- A run on its way through a block of channel `chn`: its reader holds symbols that an encoder may emit, with the deltas
that are to go in this block, and padding; `blocks` are the channel's after it. -/
structure ItBlockAt (p : Params) (chn : Nat) (final : List (BitVec 16)) (symbols : List ItSymbol) (blocks : List ItBlock)
    (r : ItRun) : Prop where
  reader : r.itd.br.Sound p.bufBytes
  bits : ∃ pad, r.itd.br.bits = payloadBits r.itd.is16 r.itd.width symbols ++ pad
  width_pos : 1 ≤ r.itd.width
  width_le : r.itd.width ≤ defWidth r.itd.is16
  symbols_ok : payloadOk r.itd.is16 r.itd.width symbols = true
  curLen : r.itd.curLen = (payloadDeltas symbols).length
  blocks_ok : itBlocksOk r.itd.is16 (r.itd.l.toNat - (r.itd.written + r.itd.curLen)) blocks
  channel : ItChannelAt p chn final (payloadDeltas symbols) blocks r

section
variable {p : Params} {chn : Nat} {final : List (BitVec 16)} {blocks : List ItBlock} {r r' : ItRun}

/-- A symbol of the payload lets the block go on, with the symbols after it. -/
theorem ItBlockAt.symbol {x : ItSymbol} {symbols : List ItSymbol} {c : LoopControl}
    (h : ItBlockAt p chn final (x :: symbols) blocks r) (hsym : itSymbol p r = .ok (c, r')) :
    c = .again ∧ ItBlockAt p chn final symbols blocks r' := by
  obtain ⟨pad, hbits⟩ := h.bits
  obtain ⟨hx, hok⟩ : symbolOk r.itd.is16 r.itd.width x = true ∧
      payloadOk r.itd.is16 (symbolNext r.itd.width x) symbols = true := by
    simpa only [payloadOk, Bool.and_eq_true] using h.symbols_ok
  obtain ⟨br, hbr, hrest, hx'⟩ := symbolsDecodeAsEncoded p r x _ h.reader h.width_pos h.width_le hx
    (hbits.trans (List.append_assoc _ _ _))
  rw [hx'] at hsym
  cases x with
  | delta d =>
    obtain ⟨rfl, hw⟩ := itSample_eq_ok hsym
    have hitd := (itWrite_ok hw).2.2.1
    have hcur : r.itd.curLen = (payloadDeltas symbols).length + 1 := h.curLen
    have hsum : r.itd.written + 1 + (r.itd.curLen - 1) = r.itd.written + r.itd.curLen := by omega
    have hchannel := (h.channel.reader br r.itd.width).write hw
    refine ⟨rfl, ?_, ⟨pad, ?_⟩, ?_, ?_, ?_, ?_, ?_, hchannel⟩ <;> rw [hitd]
    · exact hbr
    · exact hrest
    · exact h.width_pos
    · exact h.width_le
    · exact hok
    · exact Nat.sub_eq_of_eq_add hcur
    · simp only [hsum]
      exact h.blocks_ok
  | width w =>
    cases hsym
    obtain ⟨hw1, hwd, -⟩ := symbolOk_width hx
    exact ⟨rfl, hbr, ⟨pad, hrest⟩, hw1, hwd, hok, h.curLen, h.blocks_ok, h.channel.reader br w⟩

/-- What a turn of the symbol loop makes of a block on its way. -/
theorem ItBlockAt.turn {symbols : List ItSymbol} {c : LoopControl} (h : ItBlockAt p chn final symbols blocks r)
    (ht : itSymbolTurn p r = .ok (c, r')) :
    r.itd.curLen = 0 ∧ c = .endBlock ∧ r' = r ∨ c = .again ∧ ∃ symbols', ItBlockAt p chn final symbols' blocks r' := by
  obtain hdone | ⟨hcur, hsym⟩ := itSymbolTurn_end ht
  · exact .inl hdone
  · cases symbols with
    | nil => exact absurd h.curLen hcur.ne'
    | cons x symbols =>
      obtain ⟨hc, h'⟩ := h.symbol hsym
      exact .inr ⟨hc, symbols, h'⟩

/-- A block's symbols are decoded, and its samples written. -/
theorem ItBlockAt.symbols_loop {symbols : List ItSymbol} (h : ItBlockAt p chn final symbols blocks r)
    (hl : LoopEnds (itSymbolTurn p) r (.ok r')) :
    itBlocksOk r'.itd.is16 (r'.itd.l.toNat - r'.itd.written) blocks ∧ ItChannelAt p chn final [] blocks r' := by
  obtain ⟨r1, ⟨symbols', h1⟩, hend⟩ := hl.last_turn (I := fun a => ∃ symbols', ItBlockAt p chn final symbols' blocks a)
    ⟨symbols, h⟩ fun a b ⟨_, ha⟩ ht => by
      obtain ⟨-, hc, -⟩ | ⟨-, hb⟩ := ha.turn ht
      · cases hc
      · exact hb
  obtain ⟨hcur, -, rfl⟩ | ⟨hc, -⟩ := h1.turn hend
  · have hnil : payloadDeltas symbols' = [] := List.eq_nil_of_length_eq_zero (h1.curLen.symm.trans hcur)
    have hok := h1.blocks_ok
    rw [hcur] at hok
    exact ⟨hok, hnil ▸ h1.channel⟩
  · cases hc

/-- `DecodeBlock()` starts a block at the widest width, with its samples to go (R88). -/
theorem itDecodeBlock_channelAt {b : ItBlock} (hb : b.Ok r.itd.is16) (hs : r.itd.br.Sound p.bufBytes)
    (hbits : r.itd.br.bits = bitsOfBytes b.payload)
    (hlen : (payloadDeltas b.symbols).length = min (r.itd.l.toNat - r.itd.written) (itBlockSamples r.itd.is16))
    (hblocks : itBlocksOk r.itd.is16
      (r.itd.l.toNat - r.itd.written - min (r.itd.l.toNat - r.itd.written) (itBlockSamples r.itd.is16)) blocks)
    (h : ItChannelAt p chn final (payloadDeltas b.symbols) blocks r) (hd : itDecodeBlock p r = .ok r') :
    itBlocksOk r'.itd.is16 (r'.itd.l.toNat - r'.itd.written) blocks ∧ ItChannelAt p chn final [] blocks r' := by
  obtain ⟨hok, -, -, pad, hpad⟩ := hb
  have hdef := (defWidth_indices r.itd.is16).2.2.2.2.2.1
  refine ItBlockAt.symbols_loop (symbols := b.symbols) ?_ (itSymbols_loop hd)
  exact ⟨hs, ⟨pad, hbits.trans hpad⟩, by show 1 ≤ defWidth r.itd.is16; omega, Nat.le_refl _, hok, hlen.symm,
    by rw [← Nat.sub_sub]; exact hblocks, h.chn_lt, h.notOver, h.wf, h.pos, h.done, h.toCome⟩

end

/-! ## The blocks of a stream (30_encoding.md R55, 41_it_decompress.md R87) -/

/-- The bytes of blocks with `rest` after them: each payload as long as its size field says, or shorter with nothing after
it. -/
inductive ItFrames (rest : List Byte) : List ItBlock → List Byte → Prop
  | nil : ItFrames rest [] rest
  | cons {b : ItBlock} {blocks : List ItBlock} {after : List Byte} :
      b.payload.length = b.size ∨ b.payload.length < b.size ∧ after = [] → ItFrames rest blocks after →
      ItFrames rest (b :: blocks) (b.bytes ++ after)

theorem itFrames_of_getElem {rest : List Byte} : ∀ {blocks : List ItBlock},
    (∀ i b, blocks[i]? = some b →
      b.payload.length = b.size ∨ b.payload.length < b.size ∧ i + 1 = blocks.length ∧ rest = []) →
      ItFrames rest blocks (blocks.flatMap ItBlock.bytes ++ rest)
  | [], _ => .nil
  | b :: blocks, h => by
    rw [List.flatMap_cons, List.append_assoc]
    refine .cons ((h 0 b rfl).imp_right fun ⟨hlt, hlast, hrest⟩ => ⟨hlt, ?_⟩)
      (itFrames_of_getElem fun i b' hi => (h (i + 1) b' hi).imp_right fun ⟨hlt, hlast, hrest⟩ => ⟨hlt, ?_, hrest⟩)
    · have hnil : blocks = [] := List.eq_nil_of_length_eq_zero (by simpa using hlast.symm)
      rw [hnil, hrest]
      rfl
    · simpa using hlast

/-- A run on its way through the blocks of channel `chn`, with the blocks `later` and the bytes `rest` after them in the
source. -/
structure ItBlocksAt (p : Params) (chn : Nat) (final : List (BitVec 16)) (later : List ItBlock) (rest : List Byte)
    (blocks : List ItBlock) (r : ItRun) : Prop where
  frames : ItFrames rest (blocks ++ later) (restBytes r.src)
  blocks_ok : itBlocksOk r.itd.is16 (r.itd.l.toNat - r.itd.written) blocks
  channel : ItChannelAt p chn final [] blocks r

section
variable {p : Params} {chn : Nat} {final : List (BitVec 16)} {later blocks : List ItBlock} {rest : List Byte}
variable {r r' : ItRun}

/-- The size field of a block, and its chunk, stand first in the source. -/
theorem ItFrames.header {b : ItBlock} {bytes chunk : List Byte} {b0 b1 : Byte} (hsize : b.size < 2 ^ 16)
    (h : ItFrames rest (b :: blocks) bytes) (hbytes : bytes = b0 :: b1 :: chunk) :
    b0.toNat + 256 * b1.toNat = b.size ∧ chunk.take b.size = b.payload ∧ ItFrames rest blocks (chunk.drop b.size) := by
  cases h with
  | cons hpay hafter =>
    rename_i after
    obtain ⟨rfl, rfl, rfl⟩ :
        BitVec.ofNat 8 b.size = b0 ∧ BitVec.ofNat 8 (b.size / 256) = b1 ∧ b.payload ++ after = chunk := by
      simpa [ItBlock.bytes] using hbytes
    refine ⟨by simp only [BitVec.toNat_ofNat]; omega, ?_⟩
    obtain heq | ⟨hlt, rfl⟩ := hpay
    · rw [← heq, List.take_left, List.drop_left]
      exact ⟨rfl, hafter⟩
    · rw [List.append_nil, List.take_of_length_le hlt.le, List.drop_eq_nil_of_le hlt.le]
      exact ⟨rfl, hafter⟩

theorem ItFrames.two_le {b : ItBlock} {bytes : List Byte} (h : ItFrames rest (b :: blocks) bytes) : 2 ≤ bytes.length := by
  cases h
  simp [ItBlock.bytes]

theorem itBlockSamples_pos (is16 : Bool) : 0 < itBlockSamples is16 := by cases is16 <;> decide

/-- A block with samples has a payload. -/
theorem ItBlock.Ok.size_ne_zero {is16 : Bool} {b : ItBlock} (h : b.Ok is16) (hd : 0 < (payloadDeltas b.symbols).length) :
    b.size ≠ 0 := by
  obtain ⟨hok, -, hle, pad, hpad⟩ := h
  have hdef := (defWidth_indices is16).2.2.2.2.2.1
  have hsymbols := payloadBits_length b.symbols (defWidth is16) (by omega) hok
  have hdeltas := payloadDeltas_length b.symbols
  have hbits := congrArg List.length hpad
  rw [bitsOfBytes_length, List.length_append] at hbits
  omega

theorem ItChannelAt.header {b : ItBlock} {size left : Nat} {br : PrivateReader} (hz : size ≠ 0)
    (h : ItChannelAt p chn final [] (b :: blocks) r) :
    ItChannelAt p chn final (payloadDeltas b.symbols) blocks (itHeaderRun p size left br r) := by
  refine ⟨h.chn_lt, h.notOver, h.wf, h.pos, h.done, h.toCome.trans ?_⟩
  rw [samplesToCome_block]
  simp only [itHeaderRun, hz, ne_eq, not_false_eq_true, true_and]

theorem ItChannelAt.skip {left : Nat} {br : PrivateReader} (h : ItChannelAt p chn final [] (.empty :: blocks) r) :
    ItChannelAt p chn final [] blocks (itHeaderRun p 0 left br r) := by
  refine ⟨h.chn_lt, h.notOver, h.wf, h.pos, h.done, h.toCome.trans ?_⟩
  rw [samplesToCome_empty]
  simp only [itHeaderRun, ne_eq, not_true_eq_false, false_and, if_false]

/-- What a turn of the block loop makes of a channel on its way: it ends with no block to go, or takes the next block. -/
theorem ItBlocksAt.turn {c : LoopControl} (h : ItBlocksAt p chn final later rest blocks r)
    (ht : itBlockTurn p r = .ok (c, r')) :
    blocks = [] ∧ c = .endBlock ∧ r' = r ∨ c = .again ∧ ∃ blocks', ItBlocksAt p chn final later rest blocks' r' := by
  have hend := itBlockTurn_end ht
  have hframes := h.frames
  cases blocks with
  | nil =>
    have hn : r.itd.l.toNat - r.itd.written = 0 := h.blocks_ok
    cases hend with
    | done => exact .inl ⟨rfl, rfl, rfl⟩
    | short hw | skipped _ _ _ hw | block _ _ _ _ _ _ hw => omega
  | cons b blocks =>
    obtain ⟨hn, hb⟩ := h.blocks_ok
    refine .inr ?_
    have hsize : b.size < 2 ^ 16 := by
      obtain ⟨rfl, -⟩ | ⟨hok, -⟩ := hb
      · decide
      · exact hok.2.1
    have hsamples := itBlockSamples_pos r.itd.is16
    cases hend with
    | done hdone => exact absurd ⟨by omega, h.channel.notOver⟩ hdone
    | short _ hshort =>
      have hlen := hframes.two_le
      simp only [restBytes, List.length_drop] at hlen
      omega
    | skipped b0 b1 chunk _ hbytes hz =>
      obtain ⟨hbsize, -, hafter⟩ := hframes.header hsize hbytes
      obtain ⟨rfl, hblocks⟩ | ⟨hok, hlen, -⟩ := hb
      · exact ⟨rfl, blocks, by rw [restBytes_itHeaderRun hbytes]; exact hafter, hblocks, h.channel.skip⟩
      · exact absurd (hbsize.symm.trans hz) (hok.size_ne_zero (by omega))
    | block b0 b1 chunk size br _ _ hbytes hsz hz hs hbits hd =>
      obtain ⟨hbsize, hchunk, hafter⟩ := hframes.header hsize hbytes
      obtain rfl : size = b.size := hsz.trans hbsize
      obtain ⟨rfl, -⟩ | ⟨hok, hlen, hblocks⟩ := hb
      · exact absurd rfl hz
      · rw [hchunk] at hbits
        obtain ⟨hblocks', hchannel⟩ := itDecodeBlock_channelAt (r := itHeaderRun p b.size chunk.length br r) hok hs hbits
          hlen hblocks (h.channel.header hz) hd
        refine ⟨rfl, blocks, ?_, hblocks', hchannel⟩
        rw [itDecodeBlock_src hd, restBytes_itHeaderRun hbytes]
        exact hafter

/-- A channel's blocks are decoded: its samples are written, and the source stands at the next channel's blocks. -/
theorem itChannel_decodes (hchn : chn < r.itd.c.toNat) (hwf : Memory.wf r.smp.cells = true)
    (hblocks : itBlocksOk r.itd.is16 r.itd.l.toNat blocks) (hframes : ItFrames rest (blocks ++ later) (restBytes r.src))
    (h : itChannel p chn r = .ok r') : ItFrames rest later (restBytes r'.src) ∧ ∀ k, k < r.itd.l.toNat →
      smpRead r'.smp (chn + k * r.itd.c.toNat) =
        (channelSamples p.itMemReset r.itd.is215 r.itd.is16 blocks).getD k 0 := by
  have hstart : ItBlocksAt p chn (channelSamples p.itMemReset r.itd.is215 r.itd.is16 blocks) later rest blocks
      (itChannelStart p chn r) := by
    rw [itChannelStart_run]
    exact ⟨hframes, hblocks, hchn, rfl, hwf, by simp, nofun, (samplesToCome_start blocks).symm⟩
  generalize channelSamples p.itMemReset r.itd.is215 r.itd.is16 blocks = final at hstart ⊢
  obtain ⟨r1, ⟨blocks', h1⟩, hend⟩ := (itBlocks_loop h).last_turn
    (I := fun a => ∃ blocks', ItBlocksAt p chn final later rest blocks' a) ⟨blocks, hstart⟩ fun a b ⟨_, ha⟩ ht => by
      obtain ⟨-, hc, -⟩ | ⟨-, hb⟩ := ha.turn ht
      · cases hc
      · exact hb
  obtain ⟨rfl, -, rfl⟩ | ⟨hc, -⟩ := h1.turn hend
  · have hkeeps := itChannel_keeps hchn h
    have hn : r'.itd.l.toNat - r'.itd.written = 0 := h1.blocks_ok
    refine ⟨h1.frames, fun k hk => ?_⟩
    rw [← hkeeps.c]
    exact h1.channel.done k (by rw [hkeeps.l] at hn; omega)
  · cases hc

end

/-! ## Every channel (R100) -/

/-- The channels from `chn` on are decoded in turn. -/
theorem itChannels_decode {p : Params} {rest : List Byte} : ∀ {channels : List (List ItBlock)} {chn : Nat} {r r' : ItRun},
    chn + channels.length = r.itd.c.toNat → Memory.wf r.smp.cells = true →
    (∀ c ∈ channels, itBlocksOk r.itd.is16 r.itd.l.toNat c) → ItFrames rest channels.flatten (restBytes r.src) →
    itChannels p channels.length chn r = .ok r' → restBytes r'.src = rest ∧
      ∀ i k, i < channels.length → k < r.itd.l.toNat → smpRead r'.smp (chn + i + k * r.itd.c.toNat) =
        (channelSamples p.itMemReset r.itd.is215 r.itd.is16 (channels.getD i [])).getD k 0
  | [], _, _, _, _, _, _, hframes, h => by
    cases h
    generalize restBytes _ = bytes at hframes
    cases hframes
    exact ⟨rfl, nofun⟩
  | c :: channels, chn, r, r', hc, hwf, hok, hframes, h => by
    rw [List.length_cons] at hc
    obtain ⟨r1, h1, h2⟩ := itChannels_succ_ok h
    have hkeeps := itChannel_keeps (by omega) h1
    obtain ⟨hframes1, hread⟩ :=
      itChannel_decodes (by omega) hwf (hok c List.mem_cons_self) hframes h1
    have hwf1 := hkeeps.wf hwf
    obtain ⟨hrest, hreads⟩ := itChannels_decode (r := r1) (by rw [hkeeps.c]; omega) hwf1
      (by rw [hkeeps.is16, hkeeps.l]; exact fun c' hc' => hok c' (List.mem_cons_of_mem c hc')) hframes1 h2
    refine ⟨hrest, fun i k hi hk => ?_⟩
    cases i with
    | zero =>
      have hothers := itChannels_others (i := chn) k (by rw [hkeeps.c]; omega) (by rw [hkeeps.c]; omega)
        (.inl (Nat.lt_succ_self chn)) hwf1 h2
      rw [hkeeps.c] at hothers
      exact hothers.trans (hread k hk)
    | succ i =>
      have hi' := hreads i k (Nat.lt_of_succ_lt_succ hi) (by rw [hkeeps.l]; exact hk)
      rw [hkeeps.c, hkeeps.is16, hkeeps.is215] at hi'
      rw [show chn + (i + 1) = chn + 1 + i by omega]
      exact hi'

/-- Settles O34: the command ends, since enough elements are attached; its channels are decoded in turn. -/
theorem encodedSampleIsDecoded : Obligations.EncodedSampleIsDecoded := by
  unfold Obligations.EncodedSampleIsDecoded
  intro s is215 is16 channels rest hc hlen hok _ hbytes hframes hattached hwf
  rw [← hlen] at hattached
  obtain ⟨r, hr, ht⟩ := itDecode_of_attached (is215 := is215) (is16 := is16) hc hattached
  have hstream : itStream channels = channels.flatten.flatMap ItBlock.bytes := by
    rw [itStream, ← List.flatMap_id', List.flatMap_assoc]
  have hframes' := itFrames_of_getElem hframes
  rw [← hstream, ← hbytes] at hframes'
  rw [hlen] at hr
  obtain ⟨hrest, hreads⟩ := itChannels_decode (r := itStart is215 is16 s) (by rw [Nat.zero_add]; exact hlen.symm)
    hwf hok hframes' hr
  refine ⟨_, ht, rfl, fun c k hc hk => ?_, hrest⟩
  have hck := hreads c k hc hk
  rw [Nat.zero_add] at hck
  rw [← hlen]
  exact hck

end Sys2Proof.Machine
end

section
/-! Proofs: the probes, and the container unpacks that end before the oracle ALLOC is asked (42_mmcmp.md R103 to R107;
43_pp20.md R118 to R122): an unpack whose header test fails, one that only verifies, and one whose checks fail. -/
namespace Sys2Proof.Machine

/-! ## The probes (R104, R119) -/

section
variable {p : Params} {bytes : List Byte}

theorem mmProbeVerdict_eq (p : Params) (bytes : List Byte) :
    mmProbeVerdict p bytes = if bytes.length < 24 then 1 else if mmHeaderValid p bytes then 0 else 2 := by
  rw [mmProbeVerdict, mmValid_memRead]

theorem ppProbeVerdict_eq (bytes : List Byte) :
    ppProbeVerdict bytes = if bytes.length < 8 then 1 else if ppHeaderValid bytes then 0 else 2 := by
  rw [ppProbeVerdict, ppValid_memRead]

theorem mmHeaderOk_iff : mmHeaderOk p bytes = true ↔ 24 ≤ bytes.length ∧ mmHeaderValid p bytes = true := by
  rw [mmHeaderOk_eq, Bool.and_eq_true, decide_eq_true_iff]

theorem ppHeaderOk_iff : ppHeaderOk bytes = true ↔ 8 ≤ bytes.length ∧ ppHeaderValid bytes = true := by
  rw [ppHeaderOk_eq, Bool.and_eq_true, decide_eq_true_iff]

theorem mmProbeVerdict_of_headerOk (h : mmHeaderOk p bytes = true) : mmProbeVerdict p bytes = 0 := by
  obtain ⟨hl, hv⟩ := mmHeaderOk_iff.1 h
  rw [mmProbeVerdict_eq, if_neg (by omega), if_pos hv]

theorem ppProbeVerdict_of_headerOk (h : ppHeaderOk bytes = true) : ppProbeVerdict bytes = 0 := by
  obtain ⟨hl, hv⟩ := ppHeaderOk_iff.1 h
  rw [ppProbeVerdict_eq, if_neg (by omega), if_pos hv]

/-- A verdict on a source that is too short or has an invalid header. -/
theorem verdict_of_bad {short : Prop} [Decidable short] {valid : Bool} {v : Word}
    (hv : v = if short then 1 else if valid then 0 else 2) (h : short ∨ valid = false) : v = 1 ∨ v = 2 := by
  subst hv
  split
  · exact .inl rfl
  · rw [h.resolve_left ‹_›]
    exact .inr rfl

end

/-- Settles O35: the header test in numbers is the machine's. -/
theorem mmcmpProbeVerdict : Obligations.MmcmpProbeVerdict := by
  unfold Obligations.MmcmpProbeVerdict
  intro s
  rw [← mmProbeVerdict_eq]
  rfl

/-! ## What an unpack accepts (R105, R120) -/

section
variable {s t : State} {verify : Bool}

theorem MmEnd.headerOk_of_result (he : MmEnd s verify t) (hr : t.result = 1) :
    mmHeaderOk s.params s.src.bytes = true := by
  cases he with
  | badHeader => cases hr
  | verified hh | badSize hh | noSpace _ hh | unpacked _ hh | failed _ hh => exact hh

theorem PpEnd.headerOk_of_result (he : PpEnd s verify t) (hr : t.result = 1) : ppHeaderOk s.src.bytes = true := by
  cases he with
  | badHeader => cases hr
  | verified hh | badSize _ hh | noSpace _ hh | unpacked _ hh | failed _ hh => exact hh

end

/-- Settles O37: an unpack that answers 1 has passed the header test, on which the probe's verdict depends. -/
theorem unpackedFilesProbeSuccess : Obligations.UnpackedFilesProbeSuccess := by
  unfold Obligations.UnpackedFilesProbeSuccess
  refine fun s t u verify => ⟨fun ht hu hr => ?_, fun ht hu hr => ?_, fun hu hbad => ?_, fun hu hbad => ?_⟩
  · cases hu
    cases exec_end ht with | mmcmpUnpack _ _ _ he => exact mmProbeVerdict_of_headerOk (he.headerOk_of_result hr)
  · cases hu
    cases exec_end ht with | pp20Unpack _ _ _ he => exact ppProbeVerdict_of_headerOk (he.headerOk_of_result hr)
  · cases hu
    exact verdict_of_bad (mmProbeVerdict_eq _ _) hbad
  · cases hu
    exact verdict_of_bad (ppProbeVerdict_eq _) hbad

/-! ## The header decides (R106, R121) -/

section
variable {s : State}

theorem mmcmpUnpack_of_badHeader (verify : Bool)
    (h : ¬(24 ≤ s.src.bytes.length ∧ mmHeaderValid s.params s.src.bytes = true)) :
    exec (.mmcmpUnpack verify) s = .next (failUnpack .failure (dropOut s)) :=
  if_pos (Bool.eq_false_iff.2 (mt mmHeaderOk_iff.1 h))

theorem pp20Unpack_of_badHeader (verify : Bool)
    (h : ¬(8 ≤ s.src.bytes.length ∧ ppHeaderValid s.src.bytes = true)) :
    exec (.pp20Unpack verify) s = .next (failUnpack .failure (dropOut s)) :=
  if_pos (Bool.eq_false_iff.2 (mt ppHeaderOk_iff.1 h))

theorem mmcmpUnpack_verified (h : 24 ≤ s.src.bytes.length ∧ mmHeaderValid s.params s.src.bytes = true) :
    exec (.mmcmpUnpack true) s = .next (complete 1 { dropOut s with mmu := mmLoadHeader s.src.bytes s.mmu }) :=
  if_neg ((Bool.not_eq_false _).mpr (mmHeaderOk_iff.2 h))

theorem pp20Unpack_verified (h : 8 ≤ s.src.bytes.length ∧ ppHeaderValid s.src.bytes = true) :
    exec (.pp20Unpack true) s = .next (complete 1 (dropOut s)) :=
  if_neg ((Bool.not_eq_false _).mpr (ppHeaderOk_iff.2 h))

end

/-- Settles O38: the header test alone decides how a verify-only unpack ends. -/
theorem verifyOnlyUnpackAnswersForTheHeader : Obligations.VerifyOnlyUnpackAnswersForTheHeader := by
  unfold Obligations.VerifyOnlyUnpackAnswersForTheHeader
  refine fun s => ⟨⟨mmLoadHeader s.src.bytes s.mmu, ?_, le16At_toNat _ _, le16At_toNat _ _, le32At_toNat _ _,
    le32At_toNat _ _, rfl, rfl⟩, ?_⟩
  · split
    · exact mmcmpUnpack_verified ‹_›
    · exact mmcmpUnpack_of_badHeader true ‹_›
  · split
    · exact pp20Unpack_verified ‹_›
    · exact pp20Unpack_of_badHeader true ‹_›

/-! ## The checks before the allocation (R107, R122) -/

section
variable {s t : State}

theorem MmEnd.eq_of_checks_fail (he : MmEnd s false t) (hh : mmHeaderOk s.params s.src.bytes = true)
    (hc : mmChecksPass s.params s.src.bytes = false) :
    t = failUnpack .failure { dropOut s with mmu := mmLoadHeader s.src.bytes s.mmu } := by
  cases he with
  | badHeader hbad => rw [hh] at hbad; cases hbad
  | verified _ hv => cases hv
  | badSize => rfl
  | noSpace _ _ _ hc' | unpacked _ _ _ hc' | failed _ _ _ hc' => rw [hc] at hc'; cases hc'

theorem PpEnd.eq_of_checks_fail (he : PpEnd s false t) (hh : ppHeaderOk s.src.bytes = true)
    (hc : ppChecksPass s.params s.src.bytes = false) :
    ∃ u, t = failUnpack .failure { dropOut s with ppu := u } ∧
      (ppLengthFails s.params s.src.bytes = false → u = ppLoadLen s.src.bytes s.ppu) := by
  cases he with
  | badHeader hbad => rw [hh] at hbad; cases hbad
  | verified _ hv => cases hv
  | badSize u _ _ _ hu =>
    refine ⟨u, rfl, fun hl => hu.resolve_left fun ⟨_, hl'⟩ => ?_⟩
    rw [hl] at hl'
    cases hl'
  | noSpace _ _ _ hc' | unpacked _ _ _ hc' | failed _ _ _ hc' => rw [hc] at hc'; cases hc'

theorem ppLengthFails_eq_false {p : Params} {bytes : List Byte} (hl : 12 ≤ bytes.length)
    (he : p.pp20RequireEven = false ∨ bytes.length % 2 = 0) : ppLengthFails p bytes = false := by
  have hlen : ¬bytes.length < 12 := by omega
  rcases he with he | he <;> simp [ppLengthFails, hlen, he]

end

/-- Settles O39: a failed header test, or a failed check after it, leaves one way to end, and no answer is used. -/
theorem checksBeforeAllocFailTheUnpack : Obligations.ChecksBeforeAllocFailTheUnpack := by
  unfold Obligations.ChecksBeforeAllocFailTheUnpack
  refine fun s => ⟨mmcmpUnpack_of_badHeader false, pp20Unpack_of_badHeader false, fun hl hv hc => ?_,
    fun hl hv hc => ?_⟩
  · obtain ⟨t, ht, he⟩ := execMmcmpUnpack_end s false
    refine ⟨t, ht, ?_⟩
    rw [he.eq_of_checks_fail (mmHeaderOk_of_valid hl hv) hc]
    exact ⟨rfl, rfl, rfl, rfl, rfl⟩
  · obtain ⟨t, ht, he⟩ := execPp20Unpack_end s false
    obtain ⟨u, rfl, hu⟩ := he.eq_of_checks_fail (ppHeaderOk_of_valid hl hv) hc
    refine ⟨_, ht, rfl, rfl, rfl, rfl, rfl, fun h12 heven => ?_⟩
    rw [failUnpack_ppu, hu (ppLengthFails_eq_false h12 heven)]
    exact be24At_toNat _ _

end Sys2Proof.Machine
end

section
/-! Proofs: what `PP20.PROBE` answers, what a back-reference copies, and that a file unpacks under
`PP20_UNDERRUN = RepeatLowest` (43_pp20.md R119, R121, R124, R126, R127). A reader that reads byte 4 again is one of a
source that holds more copies of it, so what is known of regions that hold their tokens carries over. -/
namespace Sys2Proof.Machine

/-! ## The probe (R119) -/

/-- Settles O36: the header test in numbers is the machine's. -/
theorem pp20ProbeVerdict : Obligations.Pp20ProbeVerdict := by
  unfold Obligations.Pp20ProbeVerdict
  intro s
  rw [← ppProbeVerdict_eq]
  rfl

/-! ## Back-references (R126, R127) -/

/-- The byte a copy writes next: the one `offset + 1` above it, or 0 above the buffer. -/
def ppCopyByte (offset : Nat) (r : PpRun) : Byte :=
  if r.pp.left + offset < r.pp.dstLen.toNat then outRead r.out (r.pp.left + offset) else 0

theorem ppCopy_of_store {offset k : Nat} {r r1 : PpRun}
    (h : ppStore (r.pp.left - 1) (ppCopyByte offset r) r = .ok r1) :
    ppCopy offset (k + 1) r = ppCopy offset k (ppDown r1) := by
  unfold ppCopyByte at h
  simp only [ppCopy, h]

/-- A copy writes one byte, then copies the others below it. -/
theorem ppCopy_succ {offset k : Nat} {r : PpRun} (h : r.pp.left - 1 < r.out.size) :
    ∃ out, outWrite r.out (r.pp.left - 1) (ppCopyByte offset r) = .ok out ∧
      ppCopy offset (k + 1) r = ppCopy offset k ⟨{ r.pp with left := r.pp.left - 1 }, out⟩ :=
  ⟨_, outWrite_of_lt _ h, ppCopy_of_store (ppStore_of_lt h)⟩

/-- Each byte is copied from where the buffer will not change any more. -/
theorem ppCopy_copies (offset : Nat) : ∀ (count : Nat) (r : PpRun), r.out.Sound → r.out.size = r.pp.dstLen.toNat →
    r.pp.left ≤ r.pp.dstLen.toNat → count ≤ r.pp.left →
    ∃ r', ppCopy offset count r = .ok r' ∧ r'.pp = { r.pp with left := r.pp.left - count } ∧
      ∀ a, outRead r'.out a =
        if r.pp.left - count ≤ a ∧ a < r.pp.left then
          (if a + 1 + offset < r.pp.dstLen.toNat then outRead r'.out (a + 1 + offset) else 0)
        else outRead r.out a
  | 0, r, _, _, _, _ => ⟨r, rfl, rfl, fun a => (if_neg (by omega)).symm⟩
  | k + 1, r, ho, hsize, hleft, hk => by
    obtain ⟨out, hout, hrun⟩ := ppCopy_succ (offset := offset) (k := k) (r := r) (by omega)
    obtain ⟨ho1, hsize1, hwrite⟩ := outWrite_spec hout ho
    obtain ⟨r', he, hpp, hread⟩ := ppCopy_copies offset k ⟨{ r.pp with left := r.pp.left - 1 }, out⟩ ho1
      (hsize1.trans hsize) (by show r.pp.left - 1 ≤ r.pp.dstLen.toNat; omega) (by show k ≤ r.pp.left - 1; omega)
    simp only [hwrite, Nat.sub_sub, Nat.add_comm 1 k] at hpp hread
    have habove : ∀ a, r.pp.left ≤ a → outRead r'.out a = outRead r.out a := fun a ha => by
      rw [hread, if_neg (by omega), if_neg (by omega)]
    refine ⟨r', hrun.trans he, hpp, fun a => ?_⟩
    by_cases ha : a = r.pp.left - 1
    · rw [hread, if_neg (by omega), if_pos ha, if_pos (by omega), show a + 1 + offset = r.pp.left + offset by omega,
        habove _ (Nat.le_add_right _ _)]
      rfl
    · rw [hread, if_neg ha]
      exact if_congr (by omega) rfl rfl

/-- Settles O48: the bits of a back-reference lead to its copy, and the copy is described byte by byte. -/
theorem matchCopiesTheBytesAbove : Obligations.MatchCopiesTheBytesAbove := by
  unfold Obligations.MatchCopiesTheBytesAbove
  refine ⟨fun p bytes m rest r h8 hok hb => ?_, ppCopy_copies⟩
  rcases ppMatch_ends (missing := []) (p := p) (fun h => absurd rfl h) h8 hok (by rw [List.append_nil]; exact hb) with
    ⟨hne, -⟩ | ⟨r1, ⟨hreads, hrest⟩, hrun⟩
  · exact absurd rfl hne
  · rw [List.append_nil] at hrest
    exact ⟨r1, hrun, hreads.bitCnt_le, hrest, hreads.out, hreads.frame⟩

/-! ## A source with more copies of byte 4 (R124) -/

/-- The source with `k` more copies of byte 4 below its region; bytes 0 to 3 are copies of it too, so that every address
below the region reads alike. -/
def withCopies (k : Nat) (bytes : List Byte) : List Byte :=
  List.replicate (4 + k) (byteAt bytes 4) ++ bytes.drop 4

/-- A run over `withCopies k bytes` as one over `bytes`: its reader's address is lower by `k`, or that of byte 4 once it
is among the copies. -/
def PpRun.lower (k : Nat) (r : PpRun) : PpRun := { r with pp := { r.pp with lo := 4, p := max 4 (r.pp.p - k) } }

theorem byteAt_withCopies (k : Nat) (bytes : List Byte) (a : Nat) :
    byteAt (withCopies k bytes) a = byteAt bytes (max 4 (a - k)) := by
  simp only [withCopies, byteAt, List.getD_eq_getElem?_getD, List.getElem?_append, List.length_replicate]
  by_cases ha : a < 4 + k
  · rw [if_pos ha, List.getElem?_replicate, if_pos ha, show max 4 (a - k) = 4 by omega]
    rfl
  · rw [if_neg ha, List.getElem?_drop, show 4 + (a - (4 + k)) = max 4 (a - k) by omega]

theorem withCopies_length {k : Nat} {bytes : List Byte} (h : 8 ≤ bytes.length) :
    (withCopies k bytes).length = k + bytes.length := by
  rw [withCopies, List.length_append, List.length_replicate, List.length_drop]
  omega

theorem regionBits_withCopies {k : Nat} {bytes : List Byte} (h : 8 ≤ bytes.length) :
    regionBits (withCopies k bytes) = regionBits bytes ++ bitsOfBytes (List.replicate k (byteAt bytes 4)) := by
  have hdrop : (withCopies k bytes).drop 4 = List.replicate k (byteAt bytes 4) ++ bytes.drop 4 := by
    rw [withCopies, List.replicate_add, List.append_assoc, List.drop_left' List.length_replicate]
  have hlen : (withCopies k bytes).length - 8 = k + (bytes.length - 8) := by
    rw [withCopies_length h]
    omega
  rw [regionBits, hdrop, hlen, List.take_append, List.length_replicate, Nat.add_sub_cancel_left,
    List.take_of_length_le (by simp), List.reverse_append, List.reverse_replicate, bitsOfBytes_append, regionBits]

section
variable {k a : Nat} {bytes : List Byte} {r s : PpRun}

@[simp] theorem PpRun.lower_left : (r.lower k).pp.left = r.pp.left := rfl
@[simp] theorem PpRun.lower_bitCnt : (r.lower k).pp.bitCnt = r.pp.bitCnt := rfl
@[simp] theorem PpRun.lower_out : (r.lower k).out = r.out := rfl
@[simp] theorem ppMode_lower : ppMode (r.lower k).pp = ppMode r.pp := rfl
@[simp] theorem ppDown_lower : ppDown (r.lower k) = (ppDown r).lower k := rfl
@[simp] theorem ppShift_lower : ppShift (r.lower k) = ((ppShift r).1, (ppShift r).2.lower k) := rfl

@[simp] theorem ppWide_lower (wide : Nat) : ppWide (r.lower k).pp wide = ppWide r.pp wide := by
  rw [ppWide, ppMode_lower, ← ppWide]

theorem ppLoad_lower (bytes : List Byte) (k a : Nat) (r : PpRun) :
    (ppLoad (withCopies k bytes) a r).lower k = ppLoad bytes (max 4 (a - k)) (r.lower k) := by
  simp only [PpRun.lower, ppLoad, byteAt_withCopies]

/-! What writes does not look at the reader (R127). -/

theorem ppStore_lower {b : Byte} (h : ppStore a b r = .ok s) : ppStore a b (r.lower k) = .ok (s.lower k) := by
  unfold ppStore at h
  split at h
  · cases h
  · rename_i hw
    cases h
    simp only [ppStore, PpRun.lower_out, hw]
    rfl

theorem ppCopy_lower {offset n : Nat} (h : ppCopy offset n r = .ok s) :
    ppCopy offset n (r.lower k) = .ok (s.lower k) := by
  induction n generalizing r with
  | zero => cases h; rfl
  | succ n ih =>
    simp only [ppCopy] at h
    split at h
    · cases h
    · rename_i hw
      exact (ppCopy_of_store (ppStore_lower hw)).trans (ih h)

end

/-! ## The decoding with and without the copies (R121 to R126)

The reader of the source with copies underruns only below them, where it fails; the other reader is where `PpRun.lower`
puts it. So each step that ends well with the copies ends as well without them. -/

section
variable {p p' : Params} {bytes : List Byte} {k n v acc count bits limit : Nat} {r s : PpRun}
variable (hu : p.pp20Underrun = .repeatLowest) (hu' : p'.pp20Underrun = .fail)
include hu hu'

/-- While the one reader is among the copies, the other reads byte 4 again. -/
theorem ppFetch_lower (h : ppFetch p' (withCopies k bytes) r = .ok s) :
    ppFetch p bytes (r.lower k) = .ok (s.lower k) := by
  simp only [ppFetch, hu'] at h
  split at h
  case isFalse => cases h
  cases h
  rw [ppLoad_lower]
  simp only [ppFetch, hu]
  split
  · rename_i hlt
    simp only [PpRun.lower] at hlt ⊢
    congr 2
    omega
  · rename_i hle
    simp only [PpRun.lower] at hle ⊢
    congr 2
    omega

theorem ppBit_lower (h : ppBit p' (withCopies k bytes) r = .ok (v, s)) :
    ppBit p bytes (r.lower k) = .ok (v, s.lower k) := by
  unfold ppBit at h
  split at h
  case isFalse h0 =>
    rw [Except.ok.injEq] at h
    simp only [ppBit, PpRun.lower_bitCnt, if_neg h0, ppShift_lower, h]
  case isTrue h0 =>
    split at h
    · cases h
    · rename_i hf
      rw [Except.ok.injEq] at h
      simp only [ppBit, PpRun.lower_bitCnt, if_pos h0, ppFetch_lower hu hu' hf, ppShift_lower, h]

theorem ppBitsFrom_lower (h : ppBitsFrom p' (withCopies k bytes) n acc r = .ok (v, s)) :
    ppBitsFrom p bytes n acc (r.lower k) = .ok (v, s.lower k) := by
  induction n generalizing acc r with
  | zero => cases h; rfl
  | succ n ih =>
    unfold ppBitsFrom at h
    split at h
    · cases h
    · rename_i hb
      simp only [ppBitsFrom, ppBit_lower hu hu' hb, ih h]

theorem ppBits_lower (h : ppBits p' (withCopies k bytes) n r = .ok (v, s)) :
    ppBits p bytes n (r.lower k) = .ok (v, s.lower k) :=
  ppBitsFrom_lower hu hu' h

theorem ppSkip_lower (h : ppSkip p' (withCopies k bytes) n r = .ok s) :
    ppSkip p bytes n (r.lower k) = .ok (s.lower k) := by
  induction n generalizing r with
  | zero => cases h; rfl
  | succ n ih =>
    unfold ppSkip at h
    split at h
    · cases h
    · rename_i hb
      simp only [ppSkip, ppBits_lower hu hu' hb, ih h]

theorem ppCount_lower (h : ppCount p' (withCopies k bytes) bits limit n count r = .ok (v, s)) :
    ppCount p bytes bits limit n count (r.lower k) = .ok (v, s.lower k) := by
  induction n generalizing count r with
  | zero =>
    unfold ppCount at h ⊢
    split at h <;> cases h
    exact if_neg ‹_›
  | succ n ih =>
    unfold ppCount at h ⊢
    split at h
    case isFalse hl =>
      cases h
      exact if_neg hl
    case isTrue hl =>
      rw [if_pos hl]
      split at h
      · cases h
      · rename_i hb
        rw [ppBits_lower hu hu' hb]
        split at h
        case isTrue hc =>
          cases h
          exact if_pos hc
        case isFalse hc => exact (if_neg hc).trans (ih h)

theorem ppLiterals_lower (h : ppLiterals p' (withCopies k bytes) n r = .ok s) :
    ppLiterals p bytes n (r.lower k) = .ok (s.lower k) := by
  induction n generalizing r with
  | zero => cases h; rfl
  | succ n ih =>
    unfold ppLiterals at h
    split at h
    · cases h
    rename_i hb
    split at h
    · cases h
    rename_i hw
    simp only [ppLiterals, ppDown_lower, ppBits_lower hu hu' hb, PpRun.lower_left, ppStore_lower hw, ih h]

theorem ppLiteralRun_lower (h : ppLiteralRun p' (withCopies k bytes) r = .ok s) :
    ppLiteralRun p bytes (r.lower k) = .ok (s.lower k) := by
  unfold ppLiteralRun at h
  split at h
  · cases h
  rename_i hc
  simp only [ppLiteralRun, PpRun.lower_left, ppCount_lower hu hu' hc, ppLiterals_lower hu hu' h]

theorem ppMatchLong_lower (h : ppMatchLong p' (withCopies k bytes) r = .ok s) :
    ppMatchLong p bytes (r.lower k) = .ok (s.lower k) := by
  unfold ppMatchLong at h
  split at h
  · cases h
  rename_i hflag
  split at h
  · cases h
  rename_i hoffset
  split at h
  · cases h
  rename_i hcount
  simp only [ppMatchLong, ppBits_lower hu hu' hflag, ppWide_lower, ppBits_lower hu hu' hoffset, PpRun.lower_left,
    ppCount_lower hu hu' hcount, ppCopy_lower h]

theorem ppMatch_lower (h : ppMatch p' (withCopies k bytes) r = .ok s) :
    ppMatch p bytes (r.lower k) = .ok (s.lower k) := by
  unfold ppMatch at h
  split at h
  · cases h
  rename_i hidx
  split at h
  case isTrue h3 => simp only [ppMatch, ppBits_lower hu hu' hidx, if_pos h3, ppMatchLong_lower hu hu' h]
  case isFalse h3 =>
    split at h
    · cases h
    rename_i hoffset
    simp only [ppMatch, ppBits_lower hu hu' hidx, if_neg h3, ppMode_lower, ppBits_lower hu hu' hoffset,
      PpRun.lower_left, ppCopy_lower h]

theorem ppPass_lower (h : ppPass p' (withCopies k bytes) r = .ok s) : ppPass p bytes (r.lower k) = .ok (s.lower k) := by
  unfold ppPass at h
  split at h
  · cases h
  rename_i hflag
  split at h
  case isFalse h1 => simp only [ppPass, ppBits_lower hu hu' hflag, if_neg h1, ppMatch_lower hu hu' h]
  case isTrue h0 =>
    split at h
    · cases h
    rename_i hrun
    simp only [ppPass, ppBits_lower hu hu' hflag, if_pos h0, ppLiteralRun_lower hu hu' hrun, PpRun.lower_left]
    split at h
    case isTrue hdone =>
      cases h
      exact if_pos hdone
    case isFalse hmore => exact (if_neg hmore).trans (ppMatch_lower hu hu' h)

theorem ppLoop_lower (h : ppLoop p' (withCopies k bytes) n r = .ok s) :
    ppLoop p bytes n (r.lower k) = .ok (s.lower k) := by
  induction n generalizing r with
  | zero =>
    unfold ppLoop at h ⊢
    split at h <;> cases h
    exact if_pos ‹_›
  | succ n ih =>
    unfold ppLoop at h ⊢
    rw [PpRun.lower_left]
    split at h
    case isTrue hdone =>
      cases h
      exact if_pos hdone
    case isFalse hmore =>
      rw [if_neg hmore]
      split at h
      · cases h
      · rename_i hpass
        rw [ppPass_lower hu hu' hpass]
        exact ih h

end

/-! ## Files under `RepeatLowest` (R121, R124) -/

section
variable {s : State} {tokens : List PpToken} {skip rest : List Bool} {k n : Nat}

/-- The run a file with the copies is decoded from: that of the file, with the reader above the copies. -/
def ppCopiesRun (k : Nat) (s : State) : PpRun :=
  { ppFirstRun s with pp := { (ppFirstRun s).pp with p := (withCopies k s.src.bytes).length - 4 } }

theorem ppCopiesRun_lower (h : 8 ≤ s.src.bytes.length) : (ppCopiesRun k s).lower k = ppFirstRun s := by
  have hp : max 4 ((withCopies k s.src.bytes).length - 4 - k) = s.src.bytes.length - 4 := by
    rw [withCopies_length h]
    omega
  simp only [PpRun.lower, ppCopiesRun, hp]
  rfl

theorem ppCopiesRun_at (h : 8 ≤ s.src.bytes.length) (hn : be24Nat s.src.bytes (s.src.bytes.length - 4) = n) :
    PpAt (withCopies k s.src.bytes) [] n (fileModes s.src.bytes) []
      (regionBits s.src.bytes ++ bitsOfBytes (List.replicate k (byteAt s.src.bytes 4))) (ppCopiesRun k s) := by
  obtain ⟨⟨hout, hsize, hleft, hbits⟩, hlen, hmodes, hholds, -⟩ := ppFirstRun_at (missing := []) h hn
  refine ⟨⟨hout, hsize, hleft, hbits⟩, hlen, hmodes, hholds, ?_⟩
  rw [List.append_nil, ← regionBits_withCopies h,
    ← reverseBits_ppInit (ppLoadLen s.src.bytes s.ppu) (by rw [withCopies_length h]; omega)]
  rfl

/-- The tokens that the region and copies of byte 4 hold are what is written. -/
theorem ppDecode_repeatLowest (hu : s.params.pp20Underrun = .repeatLowest) (hl : 8 ≤ s.src.bytes.length)
    (hn : be24Nat s.src.bytes (s.src.bytes.length - 4) = n)
    (hskip : (byteAt s.src.bytes (s.src.bytes.length - 1)).toNat = skip.length)
    (hok : tokensOk (fileModes s.src.bytes) false n tokens = true)
    (hb : regionBits s.src.bytes ++ bitsOfBytes (List.replicate k (byteAt s.src.bytes 4)) =
      skip ++ (tokensBits (fileModes s.src.bytes) false tokens ++ rest)) :
    ∃ r, ppDecode s.params s.src.bytes (ppFirstRun s) = .ok r ∧ PpHolds n (tokensOut n [] tokens) r ∧
      r.pp.left = 0 := by
  have h := ppCopiesRun_at (k := k) hl hn
  have hfail : ({ s.params with pp20Underrun := .fail } : Params).pp20Underrun = .fail := rfl
  rcases ppSkip_ends (fun _ => hfail) h.inv.bitCnt (h.bits.trans hb) with ⟨hne, -⟩ | ⟨r1, hskipped, hmove⟩
  · exact absurd rfl hne
  have h1 := h.moves hmove
  have hleft : r1.pp.left = n := h1.holds.1
  rcases ppLoop_ends (fun _ => hfail) (le_refl _) ⟨[], tokens, h1, by rw [hleft]; exact hok, rfl⟩ with
    ⟨hne, -⟩ | ⟨r2, hloop, hat, h0⟩
  · exact absurd rfl hne
  refine ⟨r2.lower k, ?_, hat.holds, h0⟩
  rw [← ppCopiesRun_lower (k := k) hl, ppDecode, hskip, ppSkip_lower hu hfail hskipped]
  exact ppLoop_lower hu hfail hloop

/-- Only an underrun under `Fail` fails past the checks. -/
theorem execPp20Unpack_repeatLowest (hu : s.params.pp20Underrun = .repeatLowest) (hl : 8 ≤ s.src.bytes.length)
    (hv : ppHeaderValid s.src.bytes = true) (hc : ppChecksPass s.params s.src.bytes = true) (ha : s.allocSucceeds) :
    ∃ r, ppDecode s.params s.src.bytes (ppFirstRun s) = .ok r ∧
      r.out.size = be24Nat s.src.bytes (s.src.bytes.length - 4) ∧
      exec (.pp20Unpack false) s =
        .next (complete 1 { ppPutBack r { dropOut s with allocAnswers := s.allocAnswers.tail } with
          outLen := be24Nat s.src.bytes (s.src.bytes.length - 4)
          outValid := true }) := by
  obtain ⟨t, ht, hd⟩ := execPp20Unpack_decoded hl hv hc ha
  have hpost : PpPost s.params (ppFirstRun s) id _ (ppDecode s.params s.src.bytes (ppFirstRun s)) :=
    ppDecode_post (ppInit_inv s.src.bytes (ppLoadLen s.src.bytes s.ppu))
  cases hd with
  | unpacked r hrun =>
    rw [hrun] at hpost
    obtain ⟨hinv, hstays, -⟩ := hpost
    have hlen : r.pp.dstLen.toNat = be24Nat s.src.bytes (s.src.bytes.length - 4) :=
      (congrArg BitVec.toNat hstays.dstLen).trans (be24At_toNat _ _)
    exact ⟨r, hrun, hinv.size.trans hlen, ht⟩
  | failed r hrun =>
    rw [hrun] at hpost
    obtain ⟨-, -, hfail⟩ := hpost
    rw [hu] at hfail
    cases hfail

end

/-- Settles O49: no underrun fails, so the decoding ends well; what it writes is read off the source with copies of byte
4, whose region holds the tokens to their end. -/
theorem pp20UnpackCompletesUnderRepeatLowest : Obligations.Pp20UnpackCompletesUnderRepeatLowest := by
  unfold Obligations.Pp20UnpackCompletesUnderRepeatLowest
  refine ⟨fun s hu hl hv hc ha => ?_, fun s tokens skip rest k n hu hl hv hc ha hn hskip hok hb => ?_⟩
  · obtain ⟨r, -, hsize, ht⟩ := execPp20Unpack_repeatLowest hu hl hv hc ha
    exact ⟨_, r.out, ht, rfl, rfl, rfl, rfl, hsize, rfl, rfl⟩
  · obtain ⟨r, hrun, hsize, ht⟩ := execPp20Unpack_repeatLowest hu hl hv hc ha
    obtain ⟨r', hrun', ⟨hlen, hread⟩, h0⟩ :=
      ppDecode_repeatLowest hu hl hn hskip hok (hb.trans (List.append_assoc _ _ _))
    obtain rfl : r = r' := Except.ok.inj (hrun.symm.trans hrun')
    rw [h0, Nat.zero_add] at hlen
    refine ⟨_, r.out, ht, rfl, rfl, rfl, rfl, hsize.trans hn, hn, rfl, fun i hi => ?_⟩
    rw [← hread i (by omega), h0, Nat.zero_add]

end Sys2Proof.Machine
end

section
/-! Proofs: how every unpack ends, and when a command is refused (60_exceptions.md R129, R132, R134). Both are read off
the ways a command can end. -/
namespace Sys2Proof.Machine

/-! ## Every unpack ends (R117, R128, R132) -/

/-- The two ways an unpack may end: completed, or failed for one of its two reasons (R129, R132). -/
def UnpackOutcome (verify : Bool) (t : State) : Prop :=
  t.code = .ok ∧ t.result = 1 ∧ t.outValid = !verify ∨
    (t.code = .failure ∨ t.code = .resource) ∧ t.result = 0 ∧ t.outValid = false

section
variable {s t : State} {verify : Bool}

theorem UnpackOutcome.code_ne_refused (h : UnpackOutcome verify t) : t.code ≠ .refused := by
  rcases h with ⟨hc, -⟩ | ⟨hc | hc, -⟩ <;> (rw [hc]; nofun)

theorem MmEnd.outcome (he : MmEnd s verify t) : UnpackOutcome verify t := by
  cases he with
  | verified _ hv | unpacked _ _ hv => subst hv; exact .inl ⟨rfl, rfl, rfl⟩
  | badHeader | badSize | failed => exact .inr ⟨.inl rfl, rfl, rfl⟩
  | noSpace => exact .inr ⟨.inr rfl, rfl, rfl⟩

theorem PpEnd.outcome (he : PpEnd s verify t) : UnpackOutcome verify t := by
  cases he with
  | verified _ hv | unpacked _ _ hv => subst hv; exact .inl ⟨rfl, rfl, rfl⟩
  | badHeader | badSize | failed => exact .inr ⟨.inl rfl, rfl, rfl⟩
  | noSpace => exact .inr ⟨.inr rfl, rfl, rfl⟩

/-- The decoding keeps the size the buffer was allocated with (R108). -/
theorem MmEnd.output (he : MmEnd s verify t) (ho : t.outValid = true) :
    ∃ o, t.out = some o ∧ o.size = t.outLen ∧ t.outLen = le32Nat s.src.bytes 14 := by
  cases he with
  | unpacked r _ _ _ _ hinv hsize =>
    exact ⟨r.out, rfl, hinv.size.trans (congrArg BitVec.toNat hsize), le32At_toNat _ _⟩
  | badHeader | verified | badSize | noSpace | failed => cases ho

/-- The decoding keeps the size the buffer was allocated with (R121, R122). -/
theorem PpEnd.output (he : PpEnd s verify t) (ho : t.outValid = true) :
    ∃ o, t.out = some o ∧ o.size = t.outLen ∧ t.outLen = be24Nat s.src.bytes (s.src.bytes.length - 4) := by
  cases he with
  | unpacked r _ _ _ _ hinv _ hsize =>
    exact ⟨r.out, rfl, hinv.size.trans (congrArg BitVec.toNat hsize), be24At_toNat _ _⟩
  | badHeader | verified | badSize | noSpace | failed => cases ho

/-- The oracle is asked once whether it allows the buffer or not (R39). -/
theorem MmEnd.allocAnswers (he : MmEnd s false t) (hh : mmHeaderOk s.params s.src.bytes = true)
    (hc : mmChecksPass s.params s.src.bytes = true) : t.allocAnswers = s.allocAnswers.tail := by
  cases he with
  | badHeader hbad => rw [hh] at hbad; cases hbad
  | verified _ hv => cases hv
  | badSize _ _ hbad => rw [hc] at hbad; cases hbad
  | noSpace _ _ _ _ ha => rw [ha]; rfl
  | unpacked | failed => rfl

/-- The oracle is asked once whether it allows the buffer or not (R39). -/
theorem PpEnd.allocAnswers (he : PpEnd s false t) (hh : ppHeaderOk s.src.bytes = true)
    (hc : ppChecksPass s.params s.src.bytes = true) : t.allocAnswers = s.allocAnswers.tail := by
  cases he with
  | badHeader hbad => rw [hh] at hbad; cases hbad
  | verified _ hv => cases hv
  | badSize _ _ _ hbad => rw [hc] at hbad; cases hbad
  | noSpace _ _ _ _ ha => rw [ha]; rfl
  | unpacked | failed => rfl

end

/-- Settles O41: each unpack ends in a way that says its outcome, its output and what it asked of the oracle. -/
theorem unpackAlwaysEnds : Obligations.UnpackAlwaysEnds := by
  unfold Obligations.UnpackAlwaysEnds
  refine fun s verify => ⟨?_, ?_⟩
  · obtain ⟨t, ht, he⟩ := execMmcmpUnpack_end s verify
    refine ⟨t, ht, he.outcome, he.output, fun hv hl hh hc => ?_⟩
    subst hv
    exact he.allocAnswers (mmHeaderOk_of_valid hl hh) hc
  · obtain ⟨t, ht, he⟩ := execPp20Unpack_end s verify
    refine ⟨t, ht, he.outcome, he.output, fun hv hl hh hc => ?_⟩
    subst hv
    exact he.allocAnswers (ppHeaderOk_of_valid hl hh) hc

/-! ## Refusal (R134) -/

/-- Refused exactly for `cause`, and then with no other effect than the code. -/
def RefusedExactlyFor (cause : Prop) (s t : State) : Prop :=
  (t.code = .refused ↔ cause) ∧ (t.code = .refused → t = refuse s)

section
variable {s t : State} {cause : Prop}

theorem RefusedExactlyFor.of_refuse (h : cause) : RefusedExactlyFor cause s (refuse s) :=
  ⟨iff_of_true rfl h, fun _ => rfl⟩

theorem RefusedExactlyFor.of_code_ne (hc : t.code ≠ .refused) (h : ¬cause) : RefusedExactlyFor cause s t :=
  ⟨iff_of_false hc h, fun hr => absurd hr hc⟩

theorem brBound_ne_false {src : ByteSource} (hb : s.brSource = some src) : s.brBound ≠ false := fun h => by
  rw [(brSource_eq_none s).2 h] at hb
  cases hb

theorem ReadbitsEnd.refused_exactly {n : BitVec 6} (he : ReadbitsEnd s n t) :
    RefusedExactlyFor (s.brBound = false ∨ 32 < n.toNat) s t := by
  cases he with
  | refused h => exact .of_refuse h
  | read _ _ _ _ hb hn | short _ _ _ hb hn =>
    exact .of_code_ne nofun (not_or_intro (brBound_ne_false hb) (Nat.not_lt.2 hn))

theorem GetposEnd.refused_exactly (he : GetposEnd s t) : RefusedExactlyFor (s.brBound = false) s t := by
  cases he with
  | refused h => exact .of_refuse h
  | position _ hb => exact .of_code_ne nofun (brBound_ne_false hb)

theorem ItEnd.refused_exactly {is215 is16 : Bool} (he : ItEnd is215 is16 s (.next t)) :
    RefusedExactlyFor (s.itChannels = 0) s t := by
  cases he with
  | refused h => exact .of_refuse h
  | decoded _ hc => exact .of_code_ne nofun hc

end

/-- Settles O53: the commands with a cause of refusal one by one; a probe, a bind and an unpack end with another code. -/
theorem refusedCommandHasNoOtherEffect : Obligations.RefusedCommandHasNoOtherEffect := by
  unfold Obligations.RefusedCommandHasNoOtherEffect
  intro i s t ht
  cases exec_end ht with
  | brReadbits _ _ _ he => exact he.refused_exactly
  | brGetpos _ _ he => exact he.refused_exactly
  | itDecode _ _ _ _ he => exact he.refused_exactly
  | brBind | mmcmpProbe | pp20Probe => exact RefusedExactlyFor.of_code_ne nofun id
  | mmcmpUnpack _ _ _ he => exact RefusedExactlyFor.of_code_ne he.outcome.code_ne_refused id
  | pp20Unpack _ _ _ he => exact RefusedExactlyFor.of_code_ne he.outcome.code_ne_refused id

end Sys2Proof.Machine
end

section
/-! Proofs: the idle block and a source newly presented (70_reset_and_hazards.md R143, R148). -/
namespace Sys2Proof.Machine

theorem step_of_idle {s : State} (h : s.script = []) : step s = .next s := by
  unfold step
  rw [h]

/-- Settles O7: an empty script has no action to take. -/
theorem idleStepChangesNothing : Obligations.IdleStepChangesNothing := by
  unfold Obligations.IdleStepChangesNothing
  exact fun _ => step_of_idle

/-- What `BR_SRC` refers to once another source stands on `SRC`: a source it shared with `SRC` is now its own. -/
def State.detachedSrc (s : State) : BrSource :=
  match s.brSrc with
  | .unbound => .unbound
  | .presented => .detached s.src
  | .detached src => .detached src

theorem hostPresent_of_lt {bytes : List Byte} (h : bytes.length < 2 ^ 32) (s : State) :
    hostPresent bytes s = .next { s with src := ⟨bytes, 0⟩, brSrc := s.detachedSrc } := if_neg (Nat.not_le.2 h)

theorem brSource_of_presented (s : State) (src : ByteSource) :
    ({ s with src := src, brSrc := s.detachedSrc } : State).brSource = s.brSource := by
  unfold State.brSource State.detachedSrc
  cases s.brSrc <;> rfl

theorem brBound_of_presented (s : State) (src : ByteSource) :
    ({ s with src := src, brSrc := s.detachedSrc } : State).brBound = s.brBound := by
  unfold State.brBound State.detachedSrc
  cases s.brSrc <;> rfl

/-- Settles O11: the unit's reference moves off `SRC`, and no other field but `SRC` changes. -/
theorem presentDoesNotRebind : Obligations.PresentDoesNotRebind := by
  unfold Obligations.PresentDoesNotRebind
  intro s bytes rest hs hlen
  exact ⟨_, (step_of_script hs).trans (hostPresent_of_lt hlen _), rfl, brSource_of_presented { s with script := rest } _,
    brBound_of_presented { s with script := rest } _, rfl⟩

end Sys2Proof.Machine
end

section
/-! Proofs: no result depends on the registers a unit was left with (70_reset_and_hazards.md R142, R144). Every unit
writes a register before it reads it. So each level of a unit's loops has a function that forgets what the level does
not read of a run (`forgetChannel`, `forgetBlock`, `forgetCodes`), and what the level answers, viewed as the level above
views it, factors through that function. These facts compose along the loops, up to `State.forgetUnits` and the step. -/
namespace Sys2Proof.Machine

/-! ## How an answer is viewed -/

section
variable {σ τ ρ υ ε δ : Type}

/-- An answer, viewed through `f` when it is a run and through `g` when it is a stop. -/
def viewed (f : σ → τ) (g : ε → δ) : Except ε σ → Except δ τ
  | .ok r => .ok (f r)
  | .error e => .error (g e)

theorem viewed_viewed (f : τ → υ) (g : δ → ρ) (f' : σ → τ) (g' : ε → δ) (x : Except ε σ) :
    viewed f g (viewed f' g' x) = viewed (f ∘ f') (g ∘ g') x := by cases x <;> rfl

/-- What does not depend on what `forget` forgets. -/
theorem factorsThrough_of_forget {G : σ → τ} {forget : σ → σ} (h : ∀ r, G (forget r) = G r) :
    G.FactorsThrough forget := fun a b hab => (h a).symm.trans ((congrArg G hab).trans (h b))

variable {f : σ → τ} {f' : ρ → υ} {g : ε → δ} {x y : Except ε σ}

/-- Two answers that look the same, followed by a step whose answer factors through the view. -/
theorem viewed_bind {next : σ → Except ε ρ} (hnext : (fun r => viewed f' g (next r)).FactorsThrough f)
    (h : viewed f g x = viewed f g y) : viewed f' g (x.bind next) = viewed f' g (y.bind next) := by
  match x, y, h with
  | .ok _, .ok _, h => exact hnext (Except.ok.inj h)
  | .error _, .error _, h => exact congrArg Except.error (Except.error.inj h)

/-- Viewed through less, two answers that look the same still do. -/
theorem viewed_mono {f' : σ → υ} (hf : f'.FactorsThrough f) (h : viewed f g x = viewed f g y) :
    viewed f' g x = viewed f' g y := by
  match x, y, h with
  | .ok _, .ok _, h => exact congrArg Except.ok (hf (Except.ok.inj h))
  | .error _, .error _, h => exact congrArg Except.error (Except.error.inj h)

/-- The same for a turn of a loop and the loop after it. -/
theorem viewed_afterTurn {next : σ → Except ε σ} {x y : Except ε (LoopControl × σ)}
    (hnext : (fun r => viewed f g (next r)).FactorsThrough f)
    (h : viewed (Prod.map id f) g x = viewed (Prod.map id f) g y) :
    viewed f g (afterTurn next x) = viewed f g (afterTurn next y) := by
  match x, y, h with
  | .error _, .error _, h => exact congrArg Except.error (Except.error.inj h)
  | .ok (c, r), .ok (c', r'), h =>
    obtain ⟨rfl, hr⟩ := Prod.mk.inj (Except.ok.inj h)
    cases c with
    | endBlock => exact congrArg Except.ok hr
    | again => exact hnext hr

end

/-! ## The ITD (41_it_decompress.md R84 to R89) -/

/-- What a channel reads of a run: the operands latched at the start. -/
def ItRun.forgetChannel (r : ItRun) : ItRun :=
  { r with itd := { Itd.reset 0 with is215 := r.itd.is215, is16 := r.itd.is16, c := r.itd.c, l := r.itd.l } }

theorem ItRun.src_factors : ItRun.src.FactorsThrough ItRun.forgetChannel := factorsThrough_of_forget fun _ => rfl

theorem ItRun.smp_factors : ItRun.smp.FactorsThrough ItRun.forgetChannel := factorsThrough_of_forget fun _ => rfl

/-- What a turn of the block loop reads of a run: not the registers of the block before, the integrators among them
where a block clears them. -/
def ItRun.forgetBlock (p : Params) (r : ItRun) : ItRun :=
  { r with itd := { r.itd with
      curLen := 0
      blkSize := 0
      width := 0
      mem1 := if p.itMemReset = .perBlock then 0 else r.itd.mem1
      mem2 := if p.itMemReset = .perBlock then 0 else r.itd.mem2
      br := PrivateReader.unbound 0 } }

section
variable {p : Params}

theorem ItRun.forgetChannel_factors : ItRun.forgetChannel.FactorsThrough (ItRun.forgetBlock p) :=
  factorsThrough_of_forget fun _ => rfl

theorem ItRun.forgetBlock_src (r : ItRun) : (r.forgetBlock p).src = r.src := rfl

theorem ItRun.forgetBlock_forgetBlock (r : ItRun) : (r.forgetBlock p).forgetBlock p = r.forgetBlock p := by
  unfold ItRun.forgetBlock
  cases p.itMemReset <;> rfl

/-- A header reads the source alone, and one with a block sets every register the block reads and a turn does not. -/
theorem itBlockHeader_forgetBlock (r : ItRun) :
    (itBlockHeader p (r.forgetBlock p)).1 = (itBlockHeader p r).1 ∧
      (itBlockHeader p (r.forgetBlock p)).2.forgetBlock p = (itBlockHeader p r).2.forgetBlock p ∧
      ((itBlockHeader p r).1 = true →
        (itBlockHeader p (r.forgetBlock p)).2.itd.blkSize = (itBlockHeader p r).2.itd.blkSize ∧
        ((itBlockHeader p r).2.itd.blkSize ≠ 0 →
          itDecodeBlock p (itBlockHeader p (r.forgetBlock p)).2 = itDecodeBlock p (itBlockHeader p r).2)) := by
  unfold itBlockHeader
  rw [ItRun.forgetBlock_src]
  by_cases hcan : srcCanRead r.src 2 = true
  · simp only [if_pos hcan]
    generalize le16 ((srcRead r.src 2).1.getD 0 0) ((srcRead r.src 2).1.getD 1 0) = size
    by_cases hz : size = 0
    · simp only [if_pos hz]
      unfold ItRun.forgetBlock
      cases p.itMemReset <;> exact ⟨trivial, rfl, fun _ => ⟨trivial, fun hne => absurd hz hne⟩⟩
    · simp only [if_neg hz]
      unfold ItRun.forgetBlock
      cases p.itMemReset <;> exact ⟨trivial, rfl, fun _ => ⟨rfl, fun _ => rfl⟩⟩
  · simp only [if_neg hcan]
    unfold ItRun.forgetBlock
    cases p.itMemReset <;> exact ⟨trivial, rfl, nofun⟩

theorem itBlockTurn_forgetBlock (r : ItRun) :
    viewed (Prod.map id (ItRun.forgetBlock p)) id (itBlockTurn p (r.forgetBlock p)) =
      viewed (Prod.map id (ItRun.forgetBlock p)) id (itBlockTurn p r) := by
  by_cases hmore : r.itd.written < r.itd.l.toNat ∧ r.itd.chanOver = false
  · obtain ⟨hhas, hrun, hread⟩ := itBlockHeader_forgetBlock (p := p) r
    have hmore' : (r.forgetBlock p).itd.written < (r.forgetBlock p).itd.l.toNat ∧
        (r.forgetBlock p).itd.chanOver = false := hmore
    unfold itBlockTurn
    rw [if_pos hmore, if_pos hmore']
    rcases h : itBlockHeader p r with ⟨has, r1⟩
    rcases h' : itBlockHeader p (r.forgetBlock p) with ⟨has', r1'⟩
    simp only [h, h'] at hhas hrun hread
    subst hhas
    cases has' with
    | false => simp only [viewed, Prod.map, hrun]
    | true =>
      obtain ⟨hsize, hdecode⟩ := hread rfl
      by_cases hz : r1.itd.blkSize = 0
      · simp only [hsize, if_pos hz, viewed, Prod.map, hrun]
      · simp only [hsize, if_neg hz, hdecode hz]
  · rw [itBlockTurn_of_done hmore, itBlockTurn_of_done (r := r.forgetBlock p) hmore, viewed, viewed, Prod.map,
      Prod.map, ItRun.forgetBlock_forgetBlock]

theorem itBlockTurn_factors : (fun r => viewed (Prod.map id (ItRun.forgetBlock p)) id (itBlockTurn p r)).FactorsThrough
    (ItRun.forgetBlock p) := factorsThrough_of_forget itBlockTurn_forgetBlock

theorem itBlocks_factors : ∀ k : Nat, (fun r => viewed (ItRun.forgetBlock p) id (itBlocks p k r)).FactorsThrough
    (ItRun.forgetBlock p)
  | 0 => fun _ _ _ => rfl
  | k + 1 => fun r r' h => by
    simp only [itBlocks_succ]
    exact viewed_afterTurn (itBlocks_factors k) (itBlockTurn_factors h)

/-- `ChannelStart()` sets every register the first turn reads but the operands. -/
theorem itChannelStart_factors (chn : Nat) :
    (fun r => (itChannelStart p chn r).forgetBlock p).FactorsThrough ItRun.forgetChannel :=
  factorsThrough_of_forget fun r => by
    simp only [itChannelStart_run, ItRun.forgetBlock]
    cases p.itMemReset <;> rfl

theorem itChannel_factors (chn : Nat) :
    (fun r => viewed ItRun.forgetChannel id (itChannel p chn r)).FactorsThrough ItRun.forgetChannel := fun r r' h => by
  simp only [itChannel, ItRun.src_factors h]
  exact viewed_mono ItRun.forgetChannel_factors (itBlocks_factors _ (itChannelStart_factors chn h))

theorem itChannels_succ (k chn : Nat) (r : ItRun) :
    itChannels p (k + 1) chn r = (itChannel p chn r).bind (itChannels p k (chn + 1)) := by
  unfold itChannels
  cases itChannel p chn r <;> rfl

theorem itChannels_factors : ∀ k chn : Nat,
    (fun r => viewed ItRun.forgetChannel id (itChannels p k chn r)).FactorsThrough ItRun.forgetChannel
  | 0, _ => fun _ _ h => congrArg Except.ok h
  | k + 1, chn => fun r r' h => by
    simp only [itChannels_succ]
    exact viewed_bind (itChannels_factors k (chn + 1)) (itChannel_factors chn h)

end

/-- How `IT.DECODE` ends, from the answer of its channels (R84). -/
def itOutcome (s : State) : Except Fault ItRun → Host.Outcome State Fault Refusal
  | .ok r => .next (itFinish r s)
  | .error f => .fault f

theorem execItDecode_of_no_channels {s : State} (h : s.itChannels = 0) (is215 is16 : Bool) :
    execItDecode is215 is16 s = .next (refuse s) := if_pos h

theorem execItDecode_of_channels {s : State} (h : s.itChannels ≠ 0) (is215 is16 : Bool) :
    execItDecode is215 is16 s = itOutcome s (itChannels s.params s.itChannels.toNat 0 (itStart is215 is16 s)) := by
  unfold execItDecode
  rw [if_neg h]
  cases itChannels s.params s.itChannels.toNat 0 (itStart is215 is16 s) <;> rfl

theorem itOutcome_factors (s : State) {x y : Except Fault ItRun}
    (h : viewed ItRun.forgetChannel id x = viewed ItRun.forgetChannel id y) :
    forgetOutcome (itOutcome s.forgetUnits x) = forgetOutcome (itOutcome s y) := by
  match x, y, h with
  | .error _, .error _, h => exact congrArg Host.Outcome.fault (Except.error.inj h)
  | .ok r, .ok r', h =>
    have hr := Except.ok.inj h
    simp only [itOutcome, itFinish, ItRun.src_factors hr, ItRun.smp_factors hr]
    rfl

theorem execItDecode_forgetUnits (is215 is16 : Bool) (s : State) :
    forgetOutcome (execItDecode is215 is16 s.forgetUnits) = forgetOutcome (execItDecode is215 is16 s) := by
  by_cases hc : s.itChannels = 0
  · rw [execItDecode_of_no_channels hc, execItDecode_of_no_channels (s := s.forgetUnits) hc]
    rfl
  · rw [execItDecode_of_channels hc, execItDecode_of_channels (s := s.forgetUnits) hc]
    exact itOutcome_factors s (itChannels_factors _ _ rfl)

/-! ## The MMU (42_mmcmp.md R106 to R112) -/

/-- What `DecodeBlock` reads of a run: the file header's fields. -/
def MmRun.forgetBlock (r : MmRun) : MmRun :=
  { mm := { Mmu.reset 0 with
      version := r.mm.version
      nblocks := r.mm.nblocks
      filesize := r.mm.filesize
      blkTable := r.mm.blkTable
      glbComp := r.mm.glbComp
      fmtComp := r.mm.fmtComp }
    out := r.out
    pos := 0
    size := 0 }

/-- The run with the block's number (R106). -/
def MmRun.atBlock (b : Nat) (r : MmRun) : MmRun := { r with mm := { r.mm with blk := b } }

/-- What a loaded block reads of a run: not the registers of the code loop, which a packed block sets and a raw block
does not use. -/
def MmRun.forgetCodes (r : MmRun) : MmRun :=
  { mm := { r.mm with
      table := []
      codeWidth := 0
      oldVal := 0
      subIdx := 0
      dwPos := 0
      br := PrivateReader.unbound 0 }
    out := r.out
    pos := 0
    size := 0 }

/-- Of a failed run only the buffer is left to see (60_exceptions.md R132). -/
def Stop.out : Stop MmRun → Stop OutBuf
  | .fail r => .fail r.out
  | .fault f => .fault f

theorem MmRun.out_factors : MmRun.out.FactorsThrough MmRun.forgetBlock := factorsThrough_of_forget fun _ => rfl

theorem MmRun.forgetBlock_factors : MmRun.forgetBlock.FactorsThrough MmRun.forgetCodes :=
  factorsThrough_of_forget fun _ => rfl

section
variable {p : Params} {bytes : List Byte}

/-- The run with the range of sub-block `i` of a raw block (R110). -/
def MmRun.inSub (i : Nat) (r : MmRun) : MmRun :=
  { r with pos := (r.mm.sub.getD i ⟨0, 0⟩).pos.toNat, size := subBytes false (r.mm.sub.getD i ⟨0, 0⟩) }

section
variable {i : Nat} {r : MmRun} (hfits : SubFits false r.mm.filesize.toNat (r.mm.sub.getD i ⟨0, 0⟩))
include hfits

theorem mmRawSub_of_short (h : bytes.length < r.mm.memPos + (r.inSub i).size) :
    mmRawSub bytes i r = .error (.fail (r.inSub i)) := by
  unfold mmRawSub
  rw [mmSubRange_of_fits hfits]
  exact if_pos h

theorem mmRawSub_of_data (h : ¬ bytes.length < r.mm.memPos + (r.inSub i).size) :
    mmRawSub bytes i r =
      viewed (fun out => { r.inSub i with out := out, mm := { r.mm with memPos := r.mm.memPos + (r.inSub i).size } })
        Stop.fault (outWriteAll (memRead bytes r.mm.memPos (r.inSub i).size) (r.inSub i).pos r.out) := by
  unfold mmRawSub
  rw [mmSubRange_of_fits hfits]
  refine (if_neg h).trans ?_
  simp only [MmRun.inSub]
  generalize outWriteAll _ _ _ = written
  cases written <;> rfl

end

theorem mmRawSub_forgetCodes (i : Nat) (r : MmRun) :
    viewed MmRun.forgetCodes Stop.out (mmRawSub bytes i r.forgetCodes) =
      viewed MmRun.forgetCodes Stop.out (mmRawSub bytes i r) := by
  by_cases hfits : SubFits false r.mm.filesize.toNat (r.mm.sub.getD i ⟨0, 0⟩)
  · by_cases hdata : bytes.length < r.mm.memPos + (r.inSub i).size
    · rw [mmRawSub_of_short hfits hdata, mmRawSub_of_short (r := r.forgetCodes) hfits hdata]
      rfl
    · rw [mmRawSub_of_data hfits hdata, mmRawSub_of_data (r := r.forgetCodes) hfits hdata, viewed_viewed,
        viewed_viewed]
      rfl
  · simp only [mmRawSub, mmSubRange_of_not_fits hfits, mmSubRange_of_not_fits (r := r.forgetCodes) hfits]
    rfl

theorem mmRawSub_factors (i : Nat) :
    (fun r => viewed MmRun.forgetCodes Stop.out (mmRawSub bytes i r)).FactorsThrough MmRun.forgetCodes :=
  factorsThrough_of_forget (mmRawSub_forgetCodes i)

theorem mmRawBlock_succ (k i : Nat) (r : MmRun) :
    mmRawBlock bytes (k + 1) i r = (mmRawSub bytes i r).bind (mmRawBlock bytes k (i + 1)) := by
  unfold mmRawBlock
  cases mmRawSub bytes i r <;> rfl

theorem mmRawBlock_factors : ∀ k i : Nat,
    (fun r => viewed MmRun.forgetCodes Stop.out (mmRawBlock bytes k i r)).FactorsThrough MmRun.forgetCodes
  | 0, _ => fun _ _ h => congrArg Except.ok h
  | k + 1, i => fun r r' h => by
    simp only [mmRawBlock_succ]
    exact viewed_bind (mmRawBlock_factors k (i + 1)) (mmRawSub_factors i h)

/-- A packed block that passes its checks runs its codes. -/
theorem mmPackedBlock_eq_mmCodes {r : MmRun} (h : mmPackedBad bytes r.mm = false)
    (hfits : SubFits (flag16Bit r.mm.flags) r.mm.filesize.toNat (r.mm.sub.getD 0 ⟨0, 0⟩)) :
    mmPackedBlock p bytes r =
      mmCodes p (flag16Bit r.mm.flags) (8 * (mmView bytes r.mm).length + 1) (mmPackedRun p bytes r) := by
  unfold mmPackedBlock
  rw [if_neg (by simp [h]), mmSubRange_of_fits (r := { r with mm := mmPackedStart p bytes r.mm }) hfits]
  rfl

/-- The first code is read from a run whose registers are all set by the block. -/
theorem mmPackedBlock_forgetCodes (r : MmRun) :
    viewed MmRun.forgetBlock Stop.out (mmPackedBlock p bytes r.forgetCodes) =
      viewed MmRun.forgetBlock Stop.out (mmPackedBlock p bytes r) := by
  cases hbad : mmPackedBad bytes r.mm
  · by_cases hfits : SubFits (flag16Bit r.mm.flags) r.mm.filesize.toNat (r.mm.sub.getD 0 ⟨0, 0⟩)
    · rw [mmPackedBlock_eq_mmCodes hbad hfits, mmPackedBlock_eq_mmCodes (r := r.forgetCodes) hbad hfits]
      rfl
    · obtain ⟨r1, h1, hout1⟩ := mmPackedBlock_of_not_fits (p := p) hbad hfits
      obtain ⟨r2, h2, hout2⟩ := mmPackedBlock_of_not_fits (p := p) (r := r.forgetCodes) hbad hfits
      rw [h1, h2, viewed, viewed, Stop.out, Stop.out, hout1, hout2]
      rfl
  · rw [mmPackedBlock_of_bad hbad, mmPackedBlock_of_bad (r := r.forgetCodes) hbad]
    rfl

theorem mmPackedBlock_factors :
    (fun r => viewed MmRun.forgetBlock Stop.out (mmPackedBlock p bytes r)).FactorsThrough MmRun.forgetCodes :=
  factorsThrough_of_forget mmPackedBlock_forgetCodes

/-- The block's number, header and sub-block table are set before any of them is read. -/
theorem mmDecodeBlock_forgetBlock (b : Nat) (r : MmRun) :
    viewed MmRun.forgetBlock Stop.out (mmDecodeBlock p bytes b (r.forgetBlock.atBlock b)) =
      viewed MmRun.forgetBlock Stop.out (mmDecodeBlock p bytes b (r.atBlock b)) := by
  obtain ⟨entry, hentry⟩ : ∃ entry, entry = r.mm.blkTable.toNat + 4 * b := ⟨_, rfl⟩
  obtain ⟨blk, hblk⟩ : ∃ blk, blk = le32Nat bytes entry := ⟨_, rfl⟩
  obtain ⟨n, hn⟩ : ∃ n, n = le16Nat bytes (blk + 12) := ⟨_, rfl⟩
  by_cases hshort : bytes.length < entry + 4 ∨ bytes.length ≤ blk + 20 + 8 * n
  · obtain ⟨r1, h1, hout1⟩ := mmDecodeBlock_of_short (p := p) (r := r.atBlock b) hentry hblk hn hshort
    obtain ⟨r2, h2, hout2⟩ := mmDecodeBlock_of_short (p := p) (r := r.forgetBlock.atBlock b) hentry hblk hn hshort
    rw [h1, h2, viewed, viewed, Stop.out, Stop.out, hout1, hout2]
    rfl
  · rw [not_or, Nat.not_lt, Nat.not_le] at hshort
    obtain ⟨he, hd⟩ := hshort
    rw [mmDecodeBlock_of_loaded (r := r.atBlock b) hentry hblk hn he hd,
      mmDecodeBlock_of_loaded (r := r.forgetBlock.atBlock b) hentry hblk hn he hd]
    split
    · exact mmPackedBlock_factors rfl
    · exact viewed_mono MmRun.forgetBlock_factors (mmRawBlock_factors n 0 rfl)

theorem mmDecodeBlock_factors (b : Nat) :
    (fun r : MmRun => viewed MmRun.forgetBlock Stop.out (mmDecodeBlock p bytes b (r.atBlock b))).FactorsThrough
      MmRun.forgetBlock := factorsThrough_of_forget (mmDecodeBlock_forgetBlock b)

theorem mmBlocks_succ (k b : Nat) (r : MmRun) :
    mmBlocks p bytes (k + 1) b r = (mmDecodeBlock p bytes b (r.atBlock b)).bind (mmBlocks p bytes k (b + 1)) := by
  unfold mmBlocks MmRun.atBlock
  cases mmDecodeBlock p bytes b { r with mm := { r.mm with blk := b } } <;> rfl

theorem mmBlocks_factors : ∀ k b : Nat,
    (fun r => viewed MmRun.forgetBlock Stop.out (mmBlocks p bytes k b r)).FactorsThrough MmRun.forgetBlock
  | 0, _ => fun _ _ h => congrArg Except.ok h
  | k + 1, b => fun r r' h => by
    simp only [mmBlocks_succ]
    exact viewed_bind (mmBlocks_factors k (b + 1)) (mmDecodeBlock_factors b h)

end

theorem mmPutBack_forgetUnits (r : MmRun) (s : State) :
    (mmPutBack r s).forgetUnits = { s.forgetUnits with out := some r.out } := rfl

theorem mmPutBack_factors {s t : State} (hs : s.forgetUnits = t.forgetUnits) {r r' : MmRun} (hout : r.out = r'.out) :
    (mmPutBack r s).forgetUnits = (mmPutBack r' t).forgetUnits := by
  rw [mmPutBack_forgetUnits, mmPutBack_forgetUnits, hs, hout]

/-- The end of an unpack keeps of the run its buffer alone. -/
theorem mmFinish_factors (n : Nat) {s t : State} (hs : s.forgetUnits = t.forgetUnits) {x y : Except (Stop MmRun) MmRun}
    (h : viewed MmRun.forgetBlock Stop.out x = viewed MmRun.forgetBlock Stop.out y) :
    forgetOutcome (mmFinish n s x) = forgetOutcome (mmFinish n t y) := by
  match x, y, h with
  | .ok _, .ok _, h =>
    exact congrArg (fun u : State => Host.Outcome.next (complete 1 { u with outLen := n, outValid := true }))
      (mmPutBack_factors hs (MmRun.out_factors (Except.ok.inj h)))
  | .error (.fail _), .error (.fail _), h =>
    exact congrArg (fun u => Host.Outcome.next (failUnpack .failure u))
      (mmPutBack_factors hs (Stop.fail.inj (Except.error.inj h)))
  | .error (.fault _), .error (.fault _), h =>
    exact congrArg Host.Outcome.fault (Stop.fault.inj (Except.error.inj h))

theorem execMmcmpUnpack_forgetUnits (verify : Bool) (s : State) :
    forgetOutcome (execMmcmpUnpack verify s.forgetUnits) = forgetOutcome (execMmcmpUnpack verify s) := by
  unfold execMmcmpUnpack
  simp only [State.forgetUnits_params, State.forgetUnits_src, mmPreAllocFails_eq, askAlloc_eq, dropOut_allocAnswers,
    State.forgetUnits_allocAnswers]
  split -- the header
  · rfl
  split -- `VERIFY`
  · rfl
  split -- the checks before the allocation
  · rfl
  split -- the allocation
  · rfl
  · exact mmFinish_factors _ (by rfl) (mmBlocks_factors (le16At s.src.bytes 12).toNat 0 (by rfl))

/-! ## The PPU (43_pp20.md R121 to R123) -/

/-- `ReaderInit()` and the length's load before it set every register of the PPU. -/
theorem ppInit_ppLoadLen (bytes : List Byte) (u u' : Ppu) :
    ppInit bytes (ppLoadLen bytes u) = ppInit bytes (ppLoadLen bytes u') := rfl

theorem ppPutBack_forgetUnits (r : PpRun) (s : State) :
    (ppPutBack r s).forgetUnits = { s.forgetUnits with out := some r.out } := rfl

theorem ppFinish_factors (n : Nat) {s t : State} (hs : s.forgetUnits = t.forgetUnits)
    (x : Except (Stop PpRun) PpRun) : forgetOutcome (ppFinish n s x) = forgetOutcome (ppFinish n t x) := by
  have hput : ∀ r, (ppPutBack r s).forgetUnits = (ppPutBack r t).forgetUnits := fun r => by
    rw [ppPutBack_forgetUnits, ppPutBack_forgetUnits, hs]
  match x with
  | .ok r =>
    exact congrArg (fun u : State => Host.Outcome.next (complete 1 { u with outLen := n, outValid := true })) (hput r)
  | .error (.fail r) => exact congrArg (fun u => Host.Outcome.next (failUnpack .failure u)) (hput r)
  | .error (.fault _) => rfl

theorem execPp20Unpack_forgetUnits (verify : Bool) (s : State) :
    forgetOutcome (execPp20Unpack verify s.forgetUnits) = forgetOutcome (execPp20Unpack verify s) := by
  unfold execPp20Unpack
  have hsize : ∀ u, ppSizeFails s.params s.src.bytes (ppLoadLen s.src.bytes u) =
      ppSizeFails s.params s.src.bytes (ppLoadLen s.src.bytes s.ppu) := fun _ => rfl
  simp only [State.forgetUnits_params, State.forgetUnits_src, hsize s.forgetUnits.ppu, askAlloc_eq,
    dropOut_allocAnswers, State.forgetUnits_allocAnswers]
  split -- the header
  · rfl
  split -- `VERIFY`
  · rfl
  split -- the length of the source
  · rfl
  split -- the declared length
  · rfl
  split -- the allocation
  · rfl
  · rw [ppInit_ppLoadLen _ _ s.ppu]
    exact ppFinish_factors _ (by rfl) _

/-! ## The BR unit (40_bitreader.md R81 to R83) -/

theorem State.brSource_forgetUnits (s : State) : s.forgetUnits.brSource = s.brSource := rfl

theorem State.setBr_forgetUnits (s : State) (rd : Reader) (src : ByteSource) :
    s.forgetUnits.setBr rd src = (s.setBr rd src).forgetUnits := by
  unfold State.setBr State.setBrSource
  rw [State.forgetUnits_brSrc]
  cases s.brSrc <;> rfl

theorem execBrReadbits_forgetUnits (n : BitVec 6) (s : State) :
    forgetOutcome (execBrReadbits n s.forgetUnits) = forgetOutcome (execBrReadbits n s) := by
  unfold execBrReadbits
  simp only [State.brSource_forgetUnits, State.setBr_forgetUnits, State.forgetUnits_params, State.forgetUnits_br]
  cases s.brSource with
  | none => rfl
  | some src =>
    simp only
    split
    · rfl
    · split <;> rfl

theorem execBrGetpos_forgetUnits (s : State) :
    forgetOutcome (execBrGetpos s.forgetUnits) = forgetOutcome (execBrGetpos s) := by
  unfold execBrGetpos
  rw [State.brSource_forgetUnits]
  cases s.brSource <;> rfl

/-! ## Every command, every step -/

theorem exec_forgetUnits (i : Instr) (s : State) : forgetOutcome (exec i s.forgetUnits) = forgetOutcome (exec i s) := by
  cases i with
  | brBind => rfl
  | brReadbits n => exact execBrReadbits_forgetUnits n s
  | brGetpos => exact execBrGetpos_forgetUnits s
  | itDecode is215 is16 => exact execItDecode_forgetUnits is215 is16 s
  | mmcmpProbe => rfl
  | mmcmpUnpack verify => exact execMmcmpUnpack_forgetUnits verify s
  | pp20Probe => rfl
  | pp20Unpack verify => exact execPp20Unpack_forgetUnits verify s

theorem runCommand_forgetUnits (w : Word) (s : State) :
    forgetOutcome (runCommand w s.forgetUnits) = forgetOutcome (runCommand w s) := by
  unfold runCommand
  cases decode w with
  | ok i => exact exec_forgetUnits i { s with cmd := w }
  | error e => rfl

theorem hostAct_forgetUnits (a : HostAction) (s : State) :
    forgetOutcome (hostAct a s.forgetUnits) = forgetOutcome (hostAct a s) := by
  cases a with
  | write offset v =>
    by_cases hcmd : offset = 0
    · subst hcmd
      exact runCommand_forgetUnits v s
    · simp only [hostAct, hostWrite_of_ne_cmd hcmd, writeReg_fields]
      rfl
  | present bytes =>
    unfold hostAct hostPresent
    simp only
    split <;> rfl
  | read | seek | skipBack | attach | reset => rfl

theorem step_forgetUnits (s : State) : forgetOutcome (step s.forgetUnits) = forgetOutcome (step s) := by
  cases hs : s.script with
  | nil =>
    rw [step_of_idle hs, step_of_idle (s := s.forgetUnits) hs]
    rfl
  | cons a rest =>
    rw [step_of_script hs, step_of_script (s := s.forgetUnits) hs]
    exact hostAct_forgetUnits a { s with script := rest }

/-- Settles O60: a step from a state and one from it with the units' registers forgotten look the same. -/
theorem unitRegistersAreNeverRead : Obligations.UnitRegistersAreNeverRead := by
  unfold Obligations.UnitRegistersAreNeverRead
  exact fun _ _ h => factorsThrough_of_forget (G := fun s => forgetOutcome (step s)) step_forgetUnits h

end Sys2Proof.Machine
end

section
/-! Proofs: what every step keeps of the buffers and of the status (20_memory.md R36, R38; 60_exceptions.md R132), the
two stops of a step (R136), and the position of the BR unit wherever its cursor has been moved (40_bitreader.md R79). -/
namespace Sys2Proof.Machine

theorem hostPresent_of_ge {bytes : List Byte} (h : 2 ^ 32 ≤ bytes.length) (s : State) :
    hostPresent bytes s = .fault .sourceTooLong := if_pos h

theorem hostPresent_next {bytes : List Byte} {s t : State} (h : hostPresent bytes s = .next t) :
    t = { s with src := ⟨bytes, 0⟩, brSrc := s.detachedSrc } := by
  rcases Nat.lt_or_ge bytes.length (2 ^ 32) with hlen | hlen
  · rw [hostPresent_of_lt hlen] at h
    exact (Host.Outcome.next.inj h).symm
  · rw [hostPresent_of_ge hlen] at h
    cases h

/-! ## `OUT` and `SMP` keep their form -/

/-- `SMP` unchanged, beside a buffer on `OUT` that is sound if there is one. -/
theorem State.MemorySound.of_out {s t : State} (h : s.MemorySound) (hm : t.smp = s.smp)
    (ho : ∀ o, t.out = some o → o.Sound) : t.MemorySound where
  smp_wf := hm ▸ h.smp_wf
  smp_below := hm ▸ h.smp_below
  out_wf := fun o e => (ho o e).1
  out_below := fun o e => (ho o e).2

theorem State.MemorySound.out_sound {s : State} (h : s.MemorySound) (o : OutBuf) (ho : s.out = some o) : o.Sound :=
  ⟨h.out_wf o ho, h.out_below o ho⟩

theorem State.MemorySound.frame {s t : State} (h : s.MemorySound) (hm : t.smp = s.smp) (ho : t.out = s.out) :
    t.MemorySound := h.of_out hm (ho ▸ h.out_sound)

/-- `SMP` rewritten, beside the same `OUT`. -/
theorem State.MemorySound.of_smp {s t : State} (h : s.MemorySound) (ho : t.out = s.out)
    (hwf : Memory.wf t.smp.cells = true) (hbelow : Memory.below t.smp.len t.smp.cells = true) : t.MemorySound :=
  ⟨hwf, hbelow, ho ▸ h.out_wf, ho ▸ h.out_below⟩

theorem hostAttach_memorySound {s : State} (h : s.MemorySound) (l : List (BitVec 16)) :
    (hostAttach l s).MemorySound :=
  h.of_smp rfl (Memory.ofList_wf l) (by simpa using Memory.ofList_below 0 l)

theorem ReadbitsEnd.memorySound {s t : State} {n : BitVec 6} (he : ReadbitsEnd s n t) (h : s.MemorySound) :
    t.MemorySound := by
  cases he with
  | refused => exact h.frame rfl rfl
  | read | short => exact h.frame (by simp) (by simp)

/-- `IT.DECODE` writes inside the attached buffer alone (R84, R95). -/
theorem ItEnd.memorySound {is215 is16 : Bool} {s t : State} (he : ItEnd is215 is16 s (.next t)) (h : s.MemorySound) :
    t.MemorySound := by
  cases he with
  | refused => exact h.frame rfl rfl
  | decoded r _ _ hk =>
    have hbelow : Memory.below r.smp.len r.smp.cells = true := hk.len ▸ hk.below h.smp_below
    exact h.of_smp rfl (hk.wf h.smp_wf) hbelow

/-- An unpack leaves no buffer, or the one its decoding kept sound (R106, R108). -/
theorem MmEnd.memorySound {s t : State} {verify : Bool} (he : MmEnd s verify t) (h : s.MemorySound) :
    t.MemorySound := by
  cases he with
  | badHeader | verified | badSize | noSpace => exact h.of_out rfl nofun
  | unpacked r _ _ _ _ hinv | failed r _ _ _ _ hinv => exact h.of_out rfl fun o e => Option.some.inj e ▸ hinv.out

/-- An unpack leaves no buffer, or the one its decoding kept sound (R121). -/
theorem PpEnd.memorySound {s t : State} {verify : Bool} (he : PpEnd s verify t) (h : s.MemorySound) :
    t.MemorySound := by
  cases he with
  | badHeader | verified | badSize | noSpace => exact h.of_out rfl nofun
  | unpacked r _ _ _ _ hinv | failed r _ _ _ _ hinv => exact h.of_out rfl fun o e => Option.some.inj e ▸ hinv.out

theorem exec_memorySound {i : Instr} {s t : State} (h : s.MemorySound) (ht : exec i s = .next t) : t.MemorySound := by
  cases exec_end ht with
  | brBind | mmcmpProbe | pp20Probe => exact h.frame rfl rfl
  | brReadbits _ _ _ he => exact he.memorySound h
  | brGetpos _ _ he => cases he <;> exact h.frame rfl rfl
  | itDecode _ _ _ _ he => exact he.memorySound h
  | mmcmpUnpack _ _ _ he => exact he.memorySound h
  | pp20Unpack _ _ _ he => exact he.memorySound h

/-- Settles O55: `IT.DECODE` and `attach` write `SMP`, an unpack and the reset input write `OUT`; nothing else writes
either. -/
theorem stepKeepsMemoriesSound : Obligations.StepKeepsMemoriesSound := by
  unfold Obligations.StepKeepsMemoriesSound
  intro s t hs ht
  refine step_keeps (I := State.MemorySound) ?script ?cmd ?command ?reserved ?write ?read ?present ?seek ?skipBack
    ?attach ?reset hs ht
  case command => exact fun _ _ _ => exec_memorySound
  case attach => exact fun l _ h => hostAttach_memorySound h l
  case reset => exact fun _ h => h.of_out rfl nofun
  case present => exact fun _ _ _ h ht => hostPresent_next ht ▸ h.frame rfl rfl
  case write => exact fun _ _ _ h => writeReg_fields .. ▸ h.frame rfl rfl
  case reserved => exact fun _ h => h.frame rfl rfl
  case script | cmd | read | seek | skipBack => exact fun _ _ h => h.frame rfl rfl

/-! ## `STATUS`, `OUT` and `OUT_LEN` keep agreeing -/

/-- The output unchanged, under the code before or one that no failed unpack reports. -/
theorem State.StatusSound.frame {s t : State} (h : s.StatusSound) (hv : t.outValid = s.outValid) (ho : t.out = s.out)
    (hl : t.outLen = s.outLen) (hc : t.code = s.code ∨ t.code ≠ .failure ∧ t.code ≠ .resource) : t.StatusSound where
  valid := by rw [hv, ho, hl]; exact h.valid
  noLen := by rw [hv, hl]; exact h.noLen
  failed := fun hf => by
    rcases hc with hc | hc
    · rw [hv]
      exact h.failed (hc ▸ hf)
    · exact absurd hf (not_or.2 hc)

theorem State.statusSound_of_no_output {t : State} (hv : t.outValid = false) (hl : t.outLen = 0) : t.StatusSound :=
  ⟨fun h => (Bool.false_ne_true (hv.symm.trans h)).elim, fun _ => hl, fun _ => hv⟩

/-- A valid output of the length `OUT_LEN` says, under the code `OK`. -/
theorem State.statusSound_of_output {t : State} (hv : t.outValid = true) (hc : t.code = .ok)
    (ho : ∃ o, t.out = some o ∧ o.size = t.outLen) : t.StatusSound where
  valid := fun _ => ho.imp fun _ h => ⟨h.1, h.2.symm⟩
  noLen := fun h => (Bool.false_ne_true (h.symm.trans hv)).elim
  failed := by rw [hc]; simp

theorem ReadbitsEnd.statusSound {s t : State} {n : BitVec 6} (he : ReadbitsEnd s n t) (h : s.StatusSound) :
    t.StatusSound := by
  cases he with
  | refused => exact h.frame rfl rfl rfl (.inr ⟨nofun, nofun⟩)
  | read | short => exact h.frame (by simp) (by simp) (by simp) (.inr ⟨nofun, nofun⟩)

/-- An unpack drops the output before it; the one it ends with is valid only at the declared length (R106, R108). -/
theorem MmEnd.statusSound {s t : State} {verify : Bool} (he : MmEnd s verify t) : t.StatusSound := by
  have hout := he.output
  cases he with
  | badHeader | verified | badSize | noSpace | failed => exact State.statusSound_of_no_output rfl rfl
  | unpacked => exact State.statusSound_of_output rfl rfl ((hout rfl).imp fun _ ho => ⟨ho.1, ho.2.1⟩)

/-- An unpack drops the output before it; the one it ends with is valid only at the declared length (R121). -/
theorem PpEnd.statusSound {s t : State} {verify : Bool} (he : PpEnd s verify t) : t.StatusSound := by
  have hout := he.output
  cases he with
  | badHeader | verified | badSize | noSpace | failed => exact State.statusSound_of_no_output rfl rfl
  | unpacked => exact State.statusSound_of_output rfl rfl ((hout rfl).imp fun _ ho => ⟨ho.1, ho.2.1⟩)

theorem exec_statusSound {i : Instr} {s t : State} (h : s.StatusSound) (ht : exec i s = .next t) : t.StatusSound := by
  cases exec_end ht with
  | brBind | mmcmpProbe | pp20Probe => exact h.frame rfl rfl rfl (.inr ⟨nofun, nofun⟩)
  | brReadbits _ _ _ he => exact he.statusSound h
  | brGetpos _ _ he => cases he <;> exact h.frame rfl rfl rfl (.inr ⟨nofun, nofun⟩)
  | itDecode _ _ _ _ he => cases he <;> exact h.frame rfl rfl rfl (.inr ⟨nofun, nofun⟩)
  | mmcmpUnpack _ _ _ he => exact he.statusSound
  | pp20Unpack _ _ _ he => exact he.statusSound

/-- Settles O57: an unpack and the reset input write the output anew; every other command leaves it and ends with a code
of its own, and no other host action touches the output or the code. -/
theorem stepKeepsStatusSound : Obligations.StepKeepsStatusSound := by
  unfold Obligations.StepKeepsStatusSound
  intro s t hs ht
  refine step_keeps (I := State.StatusSound) ?script ?cmd ?command ?reserved ?write ?read ?present ?seek ?skipBack
    ?attach ?reset hs ht
  case command => exact fun _ _ _ => exec_statusSound
  case reserved => exact fun _ h => h.frame rfl rfl rfl (.inr ⟨nofun, nofun⟩)
  case reset => exact fun _ _ => State.statusSound_of_no_output rfl rfl
  case present => exact fun _ _ _ h ht => hostPresent_next ht ▸ h.frame rfl rfl rfl (.inl rfl)
  case write => exact fun _ _ _ h => writeReg_fields .. ▸ h.frame rfl rfl rfl (.inl rfl)
  case script | cmd | read | seek | skipBack | attach => exact fun _ _ h => h.frame rfl rfl rfl (.inl rfl)

/-! ## The two stops of a step (R85, R136) -/

theorem ItEnd.next_or_outside {is215 is16 : Bool} {s : State} {x : Host.Outcome State Fault Refusal}
    (he : ItEnd is215 is16 s x) :
    (∃ t, x = .next t) ∨ x = .fault .smpOutOfRange ∧ s.smp.len < s.itChannels.toNat * s.itLength.toNat := by
  cases he with
  | refused | decoded => exact .inl ⟨_, rfl⟩
  | outside _ hlen => exact .inr ⟨rfl, hlen⟩

/-- Only `IT.DECODE` can stop, at an element that is not attached: the other commands always reach a next state. -/
theorem exec_next_or_outside (i : Instr) (s : State) :
    (∃ t, exec i s = .next t) ∨
      ∃ is215 is16, i = .itDecode is215 is16 ∧ exec i s = .fault .smpOutOfRange ∧
        s.smp.len < s.itChannels.toNat * s.itLength.toNat := by
  cases i with
  | brBind | mmcmpProbe | pp20Probe => exact .inl ⟨_, rfl⟩
  | brReadbits n => exact .inl ((execBrReadbits_end s n).imp fun _ => And.left)
  | brGetpos => exact .inl ((execBrGetpos_end s).imp fun _ => And.left)
  | mmcmpUnpack verify => exact .inl ((execMmcmpUnpack_end s verify).imp fun _ => And.left)
  | pp20Unpack verify => exact .inl ((execPp20Unpack_end s verify).imp fun _ => And.left)
  | itDecode is215 is16 =>
    rcases (execItDecode_end is215 is16 s).next_or_outside with hnext | hstop
    · exact .inl hnext
    · exact .inr ⟨is215, is16, rfl, hstop⟩

theorem runCommand_next_or_outside (w : Word) (s : State) :
    (∃ t, runCommand w s = .next t) ∨
      ∃ is215 is16, decode w = .ok (.itDecode is215 is16) ∧ runCommand w s = .fault .smpOutOfRange ∧
        s.smp.len < s.itChannels.toNat * s.itLength.toNat := by
  cases hd : decode w with
  | error e => exact .inl ⟨_, runCommand_of_reserved hd s⟩
  | ok i =>
    rw [runCommand_of_decode hd]
    rcases exec_next_or_outside i { s with cmd := w } with hnext | ⟨is215, is16, rfl, hstop, hlen⟩
    · exact .inl hnext
    · exact .inr ⟨is215, is16, rfl, hstop, hlen⟩

/-- Settles O54: of the host's actions only a write of `CMD` and a presented source can stop. -/
theorem stepStopsOnBrokenPremisesOnly : Obligations.StepStopsOnBrokenPremisesOnly := by
  unfold Obligations.StepStopsOnBrokenPremisesOnly
  intro s
  cases hs : s.script with
  | nil => exact .inl ⟨s, step_of_idle hs⟩
  | cons a rest =>
    rw [step_of_script hs]
    cases a with
    | read | seek | skipBack | attach | reset => exact .inl ⟨_, rfl⟩
    | present bytes =>
      rcases Nat.lt_or_ge bytes.length (2 ^ 32) with hlen | hlen
      · exact .inl ⟨_, hostPresent_of_lt hlen _⟩
      · exact .inr (.inr ⟨bytes, rest, rfl, hlen, hostPresent_of_ge hlen _⟩)
    | write offset v =>
      by_cases hcmd : offset = 0
      · subst hcmd
        rcases runCommand_next_or_outside v { s with script := rest } with hnext | ⟨is215, is16, hd, hstop, hlen⟩
        · exact .inl hnext
        · exact .inr (.inl ⟨v, rest, is215, is16, rfl, hd, hstop, hlen⟩)
      · exact .inl ⟨_, hostWrite_of_ne_cmd hcmd v _⟩

/-! ## The position of the BR unit (R79, R83) -/

/-- Settles O20: a negative position too enters `RESULT` as its two's complement. -/
theorem getposIsThePositionModulo : Obligations.GetposIsThePositionModulo := by
  unfold Obligations.GetposIsThePositionModulo
  intro s src hb
  refine ⟨_, execBrGetpos_of_bound hb, ?_⟩
  rw [BitVec.toNat_ofInt]
  exact Int.toNat_of_nonneg (Int.emod_nonneg _ (by decide))

end Sys2Proof.Machine
end
